-- ==== Sys2Proof/Word.lean ====
section
/-! DEFINITION. The word types of the EG9 and their plainest arithmetic (spec/03 R45, spec/05 R71). -/

namespace Sys2Proof

/-- A 32-bit word: one register of one thread, one word of code or data (R71). -/
abbrev Word := BitVec 32

/-- A byte of memory or scratchpad. -/
abbrev Byte := BitVec 8

/-- A 64-bit value: an address, a pair of registers, a 64-bit special register. -/
abbrev DWord := BitVec 64

/-- An operand or result of any width up to b128, zero-extended to 128 bits (R46). -/
abbrev Val := BitVec 128

/-- One bit per thread of a sheaf (R9: threads 0 to 15). -/
abbrev Mask := BitVec 16

/-- The threads of a sheaf in ascending order (R9). -/
def threads : List Nat := [0, 1, 2, 3, 4, 5, 6, 7, 8, 9, 10, 11, 12, 13, 14, 15]

/-- The threads whose bit of the mask is 1, in ascending order (R6 `active`). -/
def active (m : Mask) : List Nat := threads.filter fun i => m.getLsbD i

/-- A mask from a predicate on thread numbers. -/
def maskOf (p : Nat → Bool) : Mask :=
  threads.foldl (fun m i => if p i then m ||| (1#16 <<< i) else m) 0#16

end Sys2Proof
end

