-- ==== Sys2Proof/Config.lean ====
section
/-! DEFINITION. What one EG9 fixes and the manual leaves open: opaque constants, of which nothing can be proved
but their type. -/

namespace Sys2Proof.Config

/-- R358, R364, R370: whether a Falcon-1024 signature `sig` over `msg` verifies under `key`.  The manual names the
algorithm and not its arithmetic: a free value (log 13). -/
opaque falconVerifies (key msg sig : List Byte) : Bool

/-- R370: a Falcon-1024 signature by the device's identity key over `msg` (log 13). -/
opaque falconSign (msg : List Byte) : List Byte

/-- R370: the 64-byte SHAKE256 digest of `msg` (log 13). -/
opaque shake256 (msg : List Byte) : BitVec 512

/-- R370: the codes of Falcon-1024 and SHAKE256 in SPDM's extended algorithm fields (log 13). -/
opaque spdmFalcon : BitVec 32
opaque spdmShake : BitVec 32

/-- R370: the device's certificate chain (log 13). -/
opaque certificateChain : List Byte

/-- R364: the commit key installed at manufacture (log 13). -/
opaque factoryKey : List Byte

/-- R364: the device serial number of the identity certificate (log 13). -/
opaque serial : BitVec 64

/-- R358, R370: the firmware images, as measured (log 13). -/
opaque firmware : List Byte

/-- R370: the body of an SPDM 1.2 answer that the manual refers to SPDM for: version, capability and algorithm
fields, by request and its bytes (log 13). -/
opaque spdmBody (code : Nat) (request : List Byte) : List Byte

/-- R370: what an SPDM 1.2 answer holds that the manual does not give: the nonce, by the counter `State.fresh`; its opaque data,
by the request; the value type of a DMTF measurement, by its index; the indices of the trusted computing base (log 13). -/
opaque spdmNonce (n : Nat) : BitVec 256
opaque spdmOpaque (request : List Byte) : List Byte
opaque spdmValueType (index : Nat) : Byte
opaque spdmTcb : List Nat

/-- R84: which 64 bits of a 128-bit result a latch holds is not stated: a free value, by the counter `State.fresh` and
the thread (log 21). -/
opaque freeLatch (n thread : Nat) : BitVec 64

/-- Bytes of other devices or the host that an instruction reads at issue (R331): free values, by the counter
`State.fresh` and the place in the read (log 12). -/
opaque remoteByte (n i : Nat) : Byte

end Sys2Proof.Config
end

