-- ==== Sys2Proof/Syntax.lean ====
section
/-! DEFINITION. The instructions and events of the EG9 as data: one constructor per row of spec/opcode_table.json.
A row that is an instruction carries the fields of its words (R71 to R75); a row that is an event names the agent
concerned and carries what the outside world supplies. -/

namespace Sys2Proof

/-- The fields of an instruction's words (R73, R74, R75).  With no modifier word (`x` false) the modifier fields hold
the values of R74; `lit` is the literal word when one is present. -/
structure Fields where
  u : Bool
  x : Bool
  w : Bool
  a : BitVec 7
  b : BitVec 7
  c : BitVec 7
  gn : Bool
  gi : BitVec 3
  d : BitVec 7
  ty : BitVec 5
  imm : BitVec 16
  lit : Option Word
  deriving DecidableEq, Repr

/-- Who waits for a release (R178): a sheaf, or a queued near-memory call (R292). -/
inductive ReleaseRef
  | sheaf (k : Nat)
  | call (c : Nat)
  deriving DecidableEq, Repr

/-- R249: what the tile words and row state of a core hold when its lattice passes on: of a word left by the same
context, the value or +0. -/
inductive Carry
  | keepAll
  | zeroAll
  | zeroWords (words : List Nat)
  deriving DecidableEq, Repr

/-- One pending memory-side reduction (R190): an element of a row of a SCAT, a thread's element of an RED to a
reduction window, or a packet of a peer. -/
inductive ReductionRef
  | scat (op row elem : Nat)
  | red (op thread : Nat)
  | packet (n : Nat)
  deriving DecidableEq, Repr

/-- R68, R356: what one other member sends to a group's switch: its port and its elements, and whether it agrees on
the count, the type and RF. -/
structure Contribution where
  port : Nat
  elems : List Word
  agrees : Bool
  deriving DecidableEq, Repr

/-- How one segment of an install ends (R299, R302). -/
inductive InstallResult
  | verified
  | programFailure
  | mismatch
  | sourceFault
  deriving DecidableEq, Repr

/-- A frame of 64 KiB named with its tier (R169). -/
structure FrameRef where
  tier : Nat
  peer : Nat
  addr : Nat
  deriving DecidableEq, Repr

/-- A queue of launch records (R332, R333). -/
inductive QueueRef
  | slot (n : Nat)
  | device (ctx : Nat)
  deriving DecidableEq, Repr

/-- A host answer to an address translation request (R350). -/
inductive AtsAnswer
  | none
  | page (target : Nat) (writable : Bool)
  deriving DecidableEq, Repr

/-- What a remote agent asks of this device's memory (R194, R195, R354): a load, a store of bytes, an atomic or
reduction of R207 by its operation and type code, an arrival. -/
inductive RemoteKind
  | load (bytes : Nat)
  | store (bytes : List Byte)
  | atomic (op ty : Nat) (x e : DWord)
  | reduce (op ty : Nat) (x : DWord)
  | arrive (wg off : Nat) (bytes : Word)
  deriving DecidableEq, Repr

/-- One request of the host or of a peer device, and the context whose AXF a reduction's flags go to. -/
structure RemoteRequest where
  host : Bool
  addr : Nat
  ctx : Nat
  kind : RemoteKind
  deriving DecidableEq, Repr

/-- A peer's key-value block request (R267): it carries GBN, HDIM and both element sizes, and reads one token, or none where it
only translates (R272). -/
structure BlockRequest where
  gbn : Nat
  hdim : Nat
  kSize : Nat
  vSize : Nat
  bt : Nat
  value : Bool
  token : Nat
  look : Bool := false
  deriving DecidableEq, Repr

/-- The slot registers of R347 that the host may write. -/
inductive SlotReg
  | ctl
  | rbase
  | rsize
  deriving DecidableEq, Repr

/-- The result of one unit's test in one stage of bring-up (R358, R362): 0 pass, 1 fail, 2 skipped, 3 unconnected. -/
structure UnitResult where
  stage : Nat
  result : Nat
  kind : Nat
  unit : Nat
  detail : DWord
  deriving DecidableEq, Repr

/-- The instructions and events of spec/opcode_table.json, in its order. -/
inductive Instr
  /-- IADD (R103): Integer add, per thread or once, wrapping modulo 2^w or saturating with SAT. -/
  | iadd (f : Fields)
  /-- ISUB (R103): Integer subtract. -/
  | isub (f : Fields)
  /-- IMUL (R103): Integer multiply, low half. -/
  | imul (f : Fields)
  /-- IMULH (R103): Upper half of the double-width integer product. -/
  | imulh (f : Fields)
  /-- IMAD (R103): Integer multiply-add a*b+d. -/
  | imad (f : Fields)
  /-- IDIV (R60): Integer quotient truncated toward zero, with the divide-by-zero rules and the DIVZ trap. -/
  | idiv (f : Fields)
  /-- IREM (R60): Integer remainder with the sign of the dividend. -/
  | irem (f : Fields)
  /-- IMIN (R103): Integer minimum. -/
  | imin (f : Fields)
  /-- IMAX (R103): Integer maximum. -/
  | imax (f : Fields)
  /-- IABS (R103): Integer absolute value. -/
  | iabs (f : Fields)
  /-- INEG (R103): Integer negation. -/
  | ineg (f : Fields)
  /-- ISAD (R103): Sum of absolute difference |a-b|+d. -/
  | isad (f : Fields)
  /-- LEA (R105): Forms a 64-bit address from a base pair plus a shifted, extended index. -/
  | lea (f : Fields)
  /-- IADDC (R104): Add with carry-in and carry-out held in predicates. -/
  | iaddc (f : Fields)
  /-- MOV (R106): Copies a register, pair or group without conversion. -/
  | mov (f : Fields)
  /-- NOP (R106): No operation; occupies a lane or one M-slot clock. -/
  | nop (f : Fields)
  /-- AND (R107): Bitwise AND. -/
  | andI (f : Fields)
  /-- OR (R107): Bitwise OR. -/
  | orI (f : Fields)
  /-- XOR (R107): Bitwise exclusive OR. -/
  | xorI (f : Fields)
  /-- ANDN (R107): a AND NOT b. -/
  | andn (f : Fields)
  /-- NOT (R107): Bitwise NOT. -/
  | notI (f : Fields)
  /-- SHL (R108): Shift left; counts of w or more give 0. -/
  | shl (f : Fields)
  /-- SHR (R108): Logical shift right. -/
  | shr (f : Fields)
  /-- SAR (R108): Arithmetic shift right. -/
  | sar (f : Fields)
  /-- ROT (R108): Left rotate by c mod w. -/
  | rot (f : Fields)
  /-- CLZ (R107): Count of leading zero bits. -/
  | clz (f : Fields)
  /-- POPC (R107): Population count. -/
  | popc (f : Fields)
  /-- BREV (R107): Bit reversal. -/
  | brev (f : Fields)
  /-- BFX (R108): Bit-field extract with sign or zero extension. -/
  | bfx (f : Fields)
  /-- BFI (R108): Bit-field insert into the base held in D. -/
  | bfi (f : Fields)
  /-- PERM (R109): Byte permute of B and D under nibble controls in C. -/
  | perm (f : Fields)
  /-- ISET (R111): Integer compare into a predicate, optionally combined with another predicate. -/
  | iset (f : Fields)
  /-- FSET (R111): Floating-point compare into a predicate with NaN and invalid rules. -/
  | fset (f : Fields)
  /-- SEL (R112): Selects B or C per thread by a predicate. -/
  | sel (f : Fields)
  /-- PLOP (R113): Any three-input predicate function by lookup table. -/
  | plop (f : Fields)
  /-- PMOV (R114): Packs predicates into a register or unpacks register bits into predicates. -/
  | pmov (f : Fields)
  /-- VOTE (R115): Combines a predicate across the sheaf's threads (all, any, ballot, eq). -/
  | vote (f : Fields)
  /-- SHFL (R116): Reads a register from another thread of the sheaf. -/
  | shfl (f : Fields)
  /-- BCAST (R117): Broadcasts one thread's value to the threads of the mask. -/
  | bcast (f : Fields)
  /-- BRK (R118): Raises a precise BRK trap with a code. -/
  | brk (f : Fields)
  /-- BRA (R120): Unconditional PC-relative branch; backward branches count toward the branch swap point. -/
  | bra (f : Fields)
  /-- BRA_EZ (R91): Branch taken when EM is zero (or nonzero), read after every earlier instruction. -/
  | braEz (f : Fields)
  /-- BRX (R121): Jump through an address held in an s pair. -/
  | brx (f : Fields)
  /-- CALL (R122): PC-relative call writing the link to s62:s63. -/
  | call (f : Fields)
  /-- CALL_REG (R122): Call through an address held in an s pair, writing the link to s62:s63. -/
  | callReg (f : Fields)
  /-- RET (R123): Sets PC to the value of its B pair. -/
  | ret (f : Fields)
  /-- EMSAV (R124): Copies EM into an s register. -/
  | emsav (f : Fields)
  /-- EMLD (R124): Loads EM from B ANDed with the live mask. -/
  | emld (f : Fields)
  /-- EMAND (R125): Narrows EM by a per-thread predicate. -/
  | emand (f : Fields)
  /-- WBASE (R126): Sets the register window base WB. -/
  | wbase (f : Fields)
  /-- RGN (R127): Opens an idempotent region, setting RGNPC and incrementing RGNCNT. -/
  | rgn (f : Fields)
  /-- EXIT (R128): Ends the sheaf after MX and EN reach zero, freeing its registers, with a release. -/
  | exit (f : Fields)
  /-- LAUNCH (R129): Writes a child launch record into the device-side queue and returns a status. -/
  | launch (f : Fields)
  /-- YIELD (R131): Takes a swap point, invalidating the latches. -/
  | yield (f : Fields)
  /-- MOVS (R132): Reads a special register into s registers. -/
  | movs (f : Fields)
  /-- SMOV (R132): Writes a special register, with RSV, RO and supervisor checks. -/
  | smov (f : Fields)
  /-- TRAP (R323): Raises a precise SOFT trap with a code. -/
  | trap (f : Fields)
  /-- TRET (R323): Returns from the current trap level by the retry, next, sub or region form. -/
  | tret (f : Fields)
  /-- FADD (R135): Floating-point add, rounded once. -/
  | fadd (f : Fields)
  /-- FSUB (R135): Floating-point subtract. -/
  | fsub (f : Fields)
  /-- FMUL (R135): Floating-point multiply. -/
  | fmul (f : Fields)
  /-- FFMA (R135): Fused multiply-add with one rounding. -/
  | ffma (f : Fields)
  /-- FMIN (R137): Floating-point minimum under the NaN mode. -/
  | fmin (f : Fields)
  /-- FMAX (R137): Floating-point maximum under the NaN mode. -/
  | fmax (f : Fields)
  /-- FCLASS (R138): Writes a one-hot class word of the operand. -/
  | fclass (f : Fields)
  /-- FSCL (R135): Scales by 2^n with one rounding. -/
  | fscl (f : Fields)
  /-- FFRX (R139): Extracts significand, exponent or fractional part. -/
  | ffrx (f : Fields)
  /-- FRND (R140): Rounds to an integral value in the same format. -/
  | frnd (f : Fields)
  /-- FDIV (R135): Correctly rounded FP32 division. -/
  | fdiv (f : Fields)
  /-- FRCP (R141): Correctly rounded reciprocal. -/
  | frcp (f : Fields)
  /-- FRSQ (R141): Correctly rounded reciprocal square root. -/
  | frsq (f : Fields)
  /-- FSQRT (R141): Correctly rounded square root. -/
  | fsqrt (f : Fields)
  /-- FEXP2 (R141): Correctly rounded 2^a. -/
  | fexp2 (f : Fields)
  /-- FLOG2 (R141): Correctly rounded log2 a. -/
  | flog2 (f : Fields)
  /-- FSIN (R142): Sine of an argument in turns. -/
  | fsin (f : Fields)
  /-- FCOS (R142): Cosine of an argument in turns. -/
  | fcos (f : Fields)
  /-- HADD2 (R143): Packed 16-bit add of two elements. -/
  | hadd2 (f : Fields)
  /-- HMUL2 (R143): Packed 16-bit multiply. -/
  | hmul2 (f : Fields)
  /-- HFMA2 (R143): Packed 16-bit fused multiply-add. -/
  | hfma2 (f : Fields)
  /-- HMIN2 (R143): Packed 16-bit minimum. -/
  | hmin2 (f : Fields)
  /-- HMAX2 (R143): Packed 16-bit maximum. -/
  | hmax2 (f : Fields)
  /-- FCVT (R145): Converts between floating-point formats with one rounding. -/
  | fcvt (f : Fields)
  /-- F2I (R146): Floating-point to integer conversion with saturation. -/
  | f2i (f : Fields)
  /-- I2F (R147): Integer to floating-point conversion. -/
  | i2f (f : Fields)
  /-- PACK (R148): Builds a register from two 16-bit halves. -/
  | pack (f : Fields)
  /-- UNPK (R149): Widens one element of a packed register. -/
  | unpk (f : Fields)
  /-- MXCVT (R150): Forms an MX block's elements or scale from 32 FP32 values. -/
  | mxcvt (f : Fields)
  /-- LD (R199): Global load, plain, relaxed or acquire, counted on LD. -/
  | ld (f : Fields)
  /-- ST (R200): Global store, plain, relaxed or release, counted on ST. -/
  | st (f : Fields)
  /-- LDX (R202): Gathers sixteen elements in one packet. -/
  | ldx (f : Fields)
  /-- PFM (R203): Prefetches lines toward the core, dropping failing addresses. -/
  | pfm (f : Fields)
  /-- CFLUSH (R204): Recalls owners and writes back the lines of a range. -/
  | cflush (f : Fields)
  /-- CINV (R204): Writes back and drops the lines of a range. -/
  | cinv (f : Fields)
  /-- LDS (R206): Scratchpad or cluster-window load. -/
  | lds (f : Fields)
  /-- STS (R206): Scratchpad or cluster-window store. -/
  | sts (f : Fields)
  /-- ATOMS (R210): Atomic operation on scratchpad words at the bank. -/
  | atoms (f : Fields)
  /-- ATOM (R208): Global atomic read-modify-write returning the old value. -/
  | atom (f : Fields)
  /-- RED (R209): Global reduction returning nothing, counted on ST. -/
  | red (f : Fields)
  /-- XRED (R355): Reduces a vector across a switch reduction group. -/
  | xred (f : Fields)
  /-- FENCE (R211): Release, acquire or both, stalling until complete. -/
  | fence (f : Fields)
  /-- MON (R212): Arms the sheaf's monitor on a 128-byte line. -/
  | mon (f : Fields)
  /-- MWAIT (R213): Waits until the armed monitor fires; completion is an acquire. -/
  | mwait (f : Fields)
  /-- HINIT (R216): Initialises a hurdle to n expected arrivals. -/
  | hinit (f : Fields)
  /-- HARV (R217): Arrives on a hurdle with a byte total, as a release unless relaxed. -/
  | harv (f : Fields)
  /-- HDROP (R217): Arrives and withdraws from later phases of a hurdle. -/
  | hdrop (f : Fields)
  /-- HWAIT (R218): Waits for the hurdle phase to differ from a parity; completion is an acquire. -/
  | hwait (f : Fields)
  /-- HTEST (R218): Reads the hurdle phase into an s register. -/
  | htest (f : Fields)
  /-- CWAIT (R222): Waits until a counter is at or below a threshold. -/
  | cwait (f : Fields)
  /-- ACPY (R230): Copies up to 32 bytes per thread into scratchpad under a tag counter. -/
  | acpy (f : Fields)
  /-- BCPY (R234): Requests a template box copy between global memory and scratchpad. -/
  | bcpy (f : Fields)
  /-- GATH (R238): Requests a gather of table rows, copied or pooled. -/
  | gath (f : Fields)
  /-- SCAT (R239): Requests scatter-adds of scratchpad rows into a table. -/
  | scat (f : Fields)
  /-- NCALL (R290): Queues a heath block on a stack after a release and flush. -/
  | ncall (f : Fields)
  /-- NRET (R294): Ends the issuing heath sheaf; the last one ends the block. -/
  | nret (f : Fields)
  /-- FINST (R301): Requests an install of data into fallow segments. -/
  | finst (f : Fields)
  /-- FQRY (R303): Reports state and wear of one fallow segment. -/
  | fqry (f : Fields)
  /-- MXACQ (R248): Queues the workgroup for the lattice. -/
  | mxacq (f : Fields)
  /-- MXREL (R248): Releases lattice ownership or leaves the queue. -/
  | mxrel (f : Fields)
  /-- LMMA (R251): Joins the quad's product of two fragments into a tile. -/
  | lmma (f : Fields)
  /-- LMZ (R259): Zeroes the sheaf's rows of a tile. -/
  | lmz (f : Fields)
  /-- LMLD (R259): Loads 16 words of each row from registers into a tile. -/
  | lmld (f : Fields)
  /-- LMST (R259): Reads 16 words of each tile row into registers, counted on LD. -/
  | lmst (f : Fields)
  /-- LMSCL (R260): Scales the sheaf's tile rows by a factor or by alpha. -/
  | lmscl (f : Fields)
  /-- LMSAV (R261): Writes a tile to memory, crediting a hurdle. -/
  | lmsav (f : Fields)
  /-- LMRST (R261): Fills a tile from memory, crediting a hurdle. -/
  | lmrst (f : Fields)
  /-- KVTR (R272): Translates a token through the key-value maps into a result group. -/
  | kvtr (f : Fields)
  /-- KVLD (R273): Requests a load of 16 key or value rows with rotation into scratchpad. -/
  | kvld (f : Fields)
  /-- KVINV (R274): Invalidates the KV translation caches. -/
  | kvinv (f : Fields)
  /-- SMXI (R277): Initialises soft-maximum row state, optionally with sinks. -/
  | smxi (f : Fields)
  /-- SMXU (R278): Updates soft-maximum state, writes P and arrives on a hurdle. -/
  | smxu (f : Fields)
  /-- SMXN (R279): Divides output rows by l. -/
  | smxn (f : Fields)
  /-- RHDEF (R223): Defines a residency handle over a range. -/
  | rhdef (f : Fields)
  /-- RHPRI (R224): Sets a residency handle's priority. -/
  | rhpri (f : Fields)
  /-- RHEVICT (R224): Evicts a handle's lines, optionally undefining it. -/
  | rhevict (f : Fields)
  /-- IPF (R226): Prefetches code lines into the instruction cache. -/
  | ipf (f : Fields)
  /-- IPIN (R226): Fetches and pins code lines, returning a status. -/
  | ipin (f : Fields)
  /-- IUNPIN (R226): Unpins the context's code lines in a range. -/
  | iunpin (f : Fields)
  /-- PMAP (R320): Maps a first-touch page from the free pool. -/
  | pmap (f : Fields)
  /-- PFWAIT (R321): Posts a page fault to the host queue and returns as retry. -/
  | pfwait (f : Fields)
  /-- TLBI (R322): Removes translations of pages or a context and waits for accesses through them. -/
  | tlbi (f : Fields)
  /-- TRAP_ENTRY (R312): After MX reaches zero, the sheaf enters the routed handler with banked state. -/
  | trapEntry (k : Nat)
  /-- LOAD_RETURN (R221): A counted instruction's value is written and the LD counter decrements in issue order. -/
  | loadReturn (op : Nat) (data : List Val)
  /-- STORE_PERFORMED (R182): A store's ownership registration is acknowledged at home and ST decrements. -/
  | storePerformed (op : Nat)
  /-- FIFO_WRITEBACK (R184): A dirty-line FIFO entry is written back to the home L2. -/
  | fifoWriteback (core : Nat)
  /-- RELEASE_COMPLETE (R178): A waiting release completes once all its conditions hold. -/
  | releaseComplete (r : ReleaseRef)
  /-- WALK_COMPLETE (R156): A page-table walk returns and its result is checked. -/
  | walkComplete (k : Nat)
  /-- ACCESS_FAULT (R316): An access fails after issue and its fault is held for delivery or logged after exit. -/
  | accessFault (op : Nat) (remote : Mask) (ecc : Bool)
  /-- LMMA_FRAGMENT_READ (R257): The lattice reads a member's fragments and MX decrements. -/
  | lmmaFragmentRead (core member : Nat) (stale : List (Nat × Nat))
  /-- LATTICE_PRODUCT (R254): The lattice performs an accepted product into the tile. -/
  | latticeProduct (core : Nat)
  /-- LATTICE_GRANT (R247): When the lattice becomes free the queued workgroup of highest priority becomes owner. -/
  | latticeGrant (core : Nat) (carry : Carry)
  /-- ENGINE_ACCEPT (R229): The engine reads a request block and EN decrements. -/
  | engineAccept (core : Nat) (stale : Byte) (data : List Byte)
  /-- ENGINE_CREDIT (R240): An engine credits written bytes on a hurdle as a release. -/
  | engineCredit (op lo n : Nat) (data : List Byte)
  /-- ACPY_COMPLETE (R230): All bytes of an ACPY are written and its tag counter decrements. -/
  | acpyComplete (op : Nat)
  /-- ENGINE_FAULT (R243): An engine error terminates the issuing workgroup and marks the grid failed. -/
  | engineFault (op : Nat) (link ecc : Bool)
  /-- MEMSIDE_REDUCTION (R190): A memory-side reduction is applied at the base die after recall. -/
  | memsideReduction (r : ReductionRef)
  /-- XRED_RESULT (R356): The switch sums a group's contributions and the results are written and credited. -/
  | xredResult (op port : Nat) (others : List Contribution)
  /-- STAGING_FILL_DONE (R164): A staging block fill from flash completes and waiting requests are served. -/
  | stagingFillDone (block : Nat)
  /-- SEGMENT_INSTALL_DONE (R302): One segment's erase, program and verify end and the next segment or the status follows. -/
  | segmentInstallDone (req : Nat) (result : InstallResult) (data : List Byte)
  /-- NCALL_START (R293): A queued call starts on a free heath core of a stack not in self-refresh. -/
  | ncallStart (call hcore : Nat)
  /-- NCALL_BUSY_TIMEOUT (R292): A queued call whose stack stays in self-refresh beyond 2^(LIM+9) clocks returns BUSY. -/
  | ncallBusyTimeout (call : Nat)
  /-- MIGRATION_SELECT (R169): The tier engine selects a page and freezes it for draining. -/
  | migrationSelect (ctx page : Nat) (dest : FrameRef)
  /-- MIGRATION_DRAINED (R169): Nothing is outstanding past the hold point and the copy begins. -/
  | migrationDrained (ctx page : Nat)
  /-- MIGRATION_COPY_DONE (R169): The copy ends, or is abandoned, moving to remap or release-old. -/
  | migrationCopyDone (ctx page : Nat) (ok : Bool) (data : List Byte)
  /-- MIGRATION_REMAP_DONE (R169): The new leaf is written and the shootdown is complete. -/
  | migrationRemapDone (ctx page : Nat)
  /-- MIGRATION_RELEASE_DONE (R169): Held requests are sent and the page is resident again. -/
  | migrationReleaseDone (ctx page : Nat)
  /-- SELF_REFRESH_ENTRY (R304): A stack's critical temperature holds it in self-refresh with requests queued. -/
  | selfRefreshEntry (stack : Nat)
  /-- SELF_REFRESH_EXIT (R304): The stack leaves self-refresh and held requests are performed in order. -/
  | selfRefreshExit (stack : Nat)
  /-- RECORD_HEAD (R332): A queued launch record becomes head and is read. -/
  | recordHead (q : QueueRef) (data : List Byte)
  /-- EVENT_WORD_READ (R334): The dispatcher rereads a waited event word when its line changes. -/
  | eventWordRead (grid : Nat)
  /-- DISPATCH_DECISION (R337): The dispatcher chooses a ready grid and places workgroups or handles a misfit. -/
  | dispatchDecision
  /-- WORKGROUP_DONE (R22): All sheafs exited and nothing outstanding; slot, scratchpad and hurdles freed. -/
  | workgroupDone (wg : Nat)
  /-- GRID_RETIRE (R334): A grid retires and signals its event word with a release. -/
  | gridRetire (grid : Nat)
  /-- DRAIN_DEADLINE (R326): A core's drain count reaches 2^DL and the context is reset with KIND 5. -/
  | drainDeadline (ctx core : Nat)
  /-- TIME_SLICE_EXPIRY (R326): The context's time slice ends and a drain is requested. -/
  | timeSliceExpiry (ctx : Nat)
  /-- TIER2_TIMEOUT (R353): A tier-2 access has no acknowledgement within 2^22 clocks and fails. -/
  | tier2Timeout (op : Nat)
  /-- ATS_COMPLETION (R350): A host translation completion arrives for a tier-3 access. -/
  | atsCompletion (page : Nat) (answer : AtsAnswer)
  /-- PRI_RESPONSE (R350): A page request response arrives and the access is retried once. -/
  | priResponse (page : Nat) (answer : AtsAnswer)
  /-- ATS_INVALIDATE (R350): An ATS Invalidate removes entries and completes after accesses through them. -/
  | atsInvalidate (page : Nat)
  /-- REMOTE_ACCESS (R194): A peer or host request is served at the home L2 within the export windows. -/
  | remoteAccess (r : RemoteRequest)
  /-- PEER_BLOCK_READ (R267): A peer's key-value block request is checked and served by this device. -/
  | peerBlockRead (r : BlockRequest)
  /-- DOORBELL (R349): A doorbell write announces records of a queue slot. -/
  | doorbell (slot : Nat) (t : Word)
  /-- PFC_OK (R351): Completes a host fault record with OK so waiters walk again. -/
  | pfcOk (seq : Nat)
  /-- PFC_FAIL (R351): Completes a host fault record with FAIL so waiters trap. -/
  | pfcFail (seq : Nat)
  /-- IRQ_CLEAR (R347): Write-one-to-clear of interrupt cause bits. -/
  | irqClear (bits : DWord)
  /-- SLOT_CTL_WRITE (R348): Writes slot control fields, ignored in RUN; bad priority enters ERROR. -/
  | slotCtlWrite (slot : Nat) (reg : SlotReg) (v : DWord)
  /-- SLOT_RESTART (R347): Restarts a slot from ERROR or IDLE. -/
  | slotRestart (slot : Nat) (v : DWord)
  /-- CTX_CREATE (R347): Creates a context, reading its state block. -/
  | ctxCreate (ctx : Nat)
  /-- CTX_DRAIN (R326): Host requests a drain of a context. -/
  | ctxDrain (ctx : Nat)
  /-- CTX_DESTROY (R347): Kills a resident context and frees it. -/
  | ctxDestroy (ctx : Nat)
  /-- MIGB_WRITE (R348): Adds pages to a context's migration budget. -/
  | migbWrite (ctx : Nat) (v : DWord)
  /-- INSTB_WRITE (R348): Adds erases to a context's install budget. -/
  | instbWrite (ctx : Nat) (v : DWord)
  /-- CTX_AXF_CLEAR (R70): Host write-one-to-clear of a context's AXF, reserved bits ignored. -/
  | ctxAxfClear (ctx : Nat) (v : DWord)
  /-- FLOGPTR_WRITE (R325): Host advances the fault-log HEAD, ignored beyond TAIL. -/
  | flogptrWrite (ctx : Nat) (v : DWord)
  /-- MLOGPTR_WRITE (R170): Host advances the migration-log HEAD. -/
  | mlogptrWrite (ctx : Nat) (v : DWord)
  /-- REGISTER_WRITE (R347): Write to a management register without behaviour of its own. -/
  | registerWrite (offset : Nat) (v : DWord)
  /-- POWER_ON (R358): Power-on starts bring-up. -/
  | powerOn
  /-- BRINGUP_COMPLETE (R358): Bring-up stages end and the device enters READY or HOLD. -/
  | bringupComplete (results : List UnitResult)
  /-- REBOOT (R360): DEVCTL REBOOT starts bring-up again when accepted. -/
  | reboot
  /-- COMMIT (R364): DEVCTL COMMIT checks and begins writing a signed commit object. -/
  | commit
  /-- COMMIT_COMPLETE (R365): The commit's flash write finishes and the copy in force switches. -/
  | commitComplete (ok : Bool)
  /-- POWER_LOSS (R365): Power is lost; the previous tables stay in force and an install ends INVALID. -/
  | powerLoss
  /-- THERMAL_TRIP (R371): A zone trip or over-current makes the controller remove power. -/
  | thermalTrip (zone : Nat)
  /-- GET_VERSION (R370): SPDM GET_VERSION request. -/
  | getVersion (req : List Byte)
  /-- GET_CAPABILITIES (R370): SPDM GET_CAPABILITIES request. -/
  | getCapabilities (req : List Byte)
  /-- NEGOTIATE_ALGORITHMS (R370): SPDM NEGOTIATE_ALGORITHMS request. -/
  | negotiateAlgorithms (req : List Byte)
  /-- GET_DIGESTS (R370): SPDM GET_DIGESTS request. -/
  | getDigests (req : List Byte)
  /-- GET_CERTIFICATE (R370): SPDM GET_CERTIFICATE request. -/
  | getCertificate (req : List Byte)
  /-- CHALLENGE (R370): SPDM CHALLENGE request signed with the identity key. -/
  | challenge (req : List Byte)
  /-- GET_MEASUREMENTS (R370): SPDM GET_MEASUREMENTS returning SHAKE256 digests. -/
  | getMeasurements (req : List Byte)
  /-- SPDM_UNSUPPORTED (R361): An unsupported SPDM request, or any before stage 1 passes, receives an ERROR response. -/
  | spdmUnsupported (req : List Byte)
  /-- RESERVED_OPCODE (R93): A base word whose class and op match no row of the index is issued and traps precisely with ILLOP after fetching only its base and modifier words. -/
  | reservedOpcode (base : Word) (mod : Option Word)
  /-- FQPTR_WRITE (R321): The host advances HEAD of the host fault queue, freeing entries so that a PFWAIT stalled on a full queue can append its record. -/
  | fqptrWrite (v : DWord)
  /-- RANGE_MAINTENANCE_COMPLETE (R204): A CFLUSH or CINV finishes recalling, writing back and dropping its lines, and ST decrements. -/
  | rangeMaintenanceComplete (op : Nat)
  /-- HANDLE_EVICTION_COMPLETE (R224): Every line of an RHEVICT handle has left the L2 after owner recall and write-back, and ST decrements. -/
  | handleEvictionComplete (op : Nat)
  /-- REMOTE_ACKNOWLEDGEMENT (R194): An owning device acknowledges a tier-2 store, atomic or reduction, or the PCIe read behind a tier-3 posted write completes, so the access counts as performed. -/
  | remoteAcknowledgement (op : Nat) (data : List Val)
  /-- TILE_OPERATION_PERFORMED (R250): The lattice performs an accepted non-product tile operation in tile order, such as an SMXU that writes P and then arrives on its hurdle, or an LMRST whose tile write is performed once all rows are read. -/
  | tileOperationPerformed (core op : Nat)
  deriving DecidableEq, Repr

end Sys2Proof
end

