-- ==== Sys2Proof/Machine/Forms.lean ====
section
/-! DEFINITION. The forms of an instruction: type codes, register fields, and for each opcode the row of what its
fields mean and which values the spec accepts (check 2 of R94).  Pure: no state. -/

namespace Sys2Proof.Forms

/-! ### Type codes (R42, R45, R89) -/

/-- How many registers an operand of a type code fills: 1, 2 for 64-bit types, 4 for b128 (R46). -/
def tyWords (t : BitVec 5) : Nat :=
  if t = 2#5 ∨ t = 3#5 ∨ t = 0xB#5 ∨ t = 0x11#5 then 2 else if t = 0x14#5 then 4 else 1

/-- The width in bits of a type code (R42, R45). -/
def tyBits (t : BitVec 5) : Nat :=
  if t = 4#5 ∨ t = 5#5 ∨ t = 9#5 ∨ t = 0xA#5 ∨ t = 0x12#5 then 16
  else if t = 6#5 ∨ t = 7#5 ∨ t = 0xC#5 ∨ t = 0xD#5 ∨ t = 0xF#5 ∨ t = 0x13#5 then 8
  else if t = 0xE#5 then 4
  else 32 * tyWords t

/-- The signed types: s32, s64, s16, s8 (R45). -/
def tySigned (t : BitVec 5) : Bool := t = 0#5 || t = 2#5 || t = 4#5 || t = 6#5

/-- The bytes a memory access of a width type moves (R197); 0 for a type that is no width type. -/
def tyBytes (t : BitVec 5) : Nat := if 0x14#5 < t ∨ t = 0xE#5 then 0 else tyBits t / 8

/-- The four integer arithmetic types (R103). -/
def isInt4 (t : BitVec 5) : Bool := t ≤ 3#5

/-- The types of group 0x1 (R107). -/
def isLogic (t : BitVec 5) : Bool := t ≤ 3#5 || t = 0x10#5 || t = 0x11#5

/-- The 32-bit types of PERM (R107). -/
def isLogic32 (t : BitVec 5) : Bool := t ≤ 1#5 || t = 0x10#5

/-- f32, f16 and bf16 (R134). -/
def isFloat3 (t : BitVec 5) : Bool := t = 8#5 || t = 9#5 || t = 0xA#5

/-- f32, f16, bf16 and f64 (R134). -/
def isFloat4 (t : BitVec 5) : Bool := isFloat3 t || t = 0xB#5

/-- The source and destination types of FCVT (R144). -/
def isCvt (t : BitVec 5) : Bool := isFloat4 t || t = 0xC#5 || t = 0xD#5 || t = 0xE#5

/-- The integer types of F2I and I2F (R144). -/
def isInt8 (t : BitVec 5) : Bool := t ≤ 7#5

/-- The types SHFL and BCAST move (R116): any 32-bit type, s64, n64, b64. -/
def isMove (t : BitVec 5) : Bool := isLogic t || t = 8#5

/-- R145: an FCVT is exact when every value of the source format is a value of the destination format. -/
def cvtExact (src dst : BitVec 5) : Bool :=
  if dst = 8#5 then src = 9#5 || src = 0xA#5 || src = 0xC#5 || src = 0xD#5 || src = 0xE#5
  else if dst = 0xB#5 then src ≠ 0xB#5
  else if dst = 9#5 ∨ dst = 0xA#5 then src = 0xC#5 || src = 0xD#5 || src = 0xE#5
  else if dst = 0xC#5 ∨ dst = 0xD#5 then src = 0xE#5
  else false

/-- R47, R147: an I2F whose destination holds every value of the source type; R147's list leaves out s8 and n8 to f16 and
bf16, which meet its criterion (log 101, DEDUCED). -/
def i2fExact (src dst : BitVec 5) : Bool :=
  if dst = 8#5 then 4#5 ≤ src
  else if dst = 9#5 ∨ dst = 0xA#5 then 6#5 ≤ src
  else if dst = 0xB#5 then 4#5 ≤ src || src ≤ 1#5
  else false

/-! ### Register fields (R77 to R80) -/

/-- What a source field names. -/
inductive Src
  | v (i : Nat)
  | s (i : Nat)
  | o (i : Nat)
  | y (i : Nat)
  | zero
  | tid
  | lit
  | bad
  deriving DecidableEq, Repr

/-- What a destination field names. -/
inductive Dst
  | v (i : Nat)
  | s (i : Nat)
  | o (i : Nat)
  | discard
  | bad
  deriving DecidableEq, Repr

/-- R77, R78: the source a field names in its class. -/
def srcOf (u : Bool) (f : BitVec 7) : Src :=
  let n := f.toNat
  if u then
    if n < 0x40 then .s n else if n = 0x7C then .zero else if n = 0x7E then .lit else .bad
  else if n < 0x60 then .v n
  else if n < 0x70 then .s (n - 0x60)
  else if n < 0x78 then .o (n - 0x70)
  else if n < 0x7C then .y (n - 0x78)
  else if n = 0x7C then .zero
  else if n = 0x7D then .tid
  else if n = 0x7E then .lit
  else .bad

/-- R77, R78: the destination a field names in its class. -/
def dstOf (u : Bool) (f : BitVec 7) : Dst :=
  let n := f.toNat
  if u then
    if n < 0x40 then .s n else if n = 0x7C then .discard else .bad
  else if n < 0x60 then .v n
  else if 0x70 ≤ n ∧ n < 0x78 then .o (n - 0x70)
  else if n = 0x7C then .discard
  else .bad

/-- R80: a source of `n` registers: aligned, and no latch or literal for a b128 operand. -/
def srcOk (u : Bool) (n : Nat) (f : BitVec 7) : Bool :=
  match srcOf u f with
  | .v i | .s i | .o i => i % n = 0
  | .y _ | .lit => n ≤ 2
  | .zero | .tid => true
  | .bad => false

/-- R46, R77, R78: a destination of `n` registers. -/
def dstOk (u : Bool) (n : Nat) (f : BitVec 7) : Bool :=
  match dstOf u f with
  | .v i | .s i | .o i => i % n = 0
  | .discard => true
  | .bad => false

/-- How an instruction uses one register field. -/
inductive Use
  /-- Not used: must hold 0 (R76). -/
  | none
  /-- Read by the instruction under a layout of its own, checked there. -/
  | own
  /-- A source operand of that many registers. -/
  | src (n : Nat)
  /-- A destination of that many registers. -/
  | dst (n : Nat)
  /-- Operand and destination of an atomic (R207). -/
  | both (n : Nat)
  /-- A predicate source, and one read under the vector decode in both classes (R79, R115). -/
  | pred
  | predV
  /-- A predicate destination. -/
  | predDst
  /-- An even s pair: 0x60 to 0x6E in the vector class, 0x00 to 0x3E in the uniform class (R87, R119). -/
  | pair
  /-- An even s pair the instruction writes (R129): no literal. -/
  | dpair
  /-- An even vector pair (R87, R150). -/
  | vpair
  /-- The C field of an A64 address: 0x7C (R87). -/
  | zr
  /-- An s register of the uniform class (R271). -/
  | sreg
  /-- A request block of eight s registers (R228). -/
  | block
  /-- A result group of four s registers (R272, R303). -/
  | group
  /-- The first of `n` source v registers that end at or below v95 (R251, R259). -/
  | vrun (n : Nat)
  /-- The first of `n` destination v registers that end at or below v95 (R259): no literal. -/
  | vout (n : Nat)
  /-- BCAST's lane operand: s0 to s15, zero or literal (R117). -/
  | lane
  /-- No form uses the field so. -/
  | bad
  deriving DecidableEq, Repr

/-- Whether a field value is legal for its use (R76 to R80, R87). -/
def Use.ok (u : Bool) (f : BitVec 7) : Use → Bool
  | .none => f = 0#7
  | .own => true
  | .src n => srcOk u n f
  | .dst n => dstOk u n f
  | .both n => dstOk u n f
  | .pred => if u then f.toNat < 8 else f.toNat < 16
  | .predV => f.toNat < 16
  | .predDst => f.toNat < 8
  | .pair | .dpair => if u then f.toNat < 0x40 && f.toNat % 2 = 0
             else 0x60 ≤ f.toNat && f.toNat < 0x70 && f.toNat % 2 = 0
  | .vpair => !u && f.toNat < 0x60 && f.toNat % 2 = 0
  | .zr => f.toNat = 0x7C
  | .sreg => u && f.toNat < 0x40
  | .block => u && f.toNat < 0x40 && f.toNat % 8 = 0
  | .group => u && f.toNat < 0x40 && f.toNat % 4 = 0
  | .vrun n | .vout n => !u && f.toNat + n ≤ 0x60
  | .lane => (0x60 ≤ f.toNat && f.toNat < 0x70) || f.toNat = 0x7C || f.toNat = 0x7E
  | .bad => false

/-- Whether the field is one the instruction reads as a source operand, so that 0x7E in it means a literal word
(R71).  The operand of an atomic is one; a field that names a request block or a message is not (log 24). -/
def Use.reads : Use → Bool
  | .src _ | .both _ | .pair | .vpair | .zr | .sreg | .vrun _ | .lane => true
  | _ => false

/-- The uses of the four register fields. -/
structure Uses where
  a : Use := .none
  b : Use := .none
  c : Use := .none
  d : Use := .none
  deriving DecidableEq, Repr

/-- Whether the instruction has a literal word (R71). -/
def Uses.literal (s : Uses) (f : Fields) : Bool :=
  (s.a.reads && f.a = 0x7E#7) || (s.b.reads && f.b = 0x7E#7) || (s.c.reads && f.c = 0x7E#7)
    || (s.d.reads && f.d = 0x7E#7)

/-- Every field legal for its use. -/
def Uses.ok (s : Uses) (f : Fields) : Bool :=
  s.a.ok f.u f.a && s.b.ok f.u f.b && s.c.ok f.u f.c && s.d.ok f.u f.d

/-- The issue right an instruction needs (R25). -/
inductive Right
  | any
  | matrix
  | soft
  deriving DecidableEq, Repr

/-- What the spec says of one opcode: its classes, its modifier word, its defaults, its fields, and the rights it
needs. -/
structure Row where
  /-- The 8-bit op (R373). -/
  op : BitVec 8
  /-- Whether it exists in the vector and in the uniform class (R92). -/
  vec : Bool := true
  uni : Bool := true
  /-- Tells two rows of one opcode apart (R91, R122). -/
  pick : Fields → Bool := fun _ => true
  /-- Whether the entry requires a modifier word (R74). -/
  needX : Bool := false
  /-- The default type and the default of D (R74). -/
  ty0 : BitVec 5 := 0#5
  d0 : BitVec 7 := 0#7
  /-- The uses of the register fields. -/
  uses : Fields → Uses
  /-- Every other field the entry limits: type, I16, control fields. -/
  ok : Fields → Bool
  /-- Whether it produces a result for the latches (R82). -/
  result : Fields → Bool := fun _ => false
  /-- Whether a heath core executes it (R152, R285). -/
  heath : Fields → Bool := fun _ => true
  /-- Whether it is a supervisor form (R310). -/
  super : Fields → Bool := fun _ => false
  right : Right := .any
  /-- Whether check 5 of R94 applies (R246, R271). -/
  lattice : Bool := false

/-- I16 has no bit set outside a mask. -/
def within (f : Fields) (m : BitVec 16) : Bool := f.imm &&& ~~~m = 0#16

/-- The rounding field is 0 to 4 (R47). -/
def rndOk (f : Fields) : Bool := (f.imm &&& 7#16) ≤ 4#16

/-- R74: the modifier fields of an instruction without a modifier word. -/
def Row.defaults (r : Row) (f : Fields) : Fields :=
  { f with gn := false, gi := 7#3, d := r.d0, ty := r.ty0, imm := 0#16 }

/-- Check 2 of R94 but for what depends on the core: fields, reserved and unused bits, type, modifier bits, alignment,
W. -/
def Row.legal (r : Row) (f : Fields) : Bool :=
  ((r.vec && !f.u) || (r.uni && f.u)) && r.pick f && (f.x || !r.needX)
    && (r.uses f).ok f && r.ok f
    && (!f.w || (!f.u && r.result f && f.a = 0x7C#7))

/-- The form the decoder builds and the encoder takes: defaults where there is no modifier word, a literal word
exactly when a source names it. -/
def Row.formed (r : Row) (f : Fields) : Bool :=
  (f.x || r.defaults f = f) && ((r.uses f).literal f = f.lit.isSome)

/-! ### Rows of groups 0x0 and 0x1 (R103 to R109) -/

/-- Three operands of the type's width. -/
def uses3 (f : Fields) : Uses := { a := .dst (tyWords f.ty), b := .src (tyWords f.ty), c := .src (tyWords f.ty) }

/-- Four operands of the type's width. -/
def uses4 (f : Fields) : Uses := { uses3 f with d := .src (tyWords f.ty) }

/-- One source of the type's width. -/
def uses2 (f : Fields) : Uses := { a := .dst (tyWords f.ty), b := .src (tyWords f.ty) }

/-- A two-source integer row. -/
def int3 (op : BitVec 8) (sat : Bool) : Row where
  op := op
  uses := uses3
  ok f := isInt4 f.ty && within f (if sat then 8#16 else 0#16)
  result _ := true

/-- A three-source integer row. -/
def int4 (op : BitVec 8) : Row where
  op := op
  d0 := 0x7C#7
  uses := uses4
  ok f := isInt4 f.ty && within f 8#16
  result _ := true

/-- A one-source integer row. -/
def int2 (op : BitVec 8) : Row where
  op := op
  uses := uses2
  ok f := isInt4 f.ty && within f 8#16
  result _ := true

def rowIadd : Row := int3 0x00#8 true
def rowIsub : Row := int3 0x01#8 true
def rowImul : Row := int3 0x02#8 true
def rowImulh : Row := int3 0x03#8 false
def rowImad : Row := int4 0x04#8
def rowIdiv : Row := int3 0x05#8 false
def rowIrem : Row := int3 0x06#8 false
def rowImin : Row := int3 0x07#8 false
def rowImax : Row := int3 0x08#8 false
def rowIabs : Row := int2 0x09#8
def rowIneg : Row := int2 0x0A#8
def rowIsad : Row := int4 0x0B#8

/-- R105. -/
def rowLea : Row where
  op := 0x0C#8
  uses _ := { a := .dst 2, b := .src 2, c := .src 1 }
  ok f := f.ty ≤ 1#5 && within f 0x3F#16
  result _ := true

/-- R104. -/
def rowIaddc : Row where
  op := 0x0D#8
  uses f := { uses3 f with d := .pred }
  ok f := isInt4 f.ty && within f 0xF#16
  result _ := true

/-- R106. -/
def rowMov : Row where
  op := 0x0E#8
  uses := uses2
  ok f := f.ty ≤ 0x14#5 && within f 0#16
  result _ := true

/-- R106. -/
def rowNop : Row where
  op := 0x0F#8
  uses _ := {}
  ok f := f.ty = 0#5 && within f 0#16

/-- A two-source logic row (R107). -/
def logic3 (op : BitVec 8) : Row where
  op := op
  uses := uses3
  ok f := isLogic f.ty && within f 0#16
  result _ := true

/-- A row whose C is one 32-bit count (R108). -/
def shift3 (op : BitVec 8) : Row where
  op := op
  uses f := { uses2 f with c := .src 1 }
  ok f := isLogic f.ty && within f 0#16
  result _ := true

/-- A one-source logic row. -/
def logic2 (op : BitVec 8) : Row where
  op := op
  uses := uses2
  ok f := isLogic f.ty && within f 0#16
  result _ := true

/-- A one-source row with a 32-bit result (R107). -/
def count2 (op : BitVec 8) : Row where
  op := op
  uses f := { a := .dst 1, b := .src (tyWords f.ty) }
  ok f := isLogic f.ty && within f 0#16
  result _ := true

def rowAnd : Row := logic3 0x10#8
def rowOr : Row := logic3 0x11#8
def rowXor : Row := logic3 0x12#8
def rowAndn : Row := logic3 0x13#8
def rowNot : Row := logic2 0x14#8
def rowShl : Row := shift3 0x15#8
def rowShr : Row := shift3 0x16#8
def rowSar : Row := shift3 0x17#8
def rowRot : Row := shift3 0x18#8
def rowClz : Row := count2 0x19#8
def rowPopc : Row := count2 0x1A#8
def rowBrev : Row := logic2 0x1B#8
def rowBfx : Row := shift3 0x1C#8

/-- R108. -/
def rowBfi : Row where
  op := 0x1D#8
  d0 := 0x7C#7
  uses f := { uses2 f with c := .src 1, d := .src (tyWords f.ty) }
  ok f := isLogic f.ty && within f 0#16
  result _ := true

/-- R109. -/
def rowPerm : Row where
  op := 0x1E#8
  d0 := 0x7C#7
  uses _ := { a := .dst 1, b := .src 1, c := .src 1, d := .src 1 }
  ok f := isLogic32 f.ty && within f 0#16
  result _ := true

/-! ### Rows of group 0x2 (R110 to R118) -/

/-- COMB is 0 to 2, and D is 0 when COMB is 0 (R110). -/
def combOk (f : Fields) : Bool :=
  let comb := (f.imm >>> 11) &&& 3#16
  comb ≠ 3#16 && (comb ≠ 0#16 || f.d = 0#7)

/-- R110, R111. -/
def rowIset : Row where
  op := 0x20#8
  uses f := { a := .predDst, b := .src (tyWords f.ty), c := .src (tyWords f.ty), d := .pred }
  ok f := isInt4 f.ty && within f 0x180F#16 && combOk f && (f.imm &&& 0xF#16) ≤ 5#16

/-- R110, R111; f64 is outside the heath subset (R373). -/
def rowFset : Row where
  op := 0x21#8
  uses f := { a := .predDst, b := .src (tyWords f.ty), c := .src (tyWords f.ty), d := .pred }
  ok f := isFloat4 f.ty && within f 0x1BBF#16 && combOk f
    && (f.imm &&& 0xF#16) ≠ 9#16 && (f.imm &&& 0xF#16) ≤ 13#16
  heath f := f.ty ≠ 0xB#5

/-- R112. -/
def rowSel : Row where
  op := 0x22#8
  uses f := { uses3 f with d := .pred }
  ok f := f.ty ≤ 0x13#5 && within f 0#16
  result _ := true

/-- R113. -/
def rowPlop : Row where
  op := 0x23#8
  uses _ := { a := .predDst, b := .pred, c := .pred, d := .pred }
  ok f := f.ty = 0#5 && within f 0xFF#16

/-- R114. -/
def rowPmov : Row where
  op := 0x24#8
  uses f := if f.imm &&& 1#16 = 0#16 then { a := .dst 1 } else { b := .src 1 }
  ok f := f.ty = 0#5 && (if f.imm &&& 1#16 = 0#16 then within f 0#16 else within f 0x7F01#16)
  result f := f.imm &&& 1#16 = 0#16

/-- R115. -/
def rowVote : Row where
  op := 0x25#8
  uses f := { a := if f.imm &&& 3#16 = 2#16 then .dst 1 else .predDst, b := .predV }
  ok f := f.ty = 0#5 && within f 3#16
  result f := f.imm &&& 3#16 = 2#16

/-- R116. -/
def rowShfl : Row where
  op := 0x26#8
  uni := false
  uses f := { uses2 f with c := .src 1 }
  ok f := isMove f.ty && within f 3#16
  result _ := true

/-- R117. -/
def rowBcast : Row where
  op := 0x27#8
  uni := false
  uses f := { uses2 f with c := if f.imm &&& 1#16 = 0#16 then .lane else .none }
  ok f := isMove f.ty && within f 1#16
  result _ := true

/-- R118. -/
def rowBrk : Row where
  op := 0x2F#8
  uses _ := {}
  ok f := f.ty = 0#5

/-! ### Rows of group 0x3 (R119, R323) -/

/-- A uniform control row. -/
def ctl (op : BitVec 8) (us : Uses) (m : BitVec 16) (heath : Bool) : Row where
  op := op
  vec := false
  uses _ := us
  ok f := f.ty = 0#5 && within f m
  heath _ := heath

/-- The base word's bits 31:11 hold OFF (R91). -/
def usesOff : Uses := { a := .own, b := .own, c := .own }

/-- R91: unconditional, or guarded with M = 0. -/
def rowBra : Row where
  op := 0x30#8
  vec := false
  pick f := !(f.x && f.ty = 1#5)
  uses _ := usesOff
  ok f := f.ty = 0#5 && within f 0#16

/-- R91: the EZ form, M = 1, GI = 7. -/
def rowBraEz : Row where
  op := 0x30#8
  vec := false
  pick f := f.x && f.ty = 1#5
  needX := true
  uses _ := usesOff
  ok f := f.gi = 7#3 && within f 0#16

def rowBrx : Row := ctl 0x31#8 { b := .pair } 0#16 true

/-- R122. -/
def rowCall : Row where
  op := 0x32#8
  vec := false
  pick f := !(f.x && f.ty = 2#5)
  uses _ := usesOff
  ok f := f.ty = 0#5 && within f 0#16

/-- R122: the register form, M = 2. -/
def rowCallReg : Row where
  op := 0x32#8
  vec := false
  pick f := f.x && f.ty = 2#5
  needX := true
  uses _ := { b := .pair }
  ok f := within f 0#16

def rowRet : Row := ctl 0x33#8 { b := .pair } 0#16 true
def rowEmsav : Row := ctl 0x34#8 { a := .dst 1 } 0#16 true
def rowEmld : Row := ctl 0x35#8 { b := .src 1 } 0#16 true

/-- R125. -/
def rowEmand : Row where
  op := 0x36#8
  uni := false
  uses _ := { b := .pred }
  ok f := f.ty = 0#5 && f.gi = 7#3 && within f 1#16

def rowWbase : Row := ctl 0x37#8 { b := .src 1 } 0#16 true
def rowRgn : Row := ctl 0x38#8 {} 0#16 false
def rowExit : Row := ctl 0x39#8 {} 0#16 false
def rowLaunch : Row := ctl 0x3A#8 { a := .dpair, b := .pair } 0#16 false
def rowYield : Row := ctl 0x3B#8 {} 0#16 true

/-- The special-register index of MOVS and SMOV (R132). -/
def sregIdx (f : Fields) : Nat := (f.imm &&& 0xFF#16).toNat

/-- R36, R289, R315: a listed index (0x23 to 0x25 on heath cores only). -/
def sregListed (heath : Bool) (i : Nat) : Bool := i ≤ 0x22 || (heath && i ≤ 0x25) || i = 0x26 || i = 0x27

/-- R36, R289, R315: the 64-bit special registers. -/
def sregWide (i : Nat) : Bool :=
  i = 0x0E || i = 0x12 || i = 0x14 || i = 0x16 || i = 0x18 || i = 0x19 || i = 0x22 || i = 0x23 || i = 0x27

/-- R36, R315: the registers SMOV may name. -/
def sregWritable (i : Nat) : Bool :=
  (0x09 ≤ i && i ≤ 0x0D) || (0x11 ≤ i && i ≤ 0x18) || (0x22 ≤ i && i ≤ 0x26)

/-- R289: the registers an SMOV on a heath core may name. -/
def sregHeathWritable (i : Nat) : Bool := (0x09 ≤ i && i ≤ 0x0D) || (0x23 ≤ i && i ≤ 0x26)

/-- R132. -/
def rowMovs : Row where
  op := 0x3C#8
  vec := false
  uses f := { a := .dst (if sregWide (sregIdx f) then 2 else 1) }
  ok f := f.ty = 0#5 && within f 0xFF#16 && sregListed true (sregIdx f)
  super f := sregIdx f = 0x26

/-- R132. -/
def rowSmov : Row where
  op := 0x3D#8
  vec := false
  uses f := { b := .src (if sregWide (sregIdx f) then 2 else 1) }
  ok f := f.ty = 0#5 && within f 0xFF#16 && sregWritable (sregIdx f)
  super f := sregIdx f = 0x22 || sregIdx f = 0x26

def rowTrap : Row := ctl 0x3E#8 {} 0xFFFF#16 true
def rowTret : Row := ctl 0x3F#8 {} 3#16 false

/-! ### Rows of groups 0x4, 0x5 and 0x6 (R134, R144 to R150) -/

/-- The formats a heath core lacks (R152). -/
def heathTy (t : BitVec 5) : Bool := !(0xB#5 ≤ t && t ≤ 0xF#5)

/-- A float row: its types, its sources, the modifier bits it takes (R134). -/
def flt (op : BitVec 8) (ty0 : BitVec 5) (tys : BitVec 5 → Bool) (us : Fields → Uses) (m : BitVec 16)
    (d0 : BitVec 7 := 0#7) : Row where
  op := op
  ty0 := ty0
  d0 := d0
  uses := us
  ok f := tys f.ty && within f m && rndOk f
  result _ := true
  heath f := heathTy f.ty

def rowFadd : Row := flt 0x40#8 8#5 isFloat4 uses3 0x3BF#16
def rowFsub : Row := flt 0x41#8 8#5 isFloat4 uses3 0x3BF#16
def rowFmul : Row := flt 0x42#8 8#5 isFloat4 uses3 0x3BF#16
def rowFfma : Row := flt 0x43#8 8#5 isFloat4 uses4 0x3FF#16 0x7C#7
def rowFmin : Row := flt 0x44#8 8#5 isFloat4 uses3 0x7B0#16
def rowFmax : Row := flt 0x45#8 8#5 isFloat4 uses3 0x7B0#16
def rowFclass : Row := flt 0x46#8 8#5 isFloat3 uses2 0#16
def rowFscl : Row := flt 0x47#8 8#5 isFloat3 (fun f => { uses2 f with c := .src 1 }) 0x29F#16

/-- R139: D selects the part. -/
def rowFfrx : Row where
  op := 0x48#8
  ty0 := 8#5
  uses f := { uses2 f with d := .own }
  ok f := isFloat3 f.ty && within f 0x290#16 && f.d ≤ 2#7
  result _ := true
  heath f := heathTy f.ty

def rowFrnd : Row := flt 0x49#8 8#5 isFloat3 uses2 0x297#16
def rowFdiv : Row := flt 0x4A#8 8#5 (· = 8#5) uses3 0x3BF#16
def rowFrcp : Row := flt 0x50#8 8#5 (· = 8#5) uses2 0x29F#16
def rowFrsq : Row := flt 0x51#8 8#5 (· = 8#5) uses2 0x29F#16
def rowFsqrt : Row := flt 0x52#8 8#5 (· = 8#5) uses2 0x29F#16
def rowFexp2 : Row := flt 0x53#8 8#5 (· = 8#5) uses2 0x29F#16
def rowFlog2 : Row := flt 0x54#8 8#5 (· = 8#5) uses2 0x29F#16
def rowFsin : Row := flt 0x55#8 8#5 (· = 8#5) uses2 0x29F#16
def rowFcos : Row := flt 0x56#8 8#5 (· = 8#5) uses2 0x29F#16

/-- f16 and bf16. -/
def isHalf (t : BitVec 5) : Bool := t = 9#5 || t = 0xA#5

def rowHadd2 : Row := flt 0x60#8 9#5 isHalf uses3 0x3BF#16
def rowHmul2 : Row := flt 0x61#8 9#5 isHalf uses3 0x3BF#16
def rowHfma2 : Row := flt 0x62#8 9#5 isHalf uses4 0x3FF#16 0x7C#7
def rowHmin2 : Row := flt 0x63#8 9#5 isHalf uses3 0x7B0#16
def rowHmax2 : Row := flt 0x64#8 9#5 isHalf uses3 0x7B0#16

/-- D[4:0], the source type of a conversion (R144). -/
def srcTy (f : Fields) : BitVec 5 := f.d.truncate 5

/-- The uses of a conversion (R144). -/
def usesCvt (f : Fields) : Uses := { a := .dst (tyWords f.ty), b := .src (tyWords (srcTy f)), d := .own }

/-- R144, R145. -/
def rowFcvt : Row where
  op := 0x65#8
  needX := true
  uses := usesCvt
  ok f := isCvt f.ty && isCvt (srcTy f) && f.ty ≠ srcTy f && f.d < 0x20#7 && rndOk f
    && within f (if cvtExact (srcTy f) f.ty then 0x290#16 else 0x29F#16)
  result _ := true
  heath f := heathTy f.ty && heathTy (srcTy f)

/-- R144, R146. -/
def rowF2i : Row where
  op := 0x66#8
  needX := true
  uses := usesCvt
  ok f := isInt8 f.ty && isFloat4 (srcTy f) && f.d < 0x20#7 && rndOk f && within f 0x297#16
  result _ := true
  heath f := heathTy (srcTy f)

/-- R144, R147. -/
def rowI2f : Row where
  op := 0x67#8
  ty0 := 8#5
  uses := usesCvt
  ok f := isFloat4 f.ty && isInt8 (srcTy f) && f.d < 0x20#7 && rndOk f
    && within f (if i2fExact (srcTy f) f.ty then 0#16 else 0xF#16)
  result _ := true
  heath f := heathTy f.ty

/-- R148. -/
def rowPack : Row where
  op := 0x68#8
  ty0 := 0x12#5
  uses _ := { a := .dst 1, b := .src 1, c := .src 1 }
  ok f := f.ty = 0x12#5 && within f 3#16
  result _ := true

/-- How many elements of a type UNPK finds in a register (R149); 0 for a type it does not take. -/
def unpkCount (t : BitVec 5) : Nat :=
  if t = 4#5 ∨ t = 5#5 ∨ t = 0x12#5 ∨ t = 9#5 ∨ t = 0xA#5 then 2
  else if t = 6#5 ∨ t = 7#5 ∨ t = 0x13#5 ∨ t = 0xC#5 ∨ t = 0xD#5 then 4
  else if t = 0xE#5 then 8 else 0

/-- The float types among UNPK's. -/
def unpkFloat (t : BitVec 5) : Bool := t = 9#5 || t = 0xA#5 || t = 0xC#5 || t = 0xD#5 || t = 0xE#5

/-- R149. -/
def rowUnpk : Row where
  op := 0x69#8
  ty0 := 5#5
  uses _ := { a := .dst 1, b := .src 1 }
  ok f := (f.imm &&& 7#16).toNat < unpkCount f.ty
    && within f (if unpkFloat f.ty then 0x207#16 else 7#16)
  result _ := true
  heath f := heathTy f.ty

/-- R150. -/
def rowMxcvt : Row where
  op := 0x6A#8
  uni := false
  needX := true
  uses _ := { a := .dst 1, b := .vpair, d := .own }
  ok f := (f.ty = 0xC#5 || f.ty = 0xD#5 || f.ty = 0xE#5) && f.d ≤ 1#7 && within f 0x200#16
  result _ := true
  heath _ := false

/-! ### Rows of groups 0x8, 0x9 and 0xA (R197 to R210, R355) -/

/-- ORD, HINT, A64 and CS of the memory-control field (R87). -/
def ord (f : Fields) : Nat := (f.d &&& 3#7).toNat
def hintF (f : Fields) : Nat := ((f.d >>> 2) &&& 3#7).toNat
def a64 (f : Fields) : Bool := f.d.getLsbD 4
def csx (f : Fields) : Bool := f.d.getLsbD 5

/-- The address fields of R87 with a given A field. -/
def usesAddr (a : Use) (wide : Bool) : Uses :=
  { a := a, b := if wide then .vpair else .pair, c := if wide then .zr else .src 1, d := .own }

/-- R87: bit 6 is 0, the order code is accepted, CS is 0 with A64, and the hint is 0 where the entry says so. -/
def memOk (f : Fields) (ords : List Nat) (hint : Bool) : Bool :=
  !f.d.getLsbD 6 && ords.contains (ord f) && !(a64 f && (csx f || f.u)) && (hint || hintF f = 0)

/-- The registers an access of a width type fills. -/
def memWords (t : BitVec 5) : Nat := tyWords t

def rowLd : Row where
  op := 0x80#8
  uses f := usesAddr (.dst (memWords f.ty)) (a64 f)
  ok f := tyBytes f.ty ≠ 0 && memOk f [0, 1, 2] true

def rowSt : Row where
  op := 0x81#8
  uses f := usesAddr (.src (memWords f.ty)) (a64 f)
  ok f := tyBytes f.ty ≠ 0 && memOk f [0, 1, 3] true

/-- R202. -/
def rowLdx : Row where
  op := 0x82#8
  uni := false
  uses _ := usesAddr (.dst 1) false
  ok f := tyBytes f.ty ≠ 0 && tyBytes f.ty ≤ 4 && memOk f [0] false && !a64 f

/-- R203. -/
def rowPfm : Row where
  op := 0x83#8
  uses f := usesAddr .none (a64 f)
  ok f := f.ty = 0#5 && memOk f [0] true
  heath _ := false

def rowCflush : Row := ctl 0x84#8 { b := .pair, c := .src 1 } 0#16 false
def rowCinv : Row := ctl 0x85#8 { b := .pair, c := .src 1 } 0#16 false

/-- D of a scratchpad instruction: the order code, bits 6:2 zero (R197). -/
def spOk (f : Fields) (ords : List Nat) : Bool := f.d < 4#7 && ords.contains (ord f)

def rowLds : Row where
  op := 0x90#8
  uses f := { a := .dst (memWords f.ty), b := .src 1, c := .src 1, d := .own }
  ok f := tyBytes f.ty ≠ 0 && spOk f [0, 1, 2]

def rowSts : Row where
  op := 0x91#8
  uses f := { a := .src (memWords f.ty), b := .src 1, c := .src 1, d := .own }
  ok f := tyBytes f.ty ≠ 0 && spOk f [0, 1, 3]

/-- The operation of an atomic, I16[15:12] (R207). -/
def atomOp (f : Fields) : Nat := (f.imm >>> 12).toNat

/-- The types of each atomic operation (R207). -/
def atomTy (op : Nat) (t : BitVec 5) : Bool :=
  if op = 0 then isInt4 t || t = 8#5 || t = 0xA#5
  else if op ≤ 2 then isInt4 t
  else if op ≤ 5 then isLogic t
  else if op = 6 then isLogic t || t = 8#5
  else if op = 7 then isLogic t
  else if op ≤ 9 then t = 1#5
  else false

/-- The registers the A field of an atomic names: for `.cas` both the compare and the new value (R207). -/
def atomWords (f : Fields) : Nat := if atomOp f = 7 then 2 * tyWords f.ty else tyWords f.ty

/-- AR only with ORD = 3 (R207). -/
def arOk (f : Fields) : Bool := !f.imm.getLsbD 11 || ord f = 3

def rowAtoms : Row where
  op := 0x92#8
  uni := false
  uses f := { a := .both (atomWords f), b := .src 1, c := .src 1, d := .own }
  ok f := atomTy (atomOp f) f.ty && spOk f [0, 1, 2, 3] && arOk f

def rowAtom : Row where
  op := 0xA0#8
  uses f := usesAddr (.both (atomWords f)) (a64 f)
  ok f := atomTy (atomOp f) f.ty && memOk f [0, 1, 2, 3] false && arOk f

def rowRed : Row where
  op := 0xA1#8
  uses f := usesAddr (.src (tyWords f.ty)) (a64 f)
  ok f := atomOp f ≤ 5 && atomTy (atomOp f) f.ty && memOk f [0, 1, 3] false && !f.imm.getLsbD 11

/-- R355. -/
def rowXred : Row where
  op := 0xA2#8
  vec := false
  needX := true
  uses _ := { a := .block }
  ok f := (f.ty = 8#5 || f.ty = 0xA#5 || f.ty = 0xC#5 || f.ty = 0xD#5)
    && within f (if f.ty = 8#5 then 0#16 else 1#16)
  heath _ := false

/-! ### Rows of group 0xB (R211 to R222) -/

def rowFence : Row where
  op := 0xB0#8
  vec := false
  uses _ := { d := .own }
  ok f := f.ty = 0#5 && within f 0#16 && f.d ≠ 0#7 && f.d < 4#7
  heath _ := false

def rowMon : Row where
  op := 0xB1#8
  vec := false
  uses f := usesAddr .none (a64 f)
  ok f := f.ty = 0#5 && memOk f [0] false

def rowMwait : Row := ctl 0xB2#8 {} 0#16 true
def rowHinit : Row := ctl 0xB3#8 { b := .src 1, c := .src 1 } 0xFFFF#16 true

def rowHarv : Row where
  op := 0xB4#8
  vec := false
  uses _ := { b := .src 1, c := .src 1, d := .own }
  ok f := f.ty = 0#5 && f.d ≤ 1#7

def rowHdrop : Row := ctl 0xB5#8 { b := .src 1 } 0xFFFF#16 true
def rowHwait : Row := ctl 0xB6#8 { b := .src 1, c := .src 1 } 0xFFFF#16 true
def rowHtest : Row := ctl 0xB7#8 { a := .dst 1, b := .src 1 } 0xFFFF#16 true

def rowCwait : Row where
  op := 0xB8#8
  vec := false
  uses _ := { b := .src 1 }
  ok f := f.ty = 0#5 && f.imm < 7#16

/-! ### Rows of group 0xC (R228, R290, R301, R303) -/

/-- R228. -/
def rowAcpy : Row where
  op := 0xC0#8
  uni := false
  needX := true
  uses f := { usesAddr (.src 1) (f.imm.getLsbD 4) with d := .src 1 }
  ok f := f.ty = 0#5 && within f 0x3F#16 && (f.imm &&& 3#16) ≠ 3#16
    && !(f.imm.getLsbD 4 && f.imm.getLsbD 5)
  heath _ := false

def rowBcpy : Row := ctl 0xC1#8 { a := .block } 0x1FF#16 false
def rowGath : Row := ctl 0xC2#8 { a := .block } 1#16 false
def rowScat : Row := ctl 0xC3#8 { a := .block } 0#16 false

/-- NR, TSEL, MLEN and LIM of NCALL (R290). -/
def ncNr (f : Fields) : Nat := (f.imm &&& 7#16).toNat
def ncTsel (f : Fields) : Bool := f.imm.getLsbD 3
def ncMlen (f : Fields) : Nat := ((f.imm >>> 4) &&& 0x1F#16).toNat
def ncLim (f : Fields) : Nat := ((f.imm >>> 9) &&& 0xF#16).toNat

/-- R290: NR 0 to 4, MLEN 0 to 16, and the message registers within s0 to s63, or `zr` when there are none. -/
def rowNcall : Row where
  op := 0xC4#8
  vec := false
  uses _ := { a := .block, b := .own }
  ok f := f.ty = 0#5 && within f 0x1FFF#16 && ncNr f ≤ 4 && ncMlen f ≤ 16
    && (if ncMlen f = 0 then f.b = 0x7C#7 else f.b.toNat + ncMlen f ≤ 0x40)
  heath _ := false

/-- R294: NRET exists on heath cores only; a compute core refuses it at check 2. -/
def rowNret : Row := ctl 0xC5#8 {} 0#16 true
def rowFinst : Row := ctl 0xC6#8 { a := .block } 0#16 false
def rowFqry : Row := ctl 0xC7#8 { a := .group, b := .pair } 0#16 false

/-! ### Rows of group 0xD (R246 to R261) -/

/-- A row of the lattice group. -/
def lat (op : BitVec 8) (vec : Bool) (right : Right) (us : Fields → Uses) (m : BitVec 16)
    (d0 : BitVec 7 := 0#7) : Row where
  op := op
  vec := vec
  uni := !vec
  d0 := d0
  uses := us
  ok f := f.ty = 0#5 && within f m
  heath _ := false
  right := right
  lattice := true

def rowMxacq : Row := lat 0xD0#8 false .any (fun _ => {}) 0#16
def rowMxrel : Row := lat 0xD1#8 false .any (fun _ => {}) 0#16

/-- TILE, RA, RB, BF, CPLX and NOR of LMMA (R251). -/
def tile (f : Fields) : Nat := (f.imm &&& 0xF#16).toNat
def mmBf (f : Fields) : Nat := ((f.imm >>> 6) &&& 3#16).toNat
def mmCplx (f : Fields) : Bool := f.imm.getLsbD 8
def mmNor (f : Fields) : Bool := f.imm.getLsbD 9

/-- R251. -/
def rowLmma : Row where
  op := 0xD2#8
  uni := false
  needX := true
  uses f := { b := .vrun (if mmCplx f then 8 else 16), c := .vrun (if mmCplx f then 4 else 16),
              d := if f.ty = 0xE#5 then .pair else .none }
  ok f := (f.ty = 9#5 || f.ty = 0xA#5 || f.ty = 0xC#5 || f.ty = 0xD#5 || f.ty = 6#5 || f.ty = 0xE#5)
    && within f 0x3FF#16 && (!mmCplx f || f.ty = 0xA#5) && mmBf f ≠ 3
    && (mmBf f = 0 || f.ty = 0xC#5 || f.ty = 0xD#5)
  heath _ := false
  right := .matrix
  lattice := true

def rowLmz : Row := lat 0xD3#8 true .matrix (fun _ => {}) 0xF#16
def rowLmld : Row := lat 0xD4#8 true .matrix (fun _ => { a := .vrun 16 }) 0x3F#16
def rowLmst : Row := lat 0xD5#8 true .matrix (fun _ => { a := .vout 16 }) 0x3F#16
def rowLmscl : Row :=
  lat 0xD6#8 true .soft (fun f => { b := if f.imm.getLsbD 4 then .none else .src 1 }) 0x1F#16

/-- R261: base pair or scratchpad offset, pitch, hurdle. -/
def usesTile (f : Fields) : Uses :=
  { b := if f.imm.getLsbD 4 then .sreg else .pair, c := .src 1, d := .src 1 }

def rowLmsav : Row := lat 0xD7#8 false .any usesTile 0x1F#16 0x7C#7
def rowLmrst : Row := lat 0xD8#8 false .any usesTile 0x1F#16 0x7C#7

/-! ### Rows of group 0xE (R271) -/

def rowKvtr : Row := ctl 0xE0#8 { a := .group, b := .src 1, c := .src 1 } 0#16 false
def rowKvld : Row := ctl 0xE1#8 { a := .block } 1#16 false

/-- R274. -/
def rowKvinv : Row where
  op := 0xE2#8
  vec := false
  needX := true
  uses _ := {}
  ok f := f.ty = 0#5 && within f 3#16 && f.imm ≠ 0#16
  heath _ := false
  super f := f.imm ≠ 1#16

def rowSmxi : Row :=
  lat 0xE3#8 false .any (fun f => { b := if f.imm.getLsbD 4 then .src 1 else .none }) 0x1F#16

/-- MASK, TS, TO, NO and QSTEP of SMXU (R271). -/
def smMask (f : Fields) : Nat := ((f.imm >>> 8) &&& 3#16).toNat
def smTs (f : Fields) : Nat := (f.imm &&& 0xF#16).toNat
def smTo (f : Fields) : Nat := ((f.imm >>> 4) &&& 0xF#16).toNat
def smNo (f : Fields) : Nat := ((f.imm >>> 11) &&& 3#16).toNat

/-- R271, R278. -/
def rowSmxu : Row where
  op := 0xE4#8
  vec := false
  d0 := 0x7C#7
  uses f := { a := if smMask f = 0 then .none else if smMask f = 1 then .pair else .sreg,
              b := .src 1, c := .src 1, d := .src 1 }
  ok f := f.ty = 0#5 && within f 0x1FFF#16 && smMask f ≠ 3 && smTo f + smNo f ≤ 15
  heath _ := false
  right := .soft
  lattice := true

def rowSmxn : Row := lat 0xE5#8 false .soft (fun _ => {}) 0xF#16

/-! ### Rows of group 0xF (R223 to R226, R320 to R322) -/

def rowRhdef : Row := ctl 0xF0#8 { a := .src 1, b := .src 2, c := .src 2 } 7#16 false
def rowRhpri : Row := ctl 0xF1#8 { a := .src 1, c := .src 1 } 0#16 false
def rowRhevict : Row := ctl 0xF2#8 { a := .src 1 } 1#16 false
def rowIpf : Row := ctl 0xF3#8 { b := .pair, c := .src 1 } 0#16 false
def rowIpin : Row := ctl 0xF4#8 { a := .dst 1, b := .pair, c := .src 1 } 0#16 false
def rowIunpin : Row := ctl 0xF5#8 { b := .pair, c := .src 1 } 0#16 false
def rowPmap : Row :=
  { ctl 0xF6#8 { a := .dst 1, b := .pair, c := .src 1 } 0#16 false with super := fun _ => true }
def rowPfwait : Row := { ctl 0xF7#8 {} 0#16 false with super := fun _ => true }

/-- R322. -/
def rowTlbi : Row where
  op := 0xF8#8
  vec := false
  needX := true
  uses f := if f.imm = 1#16 then { b := .pair, c := .src 1 } else {}
  ok f := f.ty = 0#5 && (f.imm = 1#16 || f.imm = 2#16)
  heath _ := false
  super _ := true

end Sys2Proof.Forms
end

