-- ==== Sys2Proof/WellFormed.lean ====
section
/-! DEFINITION. Which terms of Instr are instructions of the EG9: legal fields in every instruction row (R76, R94
check 2), a reserved class and op in `reservedOpcode`.  An event carries no encoding. -/

namespace Sys2Proof

/-- The row and the fields of an instruction; nothing for an event or a reserved opcode. -/
def Instr.coded : Instr → Option (Forms.Row × Fields)
  | .iadd f => some (Forms.rowIadd, f)
  | .isub f => some (Forms.rowIsub, f)
  | .imul f => some (Forms.rowImul, f)
  | .imulh f => some (Forms.rowImulh, f)
  | .imad f => some (Forms.rowImad, f)
  | .idiv f => some (Forms.rowIdiv, f)
  | .irem f => some (Forms.rowIrem, f)
  | .imin f => some (Forms.rowImin, f)
  | .imax f => some (Forms.rowImax, f)
  | .iabs f => some (Forms.rowIabs, f)
  | .ineg f => some (Forms.rowIneg, f)
  | .isad f => some (Forms.rowIsad, f)
  | .lea f => some (Forms.rowLea, f)
  | .iaddc f => some (Forms.rowIaddc, f)
  | .mov f => some (Forms.rowMov, f)
  | .nop f => some (Forms.rowNop, f)
  | .andI f => some (Forms.rowAnd, f)
  | .orI f => some (Forms.rowOr, f)
  | .xorI f => some (Forms.rowXor, f)
  | .andn f => some (Forms.rowAndn, f)
  | .notI f => some (Forms.rowNot, f)
  | .shl f => some (Forms.rowShl, f)
  | .shr f => some (Forms.rowShr, f)
  | .sar f => some (Forms.rowSar, f)
  | .rot f => some (Forms.rowRot, f)
  | .clz f => some (Forms.rowClz, f)
  | .popc f => some (Forms.rowPopc, f)
  | .brev f => some (Forms.rowBrev, f)
  | .bfx f => some (Forms.rowBfx, f)
  | .bfi f => some (Forms.rowBfi, f)
  | .perm f => some (Forms.rowPerm, f)
  | .iset f => some (Forms.rowIset, f)
  | .fset f => some (Forms.rowFset, f)
  | .sel f => some (Forms.rowSel, f)
  | .plop f => some (Forms.rowPlop, f)
  | .pmov f => some (Forms.rowPmov, f)
  | .vote f => some (Forms.rowVote, f)
  | .shfl f => some (Forms.rowShfl, f)
  | .bcast f => some (Forms.rowBcast, f)
  | .brk f => some (Forms.rowBrk, f)
  | .bra f => some (Forms.rowBra, f)
  | .braEz f => some (Forms.rowBraEz, f)
  | .brx f => some (Forms.rowBrx, f)
  | .call f => some (Forms.rowCall, f)
  | .callReg f => some (Forms.rowCallReg, f)
  | .ret f => some (Forms.rowRet, f)
  | .emsav f => some (Forms.rowEmsav, f)
  | .emld f => some (Forms.rowEmld, f)
  | .emand f => some (Forms.rowEmand, f)
  | .wbase f => some (Forms.rowWbase, f)
  | .rgn f => some (Forms.rowRgn, f)
  | .exit f => some (Forms.rowExit, f)
  | .launch f => some (Forms.rowLaunch, f)
  | .yield f => some (Forms.rowYield, f)
  | .movs f => some (Forms.rowMovs, f)
  | .smov f => some (Forms.rowSmov, f)
  | .trap f => some (Forms.rowTrap, f)
  | .tret f => some (Forms.rowTret, f)
  | .fadd f => some (Forms.rowFadd, f)
  | .fsub f => some (Forms.rowFsub, f)
  | .fmul f => some (Forms.rowFmul, f)
  | .ffma f => some (Forms.rowFfma, f)
  | .fmin f => some (Forms.rowFmin, f)
  | .fmax f => some (Forms.rowFmax, f)
  | .fclass f => some (Forms.rowFclass, f)
  | .fscl f => some (Forms.rowFscl, f)
  | .ffrx f => some (Forms.rowFfrx, f)
  | .frnd f => some (Forms.rowFrnd, f)
  | .fdiv f => some (Forms.rowFdiv, f)
  | .frcp f => some (Forms.rowFrcp, f)
  | .frsq f => some (Forms.rowFrsq, f)
  | .fsqrt f => some (Forms.rowFsqrt, f)
  | .fexp2 f => some (Forms.rowFexp2, f)
  | .flog2 f => some (Forms.rowFlog2, f)
  | .fsin f => some (Forms.rowFsin, f)
  | .fcos f => some (Forms.rowFcos, f)
  | .hadd2 f => some (Forms.rowHadd2, f)
  | .hmul2 f => some (Forms.rowHmul2, f)
  | .hfma2 f => some (Forms.rowHfma2, f)
  | .hmin2 f => some (Forms.rowHmin2, f)
  | .hmax2 f => some (Forms.rowHmax2, f)
  | .fcvt f => some (Forms.rowFcvt, f)
  | .f2i f => some (Forms.rowF2i, f)
  | .i2f f => some (Forms.rowI2f, f)
  | .pack f => some (Forms.rowPack, f)
  | .unpk f => some (Forms.rowUnpk, f)
  | .mxcvt f => some (Forms.rowMxcvt, f)
  | .ld f => some (Forms.rowLd, f)
  | .st f => some (Forms.rowSt, f)
  | .ldx f => some (Forms.rowLdx, f)
  | .pfm f => some (Forms.rowPfm, f)
  | .cflush f => some (Forms.rowCflush, f)
  | .cinv f => some (Forms.rowCinv, f)
  | .lds f => some (Forms.rowLds, f)
  | .sts f => some (Forms.rowSts, f)
  | .atoms f => some (Forms.rowAtoms, f)
  | .atom f => some (Forms.rowAtom, f)
  | .red f => some (Forms.rowRed, f)
  | .xred f => some (Forms.rowXred, f)
  | .fence f => some (Forms.rowFence, f)
  | .mon f => some (Forms.rowMon, f)
  | .mwait f => some (Forms.rowMwait, f)
  | .hinit f => some (Forms.rowHinit, f)
  | .harv f => some (Forms.rowHarv, f)
  | .hdrop f => some (Forms.rowHdrop, f)
  | .hwait f => some (Forms.rowHwait, f)
  | .htest f => some (Forms.rowHtest, f)
  | .cwait f => some (Forms.rowCwait, f)
  | .acpy f => some (Forms.rowAcpy, f)
  | .bcpy f => some (Forms.rowBcpy, f)
  | .gath f => some (Forms.rowGath, f)
  | .scat f => some (Forms.rowScat, f)
  | .ncall f => some (Forms.rowNcall, f)
  | .nret f => some (Forms.rowNret, f)
  | .finst f => some (Forms.rowFinst, f)
  | .fqry f => some (Forms.rowFqry, f)
  | .mxacq f => some (Forms.rowMxacq, f)
  | .mxrel f => some (Forms.rowMxrel, f)
  | .lmma f => some (Forms.rowLmma, f)
  | .lmz f => some (Forms.rowLmz, f)
  | .lmld f => some (Forms.rowLmld, f)
  | .lmst f => some (Forms.rowLmst, f)
  | .lmscl f => some (Forms.rowLmscl, f)
  | .lmsav f => some (Forms.rowLmsav, f)
  | .lmrst f => some (Forms.rowLmrst, f)
  | .kvtr f => some (Forms.rowKvtr, f)
  | .kvld f => some (Forms.rowKvld, f)
  | .kvinv f => some (Forms.rowKvinv, f)
  | .smxi f => some (Forms.rowSmxi, f)
  | .smxu f => some (Forms.rowSmxu, f)
  | .smxn f => some (Forms.rowSmxn, f)
  | .rhdef f => some (Forms.rowRhdef, f)
  | .rhpri f => some (Forms.rowRhpri, f)
  | .rhevict f => some (Forms.rowRhevict, f)
  | .ipf f => some (Forms.rowIpf, f)
  | .ipin f => some (Forms.rowIpin, f)
  | .iunpin f => some (Forms.rowIunpin, f)
  | .pmap f => some (Forms.rowPmap, f)
  | .pfwait f => some (Forms.rowPfwait, f)
  | .tlbi f => some (Forms.rowTlbi, f)
  | _ => none

/-- R92, R373: whether a class and an op name an instruction. -/
def defined (u : Bool) (op : BitVec 8) : Bool :=
  let n := op.toNat
  if u then
    n ≤ 0x1E || (0x20 ≤ n && n ≤ 0x25) || (0x2F ≤ n && n ≤ 0x35) || (0x37 ≤ n && n ≤ 0x4A)
      || (0x50 ≤ n && n ≤ 0x56) || (0x60 ≤ n && n ≤ 0x69) || n = 0x80 || n = 0x81 || (0x83 ≤ n && n ≤ 0x85)
      || n = 0x90 || n = 0x91 || (0xA0 ≤ n && n ≤ 0xA2) || (0xB0 ≤ n && n ≤ 0xB8) || (0xC1 ≤ n && n ≤ 0xC7)
      || n = 0xD0 || n = 0xD1 || n = 0xD7 || n = 0xD8 || (0xE0 ≤ n && n ≤ 0xE5) || (0xF0 ≤ n && n ≤ 0xF8)
  else
    n ≤ 0x1E || (0x20 ≤ n && n ≤ 0x27) || n = 0x2F || n = 0x36 || (0x40 ≤ n && n ≤ 0x4A)
      || (0x50 ≤ n && n ≤ 0x56) || (0x60 ≤ n && n ≤ 0x6A) || (0x80 ≤ n && n ≤ 0x83) || (0x90 ≤ n && n ≤ 0x92)
      || n = 0xA0 || n = 0xA1 || n = 0xC0 || (0xD2 ≤ n && n ≤ 0xD6)

/-- The class bit and the op of a base word (R73). -/
def baseU (w : Word) : Bool := w.getLsbD 10
def baseOp (w : Word) : BitVec 8 := w.extractLsb' 2 8
def baseX (w : Word) : Bool := w.getLsbD 1

/-- A term is well formed when its words are those of an instruction the EG9 does not refuse at check 2 for its
fields; `reservedOpcode` is well formed when its class and op are reserved and it holds a modifier word exactly when
X = 1 (R93). -/
def Instr.wellFormed (i : Instr) : Bool :=
  match i.coded with
  | some (r, f) => r.formed f && r.legal f
  | none =>
    match i with
    | .reservedOpcode base mod => !defined (baseU base) (baseOp base) && (mod.isSome = baseX base)
    | _ => true

end Sys2Proof
end

