-- ==== Sys2Proof/Decode.lean ====
section
/-! DEFINITION. The decoder, total on any words and bytes, refusing by name, and the encoder, both from the layouts of
R73, R74, R75 and the map of R92. -/

namespace Sys2Proof

/-- Little-endian words (R4, R71). -/
def wordOf (b0 b1 b2 b3 : Byte) : Word := b3 ++ b2 ++ b1 ++ b0

/-- The whole 32-bit words of a list of bytes. -/
def wordsOf : List Byte → List Word
  | b0 :: b1 :: b2 :: b3 :: rest => wordOf b0 b1 b2 b3 :: wordsOf rest
  | _ => []

/-- The bytes of a word, low byte first. -/
def bytesOf (w : Word) : List Byte :=
  [w.extractLsb' 0 8, w.extractLsb' 8 8, w.extractLsb' 16 8, w.extractLsb' 24 8]

/-- Sign extension of an I16 offset (R87). -/
def sext16 (i : BitVec 16) : DWord := i.signExtend 64

/-- One opcode: its row and the constructor it decodes to. -/
structure Entry where
  row : Forms.Row
  instr : Fields → Instr

/-- Rows of spec/33 R373, IADD to NOP. -/
def entriesInt : List Entry := [
  ⟨Forms.rowIadd, .iadd⟩,
  ⟨Forms.rowIsub, .isub⟩,
  ⟨Forms.rowImul, .imul⟩,
  ⟨Forms.rowImulh, .imulh⟩,
  ⟨Forms.rowImad, .imad⟩,
  ⟨Forms.rowIdiv, .idiv⟩,
  ⟨Forms.rowIrem, .irem⟩,
  ⟨Forms.rowImin, .imin⟩,
  ⟨Forms.rowImax, .imax⟩,
  ⟨Forms.rowIabs, .iabs⟩,
  ⟨Forms.rowIneg, .ineg⟩,
  ⟨Forms.rowIsad, .isad⟩,
  ⟨Forms.rowLea, .lea⟩,
  ⟨Forms.rowIaddc, .iaddc⟩,
  ⟨Forms.rowMov, .mov⟩,
  ⟨Forms.rowNop, .nop⟩]

/-- Rows of spec/33 R373, AND to PERM. -/
def entriesLogic : List Entry := [
  ⟨Forms.rowAnd, .andI⟩,
  ⟨Forms.rowOr, .orI⟩,
  ⟨Forms.rowXor, .xorI⟩,
  ⟨Forms.rowAndn, .andn⟩,
  ⟨Forms.rowNot, .notI⟩,
  ⟨Forms.rowShl, .shl⟩,
  ⟨Forms.rowShr, .shr⟩,
  ⟨Forms.rowSar, .sar⟩,
  ⟨Forms.rowRot, .rot⟩,
  ⟨Forms.rowClz, .clz⟩,
  ⟨Forms.rowPopc, .popc⟩,
  ⟨Forms.rowBrev, .brev⟩,
  ⟨Forms.rowBfx, .bfx⟩,
  ⟨Forms.rowBfi, .bfi⟩,
  ⟨Forms.rowPerm, .perm⟩]

/-- Rows of spec/33 R373, ISET to BRK. -/
def entriesPred : List Entry := [
  ⟨Forms.rowIset, .iset⟩,
  ⟨Forms.rowFset, .fset⟩,
  ⟨Forms.rowSel, .sel⟩,
  ⟨Forms.rowPlop, .plop⟩,
  ⟨Forms.rowPmov, .pmov⟩,
  ⟨Forms.rowVote, .vote⟩,
  ⟨Forms.rowShfl, .shfl⟩,
  ⟨Forms.rowBcast, .bcast⟩,
  ⟨Forms.rowBrk, .brk⟩]

/-- Rows of spec/33 R373, BRA to TRET. -/
def entriesControl : List Entry := [
  ⟨Forms.rowBra, .bra⟩,
  ⟨Forms.rowBraEz, .braEz⟩,
  ⟨Forms.rowBrx, .brx⟩,
  ⟨Forms.rowCall, .call⟩,
  ⟨Forms.rowCallReg, .callReg⟩,
  ⟨Forms.rowRet, .ret⟩,
  ⟨Forms.rowEmsav, .emsav⟩,
  ⟨Forms.rowEmld, .emld⟩,
  ⟨Forms.rowEmand, .emand⟩,
  ⟨Forms.rowWbase, .wbase⟩,
  ⟨Forms.rowRgn, .rgn⟩,
  ⟨Forms.rowExit, .exit⟩,
  ⟨Forms.rowLaunch, .launch⟩,
  ⟨Forms.rowYield, .yield⟩,
  ⟨Forms.rowMovs, .movs⟩,
  ⟨Forms.rowSmov, .smov⟩,
  ⟨Forms.rowTrap, .trap⟩,
  ⟨Forms.rowTret, .tret⟩]

/-- Rows of spec/33 R373, FADD to FCOS. -/
def entriesFloat : List Entry := [
  ⟨Forms.rowFadd, .fadd⟩,
  ⟨Forms.rowFsub, .fsub⟩,
  ⟨Forms.rowFmul, .fmul⟩,
  ⟨Forms.rowFfma, .ffma⟩,
  ⟨Forms.rowFmin, .fmin⟩,
  ⟨Forms.rowFmax, .fmax⟩,
  ⟨Forms.rowFclass, .fclass⟩,
  ⟨Forms.rowFscl, .fscl⟩,
  ⟨Forms.rowFfrx, .ffrx⟩,
  ⟨Forms.rowFrnd, .frnd⟩,
  ⟨Forms.rowFdiv, .fdiv⟩,
  ⟨Forms.rowFrcp, .frcp⟩,
  ⟨Forms.rowFrsq, .frsq⟩,
  ⟨Forms.rowFsqrt, .fsqrt⟩,
  ⟨Forms.rowFexp2, .fexp2⟩,
  ⟨Forms.rowFlog2, .flog2⟩,
  ⟨Forms.rowFsin, .fsin⟩,
  ⟨Forms.rowFcos, .fcos⟩]

/-- Rows of spec/33 R373, HADD2 to MXCVT. -/
def entriesHalf : List Entry := [
  ⟨Forms.rowHadd2, .hadd2⟩,
  ⟨Forms.rowHmul2, .hmul2⟩,
  ⟨Forms.rowHfma2, .hfma2⟩,
  ⟨Forms.rowHmin2, .hmin2⟩,
  ⟨Forms.rowHmax2, .hmax2⟩,
  ⟨Forms.rowFcvt, .fcvt⟩,
  ⟨Forms.rowF2i, .f2i⟩,
  ⟨Forms.rowI2f, .i2f⟩,
  ⟨Forms.rowPack, .pack⟩,
  ⟨Forms.rowUnpk, .unpk⟩,
  ⟨Forms.rowMxcvt, .mxcvt⟩]

/-- Rows of spec/33 R373, LD to XRED. -/
def entriesMemory : List Entry := [
  ⟨Forms.rowLd, .ld⟩,
  ⟨Forms.rowSt, .st⟩,
  ⟨Forms.rowLdx, .ldx⟩,
  ⟨Forms.rowPfm, .pfm⟩,
  ⟨Forms.rowCflush, .cflush⟩,
  ⟨Forms.rowCinv, .cinv⟩,
  ⟨Forms.rowLds, .lds⟩,
  ⟨Forms.rowSts, .sts⟩,
  ⟨Forms.rowAtoms, .atoms⟩,
  ⟨Forms.rowAtom, .atom⟩,
  ⟨Forms.rowRed, .red⟩,
  ⟨Forms.rowXred, .xred⟩]

/-- Rows of spec/33 R373, FENCE to CWAIT. -/
def entriesSync : List Entry := [
  ⟨Forms.rowFence, .fence⟩,
  ⟨Forms.rowMon, .mon⟩,
  ⟨Forms.rowMwait, .mwait⟩,
  ⟨Forms.rowHinit, .hinit⟩,
  ⟨Forms.rowHarv, .harv⟩,
  ⟨Forms.rowHdrop, .hdrop⟩,
  ⟨Forms.rowHwait, .hwait⟩,
  ⟨Forms.rowHtest, .htest⟩,
  ⟨Forms.rowCwait, .cwait⟩]

/-- Rows of spec/33 R373, ACPY to FQRY. -/
def entriesCopy : List Entry := [
  ⟨Forms.rowAcpy, .acpy⟩,
  ⟨Forms.rowBcpy, .bcpy⟩,
  ⟨Forms.rowGath, .gath⟩,
  ⟨Forms.rowScat, .scat⟩,
  ⟨Forms.rowNcall, .ncall⟩,
  ⟨Forms.rowNret, .nret⟩,
  ⟨Forms.rowFinst, .finst⟩,
  ⟨Forms.rowFqry, .fqry⟩]

/-- Rows of spec/33 R373, MXACQ to LMRST. -/
def entriesLattice : List Entry := [
  ⟨Forms.rowMxacq, .mxacq⟩,
  ⟨Forms.rowMxrel, .mxrel⟩,
  ⟨Forms.rowLmma, .lmma⟩,
  ⟨Forms.rowLmz, .lmz⟩,
  ⟨Forms.rowLmld, .lmld⟩,
  ⟨Forms.rowLmst, .lmst⟩,
  ⟨Forms.rowLmscl, .lmscl⟩,
  ⟨Forms.rowLmsav, .lmsav⟩,
  ⟨Forms.rowLmrst, .lmrst⟩]

/-- Rows of spec/33 R373, KVTR to SMXN. -/
def entriesAttention : List Entry := [
  ⟨Forms.rowKvtr, .kvtr⟩,
  ⟨Forms.rowKvld, .kvld⟩,
  ⟨Forms.rowKvinv, .kvinv⟩,
  ⟨Forms.rowSmxi, .smxi⟩,
  ⟨Forms.rowSmxu, .smxu⟩,
  ⟨Forms.rowSmxn, .smxn⟩]

/-- Rows of spec/33 R373, RHDEF to TLBI. -/
def entriesResidency : List Entry := [
  ⟨Forms.rowRhdef, .rhdef⟩,
  ⟨Forms.rowRhpri, .rhpri⟩,
  ⟨Forms.rowRhevict, .rhevict⟩,
  ⟨Forms.rowIpf, .ipf⟩,
  ⟨Forms.rowIpin, .ipin⟩,
  ⟨Forms.rowIunpin, .iunpin⟩,
  ⟨Forms.rowPmap, .pmap⟩,
  ⟨Forms.rowPfwait, .pfwait⟩,
  ⟨Forms.rowTlbi, .tlbi⟩]


/-- The opcode map (R92). -/
def entries : List Entry :=
  entriesInt ++ entriesLogic ++ entriesPred ++ entriesControl ++ entriesFloat ++ entriesHalf ++ entriesMemory ++ entriesSync ++ entriesCopy ++ entriesLattice ++ entriesAttention ++ entriesResidency

/-- The row a class, an op and the modifier's type select (R91, R92, R122). -/
def entryFor (f : Fields) (op : BitVec 8) : Option Entry :=
  entries.find? fun e => e.row.op = op && ((e.row.vec && !f.u) || (e.row.uni && f.u)) && e.row.pick f

/-- The fields of a base word and an optional modifier word, the modifier fields zero when there is none. -/
def fieldsOf (base : Word) (mod : Option Word) : Fields :=
  let m := mod.getD 0#32
  { u := base.getLsbD 10, x := mod.isSome, w := base.getLsbD 0
    a := base.extractLsb' 25 7, b := base.extractLsb' 18 7, c := base.extractLsb' 11 7
    gn := m.getLsbD 31, gi := m.extractLsb' 28 3, d := m.extractLsb' 21 7, ty := m.extractLsb' 16 5
    imm := m.extractLsb' 0 16, lit := none }

/-- Why the decoder refuses. -/
inductive Reject
  /-- Fewer words than the instruction has (R71). -/
  | short
  deriving DecidableEq, Repr

/-- How many words an instruction has, from its base and modifier words (R71, R93). -/
def lengthOf (base : Word) (mod : Option Word) : Nat :=
  let f := fieldsOf base mod
  let n := if mod.isSome then 2 else 1
  match entryFor f (baseOp base) with
  | some e =>
    let f := if f.x then f else e.row.defaults f
    if (e.row.uses f).literal f then n + 1 else n
  | none => n

/-- The instruction at the head of a list of words, with how many words it has (R71).  A class and op of no row are
`reservedOpcode` (R93).  A row's fields are read whatever they hold: the values the row refuses (`Instr.wellFormed`) trap
at issue, with check 2 of R94. -/
def decodeWords : List Word → Except Reject (Instr × Nat)
  | [] => .error .short
  | base :: rest =>
    let x := baseX base
    match x, rest with
    | true, [] => .error .short
    | _, _ =>
      let mod := if x then rest.head? else none
      let rest := if x then rest.tail else rest
      let n := if x then 2 else 1
      let f := fieldsOf base mod
      match entryFor f (baseOp base) with
      | none => .ok (.reservedOpcode base mod, n)
      | some e =>
        let f := if x then f else e.row.defaults f
        if (e.row.uses f).literal f then
          match rest with
          | [] => .error .short
          | l :: _ => .ok (e.instr { f with lit := some l }, n + 1)
        else .ok (e.instr f, n)

/-- The instruction at the head of a list of bytes. -/
def decode (bs : List Byte) : Except Reject (Instr × Nat) := decodeWords (wordsOf bs)

/-- The base word of fields and an op (R73). -/
def baseWord (op : BitVec 8) (f : Fields) : Word :=
  f.a ++ f.b ++ f.c ++ BitVec.ofBool f.u ++ op ++ BitVec.ofBool f.x ++ BitVec.ofBool f.w

/-- The modifier word of fields (R74). -/
def modWord (f : Fields) : Word := BitVec.ofBool f.gn ++ f.gi ++ f.d ++ f.ty ++ f.imm

/-- The words of an instruction; none for an event. -/
def encode (i : Instr) : List Word :=
  match i.coded with
  | some (r, f) => baseWord r.op f :: ((if f.x then [modWord f] else []) ++ f.lit.toList)
  | none =>
    match i with
    | .reservedOpcode base mod => base :: mod.toList
    | _ => []

/-- The instruction whose bits are `w`, numbered as spec/opcode_table.json numbers them: bit 0 is the least significant
bit of the first word, and a later word's bits count on from it; every bit above `nbits` is 0. -/
def decodeTableWord (nbits w : Nat) : Option Instr :=
  let w := w % 2 ^ nbits
  match decode ((List.range 12).map fun i => BitVec.ofNat 8 (w >>> (8 * i))) with
  | .ok (i, _) => some i
  | .error _ => none

end Sys2Proof
end

