-- ==== Sys2Proof/Machine/Maps.lean ====
section
/-! DEFINITION. Finite maps as plain data: `Store w`, a list of (address, value) pairs in one canonical form (addresses
strictly rising, no entry equal to 0, which is what an unlisted address reads as), and `Table`, a keyed list. -/

namespace Sys2Proof.Machine

/-- Values of `w` bits by address; an unlisted address reads as 0.  `Store 8` is a list of Host.Cell. -/
abbrev Store (w : Nat) := List (Nat × BitVec w)

/-- The value at an address. -/
def Store.get {w : Nat} : Store w → Nat → BitVec w
  | [], _ => 0#w
  | (k, v) :: r, a => if k = a then v else Store.get r a

/-- Put a value that is not 0 at an address. -/
def Store.ins {w : Nat} : Store w → Nat → BitVec w → Store w
  | [], a, x => [(a, x)]
  | (k, v) :: r, a, x =>
    if a < k then (a, x) :: (k, v) :: r else if a = k then (a, x) :: r else (k, v) :: Store.ins r a x

/-- Write one value, keeping the canonical form: 0 removes the entry. -/
def Store.set {w : Nat} (s : Store w) (a : Nat) (x : BitVec w) : Store w :=
  if x = 0#w then s.filter fun e => e.1 ≠ a else s.ins a x

/-- Every entry lies above `lo` (or anywhere, when `lo` is none), strictly rising, and is not 0. -/
def Store.above {w : Nat} : Option Nat → Store w → Bool
  | _, [] => true
  | lo, (k, v) :: r => (match lo with | none => true | some l => decide (l < k)) && decide (v ≠ 0#w) && Store.above (some k) r

/-- The canonical form. -/
def Store.wf {w : Nat} (s : Store w) : Bool := Store.above none s

/-- The canonical form of HBM and fallow memory: what every write keeps. -/
abbrev Memory.wf (m : List Host.Cell) : Bool := Store.wf m

/-- Remove every entry with `lo ≤ address < hi`: the range then reads as 0. -/
def Store.clear {w : Nat} (s : Store w) (lo hi : Nat) : Store w :=
  s.filter fun e => e.1 < lo || hi ≤ e.1

/-- `n` consecutive values from an address. -/
def Store.slice {w : Nat} (s : Store w) (a n : Nat) : List (BitVec w) := (List.range n).map fun i => s.get (a + i)

/-- Write consecutive values from an address. -/
def Store.blit {w : Nat} (s : Store w) (a : Nat) : List (BitVec w) → Store w
  | [] => s
  | x :: xs => Store.blit (s.set a x) (a + 1) xs

/-- A keyed list: at most one entry for each key. -/
abbrev Table (α : Type) := List (Nat × α)

/-- The entry of a key. -/
def Table.get? {α : Type} : Table α → Nat → Option α
  | [], _ => none
  | (k, v) :: r, a => if k = a then some v else Table.get? r a

/-- Replace the entry of a key, or add one at the end. -/
def Table.put {α : Type} : Table α → Nat → α → Table α
  | [], a, x => [(a, x)]
  | (k, v) :: r, a, x => if k = a then (a, x) :: r else (k, v) :: Table.put r a x

/-- Change the entry of a key, if there is one. -/
def Table.upd {α : Type} : Table α → Nat → (α → α) → Table α
  | [], _, _ => []
  | (k, v) :: r, a, g => if k = a then (k, g v) :: r else (k, v) :: Table.upd r a g

/-- Remove the entry of a key. -/
def Table.del {α : Type} (t : Table α) (a : Nat) : Table α := t.filter fun e => e.1 ≠ a

/-- Change every entry. -/
def Table.mapv {α : Type} (t : Table α) (g : α → α) : Table α := t.map fun e => (e.1, g e.2)

/-- A little-endian number from bytes. -/
def leNat : List Byte → Nat
  | [] => 0
  | b :: r => b.toNat + 256 * leNat r

/-- The low `n` bytes of a value, low byte first. -/
def bytesLe (n : Nat) (v : Nat) : List Byte := (List.range n).map fun i => BitVec.ofNat 8 (v >>> (8 * i))

end Sys2Proof.Machine
end

