-- ==== Sys2Proof/Machine/State.lean ====
section
/-! DEFINITION. The state of an EG9 as plain data: everything the spec gives the machine (INVENTORY.md lists it with its
rules), the reasons a step can stop, and the state right after power-on. -/

namespace Sys2Proof.Machine

/-- Why a step stops.  Both name a use of `exec` outside the machine's own stepping, are raised by no run, and are
safe: a claim may become unprovable, none becomes false. -/
inductive Fault
  /-- Raised by the meaning of an instruction row when no sheaf is selected to issue it (`State.cur`); safe. -/
  | noSheaf
  deriving DecidableEq, Repr

/-- Why the model gives no meaning. -/
inductive Refusal
  /-- Raised by a dispatch arm of an instruction that has no meaning yet; safe. -/
  | notModelled (mnemonic : String)
  deriving DecidableEq, Repr

/-- The trap causes of R7 with the codes of R306. -/
inductive Cause
  | illop | priv | window | latch | divz | fpinv | fpdz | fpovf | fpunf | fpinx | xlate | prot | align | ecc
  | fallow | hover | hdead | lattice | role | soft | brk
  deriving DecidableEq, Repr

/-! ### Sheafs -/

/-- One bypass latch (R82 to R84): a value of up to 64 bits for each thread. -/
structure Latch where
  valid : Bool := false
  wide : Bool := false
  vals : Store 64 := []
  deriving DecidableEq, Repr

/-- The per-thread sticky flags (R39, R40). -/
structure Sticky where
  inv : Mask := 0
  dz : Mask := 0
  ovf : Mask := 0
  unf : Mask := 0
  inx : Mask := 0
  deriving DecidableEq, Repr

/-- TC, TR, TM and TA of one trap level (R36, R307). -/
structure TrapRegs where
  tc : Word := 0
  tr : DWord := 0
  tm : Word := 0
  ta : DWord := 0
  deriving DecidableEq, Repr

/-- Where a sheaf lives: in a workgroup, or in the block of a heath core. -/
inductive Home
  | wg (id : Nat)
  | block (hcore : Nat)
  deriving DecidableEq, Repr

/-- The wait paths of CWAIT (R222). -/
inductive Path
  | ld | st | ac0 | ac1 | ac2 | mx | en
  deriving DecidableEq, Repr

/-- What an access that is held waits for: the fill of a staging block, with its leaf's hint (R159, R164), the host's
translation of a PCIe page for a virtual address (R350), a stack in self-refresh (R304), or the answer of another device
(tier 2) or the host (tier 3) to a read. -/
inductive WaitOn
  | fill (block hint : Nat)
  | page (page va : Nat)
  | refresh (stack : Nat)
  | peer (tier va : Nat)
  deriving DecidableEq, Repr

/-- What a sheaf waits for.  `retry`, `held`, `fetch` and `lost` issue the same instruction again; the others are ended by
the event named. -/
inductive Wait
  /-- STALLED on an interlock, a full counter, a queue, a lattice owner or outstanding accesses (R33). -/
  | retry
  /-- STALLED on accesses or walks of an instruction that are held (R198, R304, R350), or on its fetch (R72). -/
  | held (ws : List WaitOn)
  | fetch (ws : List WaitOn)
  /-- STALLED on a fetch whose host page has failed, for a virtual address, and on what holds the words before it (R350,
  R304). -/
  | lost (va : Nat) (ws : List WaitOn)
  /-- STALLED until RELEASE_COMPLETE (R178). -/
  | release
  /-- STALLED on a walk of a page, or as a waiter of its page-fault entry (R319). -/
  | walk (page : Nat)
  | filter (page : Nat)
  /-- STALLED before trap entry until MX = 0 (R35), or until the routing table can be read (R304). -/
  | mx
  /-- At a swap point: CWAIT, HWAIT, MWAIT, an LMMA join (R28). -/
  | cwait (p : Path) (n : Nat)
  | hwait (off : Nat) (parity : Bool)
  | mwait
  | join
  /-- STALLED in a handler until an access has returned or is performed (R313). -/
  | access (op : Nat)
  deriving DecidableEq, Repr

/-- The sheaf states of R33. -/
inductive Status
  | issuing
  | stalled (w : Wait)
  | parked (w : Wait)
  | waiting (w : Wait)
  | ready
  | exited
  deriving DecidableEq, Repr

/-- A trap that has been raised and waits for its entry (R35, R304, R312). -/
structure Pending where
  cause : Cause
  det : Nat
  acc : Nat
  mask : Mask
  ta : DWord
  dest : BitVec 7
  dv : Bool
  imp : Bool
  lead : Bool
  len : Nat
  ucls : Bool
  w64 : Bool
  /-- The region to restore, of an imprecise fault (R316). -/
  rgnpc : DWord
  rgncnt : Word
  /-- Issue number of the access, of an imprecise fault. -/
  seq : Nat
  deriving DecidableEq, Repr

/-- An armed monitor (R212): the physical line, and whether it has fired. -/
structure Monitor where
  line : Nat
  fired : Bool
  deriving DecidableEq, Repr

/-- A release a sheaf has issued and that is not complete (R178, R184): its issue number, the position of its marker
in each dirty-line FIFO it waits on, and what follows. -/
inductive AfterRelease
  /-- FENCE; `acq` for `fence.ar`. -/
  | fence (acq : Bool)
  /-- HARV: the arrival on a hurdle of a workgroup or block. -/
  | arrive (home : Home) (off : Nat) (bytes : Word) (ta : DWord)
  /-- EXIT (R128). -/
  | exit
  /-- LAUNCH, which issues again when the conditions hold (R129 step 2). -/
  | launch
  /-- TLBI, which issues again until the accesses issued before it are done (R322); the 512 MiB blocks of the leaves it
  removed. -/
  | tlbi (blocks : List Nat)
  deriving DecidableEq, Repr

structure Release where
  seq : Nat
  markers : List (Nat × Nat)
  after : AfterRelease
  /-- A host page that a waiting LAUNCH reads has failed, for this virtual address (R350). -/
  lost : Option Nat := none
  deriving DecidableEq, Repr

/-- One sheaf (R8, R9, R36, R38). -/
structure Sheaf where
  home : Home
  ctx : Nat
  /-- The logical core, or the heath core. -/
  core : Nat
  heath : Bool
  part : Nat
  shid : Nat
  slot : Nat
  status : Status := .ready
  lane : Option Nat := none
  /-- Clocks at which it took its lane and last became ready (R30, R31). -/
  laneClk : Nat := 0
  readyClk : Nat := 0
  pc : DWord
  live : Mask
  em : Mask
  wb : BitVec 6 := 0
  role : BitVec 3 := 0
  fpcr : BitVec 12 := 0
  sticky : Sticky := {}
  /-- Vector registers by slot·16 + thread; operand registers by level·128 + register·16 + thread; uniform registers by
  number, the banks of s56 to s59 at 64 to 67 and 68 to 71 (R312). -/
  v : Store 32 := []
  o : Store 32 := []
  s : Store 32 := []
  p : Store 16 := []
  q : BitVec 7 := 0
  y0 : Latch := {}
  y1 : Latch := {}
  y2 : Latch := {}
  y3 : Latch := {}
  rgnpc : DWord := 0
  rgncnt : Word := 0
  tlvl : Nat := 0
  t1 : TrapRegs := {}
  t2 : TrapRegs := {}
  mon : Option Monitor := none
  /-- The LD counter: counted instructions from the oldest not done, with whether each is done (R221). -/
  ld : List (Nat × Bool) := []
  st : Nat := 0
  ac0 : Nat := 0
  ac1 : Nat := 0
  ac2 : Nat := 0
  mx : Nat := 0
  en : Nat := 0
  /-- A trap that waits for MX = 0, and the imprecise faults held, oldest issue first (R316). -/
  pend : Option Pending := none
  held : List Pending := []
  rel : Option Release := none
  /-- The fault-filter entries this sheaf leads: the page, by the trap level that handles it (R319). -/
  lead : Table Nat := []
  /-- Words fetched ahead, by virtual address (R225). -/
  ahead : Table Word := []
  /-- Words of the last instruction issued, so that a wait that ends moves past it. -/
  len : Nat := 1
  deriving DecidableEq, Repr

/-! ### Outstanding accesses (R201, R221, R316) -/

/-- A place in memory: tier, peer and physical (or PCIe) address (R156, R158). -/
structure Loc where
  tier : Nat
  peer : Nat
  addr : Nat
  deriving DecidableEq, Repr

/-- A register place resolved at issue (R86). -/
inductive Place
  | none
  | v (slot : Nat)
  | o (key : Nat)
  | s (key : Nat)
  deriving DecidableEq, Repr

/-- What an outstanding instruction does. -/
inductive OpKind
  | load | ldx | store | atom | red
  | lds | sts | atoms
  | cflush | cinv | rhevict | kvtr | fqry | lmst
  deriving DecidableEq, Repr

/-- One thread's part of an outstanding instruction. -/
structure Access where
  thread : Nat
  va : Nat
  loc : Loc
  /-- The hint of its leaf (R159). -/
  lh : Nat
  x : Val
  e : Val
  done : Bool := false
  /-- A compute RED's element that has left for the base die of a reduction window (R297, R298). -/
  fwd : Bool := false
  deriving DecidableEq, Repr

/-- An instruction issued and not yet done, by its issue number. -/
structure Op where
  kind : OpKind
  sheaf : Nat
  home : Home
  ctx : Nat
  core : Nat
  heath : Bool
  /-- Width type, order code, AR, atomic operation, hint (R87, R207). -/
  ty : BitVec 5
  ord : Nat
  ar : Bool
  aop : Nat
  hint : Nat
  /-- Destination, and how many registers it takes. -/
  dest : Place
  words : Nat
  accs : List Access
  /-- The region recorded at issue, and the fields an imprecise trap reports (R316). -/
  rgnpc : DWord
  rgncnt : Word
  destField : BitVec 7
  ucls : Bool
  mask : Mask
  /-- FIFO markers of a release order (R184). -/
  markers : List (Nat × Nat)
  /-- Clock of issue (R353). -/
  clk : Nat
  /-- Results already fixed: of KVTR and FQRY. -/
  res : List Word
  /-- What its table reads wait for (KVTR). -/
  waits : List WaitOn := []
  deriving DecidableEq, Repr

/-! ### Workgroups, grids, contexts -/

/-- One open join of a quad (R253): shape, and each member's fragments' registers, mask, flags and scales. -/
structure Member where
  sheaf : Nat
  part : Nat
  mask : Mask
  nor : Bool
  aReg : Nat
  bReg : Nat
  scaleA : Word
  scaleB : Word
  /-- Fragment registers as they stood at issue, by (register·16 + thread), A then B. -/
  issueA : Store 32
  issueB : Store 32
  /-- The fragments the lattice has read (R257). -/
  got : Option (Store 32 × Store 32)
  deriving DecidableEq, Repr

structure Join where
  quad : Nat
  tile : Nat
  ty : BitVec 5
  cplx : Bool
  bf : Nat
  members : List Member
  deriving DecidableEq, Repr

/-- One resident workgroup (R13 to R17). -/
structure Wg where
  grid : Nat
  ctx : Nat
  core : Nat
  slot : Nat
  x : Nat
  y : Nat
  z : Nat
  prio : Nat
  nshf : Nat
  nreg : Nat
  spsz : Nat
  rank : Nat
  /-- The workgroups of its cluster by rank; empty when the grid is not cluster-shaped. -/
  peers : List Nat
  /-- The register blocks (SHID, first unit, units) and scratchpad blocks (first granule, granules) it holds (R340). -/
  regBlocks : List (Nat × Nat × Nat)
  spBlocks : List (Nat × Nat)
  lat : Bool
  scratch : Store 8 := []
  marks : List Nat := []
  joins : List Join := []
  /-- Ended by an engine fault, a hurdle fault of an agent or a hardware error (R243, R219, R166). -/
  terminated : Bool := false
  /-- Done, and waiting for its cluster (R17). -/
  done : Bool := false
  /-- Its context has been killed: slot, scratchpad and hurdles are free (R23); what it has issued still runs (R324). -/
  freed : Bool := false
  deriving DecidableEq, Repr

/-- One grid (R20 to R24, R328 to R337). -/
structure Grid where
  ctx : Nat
  gid : Word
  depth : Nat
  parent : Option Nat
  src : QueueRef
  prio : Nat
  desc : List Word
  args : List Word
  gx : Nat
  gy : Nat
  gz : Nat
  nthr : Nat
  fpcr : BitVec 12
  fuse : Bool
  /-- Waited event words: address, threshold, whether it has been read satisfied; and the signalled word. -/
  waits : List (Nat × Word × Bool)
  sig : Nat
  next : Nat := 0
  doneWgs : Nat := 0
  w : Nat := 0
  head : Bool := true
  failed : Bool := false
  deriving DecidableEq, Repr

/-- The context-state block in force (R344). -/
structure CtxBlock where
  ttb : Nat
  ctt : Nat
  atd : Nat
  trt : Nat
  pool : Nat
  flog : Nat
  mlog : Nat
  dqb : Nat
  flogn : Nat
  mlogn : Nat
  dqn : Nat
  dl : Nat
  heath : Bool
  slice : Nat
  deriving DecidableEq, Repr

/-- A residency handle (R223). -/
structure Handle where
  lo : Nat
  hi : Nat
  prio : Nat
  order : Nat
  deriving DecidableEq, Repr

/-- One context (R332 to R347, R326). -/
structure Ctx where
  csb : DWord := 0
  /-- CTL.STATE: 1 created, 2 resident, 3 draining (R347). -/
  state : Nat := 1
  migb : DWord := 0
  instb : DWord := 0
  flogovf : DWord := 0
  axf : BitVec 3 := 0
  flogHead : Word := 0
  flogTail : Word := 0
  mlogHead : Word := 0
  mlogTail : Word := 0
  blk : Option CtxBlock := none
  tsb : DWord := 0
  /-- The next GRID value to try, and the device-side queue: grids not yet head, and the index of the next entry. -/
  nextGid : Word := 0
  dq : List Nat := []
  dqNext : Nat := 0
  handles : Table Handle := []
  inClk : Nat := 0
  inOrder : Nat := 0
  /-- The drain in progress: each core's clock at the request, moved on by the clocks not counted (R326). -/
  drain : Option (Table Nat) := none
  killed : Bool := false
  /-- Destroyed while resident: its number is free once nothing of it is outstanding (R347, R324). -/
  dying : Bool := false
  deriving DecidableEq, Repr

/-! ### Caches -/

/-- A word of an L1 line (R160). -/
structure L1Word where
  val : Word
  dirty : Bool
  owned : Bool
  deriving DecidableEq, Repr

/-- An L1 line: physical line number, effective hint, its valid words. -/
structure L1Line where
  line : Nat
  hint : Nat
  words : Table L1Word
  deriving DecidableEq, Repr

/-- A dirty-line FIFO entry: its line, its position, and the stores it serves (R160, R184). -/
structure FifoEntry where
  line : Nat
  pos : Nat
  by_ : List (Nat × Nat)
  deriving DecidableEq, Repr

/-- An L2 line with its registry (R162, R163). -/
structure L2Line where
  line : Nat
  data : Store 32
  dirty : BitVec 32
  owners : Table Nat
  hint : Nat
  handle : Option (Nat × Nat)
  /-- Its 64-byte sectors whose contents in memory are uncorrectable (R166). -/
  lost : BitVec 2 := 0
  /-- The context whose request brought it in. -/
  ctx : Nat := 4294967296
  deriving DecidableEq, Repr

/-- A cached leaf (R157). -/
structure TlbEntry where
  ctx : Nat
  page : Nat
  block : Bool
  leaf : DWord
  pte : Nat
  deriving DecidableEq, Repr

/-- A page-fault entry (R319): the sheaf that leads it, the union of access types, how many wait, and the host record
posted for it. -/
structure Filter where
  ctx : Nat
  page : Nat
  cluster : Nat
  cores : List Nat
  acc : Nat
  waiters : Nat
  lead : Option Nat
  record : Option Nat
  deriving DecidableEq, Repr

/-- An instruction-cache line: its physical line, the contexts that pin it, and the words it holds: none of a pinned line
whose contents a write at home has dropped (R225, R226). -/
structure IcLine where
  line : Nat
  pins : List Nat
  words : Table Word := []
  deriving DecidableEq, Repr

/-! ### Key-value maps (R264 to R267) -/

/-- The attention descriptor (R264). -/
structure AttDesc where
  smb : Nat
  nseq : Nat
  bts : Nat
  span : Nat
  pair : Bool
  rhalf : Nat
  hdim : Nat
  frq : Nat
  deriving DecidableEq, Repr

/-- A token translated: its position, block, formats, the entry of the block, or none when another device has it. -/
structure KvHit where
  pos : Word
  gbn : Nat
  kf : Nat
  vf : Nat
  blk : Option (List Word)
  deriving DecidableEq, Repr

/-- A row of a KVLD whose token is translated (R273): the descriptor and the translation it uses, and, of a block on another
device, the scale and the raw bytes that device has sent (R267). -/
structure KvOpen where
  desc : AttDesc
  hit : KvHit
  far : List Byte
  deriving DecidableEq, Repr

/-! ### Engines (R227 to R243, R261, R273, R355) -/

inductive EngKind
  | acpy (tag : Nat)
  | bcpy (tmpl : Nat) (st : Bool)
  | gath (pool : Bool)
  | scat
  | kvld (value : Bool)
  | xred (ty : BitVec 5) (rf : Bool)
  | lmsav (tile : Nat)
  | lmrst (tile : Nat)
  deriving DecidableEq, Repr

/-- One thread of an ACPY (R230): destination, source, valid bytes, the places of its first and last page's bytes, the
hint the instruction names, and the hints of the two leaves. -/
structure Copied where
  dst : Nat
  va : Nat
  n : Nat
  first : Loc
  last : Loc
  hint : Nat
  lh : Nat := 0
  lastLh : Nat := 0
  deriving DecidableEq, Repr

/-- An engine request or operation: where it came from, its operands, and how far it is. -/
structure Eng where
  kind : EngKind
  sheaf : Nat
  wg : Nat
  ctx : Nat
  core : Nat
  part : Nat
  pc : DWord
  /-- Accepted, or still queued. -/
  accepted : Bool
  /-- The request block as it stood at issue, and its first register; afterwards the values read. -/
  blk : List Word
  reg : Nat
  lvl : Nat
  acpys : List Copied
  /-- The instruction's cache hint. -/
  hint : Nat
  /-- Words read at acceptance: a template, a table descriptor, an attention descriptor, indices, elements. -/
  words : List Word
  /-- Base, pitch and destination kind of a whole-tile move. -/
  base : Nat
  pitch : Nat
  sp : Bool
  hurdle : Nat
  /-- Pieces whose bytes are written: (first, count). -/
  pieces : List (Nat × Nat)
  /-- Rows of a GATH that are credited (R238). -/
  credited : List Nat := []
  /-- Block registers the engine has read before its acceptance (R229), by register; source words already read, by
  address (R241). -/
  got : Table Word := []
  buf : Table Word := []
  /-- Place in the order of acceptance (R356). -/
  seq : Nat := 0
  /-- What its pieces wait for, and, by piece, the clock at which it began to wait for another device's answer (R353). -/
  waits : List (Nat × WaitOn) := []
  asked : Table Nat := []
  /-- Bytes written ahead of the rest of their piece: (piece, byte) (R241). -/
  early : List (Nat × Nat) := []
  /-- The rows of a KVLD that are translated. -/
  kvs : Table KvOpen := []
  /-- Rows a whole-tile restore has read, or a save has taken from the tile. -/
  rows : Table (List Word)
  /-- A whole-tile move has taken its place in tile order. -/
  tiled : Bool
  /-- Elements of a SCAT whose adds are applied: row·width + element. -/
  applied : List Nat
  /-- The drop counter has been added to. -/
  dropped : Bool
  /-- The engine fault met and not yet taken: cause, address. -/
  fault : Option (Cause × Nat)
  clk : Nat
  deriving DecidableEq, Repr

/-! ### The lattice (R244 to R263, R276) -/

/-- A tile operation accepted and not yet performed (R250). -/
inductive TileOp
  | product (j : Join)
  | lmz (rows : List Nat)
  | lmld (rows : List Nat) (cg : Nat) (vals : Store 32)
  | lmst (op : Nat) (rows : List Nat) (cg : Nat)
  | lmscl (rows : List Nat) (alpha : Bool) (factors : Store 32)
  | lmsav (eng : Nat)
  | lmrst (eng : Nat)
  | smxi (rows : List Nat) (sink : Option (Store 32))
  | smxu (rows : List Nat) (dst no mask : Nat) (qp kp : Word) (qstep : Bool) (scale : Word) (p hurdle : Nat)
      (maskWords : Store 64)
  /-- An SMXU whose row state is written: its rows and tiles, the bytes of P still to be written, and its hurdle (R278). -/
  | smxp (rows : List Nat) (dst no p : Nat) (out : List (Nat × Byte)) (hurdle : Nat)
  | smxn (rows : List Nat)
  deriving DecidableEq, Repr

/-- A lattice operation: its tile, the sheaf and workgroup that issued it. -/
structure Tiled where
  id : Nat
  tile : Nat
  sheaf : Nat
  wg : Nat
  pc : DWord
  op : TileOp
  deriving DecidableEq, Repr

/-- What the tiles and the row state held when ownership left a context (R249). -/
structure Tiles where
  lam : Store 32 := []
  rowM : Store 32 := []
  rowL : Store 32 := []
  rowA : Store 32 := []
  deriving DecidableEq, Repr

/-- A core's lattice and LAM.  LAM words by tile·4096 + row·64 + word; row state by tile·64 + row. -/
structure Lattice where
  owner : Option Nat := none
  /-- The next owner, chosen when the lattice became free and not yet granted it (R247). -/
  next : Option Nat := none
  queue : List Nat := []
  ops : List Tiled := []
  lam : Store 32 := []
  rowM : Store 32 := []
  rowL : Store 32 := []
  rowA : Store 32 := []
  lastCtx : Option Nat := none
  /-- What earlier owners left, for each context but the last owner's. -/
  left : Table Tiles := []
  deriving DecidableEq, Repr

/-- One compute core. -/
structure Core where
  clk : Nat := 0
  l1 : List L1Line := []
  fifo : List FifoEntry := []
  fifoNext : Nat := 0
  marker : Nat := 0
  ic : List IcLine := []
  kv : Table (List Word) := []
  lattice : Lattice := {}
  deriving DecidableEq, Repr

/-! ### Stacks (R283 to R304) -/

/-- The states of a call (R292). -/
inductive CallState
  | refuse (stat : Nat)
  | release
  | queued
  | running (hcore : Nat)
  | returning
  deriving DecidableEq, Repr

/-- A near-memory call (R290 to R295). -/
structure Call where
  ctx : Nat
  wg : Nat
  sheaf : Nat
  core : Nat
  stack : Nat
  entry : DWord
  nsh : Nat
  nreg : Nat
  msg : List Word
  fpcr : BitVec 12
  hurdle : Nat
  status : Nat
  ranges : List (Nat × Nat)
  /-- A virtual address in each page that its flush table's translations cover (R322). -/
  pages : List Nat
  lim : Nat
  prio : Nat
  rel : Release
  state : CallState
  /-- The result record: STAT, CAUSE, SHID, ADDR. -/
  stat : Nat := 0
  cause : Nat := 0
  shid : Nat := 0
  addr : DWord := 0
  /-- The heath core its block ran on, once the block has ended. -/
  ranOn : Option Nat := none
  /-- The caller's workgroup was terminated or its context killed: no record, no arrival. -/
  dead : Bool := false
  pc : DWord
  deriving DecidableEq, Repr

/-- The block running on a heath core. -/
structure Block where
  call : Nat
  ctx : Nat
  nshf : Nat
  nreg : Nat
  scratch : Store 8 := []
  marks : List Nat := []
  winb : DWord := 0
  winl : Word := 0
  winh : Word := 0
  /-- The window's physical lines while it is open (R296, R297). -/
  window : List Nat := []
  deriving DecidableEq, Repr

/-- Fallow segment states (R299). -/
inductive SegState
  | service | install | worn | invalid | failed | out
  deriving DecidableEq, Repr

structure Seg where
  state : SegState := .invalid
  wear : Nat := 0
  deriving DecidableEq, Repr

/-- An accepted install (R302). -/
structure Install where
  ctx : Nat
  wg : Nat
  core : Nat
  src : Nat
  dest : Nat
  len : Nat
  hurdle : Nat
  status : Nat
  segs : List Nat
  done : Nat := 0
  chg : Nat := 0
  started : Bool := false
  dead : Bool := false
  pc : DWord
  grid : Nat
  /-- What its source reads wait for, and whether a host page of them has failed (R350). -/
  waits : List WaitOn := []
  lost : Bool := false
  deriving DecidableEq, Repr

/-- The tier engine's page states (R169). -/
inductive MigState
  | drain | copy | remap | release | releaseOld
  deriving DecidableEq, Repr

structure Migration where
  ctx : Nat
  page : Nat
  pte : Nat
  leaf : DWord
  old : Loc
  new : Loc
  state : MigState
  stat : Nat := 0
  /-- The number of its selection, before which a write to another device is past the hold point; then that of the end of its
  hold, before which what issued was held. -/
  seq : Nat := 0
  deriving DecidableEq, Repr

/-! ### Host, platform -/

/-- A queue slot (R347). -/
structure Slot where
  ctxn : Nat := 0
  prio : Nat := 0
  state : Nat := 0
  rbase : DWord := 0
  rsize : Nat := 0
  rhead : Nat := 0
  /-- Records announced and not yet head (R349), and the grid read last. -/
  ann : Nat := 0
  cur : Option Nat := none
  /-- What the reads of its next record wait for, whether a host page of them has failed (R350), and since when they wait for
  another device's answer (R353). -/
  waits : List WaitOn := []
  lost : Bool := false
  askClk : Option Nat := none
  deriving DecidableEq, Repr

/-- DEVSTAT.STATE (R359), and a device without power. -/
inductive DevState
  | bringup | ready | hold | off
  deriving DecidableEq, Repr

/-- CMTSTAT.STAT (R359). -/
inductive CmtStat
  | idle | busy | ok | badsig | badseq | badformat | full | flashfail
  deriving DecidableEq, Repr

/-- What the module configuration flash keeps (R363 to R365): one copy of it is in force. -/
structure Flash where
  entries : List DWord := []
  seq : Word := 0
  stg : Nat := 64
  key : Option (List Byte) := none
  deriving DecidableEq, Repr

/-- Reports to the host, and messages the device sends (R166, R304, R324, R334, R354, R361). -/
inductive Report
  | killed (ctx : Nat)
  | gridFailed (ctx : Nat) (gid : Word)
  | uncorrectable (addr : Nat)
  | selfRefresh (stack : Nat) (entry : Bool)
  | slotError (slot : Nat)
  | busyStack (stack : Nat)
  | answer (data : List Byte)
  | ack (ok : Bool) (data : List Byte)
  | spdm (code : Nat) (body : List Byte)
  | trip (zone : Nat)
  /-- A frame returned to the driver's pool (R169). -/
  | frameFree (l : Loc)
  /-- A record of the host fault queue, written at an index of it (R321). -/
  | faultRecord (index : Nat) (bytes : List Byte)
  /-- A corrected error, with the number counted so far (R166). -/
  | corrected (count : Nat)
  /-- What a host read of BAR0 returns (R346, R347). -/
  | read (offset : Nat) (v : DWord)
  deriving DecidableEq, Repr

/-- What acts next: a sheaf issues, an event happens, or a choice the spec leaves to the machine or the outside world
(log 2). -/
inductive Act
  /-- The sheaf issues its next instruction. -/
  | issue (k : Nat)
  /-- An event row of the table. -/
  | event (i : Instr)
  /-- Clocks pass: on a core, on a heath core, in the dispatcher (R343). -/
  | tick (core n : Nat)
  | tickHeath (hcore n : Nat)
  | tickDispatch (n : Nat)
  /-- Evictions the caches may make at any time (R160, R162, R157, R164, R225, R268). -/
  | evictL1 (core line : Nat)
  | evictL2 (line : Nat)
  | dropTlb (agent n : Nat)
  | dropStaging (block : Nat)
  | dropIc (core line : Nat)
  | dropKv (core n : Nat)
  | dropBlk (n : Nat)
  /-- A sheaf fetches words ahead (R225). -/
  | fetchAhead (k n : Nat)
  /-- A sector becomes uncorrectable, or good again when it is written or rewritten (R166). -/
  | sector (addr : Nat) (bad : Bool)
  /-- An uncorrectable error in a register file, scratchpad or the LAM of a workgroup (R166). -/
  | unitError (wg : Nat)
  /-- A temperature reading (R359). -/
  | temperature (zone : Nat) (c : Byte)
  /-- The host writes the commit buffer (R364). -/
  | commitBuffer (off : Nat) (bytes : List Byte)
  /-- The host reads BAR0 (R346, R347). -/
  | hostRead (off : Nat)
  /-- An error that the codes correct (R166). -/
  | corrected
  /-- Stage 1 of bring-up has passed, and the stages after it run (R358, R361). -/
  | stage1
  /-- A queued engine request has a register of its block read (R229). -/
  | readReg (op reg : Nat)
  /-- A thread's element of a RED leaves for the base die of an open window (R297). -/
  | forward (op thread : Nat)
  /-- An uncorrectable error that waits is logged (R166). -/
  | eccLogged
  /-- The next read at issue of another device or the host fails: unanswered or refused, or with an uncorrectable error
  (R166, R353). -/
  | readFails (tier peer : Nat) (ecc : Bool)
  /-- An engine operation reads one source word of a piece ahead: word `w` of piece `p`, or of row `p` where it pools (R241). -/
  | wordAhead (op p w : Nat) (data : List Byte)
  /-- An engine operation writes byte `j` of piece `p` ahead of the rest (R241). -/
  | byteAhead (op p j : Nat) (data : List Byte)
  /-- An SMXU writes bytes of P at these scratchpad addresses ahead of the rest (R241, R282). -/
  | softBytes (core op : Nat) (at_ : List Nat)
  /-- An engine operation meets an uncorrectable word, at an offset of its workgroup's scratchpad, that it has still to read (R166,
  R242). -/
  | scratchLost (op a : Nat)
  /-- Another member of a switch reduction group is bound anew (R356). -/
  | rebound (group : Nat)
  deriving DecidableEq, Repr

/-- A prefetch that waits for a staging fill or for a stack in self-refresh (R203): the core, who asks, and where. -/
structure Prefetch where
  core : Nat
  ctx : Nat
  va : Nat
  loc : Loc
  lh : Nat
  hint : Nat
  deriving DecidableEq, Repr

/-- The whole machine. -/
structure State where
  -- agents
  sheafs : Table Sheaf
  ops : Table Op
  wgs : Table Wg
  grids : Table Grid
  ctxs : Table Ctx
  cores : Table Core
  engs : Table Eng
  -- memory: HBM and fallow bytes by physical address (R155)
  mem : List Host.Cell
  l2 : List L2Line
  badSectors : List Nat
  /-- Corrected errors counted (R166), and zero fills and reductions not applied that are not yet logged: context, address. -/
  corrected : Nat
  eccLog : List (Nat × Nat)
  /-- Fault-log records that a stack in self-refresh holds (R304), oldest first: context, bytes. -/
  logWait : List (Nat × List Byte)
  /-- Staging blocks, most recent first, with the hint that placed them (R159, R164). -/
  staging : List (Nat × Nat)
  stagingFills : List (Nat × Nat)
  prefetches : List Prefetch
  tlbs : Table (List TlbEntry)
  filters : List Filter
  fused : Table Nat
  bmCache : Table (List Word)
  packets : Table RemoteRequest
  /-- Peers' key-value block requests that a stack in self-refresh holds, with the export windows as of their arrival (R304,
  R354). -/
  blockWait : List (BlockRequest × Store 128)
  -- stacks
  heathClk : Table Nat
  blocks : Table Block
  calls : Table Call
  segs : Table Seg
  installs : Table Install
  refresh : Table Nat
  migrations : List Migration
  -- host link
  accid : DWord
  bmbase : DWord
  bmcount : DWord
  fqbase : DWord
  fqHead : Nat
  fqTail : Nat
  fqSeq : Nat
  fqOut : List Nat
  irq : BitVec 6
  /-- The MSI-X vectors raised, oldest first (R346, R347). -/
  msix : List Nat
  slots : Table Slot
  xwin : Store 128
  xgrp : Store 64
  /-- The switch port of each of the device's stations, and those of the other members of each group, ascending, as the group's
  first reduction found them (R68, R356; log 112); and the number of the next XRED accepted. -/
  stnPort : Table Nat
  xports : Table (List Nat)
  xseq : Nat
  atc : Table (Nat × Bool)
  atsReq : List Nat
  priReq : List Nat
  /-- Reads at issue that are to fail: tier, peer, and whether with an uncorrectable error (R166, R353). -/
  farFails : List (Nat × Nat × Bool)
  -- dispatcher
  dispClk : Nat
  dispPtr : Nat
  switches : Nat
  -- platform
  dev : DevState
  fstage : Nat
  stage1 : Bool
  lastDb : Nat
  dbRef : Nat
  log : List UnitResult
  cmt : CmtStat
  flash : Flash
  flashNext : Option Flash
  buffer : Store 8
  tzone : Store 8
  descr : Store 8
  reports : List Report
  -- the model's own (log 2)
  agenda : List Act
  cur : Option Nat
  fresh : Nat
  deriving DecidableEq, Repr

/-- The machine right after power-on (R358, R359): BRINGUP, nothing resident, every register of R347 at its reset
value.  Values the spec does not give are named in log 1 and log 10. -/
def State.reset : State where
  sheafs := []
  ops := []
  wgs := []
  grids := []
  ctxs := []
  cores := []
  engs := []
  mem := []
  l2 := []
  badSectors := []
  corrected := 0
  eccLog := []
  logWait := []
  staging := []
  stagingFills := []
  prefetches := []
  tlbs := []
  filters := []
  fused := []
  bmCache := []
  packets := []
  blockWait := []
  heathClk := []
  blocks := []
  calls := []
  segs := []
  installs := []
  refresh := []
  migrations := []
  accid := 0
  bmbase := 0
  bmcount := 0
  fqbase := 0
  fqHead := 0
  fqTail := 0
  fqSeq := 0
  fqOut := []
  irq := 0
  msix := []
  slots := []
  xwin := []
  xgrp := []
  stnPort := []
  xports := []
  xseq := 0
  atc := []
  atsReq := []
  priReq := []
  farFails := []
  dispClk := 0
  dispPtr := 0
  switches := 0
  dev := .bringup
  fstage := 0
  stage1 := false
  lastDb := 0
  dbRef := 0
  log := []
  cmt := .idle
  flash := {}
  flashNext := none
  buffer := []
  tzone := (List.range 8).map fun z => (z, 0xFF)
  descr := []
  reports := []
  agenda := []
  cur := none
  fresh := 0

end Sys2Proof.Machine
end

