-- ==== Sys2Proof/Machine/Image.lean ====
section
/-! DEFINITION. A program placed in the machine from outside (log 3): a device in READY whose first core has one workgroup
of one sheaf, about to issue the words at its PC. -/

namespace Sys2Proof.Machine

/-- The virtual and physical address of the placed words. -/
def codeAt : Nat := 0x40000

/-- Its context's level-1, level-2 and level-3 tables, with one page of code and data, R, W, X, A and D. -/
def placeTables (m : List Host.Cell) : List Host.Cell :=
  let put (m : Store 8) (a v : Nat) : Store 8 := Store.blit m a (bytesLe 8 v)
  put (put (put m 0x10000 0x10001) 0x20000 0x18001) 0x30020 0x20C1F

/-- The context of the placed program. -/
def placedCtx : Ctx :=
  { state := 2
    blk := some { ttb := 0x10000, ctt := 0, atd := 0, trt := 0, pool := 0, flog := 0, mlog := 0, dqb := 0, flogn := 0, mlogn := 0,
                  dqn := 0, dl := 40, heath := false, slice := 0 } }

/-- Its grid, of one workgroup of 16 threads, already dispatched. -/
def placedGrid : Grid :=
  { ctx := 0, gid := 0, depth := 0, parent := none, src := .slot 0, prio := 0, desc := [0x40000, 0, 0x00400001], args := []
    gx := 1, gy := 1, gz := 1, nthr := 16, fpcr := 0, fuse := false, waits := [], sig := 0, next := 1 }

/-- Its workgroup: 512 registers for each thread, all of the scratchpad. -/
def placedWg (grid : Nat) : Wg :=
  { grid := grid, ctx := 0, core := 0, slot := 0, x := 0, y := 0, z := 0, prio := 0, nshf := 1, nreg := 512, spsz := 524288
    rank := 0, peers := [], regBlocks := [(0, 0, 64)], spBlocks := [(0, 128)], lat := true }

/-- Its sheaf, in lane 0. -/
def placedSheaf (wg : Nat) : Sheaf :=
  { home := .wg wg, ctx := 0, core := 0, heath := false, part := 0, shid := 0, slot := 0, status := .issuing, lane := some 0
    pc := 0x40000, live := 0xFFFF, em := 0xFFFF }

/-- The state with three words at the PC of a sheaf that the next step lets issue. -/
def State.placed (s : State) (w : Nat) : State :=
  let k := s.fresh
  { s with
    dev := .ready
    descr := [(8, 0xC0), (16, 0x40), (131, 0x80), (132, 0x0D)]
    mem := Store.blit (placeTables s.mem) codeAt (bytesLe 12 w)
    ctxs := [(0, placedCtx)]
    grids := [(k, placedGrid)]
    wgs := [(k, placedWg k)]
    sheafs := [(k, placedSheaf k)]
    fresh := k + 1
    agenda := [.issue k] }

end Sys2Proof.Machine
end

