-- ==== Sys2Proof/Machine/Sched.lean ====
section
/-! DEFINITION. Sheafs, lanes and swap points (spec/01 R27 to R35), the counters (spec/15 R221, R222), and what the
completion of a wait does. -/

namespace Sys2Proof.Machine

/-! ### Accessors -/

/-- The sheaf of a number. -/
def State.sheaf? (s : State) (k : Nat) : Option Sheaf := s.sheafs.get? k

/-- Change one sheaf. -/
def State.onSheaf (s : State) (k : Nat) (g : Sheaf → Sheaf) : State := { s with sheafs := s.sheafs.upd k g }

/-- A compute core; one that nothing has touched is as at reset. -/
def State.core (s : State) (c : Nat) : Core := (s.cores.get? c).getD {}

/-- Change one compute core. -/
def State.onCore (s : State) (c : Nat) (g : Core → Core) : State := { s with cores := s.cores.put c (g (s.core c)) }

def State.wg? (s : State) (w : Nat) : Option Wg := s.wgs.get? w
def State.onWg (s : State) (w : Nat) (g : Wg → Wg) : State := { s with wgs := s.wgs.upd w g }
def State.grid? (s : State) (g : Nat) : Option Grid := s.grids.get? g
def State.onGrid (s : State) (g : Nat) (h : Grid → Grid) : State := { s with grids := s.grids.upd g h }
def State.ctx? (s : State) (c : Nat) : Option Ctx := s.ctxs.get? c
def State.onCtx (s : State) (c : Nat) (g : Ctx → Ctx) : State := { s with ctxs := s.ctxs.upd c g }
def State.onOp (s : State) (n : Nat) (g : Op → Op) : State := { s with ops := s.ops.upd n g }
def State.onEng (s : State) (n : Nat) (g : Eng → Eng) : State := { s with engs := s.engs.upd n g }
def State.onCall (s : State) (n : Nat) (g : Call → Call) : State := { s with calls := s.calls.upd n g }
def State.onBlock (s : State) (h : Nat) (g : Block → Block) : State := { s with blocks := s.blocks.upd h g }
def State.report (s : State) (r : Report) : State := { s with reports := s.reports ++ [r] }

/-- Raise an interrupt cause bit and its MSI-X vector (R347; the vector has the bit's number, log 107). -/
def State.raiseIrq (s : State) (bit : Nat) : State := { s with irq := s.irq ||| (1#6 <<< bit), msix := s.msix ++ [bit] }

/-- A new number for a sheaf, operation, request or grid. -/
def State.newId (s : State) : Nat × State := (s.fresh, { s with fresh := s.fresh + 1 })

/-- The clock of the core a sheaf runs on (R3, R289). -/
def State.clkOf (s : State) (sh : Sheaf) : Nat :=
  if sh.heath then (s.heathClk.get? sh.core).getD 0 else (s.core sh.core).clk

/-! ### Clusters (R17, R161, R338, R363, R366) -/

/-- The CMAP byte of a logical core: bit 7 die, bits 6:0 physical core (R366). -/
def State.cmap (s : State) (core : Nat) : Nat := (s.descr.get (256 + core)).toNat

/-- The physical cluster of a logical core: die·32 + physical core ÷ 4. -/
def State.cluster (s : State) (core : Nat) : Nat :=
  let b := s.cmap core
  (b / 128) * 32 + (b % 128) / 4

/-- The number of enabled cores, NCORE (R366). -/
def State.ncore (s : State) : Nat := leNat (s.descr.slice 8 4)

/-- The enabled logical cores of a physical cluster, in ascending order. -/
def State.clusterCores (s : State) (g : Nat) : List Nat :=
  (List.range s.ncore).filter fun c => s.cluster c = g

/-- Whether a core's cluster is fused. -/
def State.isFused (s : State) (core : Nat) : Bool := (s.fused.get? (s.cluster core)).isSome

/-- The core whose L1 holds a line for a core: in a fused cluster, the slice of line address bits 8:7 (R161). -/
def State.slice (s : State) (core line : Nat) : Nat :=
  if s.fused = [] then core
  else if s.isFused core then
    ((s.clusterCores (s.cluster core)).find? fun c => (s.cmap c) % 4 = line % 4).getD core
  else core

/-- The cores whose L1s and FIFOs a release or acquire of a core concerns (R184, R185). -/
def State.slices (s : State) (core : Nat) : List Nat :=
  if s.fused = [] then [core] else if s.isFused core then s.clusterCores (s.cluster core) else [core]

/-! ### Lanes (R27 to R31) -/

/-- Lanes and pending entries of a partition (R27, R283). -/
def Sheaf.lanes (sh : Sheaf) : Nat := if sh.heath then 8 else 32
def Sheaf.pendingMax (sh : Sheaf) : Nat := if sh.heath then 24 else 32

/-- Whether two sheafs share a partition. -/
def Sheaf.mate (a b : Sheaf) : Bool := a.core = b.core && a.heath = b.heath && a.part = b.part

/-- The resident sheafs of a sheaf's partition. -/
def State.mates (s : State) (sh : Sheaf) : Table Sheaf :=
  s.sheafs.filter fun e => e.2.mate sh && e.2.status ≠ .exited

/-- The resident workgroups: those whose resources a kill has freed are resident no more (R23). -/
def State.resident (s : State) : Table Wg := s.wgs.filter fun e => !e.2.freed

/-- R335: a context's launch priority on a core, the highest among its workgroups resident there. -/
def State.ctxPrio (s : State) (ctx core : Nat) : Nat :=
  s.resident.foldl (fun m e => if e.2.ctx = ctx ∧ e.2.core = core then max m e.2.prio else m) 0

/-- R30: whether ready sheaf `a` goes before ready sheaf `b`: higher launch priority, then earlier ready, then lower slot. -/
def State.before (s : State) (a b : Sheaf) : Bool :=
  let pa := s.ctxPrio a.ctx a.core
  let pb := s.ctxPrio b.ctx b.core
  if pa ≠ pb then pb < pa else if a.readyClk ≠ b.readyClk then a.readyClk < b.readyClk else a.slot < b.slot

/-- R30: the ready pending sheaf an idle lane takes. -/
def State.nextReady (s : State) (sh : Sheaf) : Option Nat :=
  (s.mates sh).foldl (fun best e =>
    if e.2.status = .ready then
      match best with
      | none => some e.1
      | some b =>
        match s.sheaf? b with
        | some bs => if s.before e.2 bs then some e.1 else best
        | none => some e.1
    else best) none

/-- The lowest lane of a partition that no sheaf holds. -/
def State.idleLane (s : State) (sh : Sheaf) : Option Nat :=
  (List.range sh.lanes).find? fun l => !((s.mates sh).any fun e => e.2.lane = some l)

/-- R30: give one idle lane of the partition to the next ready pending sheaf. -/
def State.grantLane (s : State) (sh : Sheaf) : State :=
  match s.idleLane sh, s.nextReady sh with
  | some l, some k =>
    s.onSheaf k fun t => { t with lane := some l, laneClk := s.clkOf t, status := .issuing }
  | _, _ => s

/-- R27, R30: give idle lanes, in ascending lane number, until no lane is idle or no sheaf is ready. -/
def State.grantLanes (s : State) (sh : Sheaf) : Nat → State
  | 0 => s
  | n + 1 => State.grantLanes (s.grantLane sh) sh n

/-- All four latches invalid (R83). -/
def Sheaf.dropLatches (sh : Sheaf) : Sheaf := { sh with y0 := {}, y1 := {}, y2 := {}, y3 := {} }

/-- The sheafs of a partition that hold no lane. -/
def State.pendingCount (s : State) (sh : Sheaf) : Nat :=
  ((s.mates sh).filter fun e => e.2.lane.isNone).length

/-- R29: a swap point.  `w` is what the sheaf waits for, or none when it stays ready (YIELD, trap entry, TRET, branch). -/
def State.swapPoint (s : State) (k : Nat) (w : Option Wait) : State :=
  let s := s.onSheaf k Sheaf.dropLatches
  match s.sheaf? k with
  | none => s
  | some sh =>
    let gone (t : Sheaf) : Sheaf :=
      { t with lane := none, readyClk := s.clkOf sh, status := match w with | some w => .waiting w | none => .ready }
    if s.pendingCount sh < sh.pendingMax then
      (s.onSheaf k gone).grantLanes sh 1
    else
      match s.nextReady sh with
      | some k2 =>
        let s := s.onSheaf k gone
        s.onSheaf k2 fun t => { t with lane := sh.lane, laneClk := s.clkOf t, status := .issuing }
      | none => s.onSheaf k fun t => { t with status := match w with | some w => .parked w | none => .issuing }

/-- R34: a waiting sheaf becomes ready, and takes a lane if one is idle. -/
def State.wake (s : State) (k : Nat) : State :=
  match s.sheaf? k with
  | none => s
  | some sh =>
    match sh.status with
    | .waiting _ => (s.onSheaf k fun t => { t with status := .ready, readyClk := s.clkOf sh }).grantLanes sh 1
    | .parked _ | .stalled _ => s.onSheaf k fun t => { t with status := .issuing }
    | _ => s

/-! ### Acquires (R179, R185, R225) -/

/-- R185: drop every valid word of an L1 that its core does not own. -/
def L1Line.selfInvalidate (l : L1Line) : L1Line := { l with words := l.words.filter fun w => w.2.owned }

/-- R185: an acquire applied to a core, or to all slices of its fused cluster. -/
def State.acquireCore (s : State) (core : Nat) : State :=
  (s.slices core).foldl (fun s c => s.onCore c fun t =>
    { t with l1 := (t.l1.map L1Line.selfInvalidate).filter fun l => l.words ≠ [] }) s

/-- An acquire of a sheaf: its core's L1 (R185) and its words fetched ahead (R225).  A heath core has no L1 (R283). -/
def State.acquire (s : State) (k : Nat) : State :=
  match s.sheaf? k with
  | none => s
  | some sh =>
    let s := if sh.heath then s else s.acquireCore sh.core
    s.onSheaf k fun t => { t with ahead := [] }

/-- The next instruction in program order. -/
def Sheaf.advance (sh : Sheaf) : Sheaf := { sh with pc := sh.pc + BitVec.ofNat 64 (4 * sh.len) }

/-- A wait at an instruction ends: the instruction completes, as an acquire where the rule says so, and the sheaf
becomes ready (R213, R218, R222). -/
def State.endWait (s : State) (k : Nat) (acq : Bool) : State :=
  let s := if acq then s.acquire k else s
  (s.onSheaf k Sheaf.advance).wake k

/-- R34: a waiting sheaf becomes ready; it has no lane yet. -/
def State.makeReady (s : State) (k : Nat) : State :=
  s.onSheaf k fun t =>
    match t.status with
    | .waiting _ => { t with status := .ready, readyClk := s.clkOf t }
    | .parked _ | .stalled _ => { t with status := .issuing }
    | _ => t

/-- R30: lanes that are idle go to the sheafs that are ready, one for each of these. -/
def State.grantEach (s : State) (shs : List Sheaf) : State := shs.foldl (fun s sh => s.grantLanes sh 1) s

/-- R30: the waits of several sheafs end in one clock: all of them are ready before a lane is given. -/
def State.endWaits (s : State) (ks : List Nat) (acq : Bool) : State :=
  let t := ks.foldl (fun s k => ((if acq then s.acquire k else s).onSheaf k Sheaf.advance).makeReady k) s
  t.grantEach (ks.filterMap s.sheaf?)

/-- What a sheaf waits for at a swap point. -/
def Sheaf.waitsFor (sh : Sheaf) : Option Wait :=
  match sh.status with
  | .waiting w | .parked w => some w
  | _ => none

/-! ### Counters (R221, R222) -/

/-- The value of a counter; LD counts from the oldest instruction not done to the newest. -/
def Sheaf.counter (sh : Sheaf) : Path → Nat
  | .ld => sh.ld.length
  | .st => sh.st
  | .ac0 => sh.ac0
  | .ac1 => sh.ac1
  | .ac2 => sh.ac2
  | .mx => sh.mx
  | .en => sh.en

/-- Add one to a completion-order counter. -/
def Sheaf.incr (sh : Sheaf) : Path → Sheaf
  | .ld => sh
  | .st => { sh with st := sh.st + 1 }
  | .ac0 => { sh with ac0 := sh.ac0 + 1 }
  | .ac1 => { sh with ac1 := sh.ac1 + 1 }
  | .ac2 => { sh with ac2 := sh.ac2 + 1 }
  | .mx => { sh with mx := sh.mx + 1 }
  | .en => { sh with en := sh.en + 1 }

/-- Take one from a completion-order counter. -/
def Sheaf.decr (sh : Sheaf) : Path → Sheaf
  | .ld => sh
  | .st => { sh with st := sh.st - 1 }
  | .ac0 => { sh with ac0 := sh.ac0 - 1 }
  | .ac1 => { sh with ac1 := sh.ac1 - 1 }
  | .ac2 => { sh with ac2 := sh.ac2 - 1 }
  | .mx => { sh with mx := sh.mx - 1 }
  | .en => { sh with en := sh.en - 1 }

/-- R221: an LD-counted instruction issues. -/
def Sheaf.countLd (sh : Sheaf) (op : Nat) : Sheaf := { sh with ld := sh.ld ++ [(op, false)] }

/-- R221: an LD-counted instruction is done; the counter falls past every done instruction at its old end. -/
def Sheaf.doneLd (sh : Sheaf) (op : Nat) : Sheaf :=
  { sh with ld := (sh.ld.map fun e => if e.1 = op then (e.1, true) else e).dropWhile fun e => e.2 }

/-- R179: whether a CWAIT on a path is an acquire. -/
def Path.acquires : Path → Bool
  | .ac0 | .ac1 | .ac2 => true
  | _ => false

/-- R222: a counter fell: a CWAIT that is now satisfied ends. -/
def State.counted (s : State) (k : Nat) : State :=
  match s.sheaf? k with
  | none => s
  | some sh =>
    match sh.status with
    | .waiting (.cwait p n) | .parked (.cwait p n) => if sh.counter p ≤ n then s.endWait k p.acquires else s
    | _ => s

/-- A completion-order counter falls. -/
def State.decr (s : State) (k : Nat) (p : Path) : State := (s.onSheaf k fun t => t.decr p).counted k

/-- An LD-counted instruction is done. -/
def State.doneLd (s : State) (k op : Nat) : State := (s.onSheaf k fun t => t.doneLd op).counted k

/-! ### Monitors (R212, R213) -/

/-- R212: an event on a physical line fires every monitor armed on it; an MWAIT that waits on one ends, as an acquire.
Compute sheafs arm on the line at its home L2, heath sheafs on the line in HBM (R288). -/
def State.fire (s : State) (heath : Bool) (line : Nat) : State :=
  let hit (sh : Sheaf) : Bool :=
    ((sh.mon.map fun (m : Monitor) => decide (m.line = line)).getD false) && sh.heath = heath && sh.status ≠ .exited
  if s.sheafs.all fun e => !hit e.2 then s
  else
    let fired (sh : Sheaf) : Sheaf :=
      if !hit sh then sh
      else { sh with mon := if sh.waitsFor = some .mwait then none else sh.mon.map fun m => { m with fired := true } }
    { s with sheafs := s.sheafs.mapv fired }.endWaits
      ((s.sheafs.filter fun (e : Nat × Sheaf) => hit e.2 && e.2.waitsFor = some Wait.mwait).map fun (e : Nat × Sheaf) => e.1) true

/-- R212: events on every line of a kind, as an install's or a migration's, line by line (log 129). -/
def State.fireWhere (s : State) (p : Nat → Bool) : State :=
  ((s.sheafs.filterMap fun (e : Nat × Sheaf) => e.2.mon.map fun (m : Monitor) => m.line).filter p).foldl
    (fun s l => s.fire false l) s

end Sys2Proof.Machine
end

