-- ==== Sys2Proof/Machine/Memory.lean ====
section
/-! DEFINITION. Memory: physical addresses (R155), HBM and fallow bytes, the home L2 and its registry (R162, R163,
R183), the L1 (R160, R182, R185, R186), page tables and TLBs (R156, R157). -/

namespace Sys2Proof.Machine

/-! ### Physical addresses (R155) -/

/-- The line, and the word within its line, of a physical address. -/
def lineOf (pa : Nat) : Nat := pa / 128
def wordIn (pa : Nat) : Nat := (pa / 4) % 32

def isHbm (pa : Nat) : Bool := pa < 0x8000000000
def isFallow (pa : Nat) : Bool := 0x100000000000 ≤ pa && pa < 0x140000000000

/-- The HBM stack, fallow stack, segment number (fallow stack·32,768 + segment) and die of a physical address. -/
def stackOf (pa : Nat) : Nat := (pa / 2 ^ 36) % 8
def fallowStack (pa : Nat) : Nat := (pa / 2 ^ 40) % 4
def segOf (pa : Nat) : Nat := fallowStack pa * 32768 + (pa / 2 ^ 25) % 32768
def dieOf (pa : Nat) : Nat := if isFallow pa then fallowStack pa / 2 else stackOf pa / 4

/-- The usable limit of an HBM stack (R366). -/
def State.ulim (s : State) (stack : Nat) : Nat := leNat (s.descr.slice (128 + 8 * stack) 8)

/-- A fallow segment; one that nothing has installed is new (R299). -/
def State.seg (s : State) (n : Nat) : Seg := (s.segs.get? n).getD {}

/-- R155: whether `n` bytes lie wholly within one HBM slot and below its usable limit. -/
def State.usableHbm (s : State) (pa n : Nat) : Bool :=
  isHbm pa && pa % 2 ^ 36 + n ≤ s.ulim (stackOf pa)

/-- R155, R165: whether `n` bytes lie wholly in the fallow range, in segments in service; a block with one segment out of service
is not, its other segments included (log 131). -/
def State.usableFallow (s : State) (pa n : Nat) : Bool :=
  isFallow pa && isFallow (pa + n - 1)
    && (List.range ((n + 2 ^ 25 - 1) / 2 ^ 25)).all fun i => (s.seg (segOf (pa + i * 2 ^ 25))).state ≠ .out

/-! ### Bytes (R4, R155, R166) -/

/-- A 32-bit word of HBM or flash, little-endian. -/
def State.rawWord (s : State) (pa : Nat) : Word :=
  let a := pa / 4 * 4
  wordOf (Store.get s.mem a) (Store.get s.mem (a + 1)) (Store.get s.mem (a + 2)) (Store.get s.mem (a + 3))

/-- The 4-byte words that `n` bytes at an address cover. -/
def wordsAt (pa n : Nat) : List Nat := (List.range ((pa % 4 + n + 3) / 4)).map fun i => pa / 4 * 4 + 4 * i

/-- Write bytes to HBM or flash. -/
def State.rawWrite (s : State) (pa : Nat) (bs : List Byte) : State := { s with mem := Store.blit s.mem pa bs }

/-- R166: whether a physical address lies in an uncorrectable 64-byte sector. -/
def State.bad (s : State) (pa : Nat) : Bool := s.badSectors.contains (pa / 64)

/-- R166: the words of a line's sector. -/
def sectorMask (h : Nat) : BitVec 32 := 0xFFFF#32 <<< (16 * h)

/-- R225: instruction caches drop what they hold of a line: a pinned line stays, without its contents. -/
def State.icDrop (s : State) (p : Nat → Bool) : State :=
  let drop (l : IcLine) : Option IcLine :=
    if !p l.line then some l else if l.pins = [] then none else some { l with words := [] }
  if s.cores.all fun c => c.2.ic.all fun l => !p l.line then s
  else { s with cores := s.cores.mapv fun c => { c with ic := c.ic.filterMap drop } }

/-- R166: write some words of a line back to HBM: of an uncorrectable sector the other words are written as zero, the
codes are good again, and the zero fill is reported, and logged to the context that owns the line. -/
def State.writeBack (s : State) (ctx line : Nat) (data : Store 32) (ws : BitVec 32) : State :=
  let bad (h : Nat) : Bool := s.badSectors.contains (2 * line + h)
  let s := (List.range 32).foldl (fun s w =>
    if ws.getLsbD w then s.rawWrite (128 * line + 4 * w) (bytesOf (data.get w))
    else if bad (w / 16) && (List.range 16).any (fun i => ws.getLsbD (16 * (w / 16) + i)) then
      s.rawWrite (128 * line + 4 * w) [0, 0, 0, 0]
    else s) s
  [0, 1].foldl (fun s h =>
    if bad h && (List.range 16).any fun i => ws.getLsbD (16 * h + i) then
      let s := { s with badSectors := s.badSectors.filter (· ≠ 2 * line + h) }
      if (List.range 16).all fun i => ws.getLsbD (16 * h + i) then s
      else
        let s := { s with eccLog := s.eccLog ++ [(ctx, 128 * line + 64 * h)] }.icDrop fun l => l = line
        (s.report (.uncorrectable (128 * line + 64 * h))).raiseIrq 4
    else s) s

/-! ### The home L2 (R162, R163, R183) -/

/-- The L2 line of a number. -/
def State.l2? (s : State) (line : Nat) : Option L2Line := s.l2.find? fun l => l.line = line

/-- Change one L2 line. -/
def State.onL2 (s : State) (line : Nat) (g : L2Line → L2Line) : State :=
  { s with l2 := s.l2.map fun l => if l.line = line then g l else l }

/-- R166: whether reading a word at home meets an uncorrectable sector: the sector's contents in memory are lost, and
neither the L2 nor an owner has a written value of the word. -/
def State.unreadable (s : State) (pa : Nat) : Bool :=
  match s.l2? (lineOf pa) with
  | none => s.bad pa
  | some l =>
    l.lost.getLsbD (wordIn pa / 16) && !l.dirty.getLsbD (wordIn pa) && (l.owners.get? (wordIn pa)).isNone

/-- R166: whether any word of `n` bytes meets one. -/
def State.lostIn (s : State) (pa n : Nat) : Bool := (wordsAt pa n).any s.unreadable

/-- R169: a write to a frame the tier engine has frozen is held. -/
def State.frozen (s : State) (l : Loc) : Bool :=
  s.migrations.any fun m => m.old.tier = l.tier && m.old.peer = l.peer && m.old.addr / 65536 = l.addr / 65536
    && (match m.state with | .drain | .copy | .remap => true | .release | .releaseOld => false)

/-- A line of this device's own memory, as a location. -/
def lineLoc (line : Nat) : Loc := { tier := if isFallow (128 * line) then 1 else 0, peer := 0, addr := 128 * line }

/-- A core's L1 line and word. -/
def State.l1? (s : State) (core line : Nat) : Option L1Line := (s.core core).l1.find? fun l => l.line = line
def State.l1Word? (s : State) (core pa : Nat) : Option L1Word :=
  (s.l1? core (lineOf pa)).bind fun l => l.words.get? (wordIn pa)

/-- Change one L1 line; a line with no valid word leaves. -/
def State.onL1 (s : State) (core line : Nat) (g : L1Line → L1Line) : State :=
  s.onCore core fun c =>
    { c with l1 := (c.l1.map fun l => if l.line = line then g l else l).filter fun l => l.words ≠ [] || l.line ≠ line }

/-- R183: the latest value of a word in the coherence order: its owner's, else the home L2's, else memory's. -/
def State.peek (s : State) (pa : Nat) : Word :=
  match s.l2? (lineOf pa) with
  | none => s.rawWord pa
  | some l =>
    match (l.owners.get? (wordIn pa)).bind fun c => s.l1Word? c pa with
    | some w => w.val
    | none => l.data.get (wordIn pa)

/-- Bytes by coherent value, low address first. -/
def State.peekByte (s : State) (pa : Nat) : Byte := (s.peek pa).extractLsb' (8 * (pa % 4)) 8
def State.peekBytes (s : State) (pa n : Nat) : List Byte := (List.range n).map fun i => s.peekByte (pa + i)
def State.peek64 (s : State) (pa : Nat) : DWord := s.peek (pa + 4) ++ s.peek pa

/-- R183: an owner writes a dirty word back to the home L2 and keeps it, clean. -/
def State.ownerWrites (s : State) (line w : Nat) : State :=
  match (s.l2? line).bind fun l => l.owners.get? w with
  | none => s
  | some c =>
    match (s.l1? c line).bind fun l => l.words.get? w with
    | some lw =>
      if lw.dirty then
        let s := s.onL2 line fun l => { l with data := l.data.set w lw.val, dirty := l.dirty ||| (1#32 <<< w) }
        s.onL1 c line fun l => { l with words := l.words.upd w fun x => { x with dirty := false } }
      else s
    | none => s

/-- R183: a read that reaches the home L2 for a word another core owns: the owner writes it back first, a recall (R212). -/
def State.recall (s : State) (line w : Nat) : State :=
  if ((s.l2? line).bind fun l => l.owners.get? w).isSome then (s.ownerWrites line w).fire false line else s

/-- Owners of a line's words end, their copies staying valid and not owned; `drop` also invalidates the copies. -/
def State.disown (s : State) (line : Nat) (drop : Bool) (only : Nat → Nat → Bool) : State :=
  match s.l2? line with
  | none => s
  | some l =>
    let s := l.owners.foldl (fun s e =>
      if only e.1 e.2 then
        s.onL1 e.2 line fun x =>
          if drop then { x with words := x.words.del e.1 }
          else { x with words := x.words.upd e.1 fun y => { y with owned := false, dirty := false } }
      else s) s
    s.onL2 line fun x => { x with owners := x.owners.filter fun e => !only e.1 e.2 }

/-- R162, R163, R190: recall every owner of a line, writing dirty words back to the L2; their ownership ends. -/
def State.recallLine (s : State) (line : Nat) (drop : Bool) : State :=
  match s.l2? line with
  | none => s
  | some l =>
    if l.owners = [] then s
    else
      let s := (l.owners.foldl (fun s e => s.ownerWrites line e.1) s)
      (s.disown line drop fun _ _ => true).fire false line

/-- R166: a line whose dirty words have been written back: in a lost sector that was written, the other words are zero. -/
def L2Line.cleaned (l : L2Line) : L2Line :=
  let good (h : Nat) : Bool := l.lost.getLsbD h && l.dirty &&& sectorMask h ≠ 0#32
  { l with
    dirty := 0#32
    data := (List.range 32).foldl (fun (d : Store 32) w =>
      if good (w / 16) && !l.dirty.getLsbD w then d.set w 0 else d) l.data
    lost := l.lost &&& ~~~(BitVec.ofBool (good 1) ++ BitVec.ofBool (good 0)) }

/-- Write a line's dirty L2 words to memory: a write the base die performs (R288). -/
def State.cleanLine (s : State) (line : Nat) : State :=
  match s.l2? line with
  | none => s
  | some l =>
    if l.dirty = 0#32 then s
    else ((s.writeBack l.ctx line l.data l.dirty).onL2 line L2Line.cleaned).fire true line

/-- R225: whether instruction caches hold a clean line of the home L2 that differs from memory, which heath cores and base dies
write: what the home holds changes when it leaves. -/
def State.overwritten (s : State) (line : Nat) : Bool :=
  s.cores.any (fun c => c.2.ic.any fun l => l.line = line) &&
    match s.l2? line with
    | none => false
    | some l => (List.range 32).any fun w => l.data.get w ≠ s.rawWord (128 * line + 4 * w)

/-- A line leaves its home L2 (R162): owners recalled, dirty words written back; a monitor on it fires (R212). -/
def State.evictLine (s : State) (line : Nat) : State :=
  match s.l2? line with
  | none => s
  | some _ =>
    let s := (s.recallLine line false).cleanLine line
    let s := if s.overwritten line then s.icDrop fun l => l = line else s
    { s with l2 := s.l2.filter fun l => l.line ≠ line }.fire false line

/-- A number no context has: a request that joins no handle, as of a page-table entry. -/
def noCtx : Nat := 2 ^ 32

/-- Who asks for a line: a context and virtual address, for the handles, the hint, and the leaf's hint (R159, R163). -/
structure Req where
  ctx : Nat := noCtx
  va : Nat := 0
  hint : Nat := 0
  leaf : Nat := 0
  deriving DecidableEq, Repr

/-- R163, R223: the handle a line joins at its fill: the highest priority that covers it, the lower index among equals. -/
def State.handleFor (s : State) (r : Req) : Option (Nat × Nat) :=
  match s.ctx? r.ctx with
  | none => none
  | some c =>
    (List.foldl (fun (best : Option (Nat × Handle)) (e : Nat × Handle) =>
      if e.2.lo ≤ r.va ∧ r.va < e.2.hi then
        match best with
        | none => some e
        | some b => if b.2.prio < e.2.prio ∨ (b.2.prio = e.2.prio ∧ e.1 < b.1) then some e else best
      else best) none c.handles).map fun (b : Nat × Handle) => (r.ctx, b.1)

/-- A handle's record. -/
def State.handle? (s : State) (h : Nat × Nat) : Option Handle := (s.ctx? h.1).bind fun c => c.handles.get? h.2

/-- R163 rule 5: evict a handle whole. -/
def State.evictHandle (s : State) (h : Nat × Nat) : State :=
  (s.l2.filter fun l => l.handle = some h).foldl (fun s l => s.evictLine l.line) s

/-- R163 rule 4: lines of handles on one die at their limit, 576 MiB. -/
def State.handledFull (s : State) (die : Nat) : Bool :=
  4718592 ≤ (s.l2.filter fun l => l.handle.isSome && dieOf (128 * l.line) = die).length

/-- R163 rule 3: the handle of lowest priority with lines on a die, the earliest defined among equals. -/
def State.lowestHandle (s : State) (die : Nat) : Option (Nat × Nat) :=
  s.l2.foldl (fun best l =>
    match l.handle with
    | none => best
    | some h =>
      if dieOf (128 * l.line) ≠ die then best
      else
        match best with
        | none => some h
        | some b =>
          match s.handle? h, s.handle? b with
          | some x, some y => if x.prio < y.prio ∨ (x.prio = y.prio ∧ x.order < y.order) then some h else best
          | _, _ => best) none

/-- R164, R367: the HBM stacks of a die that have a share of the staging cache: those with a channel in service. -/
def State.stagingStacks (s : State) (die : Nat) : List Nat :=
  ((List.range 4).map fun j => 4 * die + j).filter fun k => leNat (s.descr.slice (96 + 4 * k) 4) ≠ 0

/-- R164: the stack whose share of its die's half holds a block (log 109). -/
def State.stagingStack (s : State) (block : Nat) : Option Nat :=
  let l := s.stagingStacks (dieOf (65536 * block))
  l[block % l.length]?

/-- The HBM stack that a read of an address at its home L2 needs: its own, or, of flash, that of its staging block. -/
def State.stackNeeded (s : State) (pa : Nat) : Option Nat :=
  if isHbm pa then some (stackOf pa)
  else if (s.staging ++ s.stagingFills).any fun b => b.1 = pa / 65536 then s.stagingStack (pa / 65536)
  else none

/-- R304: the stack in self-refresh that holds a read of an address at its home L2, or by a base die (`heath`). -/
def State.heldStack (s : State) (heath : Bool) (pa : Nat) : Option Nat :=
  if s.refresh ≠ [] ∧ (heath ∨ (s.l2? (lineOf pa)).isNone) then
    (s.stackNeeded pa).bind fun st => if (s.refresh.get? st).isSome then some st else none
  else none

/-- R304: a request that needs HBM of a stack held in self-refresh. -/
def State.heldAt (s : State) (heath : Bool) (pa : Nat) : Bool := (s.heldStack heath pa).isSome

/-- Whether an owner of a line's words holds a dirty one. -/
def State.ownedDirty (s : State) (line : Nat) : Bool :=
  match s.l2? line with
  | none => false
  | some l => l.owners.any fun e => (((s.l1? e.2 line).bind fun x => x.words.get? e.1).map fun w => w.dirty).getD false

/-- R304: whether a write-back that evicting or cleaning an L2 line needs is held by its stack in self-refresh. -/
def State.flushStalls (s : State) (line : Nat) : Bool :=
  s.heldAt true (128 * line) && ((s.l2? line).map fun l => l.dirty ≠ 0#32 || l.owners ≠ []).getD false

/-- R169, R304: whether it is held so, or, of an owner's dirty word, by a frozen frame. -/
def State.flushHeld (s : State) (line : Nat) : Bool :=
  s.flushStalls line || (s.frozen (lineLoc line) && s.ownedDirty line)

/-- The line that a request brings into its home L2, its contents as memory has them. -/
def State.newL2 (s : State) (r : Req) (line : Nat) (h : Option (Nat × Nat)) : L2Line :=
  { line := line, dirty := 0#32, owners := [], hint := r.hint, handle := h, ctx := r.ctx
    data := (List.range 32).foldl (fun (d : Store 32) w => d.set w (s.rawWord (128 * line + 4 * w))) []
    lost := BitVec.ofBool (s.bad (128 * line + 64)) ++ BitVec.ofBool (s.bad (128 * line)) }

/-- R159: put a line at the place its hint gives: most recent, or least recent for stream and bypass. -/
def State.putL2 (s : State) (l : L2Line) : State :=
  { s with l2 := if l.hint = 2 ∨ l.hint = 3 then s.l2 ++ [l] else l :: s.l2 }

/-- R1: how many lines the L2 of a die holds: 768 MiB (log 8); those in it; whether it is full. -/
def l2Size : Nat := 6291456
def State.l2Count (s : State) (die : Nat) : Nat := (s.l2.filter fun l => dieOf (128 * l.line) = die).length
def State.dieFull (s : State) (die : Nat) : Bool := l2Size ≤ s.l2Count die

/-- R159, R163 rule 2: the unhandled line a full die gives up: the least recent whose hint is not keep, else the least
recent, of those whose write-back is not held. -/
def State.l2Victim (s : State) (die : Nat) : Option Nat :=
  let set := s.l2.filter fun l => dieOf (128 * l.line) = die && l.handle.isNone && !s.flushHeld l.line
  match (set.filter fun l => l.hint ≠ 1).getLast? with
  | some l => some l.line
  | none => set.getLast?.map fun l => l.line

/-- Whether a handle can be evicted whole now. -/
def State.handleHeld (s : State) (h : Nat × Nat) : Bool := s.l2.any fun l => l.handle = some h && s.flushHeld l.line

/-- R163 rule 3: a fill that finds only handled lines: none when it is served without allocation, else the state with the
candidate handle evicted whole. -/
def State.displace (s : State) (die : Nat) (h : Option (Nat × Nat)) : Option State :=
  match s.lowestHandle die with
  | none => none
  | some low =>
    if s.handleHeld low then none
    else match h.bind s.handle?, s.handle? low with
    | some x, some y => if x.prio ≤ y.prio then none else some (s.evictHandle low)
    | _, _ => some (s.evictHandle low)

/-- R163 rules 2 to 4: room for a line of a handle, or of none. -/
def State.roomL2 (s : State) (line : Nat) (h : Option (Nat × Nat)) : Option State :=
  let die := dieOf (128 * line)
  if h.isSome && s.handledFull die then s.displace die h
  else if s.dieFull die then
    match s.l2Victim die with
    | some v => some (s.evictLine v)
    | none => s.displace die h
  else some s

/-- R159: a line that is present keeps its hint; it becomes the most recent, but stays in its place where the access that hits
has the hint stream or bypass (logs 103 and 104). -/
def State.touchL2 (s : State) (line hint : Nat) : State :=
  match s.l2? line with
  | none => s
  | some l => if hint = 2 ∨ hint = 3 then s else { s with l2 := l :: s.l2.filter fun x => x.line ≠ line }

/-- R159, R163: one line enters its home L2, if it finds room there. -/
def State.fillLine (s : State) (r : Req) (line : Nat) : State :=
  if (s.l2? line).isSome then s.touchL2 line r.hint
  else
    let h := s.handleFor r
    match s.roomL2 line h with
    | none => s
    | some t => t.putL2 (t.newL2 r line h)

/-- R159: a staging block that a read uses becomes the most recent, unless the leaf's hint is stream or bypass (log 104). -/
def State.touchStaging (s : State) (leaf block : Nat) : State :=
  match s.staging.find? fun x => x.1 = block with
  | some x => if leaf = 2 ∨ leaf = 3 then s else { s with staging := x :: s.staging.filter fun y => y.1 ≠ block }
  | none => s

/-- R159, R164: a tier-1 line is read from the staging cache, or, where the leaf's hint is bypass and no block holds it, from
flash: the lines of its aligned 4 KiB enter the L2 at least recent. -/
def State.readTier1 (s : State) (r : Req) (line : Nat) : State :=
  let b := line / 512
  match s.staging.find? fun x => x.1 = b with
  | some _ => s.touchStaging r.leaf b
  | none =>
    if r.leaf = 3 then
      (List.range 32).foldl (fun s j =>
        let n := line / 32 * 32 + j
        if (s.l2? n).isSome then s else s.fillLine { r with va := r.va / 4096 * 4096 + 128 * j, hint := 2 } n) s
    else s

/-- R159, R163: bring a line into its home L2, unless the hint is bypass. -/
def State.fillL2 (s : State) (r : Req) (line : Nat) : State :=
  let s := if isFallow (128 * line) && (s.l2? line).isNone then s.readTier1 r line else s
  if r.hint = 3 then s else s.fillLine r line

/-- R1: room for a line in its die's L2, whatever its handle: a full one gives up an unhandled line, else the handle of lowest
priority whole; none when all of that is held. -/
def State.forceRoom (s : State) (line : Nat) : Option State :=
  let die := dieOf (128 * line)
  if !s.dieFull die then some s
  else
    match s.l2Victim die with
    | some v => some (s.evictLine v)
    | none => (s.lowestHandle die).bind fun h => if s.handleHeld h then none else some (s.evictHandle h)

/-- R159, R162: a line whose words a store registers is in its home L2 whatever its hint and handle: one that finds no room
as its handle's enters at least recent, of no handle (log 105). -/
def State.holdL2 (s : State) (r : Req) (line : Nat) : State :=
  let s := s.fillL2 { r with hint := if r.hint = 3 then 2 else r.hint } line
  if (s.l2? line).isSome then s
  else match s.forceRoom line with | some t => t.putL2 (t.newL2 { r with hint := 2 } line none) | none => s

/-- How many places of a die's L2 can be had for lines: those free, and those of lines not among them that may be given up. -/
def State.l2Spare (s : State) (die : Nat) (lines : List Nat) : Nat :=
  let free := l2Size - s.l2Count die
  let plain := (s.l2.filter fun l => dieOf (128 * l.line) = die && l.handle.isNone && !lines.contains l.line
    && !s.flushHeld l.line).length
  match s.lowestHandle die with
  | some h =>
    if s.handleHeld h then free + plain
    else free + plain + (s.l2.filter fun l => l.handle = some h && !lines.contains l.line).length
  | none => free + plain

/-- R1: whether lines that stores register find places in their L2s. -/
def State.l2Fits (s : State) (lines : List Nat) : Bool :=
  [0, 1].all fun die =>
    let new := (lines.eraseDups.filter fun l => dieOf (128 * l) = die && (s.l2? l).isNone).length
    s.l2Count die + new ≤ l2Size || new ≤ s.l2Spare die lines

/-- R225: a write event at a line's home: instruction caches drop it (the contents of a pinned line are fetched again in place),
and monitors on it fire (R212). -/
def State.written (s : State) (line : Nat) : State := (s.icDrop fun l => l = line).fire false line

/-- R225, R226: the number under which an instruction cache holds a line: a line of this device by its number, one of
another device or the host apart from those. -/
def Loc.icLine (l : Loc) (line : Nat) : Nat := if 2 ≤ l.tier then (l.tier * 8192 + l.peer + 1) * 2 ^ 45 + line else line

/-- R225: what this device writes on another device or the host, its instruction caches hold no longer. -/
def State.farWritten (s : State) (l : Loc) : State := s.icDrop fun n => n = l.icLine (lineOf l.addr)

/-- R1: how many lines an instruction cache holds: 128 KiB, in one set (log 130). -/
def icSize : Nat := 1024

/-- Without the oldest line that is not pinned (log 130). -/
def dropOldest (ic : List IcLine) : List IcLine :=
  match (ic.filter fun l => l.pins = []).getLast? with
  | some v => ic.filter fun l => l.line ≠ v.line
  | none => ic

/-- R225, R226: a line enters a core's instruction cache with words, and with a pin of a context where one is given; of a line
that is there its words stay, and the others are added; a full cache gives up its oldest line that is not pinned (log 130). -/
def State.icPut (s : State) (core line : Nat) (pin : Option Nat) (ws : Table Word) : State :=
  s.onCore core fun c =>
    let add (l : IcLine) : IcLine :=
      let l := { l with words := l.words ++ ws.filter fun w => (l.words.get? w.1).isNone }
      match pin with | some x => if l.pins.contains x then l else { l with pins := l.pins ++ [x] } | none => l
    if c.ic.any fun l => l.line = line then { c with ic := c.ic.map fun l => if l.line = line then add l else l }
    else { c with ic := add { line := line, pins := [] } :: if icSize ≤ c.ic.length then dropOldest c.ic else c.ic }

/-- R225: a word that a core's instruction cache holds. -/
def State.icWord? (s : State) (core line w : Nat) : Option Word :=
  ((s.core core).ic.find? fun l => l.line = line).bind fun l => l.words.get? w

/-- Read a word at its home L2 (R180, R183). -/
def State.homeRead (s : State) (r : Req) (pa : Nat) : State × Word :=
  ((s.recall (lineOf pa) (wordIn pa)).fillL2 r (lineOf pa), s.peek pa)

/-- R225: a core fetches a line of this device into its instruction cache: every word that can be read at its home (log 130). -/
def State.icFill (s : State) (core : Nat) (r : Req) (line : Nat) (pin : Option Nat) : State :=
  let ws := (List.range 32).filter fun w => !s.unreadable (128 * line + 4 * w)
  let s := (ws.foldl (fun s w => s.recall line w) s).fillL2 r line
  s.icPut core line pin (ws.map fun w => (w, s.peek (128 * line + 4 * w)))

/-- R225, R331: a line of another device or the host enters an instruction cache: its words are free values (log 12). -/
def farWord (n w : Nat) : Word :=
  wordOf (Config.remoteByte n (4 * w)) (Config.remoteByte n (4 * w + 1)) (Config.remoteByte n (4 * w + 2))
    (Config.remoteByte n (4 * w + 3))
def State.icFar (s : State) (core line : Nat) (pin : Option Nat) : State :=
  { s with fresh := s.fresh + 1 }.icPut core line pin ((List.range 32).map fun w => (w, farWord s.fresh w))

/-- Merge bytes into a word: byte `i` of the word when bit `i` of `m` is set. -/
def mergeWord (old new : Word) (m : Nat) : Word :=
  [0, 1, 2, 3].foldl (fun x i =>
    if m.testBit i then (x &&& ~~~(0xFF#32 <<< (8 * i))) ||| (new &&& (0xFF#32 <<< (8 * i))) else x) old

/-- R187, R194: write bytes of a word at its home L2, recalling and invalidating its owner and leaving it unowned. -/
def State.homeWriteWord (s : State) (r : Req) (pa : Nat) (x : Word) (m : Nat) : State :=
  let line := lineOf pa
  let w := wordIn pa
  let v := mergeWord (s.peek pa) x m
  let s := s.recall line w
  let s := s.disown line true fun i _ => i = w
  let s := s.fillL2 r line
  let s :=
    if (s.l2? line).isSome then
      s.onL2 line fun l => { l with data := l.data.set w v, dirty := l.dirty ||| (1#32 <<< w) }
    else (s.writeBack r.ctx line (Store.set [] w v) (1#32 <<< w)).fire true line
  s.written line

/-- Write bytes at their home, word by word (R172). -/
def State.homeWrite (s : State) (r : Req) (pa : Nat) : List Byte → State
  | [] => s
  | b :: bs => State.homeWrite (s.homeWriteWord r pa ((b.zeroExtend 32) <<< (8 * (pa % 4))) (2 ^ (pa % 4))) r (pa + 1) bs

/-- An atomic OR on a 64-bit entry at its home L2 (R157). -/
def State.homeOr64 (s : State) (pa : Nat) (x : DWord) : State :=
  let v := s.peek64 pa ||| x
  if v = s.peek64 pa then s
  else (s.homeWriteWord {} pa (v.truncate 32) 15).homeWriteWord {} (pa + 4) ((v >>> 32).truncate 32) 15

/-! ### The L1 (R160, R182, R184, R186) -/

/-- The set of a line in an L1: address bits 14:7, or 16:9 in a slice of a fused cluster (R160, R161). -/
def State.l1Set (s : State) (core line : Nat) : Nat :=
  if s.fused ≠ [] ∧ s.isFused core then (line / 4) % 256 else line % 256

/-- R183: an L1 line leaves: dirty owned words are written back, its ownership is dropped. -/
def State.l1Evict (s : State) (core line : Nat) : State :=
  match s.l1? core line with
  | none => s
  | some l =>
    let s := l.words.foldl (fun s w => if w.2.owned then s.ownerWrites line w.1 else s) s
    let s := s.onL2 line fun x => { x with owners := x.owners.filter fun e => e.2 ≠ core }
    s.onCore core fun c => { c with l1 := c.l1.filter fun x => x.line ≠ line }

/-- R169: whether an L1 line holds words whose write-back is held. -/
def State.stuck (s : State) (l : L1Line) : Bool := s.frozen (lineLoc l.line) && l.words.any fun w => w.2.dirty

/-- The lines of an L1 in the set of a line, most recent first. -/
def State.l1Ways (s : State) (core line : Nat) : List L1Line :=
  (s.core core).l1.filter fun l => s.l1Set core l.line = s.l1Set core line

/-- Whether a line is in an L1, or a way of its set is free or may be given up. -/
def State.l1Room (s : State) (core line : Nat) : Bool :=
  (s.l1? core line).isSome || (s.l1Ways core line).length < 8 || (s.l1Ways core line).any fun l => !s.stuck l

/-- The line a full set gives up: the least recent whose hint is not keep, else the least recent (R159), of those whose
write-back is not held. -/
def State.l1Victim (s : State) (core line : Nat) : Option Nat :=
  if (s.l1Ways core line).length < 8 then none
  else
    let set := (s.l1Ways core line).filter fun l => !s.stuck l
    match (set.filter fun l => l.hint ≠ 1).getLast? with
    | some l => some l.line
    | none => set.getLast?.map fun l => l.line

/-- Make room for a line in an L1 and put it there with no valid word, at the place its hint gives; a line already there keeps
its words and the hint that placed it, and becomes the most recent, unless the access's hint is stream or bypass (logs 103
and 104). -/
def State.l1Alloc (s : State) (core line hint : Nat) : State :=
  match s.l1? core line with
  | some l =>
    if hint = 2 ∨ hint = 3 then s else s.onCore core fun c => { c with l1 := l :: c.l1.filter fun x => x.line ≠ line }
  | none =>
    let s := match s.l1Victim core line with | some v => s.l1Evict core v | none => s
    let l : L1Line := { line := line, hint := hint, words := [] }
    s.onCore core fun c => { c with l1 := if hint = 2 ∨ hint = 3 then c.l1 ++ [l] else l :: c.l1 }

/-- Put a word into an L1 line. -/
def State.l1Put (s : State) (core line w : Nat) (x : L1Word) : State :=
  s.onL1 core line fun l => { l with words := l.words.put w x }

/-- A load's word through a core's L1 (R159, R180, R185): a valid word hits (an acquire takes only an owned one); a miss
reads the line at home, and makes every word of it valid that can be read (log 27). -/
def State.loadWord (s : State) (core : Nat) (r : Req) (acq : Bool) (pa : Nat) : State × Word :=
  let line := lineOf pa
  let c := s.slice core line
  match s.l1Word? c pa with
  | some w =>
    if w.owned || !acq then (s.l1Alloc c line r.hint, w.val)
    else
      let (s, v) := s.homeRead r pa
      (s.l1Put c line (wordIn pa) { val := v, dirty := false, owned := false }, v)
  | none =>
    let (s, v) := s.homeRead r pa
    if r.hint = 3 ∨ !s.l1Room c line then (s, v)
    else
      let s := s.l1Alloc c line r.hint
      let s := (List.range 32).foldl (fun s w =>
        if ((s.l1? c line).bind fun l => l.words.get? w).isSome ∨ s.unreadable (128 * line + 4 * w) then s
        else
          let s := s.recall line w
          s.l1Put c line w { val := s.peek (128 * line + 4 * w), dirty := false, owned := false }) s
      (s, v)

/-- R160, R182 step 3: a store's line enters the dirty-line FIFO, unless it is queued since the newest marker. -/
def State.fifoPush (s : State) (core line : Nat) (who : Nat × Nat) : State :=
  s.onCore core fun c =>
    if c.fifo.any fun e => e.line = line && c.marker ≤ e.pos then
      { c with fifo := c.fifo.map fun e =>
          if e.line = line && c.marker ≤ e.pos then { e with by_ := e.by_ ++ [who] } else e }
    else { c with fifo := c.fifo ++ [{ line := line, pos := c.fifoNext, by_ := [who] }], fifoNext := c.fifoNext + 1 }

/-- R160: whether stores to lines find room in the FIFOs of a core: each line that is not queued since the newest marker
takes an entry. -/
def State.fifoFits (s : State) (core : Nat) (lines : List Nat) : Bool :=
  let new := lines.eraseDups.filter fun l =>
    !((s.core (s.slice core l)).fifo.any fun e => e.line = l && (s.core (s.slice core l)).marker ≤ e.pos)
  (s.slices core).all fun c => (s.core c).fifo.length + (new.filter fun l => s.slice core l = c).length ≤ 64

/-- R182, R183: a store of some bytes of one word: the word enters the L1 valid, dirty and owned; its ownership is
registered at home, superseding another owner's copy; its line enters the FIFO.  Bytes of a word that no read can give (R166)
are merged as they lie in memory, with no report (log 132). -/
def State.storeWord (s : State) (core : Nat) (r : Req) (who : Nat × Nat) (pa : Nat) (x : Word) (m : Nat) : State :=
  let line := lineOf pa
  let w := wordIn pa
  let c := s.slice core line
  let v := mergeWord (s.peek pa) x m
  let s := s.holdL2 r line
  let s := s.disown line true fun i o => i = w && o ≠ c
  let s := s.onL2 line fun l => { l with owners := l.owners.put w c }
  let s := s.l1Alloc c line r.hint
  let s := s.l1Put c line w { val := v, dirty := true, owned := true }
  (s.fifoPush c line who).written line

/-- R183, R186: a core obtains exclusive ownership of a whole line: every other owner writes its dirty words back and
loses its copies.  Words that no read can give (R166) get no copy. -/
def State.exclusive (s : State) (core : Nat) (r : Req) (line : Nat) : State :=
  let c := s.slice core line
  let s := s.holdL2 r line
  match s.l2? line with
  | none => s
  | some l =>
    let others := l.owners.filter fun e => e.2 ≠ c
    let s := others.foldl (fun s e => s.ownerWrites line e.1) s
    let s := if others = [] then s else s.fire false line
    let s := s.disown line true fun _ o => o ≠ c
    let s := s.l1Alloc c line r.hint
    let ws := (List.range 32).filter fun w => !s.unreadable (128 * line + 4 * w)
    let s := ws.foldl (fun s w =>
      match (s.l1? c line).bind fun l => l.words.get? w with
      | some x => if x.owned then s else s.l1Put c line w { x with val := s.peek (128 * line + 4 * w), owned := true }
      | none => s.l1Put c line w { val := s.peek (128 * line + 4 * w), dirty := false, owned := true }) s
    s.onL2 line fun l => { l with owners := ws.map fun w => (w, c) }

/-- R184: write the head entry of a core's FIFO back to the home L2; a frozen frame holds it (R169). -/
def State.fifoWriteback (s : State) (core : Nat) : State :=
  match (s.core core).fifo with
  | [] => s
  | e :: rest =>
    if s.frozen (lineLoc e.line) then s else
    let ws : Table L1Word :=
      match s.l1? core e.line with
      | some l => l.words.filter fun (w : Nat × L1Word) => w.2.dirty && w.2.owned
      | none => []
    let s := ws.foldl (fun s w => s.ownerWrites e.line w.1) s
    s.onCore core fun c => { c with fifo := rest }

/-- R184: a release inserts its marker into the FIFOs of its core. -/
def State.mark (s : State) (core : Nat) : State × List (Nat × Nat) :=
  let cs := s.slices core
  (cs.foldl (fun s c => s.onCore c fun t => { t with marker := t.fifoNext }) s,
   cs.map fun c => (c, (s.core c).fifoNext))

/-- R178, R184: every entry ahead of a release's markers, and every entry of the sheaf's own earlier stores, has been
written back. -/
def State.drained (s : State) (markers : List (Nat × Nat)) (sheaf seq : Nat) : Bool :=
  markers.all fun m => (s.core m.1).fifo.all fun e =>
    m.2 ≤ e.pos && e.by_.all fun b => b.1 ≠ sheaf || seq ≤ b.2

/-! ### Page tables (R156, R157) -/

/-- What an address is translated for. -/
inductive Use
  | load | store | atomic | fetch
  /-- No permission is checked and no data moves (R157). -/
  | look
  deriving DecidableEq, Repr

/-- A walk's outcome: a leaf, or a cause and DET (R308). -/
inductive Walk
  | leaf (v : DWord) (pte : Nat) (block : Bool)
  | fail (c : Cause) (det : Nat)
  deriving DecidableEq, Repr

/-- Fields of a page-table entry (R156). -/
def pteV (e : DWord) : Bool := e.getLsbD 0
def pteT (e : DWord) : Bool := e.getLsbD 1
def pteTier (e : DWord) : Nat := (e.extractLsb' 5 2).toNat
def pteHint (e : DWord) : Nat := (e.extractLsb' 7 2).toNat
def pteFrame (e : DWord) : Nat := (e.extractLsb' 15 36).toNat
def ptePeer (e : DWord) : Nat := (e.extractLsb' 51 13).toNat
/-- A table pointer has every field but V, T and FRAME zero. -/
def ptePointer (e : DWord) : Bool := e &&& ~~~(0x7FFFFFFFF8001#64) = 0#64

/-- This device's accelerator identifier (R347). -/
def State.ownId (s : State) : Nat := (s.accid.extractLsb' 0 13).toNat

/-- R158: the tier that serves a leaf: tier 0 where a tier-2 leaf names this device. -/
def State.tierOf (s : State) (e : DWord) : Nat := if pteTier e = 2 ∧ ptePeer e = s.ownId then 0 else pteTier e

/-- R155, R156: whether a leaf of `n` bytes is well formed. -/
def State.leafOk (s : State) (e : DWord) (n : Nat) : Bool :=
  e.extractLsb' 12 3 = 0#3 && (pteTier e = 2 || ptePeer e = 0)
    && (if s.tierOf e = 0 then s.usableHbm (pteFrame e * 65536) n
        else if pteTier e = 1 then s.usableFallow (pteFrame e * 65536) n else true)

/-- R155, R156: whether a table entry lies in tier-0 memory that a table may use: below the usable limit (log 115). -/
def State.tableAt (s : State) (pa : Nat) : Bool := s.usableHbm pa 8

/-- R156: the walk of a virtual address below 2^49 from a translation base. -/
def State.walk (s : State) (ttb va : Nat) : Walk :=
  let a1 := ttb + 8 * (va / 2 ^ 42 % 128)
  if !s.tableAt a1 then .fail .xlate 1
  else if s.lostIn a1 8 then .fail .ecc 2
  else
    let e1 := s.peek64 a1
    if !pteV e1 then .fail .xlate 0
    else if pteT e1 || !ptePointer e1 then .fail .xlate 1
    else
      let a2 := pteFrame e1 * 65536 + 8 * (va / 2 ^ 29 % 8192)
      if !s.tableAt a2 then .fail .xlate 1
      else if s.lostIn a2 8 then .fail .ecc 2
      else
        let e2 := s.peek64 a2
        if !pteV e2 then .fail .xlate 0
        else if pteT e2 then
          if pteFrame e2 % 8192 = 0 ∧ s.leafOk e2 (2 ^ 29) then .leaf e2 a2 true else .fail .xlate 1
        else if !ptePointer e2 then .fail .xlate 1
        else
          let a3 := pteFrame e2 * 65536 + 8 * (va / 65536 % 8192)
          if !s.tableAt a3 then .fail .xlate 1
          else if s.lostIn a3 8 then .fail .ecc 2
          else
            let e3 := s.peek64 a3
            if !pteV e3 then .fail .xlate 0
            else if pteT e3 ∧ s.leafOk e3 65536 then .leaf e3 a3 false else .fail .xlate 1

/-- R196, R304: the stack in self-refresh that holds a walk from a translation base: at the first table entry it cannot
read. -/
def State.walkHeld (s : State) (ttb va : Nat) : Option Nat :=
  if s.refresh = [] then none
  else
    let next (e : DWord) (a : Nat) : Option Nat :=
      if pteV e && !pteT e && ptePointer e then some (pteFrame e * 65536 + 8 * a) else none
    let at1 := ttb + 8 * (va / 2 ^ 42 % 128)
    if !s.tableAt at1 then none
    else
      (s.heldStack false at1).or ((next (s.peek64 at1) (va / 2 ^ 29 % 8192)).bind fun at2 =>
        if !s.tableAt at2 then none
        else
          (s.heldStack false at2).or ((next (s.peek64 at2) (va / 65536 % 8192)).bind fun at3 =>
            if s.tableAt at3 then s.heldStack false at3 else none))

/-- The dispatcher, as an agent that caches no translation. -/
def dispatcher : Nat := 4096

/-- The TLBs an agent's translations are cached in: a core's own and its cluster's; a heath core's own (R157, R287). -/
def State.tlbsOf (s : State) (heath : Bool) (core : Nat) : List Nat :=
  if core = dispatcher then []
  else if heath then [1000 + core] else [core, 2000 + s.cluster core]

/-- R157: how many entries a TLB holds. -/
def tlbSize (agent : Nat) : Nat := if 2000 ≤ agent then 4096 else 64

/-- Whether a cached leaf covers a context's virtual address. -/
def TlbEntry.covers (e : TlbEntry) (ctx va : Nat) : Bool :=
  e.ctx = ctx && (if e.block then va / 2 ^ 29 = e.page / 8192 else va / 65536 = e.page)

/-- A TLB's entries. -/
def State.tlb (s : State) (agent : Nat) : List TlbEntry := (s.tlbs.get? agent).getD []

/-- A context's translation base (R156, R344). -/
def State.ttb (s : State) (ctx : Nat) : Option Nat := (s.ctx? ctx).bind fun c => c.blk.map fun b => b.ttb

/-- A translation: the leaf with where it was found, whether a TLB held it. -/
inductive Xl
  | ok (leaf : DWord) (pte : Nat) (block hit : Bool)
  | fail (c : Cause) (det : Nat)
  deriving DecidableEq, Repr

/-- R156, R157: translate an address for an agent: a TLB entry, or a walk; a store that hits an entry with D = 0 walks. -/
def State.xlate (s : State) (heath : Bool) (core ctx va : Nat) (u : Use) : Xl :=
  if 2 ^ 49 ≤ va then .fail .xlate 2
  else
    let hit := (s.tlbsOf heath core).findSome? fun t => (s.tlb t).find? fun e => e.covers ctx va
    let fresh : Xl :=
      match s.ttb ctx with
      | none => .fail .xlate 0
      | some b =>
        match s.walk b va with
        | .leaf v p b => .ok v p b false
        | .fail c d => .fail c d
    match hit with
    | some e =>
      if (u = .store ∨ u = .atomic) ∧ e.leaf.getLsbD 11 = false then fresh else .ok e.leaf e.pte e.block true
    | none => fresh

/-- R304: the stack that holds the translation of an address for an agent: none when a TLB has it, or it needs no walk. -/
def State.xlateHeld (s : State) (heath : Bool) (core ctx va : Nat) (u : Use) : Option Nat :=
  if s.refresh = [] ∨ 2 ^ 49 ≤ va then none
  else
    match (s.tlbsOf heath core).findSome? fun t => (s.tlb t).find? fun e => e.covers ctx va with
    | some e =>
      if (u = .store ∨ u = .atomic) ∧ e.leaf.getLsbD 11 = false then (s.ttb ctx).bind fun b => s.walkHeld b va else none
    | none => (s.ttb ctx).bind fun b => s.walkHeld b va

/-- R157, R308: the permission a leaf denies, as DET of PROT. -/
def permFail (leaf : DWord) : Use → Option Nat
  | .load => if leaf.getLsbD 2 then none else some 0
  | .store => if pteTier leaf = 1 then some 3 else if leaf.getLsbD 3 then none else some 1
  | .atomic =>
    if pteTier leaf = 1 then some 3 else if !leaf.getLsbD 2 then some 0 else if leaf.getLsbD 3 then none else some 1
  | .fetch => if leaf.getLsbD 4 then none else some 2
  | .look => none

/-- R156, R158: where a leaf puts an address.  A tier-2 leaf that names this device is served as tier 0. -/
def State.place (s : State) (leaf : DWord) (block : Bool) (va : Nat) : Loc :=
  let off := if block then va % 2 ^ 29 else va % 65536
  let tier := s.tierOf leaf
  { tier := tier, peer := if tier = 2 then ptePeer leaf else 0, addr := pteFrame leaf * 65536 + off }

/-- R157: what a walk leaves behind: A, and D for a write, in the leaf when data moves; an entry in the agent's TLBs. -/
def State.cacheLeaf (s : State) (heath : Bool) (core ctx va : Nat) (u : Use) (x : Xl) : State :=
  match x with
  | .fail _ _ => s
  | .ok leaf pte block hit =>
    if hit then s
    else
      let bits : DWord := match u with | .look => 0 | .load | .fetch => 0x400 | .store | .atomic => 0xC00
      let s := s.homeOr64 pte bits
      let e : TlbEntry := { ctx := ctx, page := va / 65536, block := block, leaf := leaf ||| bits, pte := pte }
      (s.tlbsOf heath core).foldl (fun s t =>
        let old := (s.tlb t).filter fun x => !x.covers ctx va
        { s with tlbs := s.tlbs.put t ((e :: old).take (tlbSize t)) }) s

/-- R159: the effective hint of an access: the instruction's when nonzero, else the leaf's. -/
def effHint (inst : Nat) (leaf : DWord) : Nat := if inst ≠ 0 then inst else pteHint leaf

end Sys2Proof.Machine
end

