-- ==== Sys2Proof/Machine/Operands.lean ====
section
/-! DEFINITION. Reading and writing operands: registers through the window (R77, R78, R86), banks (R312), literals
(R75), latches (R82 to R85), predicates (R79), guards (R81). -/

namespace Sys2Proof.Machine
open Sys2Proof.Forms

/-! ### Registers -/

/-- The key of an s register at a trap level: s56 to s59 are banked (R312). -/
def sKey (lvl i : Nat) : Nat := if 56 ≤ i ∧ i < 60 ∧ lvl ≠ 0 then 64 + 4 * (lvl - 1) + (i - 56) else i

/-- The key of an o register of one thread at a trap level (R312). -/
def oKey (lvl i t : Nat) : Nat := lvl * 128 + i * 16 + t

/-- The allocation slot a v field names (R86). -/
def Sheaf.vslot (sh : Sheaf) (i : Nat) : Nat := sh.wb.toNat * 8 + i

def Sheaf.readV (sh : Sheaf) (slot t : Nat) : Word := sh.v.get (slot * 16 + t)
def Sheaf.readS (sh : Sheaf) (i : Nat) : Word := sh.s.get (sKey sh.tlvl i)
def Sheaf.readO (sh : Sheaf) (i t : Nat) : Word := sh.o.get (oKey sh.tlvl i t)

def Sheaf.writeV (sh : Sheaf) (slot t : Nat) (x : Word) : Sheaf := { sh with v := sh.v.set (slot * 16 + t) x }
def Sheaf.writeS (sh : Sheaf) (i : Nat) (x : Word) : Sheaf := { sh with s := sh.s.set (sKey sh.tlvl i) x }
def Sheaf.writeO (sh : Sheaf) (i t : Nat) (x : Word) : Sheaf := { sh with o := sh.o.set (oKey sh.tlvl i t) x }

/-- A value of `n` registers, the first holding the highest bits (R46). -/
def joinWords (n : Nat) (r : Nat → Word) : Val :=
  (List.range n).foldl (fun x j => (x <<< 32) ||| (r j).zeroExtend 128) 0

/-- Register `j` of `n` of a value. -/
def splitWord (n j : Nat) (x : Val) : Word := x.extractLsb' (32 * (n - 1 - j)) 32

/-- An s pair as an address (R46). -/
def Sheaf.pairS (sh : Sheaf) (i : Nat) : DWord := sh.readS i ++ sh.readS (i + 1)

/-! ### Literals (R75) -/

/-- The exact widening of f32 bits to f64 bits. -/
def f32to64 (x : Word) : DWord :=
  let sgn := (x >>> 31).zeroExtend 64 <<< 63
  let e := (x.extractLsb' 23 8).toNat
  let m := (x.extractLsb' 0 23).toNat
  if e = 255 then sgn ||| (0x7FF#64 <<< 52) ||| BitVec.ofNat 64 (m * 2 ^ 29)
  else if e ≠ 0 then sgn ||| BitVec.ofNat 64 ((e + 896) * 2 ^ 52 + m * 2 ^ 29)
  else if m = 0 then sgn
  else
    let l := Nat.log2 m
    sgn ||| BitVec.ofNat 64 ((l + 874) * 2 ^ 52 + (m - 2 ^ l) * 2 ^ (52 - l))

/-- The literal as an operand of `n` registers of a type (R75); whole where an instruction copies or unpacks it (logs 99
and 102). -/
def litVal (ty : BitVec 5) (n : Nat) (l : Word) : Val :=
  if n ≠ 2 then l.zeroExtend 128
  else if ty = 2#5 then (l.signExtend 64).zeroExtend 128
  else if ty = 0xB#5 then (f32to64 l).zeroExtend 128
  else l.zeroExtend 128

/-! ### Latches (R82, R84) -/

/-- Latch `j`. -/
def Sheaf.latch (sh : Sheaf) (j : Nat) : Latch :=
  if j = 0 then sh.y0 else if j = 1 then sh.y1 else if j = 2 then sh.y2 else sh.y3

/-- The shift of R82, with the new y0. -/
def Sheaf.shift (sh : Sheaf) (wide : Bool) (vals : Nat → DWord) : Sheaf :=
  { sh with
    y3 := sh.y2, y2 := sh.y1, y1 := sh.y0
    y0 := { valid := true, wide := wide, vals := threads.foldl (fun (st : Store 64) t => st.set t (vals t)) [] } }

/-! ### Operands (R77, R78, R80) -/

/-- The operand of `n` registers a source field names, for one thread; of a latch, one register reads the low 32 bits
(R84). -/
def Sheaf.read (sh : Sheaf) (f : Fields) (ty : BitVec 5) (n : Nat) (fld : BitVec 7) (t : Nat) : Val :=
  match srcOf f.u fld with
  | .v i => joinWords n fun j => sh.readV (sh.vslot i + j) t
  | .s i => joinWords n fun j => sh.readS (i + j)
  | .o i => joinWords n fun j => sh.readO (i + j) t
  | .y j =>
    let x := (sh.latch j).vals.get t
    if n = 2 then x.zeroExtend 128 else (x.truncate 32).zeroExtend 128
  | .zero => 0
  | .tid => BitVec.ofNat 128 t
  | .lit => litVal ty n (f.lit.getD 0)
  | .bad => 0

/-- A 32-bit source operand. -/
def Sheaf.read32 (sh : Sheaf) (f : Fields) (fld : BitVec 7) (t : Nat) : Word :=
  (sh.read f 0x10#5 1 fld t).truncate 32

/-- A 64-bit source operand; a literal is extended with zeros where the operand has no 64-bit type (log 98). -/
def Sheaf.read64 (sh : Sheaf) (f : Fields) (fld : BitVec 7) (t : Nat) : DWord :=
  (sh.read f 0x11#5 2 fld t).truncate 64

/-- Write a value of `n` registers to the destination a field names, for one thread. -/
def Sheaf.write (sh : Sheaf) (u : Bool) (n : Nat) (fld : BitVec 7) (t : Nat) (x : Val) : Sheaf :=
  match dstOf u fld with
  | .v i => (List.range n).foldl (fun sh j => sh.writeV (sh.vslot i + j) t (splitWord n j x)) sh
  | .s i => (List.range n).foldl (fun sh j => sh.writeS (i + j) (splitWord n j x)) sh
  | .o i => (List.range n).foldl (fun sh j => sh.writeO (i + j) t (splitWord n j x)) sh
  | .discard | .bad => sh

/-- The place a destination field resolves to at issue (R86). -/
def Sheaf.resolve (sh : Sheaf) (u : Bool) (fld : BitVec 7) : Place :=
  match dstOf u fld with
  | .v i => .v (sh.vslot i)
  | .s i => .s (sKey sh.tlvl i)
  | .o i => .o (oKey sh.tlvl i 0)
  | .discard | .bad => .none

/-- Write a value of `n` registers to a resolved place, for one thread. -/
def Sheaf.deliver (sh : Sheaf) (p : Place) (n t : Nat) (x : Val) : Sheaf :=
  match p with
  | .none => sh
  | .v i => (List.range n).foldl (fun sh j => sh.writeV (i + j) t (splitWord n j x)) sh
  | .s i => (List.range n).foldl (fun sh j => { sh with s := sh.s.set (i + j) (splitWord n j x) }) sh
  | .o i => (List.range n).foldl (fun sh j => { sh with o := sh.o.set (i + 16 * j + t) (splitWord n j x) }) sh

/-! ### Predicates (R79, R81) -/

/-- The threads for which predicate `p i` is true; p7 is always true. -/
def Sheaf.pmask (sh : Sheaf) (i : Nat) : Mask := if i = 7 then 0xFFFF else sh.p.get i

/-- Uniform predicate `q i`; q7 is always true. -/
def Sheaf.qbit (sh : Sheaf) (i : Nat) : Bool := i = 7 || sh.q.getLsbD i

/-- A predicate source field, for one thread: p0 to p7, or q0 to q7 above 7, in the vector class; q0 to q7 in the
uniform class. -/
def Sheaf.pred (sh : Sheaf) (u : Bool) (fld : BitVec 7) (t : Nat) : Bool :=
  let n := fld.toNat
  if u then sh.qbit n else if n < 8 then (sh.pmask n).getLsbD t else sh.qbit (n - 8)

/-- Set one bit of a mask. -/
def setBit (m : Mask) (t : Nat) (b : Bool) : Mask := if b then m ||| (1#16 <<< t) else m &&& ~~~(1#16 <<< t)

/-- Write a predicate destination; p7 and q7 discard. -/
def Sheaf.setPred (sh : Sheaf) (u : Bool) (fld : BitVec 7) (t : Nat) (b : Bool) : Sheaf :=
  let n := fld.toNat
  if 7 ≤ n then sh
  else if u then { sh with q := if b then sh.q ||| (1#7 <<< n) else sh.q &&& ~~~(1#7 <<< n) }
  else { sh with p := sh.p.set n (setBit (sh.p.get n) t b) }

/-- R81: the threads a vector instruction acts for. -/
def Sheaf.maskFor (sh : Sheaf) (f : Fields) : Mask :=
  let g := sh.pmask f.gi.toNat
  sh.em &&& (if f.gn then ~~~g else g)

/-- R81: whether a uniform instruction executes. -/
def Sheaf.guard (sh : Sheaf) (f : Fields) : Bool := (sh.qbit f.gi.toNat) != f.gn

/-! ### Checks 6 and 7 of R94 -/

/-- The allocation slots a field names under its use (R86). -/
def Sheaf.slotsOf (sh : Sheaf) (f : Fields) (u : Forms.Use) (fld : BitVec 7) : List Nat :=
  if f.u then []
  else
    let run (n : Nat) : List Nat := if fld.toNat < 0x60 then (List.range n).map fun j => sh.vslot fld.toNat + j else []
    match u with
    | .src n | .dst n | .both n | .vrun n | .vout n => run n
    | .vpair => run 2
    | _ => []

/-- Every slot an instruction names. -/
def Sheaf.slots (sh : Sheaf) (us : Uses) (f : Fields) : List Nat :=
  sh.slotsOf f us.a f.a ++ sh.slotsOf f us.b f.b ++ sh.slotsOf f us.c f.c ++ sh.slotsOf f us.d f.d

/-- R86: the lowest slot at or above the allocation. -/
def lowestFailing (nreg : Nat) (l : List Nat) : Option Nat :=
  l.foldl (fun best i => if i < nreg then best else match best with | none => some i | some b => some (min b i)) none

/-- R83, R84: the latch a field reads in vain. -/
def Sheaf.latchFails (sh : Sheaf) (f : Fields) (u : Forms.Use) (fld : BitVec 7) : Option Nat :=
  match u, srcOf f.u fld with
  | .src n, .y j => if !(sh.latch j).valid || (n = 2 && !(sh.latch j).wide) then some j else none
  | _, _ => none

/-- The first latch read that fails, in the order A, B, C, D. -/
def Sheaf.latchFail (sh : Sheaf) (us : Uses) (f : Fields) : Option Nat :=
  (sh.latchFails f us.a f.a).or ((sh.latchFails f us.b f.b).or ((sh.latchFails f us.c f.c).or (sh.latchFails f us.d f.d)))

end Sys2Proof.Machine
end

