-- ==== Sys2Proof/Machine/Hurdles.lean ====
section
/-! DEFINITION. Scratchpad and hurdles (R153, R205, R214 to R220). -/

namespace Sys2Proof.Machine

/-! ### Scratchpad bytes -/

/-- The scratchpad of a workgroup, or of a heath core's block. -/
def State.scratch (s : State) : Home → Store 8
  | .wg w => ((s.wg? w).map fun g => g.scratch).getD []
  | .block h => ((s.blocks.get? h).map fun b => b.scratch).getD []

/-- The hurdle marks of a scratchpad: the offsets of the marked blocks (R220). -/
def State.marks (s : State) : Home → List Nat
  | .wg w => ((s.wg? w).map fun g => g.marks).getD []
  | .block h => ((s.blocks.get? h).map fun b => b.marks).getD []

/-- Addressable scratchpad bytes: SPSZ, or 256 KiB of heath scratch (R153). -/
def State.spsz (s : State) : Home → Nat
  | .wg w => ((s.wg? w).map fun g => g.spsz).getD 0
  | .block _ => 262144

/-- Replace a scratchpad and its marks. -/
def State.setScratch (s : State) (h : Home) (b : Store 8) (m : List Nat) : State :=
  match h with
  | .wg w => s.onWg w fun g => { g with scratch := b, marks := m }
  | .block c => s.onBlock c fun g => { g with scratch := b, marks := m }

/-- R220: whether a byte lies in word 3 of a marked block: it reads 0 and writes to it are discarded. -/
def State.linkByte (s : State) (h : Home) (a : Nat) : Bool := 12 ≤ a % 16 && (s.marks h).contains (a / 16 * 16)

/-- Read `n` scratchpad bytes. -/
def State.spRead (s : State) (h : Home) (a n : Nat) : List Byte :=
  (List.range n).map fun i => if s.linkByte h (a + i) then 0 else (s.scratch h).get (a + i)

/-- Write scratchpad bytes as plain data (R220). -/
def State.spWrite (s : State) (h : Home) (a : Nat) (bs : List Byte) : State :=
  let b := bs.zipIdx.foldl (fun (m : Store 8) e => if s.linkByte h (a + e.2) then m else m.set (a + e.2) e.1) (s.scratch h)
  s.setScratch h b (s.marks h)

/-- A little-endian scratchpad word. -/
def State.spWord (s : State) (h : Home) (a : Nat) : Word := BitVec.ofNat 32 (leNat (s.spRead h a 4))

/-! ### Hurdles (R214, R215) -/

/-- The fields of a hurdle (R214). -/
structure Hurdle where
  phase : Bool
  exp : BitVec 15
  pend : BitVec 15
  bal : Word
  next : BitVec 15
  deriving DecidableEq, Repr

/-- The hurdle at an offset. -/
def State.hurdle (s : State) (h : Home) (a : Nat) : Hurdle :=
  let w0 := s.spWord h a
  { phase := w0.getLsbD 31, exp := w0.extractLsb' 16 15, pend := w0.extractLsb' 0 15
    bal := s.spWord h (a + 4), next := (s.spWord h (a + 8)).extractLsb' 0 15 }

/-- Perform a hurdle operation's write: all of its words at once, reserved bits 0, the block marked, word 3 zero (R214,
R220). -/
def State.putHurdle (s : State) (h : Home) (a : Nat) (x : Hurdle) : State :=
  let w0 : Word := BitVec.ofBool x.phase ++ x.exp ++ 0#1 ++ x.pend
  let w2 : Word := 0#17 ++ x.next
  let b := Store.blit (s.scratch h) a (bytesOf w0 ++ bytesOf x.bal ++ bytesOf w2 ++ bytesOf 0)
  let m := s.marks h
  s.setScratch h b (if m.contains a then m else a :: m)

/-- R214: a hurdle is dead when PEND, EXP, NEXT and BAL are all 0. -/
def Hurdle.dead (x : Hurdle) : Bool := x.pend = 0 && x.exp = 0 && x.next = 0 && x.bal = 0

/-- R215 Settle, the words only: the phase completes when PEND and BAL are 0. -/
def Hurdle.settle (x : Hurdle) : Hurdle :=
  if x.pend = 0 ∧ x.bal = 0 then { x with phase := !x.phase, exp := x.next, pend := x.next, bal := 0 } else x

/-- R215: every sheaf waiting on a hurdle whose parity differs from its phase becomes ready; its HWAIT completes as an
acquire (R218). -/
def State.wakeHurdle (s : State) (h : Home) (a : Nat) : State :=
  let ph := (s.hurdle h a).phase
  s.endWaits ((s.sheafs.filter fun e =>
    match e.2.waitsFor with
    | some (.hwait off par) => e.2.home = h && off = a && par ≠ ph
    | _ => false).map fun e => e.1) true

/-- Write a hurdle and settle it; a phase that completes wakes the sheafs that wait. -/
def State.settle (s : State) (h : Home) (a : Nat) (x : Hurdle) : State :=
  let t := s.putHurdle h a x.settle
  if x.pend = 0 ∧ x.bal = 0 then t.wakeHurdle h a else t

/-- R215 Arrive: an arrival with a byte total, or the cause it meets. -/
def State.arrive (s : State) (h : Home) (a : Nat) (bytes : Word) : Except Cause State :=
  let x := s.hurdle h a
  if x.dead then .error .hdead
  else if x.pend = 0 then .error .hover
  else .ok (s.settle h a { x with pend := x.pend - 1, bal := x.bal + bytes })

/-- R215 Drop. -/
def State.hdropAt (s : State) (h : Home) (a : Nat) : Except Cause State :=
  let x := s.hurdle h a
  if x.dead then .error .hdead
  else if x.pend = 0 ∨ x.next = 0 then .error .hover
  else .ok (s.settle h a { x with pend := x.pend - 1, next := x.next - 1 })

/-- R215 Credit: bytes landed by an agent. -/
def State.credit (s : State) (h : Home) (a : Nat) (bytes : Nat) : Except Cause State :=
  let x := s.hurdle h a
  if x.dead then .error .hdead
  else .ok (s.settle h a { x with bal := x.bal - BitVec.ofNat 32 bytes })

/-- R216: HINIT's effect: the first row of the state table; sheafs waiting with parity 1 become ready. -/
def State.hinitAt (s : State) (h : Home) (a n : Nat) : State :=
  let c := BitVec.ofNat 15 n
  (s.putHurdle h a { phase := false, exp := c, pend := c, bal := 0, next := c }).wakeHurdle h a

end Sys2Proof.Machine
end

