-- ==== Sys2Proof/Machine/Numbers.lean ====
section
/-! DEFINITION. Number formats and rounding (spec/03 R42 to R57, R69): a value is an exact dyadic number, and is rounded
once. -/

namespace Sys2Proof.Machine

/-- A floating-point format (R42): exponent and fraction widths, bias, the largest finite magnitude as bits, and whether
it has infinities and NaNs. -/
structure Fmt where
  ew : Nat
  fw : Nat
  bias : Nat
  top : Nat
  hasInf : Bool := true
  hasNan : Bool := true
  deriving DecidableEq, Repr

def f64 : Fmt := { ew := 11, fw := 52, bias := 1023, top := 0x7FEFFFFFFFFFFFFF }
def f32 : Fmt := { ew := 8, fw := 23, bias := 127, top := 0x7F7FFFFF }
def f16 : Fmt := { ew := 5, fw := 10, bias := 15, top := 0x7BFF }
def bf16 : Fmt := { ew := 8, fw := 7, bias := 127, top := 0x7F7F }
def e5m2 : Fmt := { ew := 5, fw := 2, bias := 15, top := 0x7B }
def e4m3 : Fmt := { ew := 4, fw := 3, bias := 7, top := 0x7E, hasInf := false }
def e2m1 : Fmt := { ew := 2, fw := 1, bias := 1, top := 0x7, hasInf := false, hasNan := false }

/-- The format of a type code (R42); f32 where the code names no float. -/
def fmtOf (t : BitVec 5) : Fmt :=
  if t = 9#5 then f16 else if t = 0xA#5 then bf16 else if t = 0xB#5 then f64
  else if t = 0xC#5 then e4m3 else if t = 0xD#5 then e5m2 else if t = 0xE#5 then e2m1 else f32

/-- Bits of a format, without the sign; and with it. -/
def Fmt.magBits (f : Fmt) : Nat := f.ew + f.fw
def Fmt.width (f : Fmt) : Nat := f.ew + f.fw + 1

/-- Sign bit and magnitude of an encoding. -/
def Fmt.sign (f : Fmt) (x : Nat) : Bool := x.testBit f.magBits
def Fmt.mag (f : Fmt) (x : Nat) : Nat := x % 2 ^ f.magBits
def Fmt.withSign (f : Fmt) (neg : Bool) (m : Nat) : Nat := if neg then 2 ^ f.magBits + m else m

/-- The magnitude of infinity, of the canonical NaN (R42), and of the smallest normal number. -/
def Fmt.infMag (f : Fmt) : Nat := (2 ^ f.ew - 1) * 2 ^ f.fw
def Fmt.nan (f : Fmt) : Nat :=
  if !f.hasNan then 0 else if f.hasInf then f.infMag + 2 ^ (f.fw - 1) else f.top + 1
def Fmt.minNormal (f : Fmt) : Nat := 2 ^ f.fw

/-- R42: classes of an encoding. -/
def Fmt.isNan (f : Fmt) (x : Nat) : Bool := f.hasNan && (if f.hasInf then f.infMag < f.mag x else f.mag x = f.top + 1)
def Fmt.isInf (f : Fmt) (x : Nat) : Bool := f.hasInf && f.mag x = f.infMag
def Fmt.isZero (f : Fmt) (x : Nat) : Bool := f.mag x = 0
def Fmt.isSub (f : Fmt) (x : Nat) : Bool := f.mag x ≠ 0 && f.mag x < f.minNormal

/-- R43: a signalling NaN. -/
def Fmt.isSnan (f : Fmt) (x : Nat) : Bool := f.isNan x && f.hasInf && !x.testBit (f.fw - 1)

/-- An exact value: a NaN, an infinity, or (−1)^neg · m · 2^e, plus a remainder below 2^e when `more` is set. -/
inductive Fl
  | nan
  | inf (neg : Bool)
  | fin (neg : Bool) (m : Nat) (e : Int) (more : Bool)
  deriving DecidableEq, Repr

/-- The value of an encoding; `ftz` reads a subnormal as zero of the same sign (R51). -/
def Fmt.value (f : Fmt) (ftz : Bool) (x : Nat) : Fl :=
  let neg := f.sign x
  let m := f.mag x
  if f.isNan x then .nan
  else if f.isInf x then .inf neg
  else
    let e := m / 2 ^ f.fw
    let r := m % 2 ^ f.fw
    if e = 0 then .fin neg (if ftz then 0 else r) (1 - (f.bias : Int) - f.fw) false
    else .fin neg (2 ^ f.fw + r) ((e : Int) - f.bias - f.fw) false

/-- R47: rounding directions. -/
inductive Rm
  | rne | rz | ru | rd
  deriving DecidableEq, Repr

/-- R55: the flags one operation raises. -/
structure Flags where
  inv : Bool := false
  dz : Bool := false
  ovf : Bool := false
  unf : Bool := false
  inx : Bool := false
  deriving DecidableEq, Repr

def Flags.or (a b : Flags) : Flags :=
  { inv := a.inv || b.inv, dz := a.dz || b.dz, ovf := a.ovf || b.ovf, unf := a.unf || b.unf, inx := a.inx || b.inx }

/-- R50, R53: invalid alone. -/
def Flags.invalid (b : Bool) : Flags := { inv := b }

/-- A quotient by 2^s, rounded: the integer part with its rounding, and whether anything was lost. -/
def roundShift (rm : Rm) (neg : Bool) (m : Nat) (s : Int) (more : Bool) : Nat × Bool :=
  if s ≤ 0 then
    let q := m * 2 ^ (-s).toNat
    (if more && ((rm = .ru && !neg) || (rm = .rd && neg)) then q + 1 else q, more)
  else
    let k := s.toNat
    let q := m / 2 ^ k
    let r := m % 2 ^ k
    let lost := r ≠ 0 || more
    let half := 2 ^ (k - 1)
    let up : Bool :=
      match rm with
      | .rne => half < r || (r = half && (more || q % 2 = 1))
      | .rz => false
      | .ru => !neg && lost
      | .rd => neg && lost
    (if up then q + 1 else q, lost)

/-- R48, R51, R52, R55: round a nonzero magnitude once into a format. -/
def Fmt.roundMag (f : Fmt) (rm : Rm) (ftz neg : Bool) (m : Nat) (e : Int) (more : Bool) : Nat × Flags :=
  let emin : Int := 1 - (f.bias : Int)
  let top : Int := (Nat.log2 m : Int) + e
  let q : Int := (if top < emin then emin else top) - f.fw
  let (n, lost) := roundShift rm neg m (q - e) more
  if top < emin ∧ ftz then (0, { unf := true, inx := true })
  else
    let bits := n + (q - (emin - f.fw)).toNat * 2 ^ f.fw
    if f.top < bits then
      let big := f.hasInf && (match rm with | .rne => true | .rz => false | .ru => !neg | .rd => neg)
      (if big then f.infMag else f.top, { ovf := true, inx := true })
    else
      let carried := (roundShift rm neg m (top - f.fw - e) more).1 = 2 ^ (f.fw + 1)
      let tiny := top < emin - 1 || (top = emin - 1 && !carried)
      (bits, { unf := tiny && lost, inx := lost })

/-- R48, R49: an exact value rounded into a format, saturating where asked; a NaN becomes the canonical one. -/
def Fmt.pack (f : Fmt) (rm : Rm) (sat ftz : Bool) : Fl → Nat × Flags
  | .nan => (f.nan, {})
  | .inf neg => (f.withSign neg (if sat || !f.hasInf then f.top else f.infMag), {})
  | .fin neg m e more =>
    if m = 0 then (f.withSign neg 0, {})
    else
      let (x, g) := f.roundMag rm ftz neg m e more
      (f.withSign neg (if sat && f.top < x then f.top else x), g)

/-! ### Exact operations; a second component says that the operation created a NaN (invalid) -/

/-- Negation. -/
def Fl.neg : Fl → Fl
  | .nan => .nan
  | .inf n => .inf !n
  | .fin n m e k => .fin (!n) m e k

/-- Addition.  An exact zero sum of opposite signs is +0, or −0 when rounding down. -/
def Fl.add (rm : Rm) : Fl → Fl → Fl × Bool
  | .nan, _ | _, .nan => (.nan, false)
  | .inf a, .inf b => if a = b then (.inf a, false) else (.nan, true)
  | .inf a, _ | _, .inf a => (.inf a, false)
  | .fin na ma ea _, .fin nb mb eb _ =>
    let e := if ea ≤ eb then ea else eb
    let a := ma * 2 ^ (ea - e).toNat
    let b := mb * 2 ^ (eb - e).toNat
    if na = nb then (.fin na (a + b) e false, false)
    else if a = b then (.fin (rm = .rd) 0 e false, false)
    else if b < a then (.fin na (a - b) e false, false)
    else (.fin nb (b - a) e false, false)

/-- Multiplication. -/
def Fl.mul : Fl → Fl → Fl × Bool
  | .nan, _ | _, .nan => (.nan, false)
  | .inf a, .inf b => (.inf (a != b), false)
  | .inf a, .fin b m _ _ | .fin b m _ _, .inf a => if m = 0 then (.nan, true) else (.inf (a != b), false)
  | .fin na ma ea _, .fin nb mb eb _ => (.fin (na != nb) (ma * mb) (ea + eb) false, false)

/-- Division, with 128 bits of quotient and whether more follow; a last component says that a finite nonzero dividend
was divided by zero. -/
def Fl.div : Fl → Fl → Fl × Bool × Bool
  | .nan, _ | _, .nan => (.nan, false, false)
  | .inf _, .inf _ => (.nan, true, false)
  | .inf a, .fin b _ _ _ => (.inf (a != b), false, false)
  | .fin a _ _ _, .inf b => (.fin (a != b) 0 0 false, false, false)
  | .fin na ma ea _, .fin nb mb eb _ =>
    if mb = 0 then if ma = 0 then (.nan, true, false) else (.inf (na != nb), false, true)
    else if ma = 0 then (.fin (na != nb) 0 0 false, false, false)
    else
      let k := 128 + Nat.log2 mb
      let n := ma * 2 ^ k
      (.fin (na != nb) (n / mb) (ea - eb - k) (n % mb ≠ 0), false, false)

/-- The integer square root, by `n` bits from the highest. -/
def isqrt (x : Nat) : Nat → Nat → Nat
  | 0, r => r
  | n + 1, r => let t := r + 2 ^ n; isqrt x n (if t * t ≤ x then t else r)

/-- Square root; a negative nonzero value creates a NaN. -/
def Fl.sqrt : Fl → Fl × Bool
  | .nan => (.nan, false)
  | .inf true => (.nan, true)
  | .inf false => (.inf false, false)
  | .fin neg m e _ =>
    if m = 0 then (.fin neg 0 0 false, false)
    else if neg then (.nan, true)
    else
      let k : Nat := if e % 2 = 0 then 256 else 257
      let x := m * 2 ^ k
      let b := Nat.log2 x / 2 + 1
      let r := isqrt x b 0
      (.fin false r ((e - k) / 2) (r * r ≠ x), false)

/-- Whether `x < y` for values that are not NaN. -/
def Fl.lt : Fl → Fl → Bool
  | .nan, _ | _, .nan => false
  | .inf a, .inf b => a && !b
  | .inf a, .fin .. => a
  | .fin .., .inf b => !b
  | .fin na ma ea _, .fin nb mb eb _ =>
    let e := if ea ≤ eb then ea else eb
    let a : Int := (if na then -1 else 1) * (ma * 2 ^ (ea - e).toNat : Nat)
    let b : Int := (if nb then -1 else 1) * (mb * 2 ^ (eb - e).toNat : Nat)
    a < b

/-- Whether two values that are not NaN are equal as numbers. -/
def Fl.eq (x y : Fl) : Bool := x ≠ .nan && y ≠ .nan && !x.lt y && !y.lt x

/-! ### NaN results (R53) -/

/-- R43, R53: a NaN of one format converted to another and quieted, keeping its sign.  A format without NaN takes +0. -/
def convNan (src dst : Fmt) (x : Nat) : Nat :=
  if !dst.hasNan then 0
  else
    let neg := src.sign x
    if !dst.hasInf then dst.withSign neg dst.nan
    else
      let r := src.mag x % 2 ^ src.fw
      let r := if src.fw ≤ dst.fw then r * 2 ^ (dst.fw - src.fw) else r / 2 ^ (src.fw - dst.fw)
      dst.withSign neg (dst.infMag + (r ||| 2 ^ (dst.fw - 1)))

/-- R53: the NaN an operation with these source operands (in the order B, C, D) gives, when one of them is NaN or the
operation created one. -/
def nanOf (nanp : Bool) (dst : Fmt) (srcs : List (Fmt × Nat)) : Nat :=
  match srcs.find? fun p => p.1.isNan p.2 with
  | some (f, x) => if nanp then convNan f dst x else dst.nan
  | none => dst.nan

/-- R53: whether any operand is NaN, and whether any is signalling. -/
def anyNan (srcs : List (Fmt × Nat)) : Bool := srcs.any fun p => p.1.isNan p.2
def anySnan (srcs : List (Fmt × Nat)) : Bool := srcs.any fun p => p.1.isSnan p.2

/-! ### Additions in memory (R69) -/

/-- R69: a floating-point atomic add, f32 or bf16, with the flags it raises: invalid, overflow. -/
def atomicAdd (isBf : Bool) (old x : Nat) : Nat × Flags :=
  let f := if isBf then bf16 else f32
  let (v, made) := Fl.add .rne (f.value false old) (f.value false x)
  match v with
  | .nan => (f.nan, { inv := f.isNan old || f.isNan x || made })
  | v =>
    let (r, g) := f32.pack .rne false false v
    if isBf then
      let (q, h) := bf16.pack .rne false false (f32.value false r)
      (q, { ovf := g.ovf || h.ovf })
    else (r, { ovf := g.ovf })

end Sys2Proof.Machine
end

