-- ==== Sys2Proof/Machine/MemOps.lean ====
section
/-! DEFINITION. Outstanding accesses (spec/13 R176 to R196, spec/15 R201, R207 to R210): what lets one be performed or
return, and what it then does. -/

namespace Sys2Proof.Machine
open Sys2Proof.Forms

/-! ### The operations of R207 -/

/-- R207: the new value of a location, and the flags of a floating-point add (R69). -/
def atomNew (op : Nat) (ty : BitVec 5) (old x e : Nat) : Nat × Flags :=
  let w := tyBits ty
  let num (v : Nat) : Int := if tySigned ty && 2 ^ (w - 1) ≤ v then (v : Int) - 2 ^ w else v
  match op with
  | 0 => if ty = 8#5 ∨ ty = 0xA#5 then atomicAdd (ty = 0xA#5) old x else ((old + x) % 2 ^ w, {})
  | 1 => (if num old ≤ num x then old else x, {})
  | 2 => (if num x ≤ num old then old else x, {})
  | 3 => (old &&& x, {})
  | 4 => (old ||| x, {})
  | 5 => (old ^^^ x, {})
  | 6 => (x, {})
  | 7 => (if old = e then x else old, {})
  | 8 => (if x ≤ old then 0 else old + 1, {})
  | _ => (if old = 0 ∨ x < old then x else old - 1, {})

/-- R46: a loaded value widened to its registers. -/
def widen (ty : BitVec 5) (n : Nat) : Val :=
  let w := tyBits ty
  if tySigned ty && w < 32 && 2 ^ (w - 1) ≤ n then BitVec.ofNat 128 (2 ^ 32 - 2 ^ w + n) else BitVec.ofNat 128 n

/-! ### Kinds -/

/-- Instructions that return a value and count on LD (R221). -/
def OpKind.onLd : OpKind → Bool
  | .load | .ldx | .atom | .lds | .atoms | .kvtr | .fqry | .lmst => true
  | _ => false

/-- Scratchpad accesses. -/
def OpKind.scratch : OpKind → Bool
  | .lds | .sts | .atoms => true
  | _ => false

/-- Accesses that return a value (R176). -/
def OpKind.reads : OpKind → Bool
  | .load | .ldx | .atom | .lds | .atoms => true
  | _ => false

/-- Accesses that write memory or scratchpad. -/
def OpKind.writes : OpKind → Bool
  | .store | .red | .atom | .sts | .atoms => true
  | _ => false

/-- What a release waits for (R178): not RHEVICT, KVTR, FQRY or LMST. -/
def OpKind.released : OpKind → Bool
  | .rhevict | .kvtr | .fqry | .lmst => false
  | _ => true

/-- R177: acquire or release order; acquire order alone. -/
def Op.sync (o : Op) : Bool := 2 ≤ o.ord
def Op.acquires (o : Op) : Bool := (o.kind.reads && o.ord = 2) || o.ar

/-- Bytes of one thread's access. -/
def Op.bytes (o : Op) : Nat := tyBytes o.ty

/-- Whether an access goes to another device or the host. -/
def Access.remote (a : Access) : Bool := 2 ≤ a.loc.tier

/-- Whether two accesses touch a common word (R173). -/
def Access.meets (a : Access) (n : Nat) (b : Access) (m : Nat) : Bool :=
  a.loc.tier = b.loc.tier && a.loc.peer = b.loc.peer
    && a.loc.addr / 4 ≤ (b.loc.addr + m - 1) / 4 && b.loc.addr / 4 ≤ (a.loc.addr + n - 1) / 4

/-- Whether they do by their virtual addresses, of which a move may have put one into another frame (R169, R176). -/
def Access.meetsVa (a : Access) (n : Nat) (b : Access) (m : Nat) : Bool :=
  a.va / 4 ≤ (b.va + m - 1) / 4 && b.va / 4 ≤ (a.va + n - 1) / 4

/-- Whether two operations of a sheaf touch a common word of one space. -/
def Op.meets (o p : Op) : Bool :=
  o.kind.scratch = p.kind.scratch
    && o.accs.any fun a => p.accs.any fun b => !a.done && !b.done
      && (a.meets o.bytes b p.bytes || (!o.kind.scratch && a.meetsVa o.bytes b p.bytes))

/-- The registers a place covers. -/
def Place.covers (p : Place) (n : Nat) (q : Place) (m : Nat) : Bool :=
  match p, q with
  | .v i, .v j | .s i, .s j => i < j + m && j < i + n
  | .o i, .o j => i < j + 16 * m && j < i + 16 * n
  | _, _ => false

/-- The sheaf's earlier operations that are not done. -/
def State.earlier (s : State) (n : Nat) (o : Op) : List Op :=
  (s.ops.filter fun e => e.1 < n && e.2.sheaf = o.sheaf).map fun e => e.2

/-- R217: the scratchpad an access of a sheaf names. -/
def Op.bank (o : Op) (a : Access) : Home := if o.heath then o.home else .wg a.loc.peer

/-! ### Holds -/

/-- R169: whether a write of operation `n` to a place is held in a frozen frame; a remote one issued before the selection is
past the hold point, and runs to completion. -/
def State.frozenFor (s : State) (n : Nat) (l : Loc) : Bool :=
  s.migrations.any fun m => m.old.tier = l.tier && m.old.peer = l.peer && m.old.addr / 65536 = l.addr / 65536
    && (match m.state with
      | .drain => l.tier < 2 || m.seq ≤ n
      | .copy | .remap => true
      | .release | .releaseOld => false)

/-- R164: whether a tier-1 read can be served: from an L2 line, the staging cache, or without a fill. -/
def State.staged (s : State) (a : Access) : Bool :=
  a.loc.tier ≠ 1 || a.lh = 3 || (s.l2? (lineOf a.loc.addr)).isSome || s.staging.any fun b => b.1 = a.loc.addr / 65536

/-- R164: start the fill of a staging block, unless one runs. -/
def State.startFill (s : State) (block hint : Nat) : State :=
  if s.stagingFills.any fun b => b.1 = block then s else { s with stagingFills := s.stagingFills ++ [(block, hint)] }

/-! ### Links (R350, R353) -/

/-- R350: whether a place can be reached now: of a host page, whether its translation is cached. -/
def State.linkUp (s : State) (l : Loc) : Bool := l.tier ≠ 3 || (s.atc.get? (l.addr / 65536)).isSome

/-- R350, R353: whether an access to another device or the host fails for its address: an identifier outside a standard
domain; a write (`w`) through a translation without write permission. -/
def State.linkFails (s : State) (l : Loc) (w : Bool) : Bool :=
  (l.tier = 2 && 1024 ≤ l.peer && !s.accid.getLsbD 15)
    || (l.tier = 3 && w && (match s.atc.get? (l.addr / 65536) with | some (_, ok) => !ok | none => false))

/-- R166, R353: a read at issue of another device or the host that is to fail: the state without that entry, and whether it meets
an uncorrectable error there. -/
def State.farFail (s : State) (l : Loc) : Option (State × Bool) :=
  let mine (e : Nat × Nat × Bool) : Bool := e.1 = l.tier && e.2.1 = l.peer
  (s.farFails.find? mine).map fun e =>
    ({ s with farFails := s.farFails.takeWhile (fun x => !mine x) ++ (s.farFails.dropWhile fun x => !mine x).drop 1 }, e.2.2)

/-- R350: ask the host for the translation of a page that is not cached. -/
def State.requestAts (s : State) (l : Loc) : State :=
  let page := l.addr / 65536
  if s.linkUp l || s.atsReq.contains page || s.priReq.contains page then s else { s with atsReq := s.atsReq ++ [page] }

/-- R297: the heath cores whose open reduction windows hold a line. -/
def State.windowsOf (s : State) (pa : Nat) : List Nat :=
  (s.blocks.filter fun b => b.2.window.contains (lineOf pa)).map fun b => b.1

/-! ### Failures after issue (R165, R166, R299) -/

/-- R165, R180: whether a load takes a word from its core's L1; an acquire takes no copy that is not owned, and an atomic
none. -/
def State.copiedWord (s : State) (o : Op) (pa : Nat) : Bool :=
  !o.heath && o.kind ≠ .atom
    && ((s.l1Word? (s.slice o.core (lineOf pa)) pa).map fun w => w.owned || o.ord ≠ 2).getD false

/-- Whether it takes every word from there. -/
def State.copied (s : State) (o : Op) (a : Access) : Bool :=
  !a.remote && (wordsAt a.loc.addr o.bytes).all (s.copiedWord o)

/-- R166: whether it meets an uncorrectable sector at home. -/
def State.loses (s : State) (o : Op) (a : Access) : Bool :=
  (wordsAt a.loc.addr o.bytes).any fun w => !s.copiedWord o w && s.unreadable w

/-- What one access meets at its site. -/
def State.failsAt (s : State) (o : Op) (a : Access) : Option (Cause × Nat) :=
  if o.kind.scratch || a.done then none
  else if a.remote then if s.linkFails a.loc o.kind.writes then some (.xlate, 4) else none
  else if o.heath then
    if (o.kind.reads || o.kind = .red) && s.bad a.loc.addr then some (.ecc, 0) else none
  else if !o.kind.reads || s.copied o a then none
  else if a.loc.tier = 1 then
    match (s.seg (segOf a.loc.addr)).state with
    | .install => some (.fallow, 0)
    | .invalid | .failed => some (.ecc, 0)
    | _ => if s.loses o a then some (.ecc, 0) else none
  else if s.loses o a then some (.ecc, 0)
  else none

/-- Whether any thread's part fails at its site. -/
def State.opFails (s : State) (o : Op) : Bool := o.accs.any fun a => (s.failsAt o a).isSome

/-! ### When an access may return or be performed -/

/-- R191, R288: the accesses of a heath sheaf, to HBM and to scratch, keep program order. -/
def State.heathOrder (s : State) (n : Nat) (o : Op) : Bool := !o.heath || s.earlier n o = []

/-- R178: whether a sheaf's release is complete. -/
def State.released (s : State) (k : Nat) (r : Release) : Bool :=
  (s.ops.all fun e => e.2.sheaf ≠ k || r.seq < e.1 || !e.2.kind.released) && s.drained r.markers k r.seq

/-- R177, R178: whether the release of a near-memory call that a sheaf issued before number `n` is not complete. -/
def State.callsBefore (s : State) (k n : Nat) : Bool :=
  s.calls.any fun e => e.1 < n && e.2.sheaf = k && e.2.state = .release && !s.released k e.2.rel

/-- R172, R176, R177, R201: when a load may return. -/
def State.mayReturn (s : State) (n : Nat) (o : Op) : Bool :=
  let before := s.earlier n o
  s.heathOrder n o
    && before.all (fun p =>
      (!(p.kind.onLd && o.dest.covers o.words p.dest p.words))
        && (!(p.kind.reads || p.kind = .red || p.kind = .sts || (o.ord = 2 && p.kind = .store)) || !p.meets o))
    && (o.ord ≠ 2 || (before.all (fun p => !p.sync) && !s.callsBefore o.sheaf n))
    && (o.kind.scratch || o.accs.all fun a =>
      if a.remote then s.linkUp a.loc else s.copied o a || (s.staged a && !s.heldAt o.heath a.loc.addr))

/-- The lines of this device that an operation still has to write. -/
def Op.lines (o : Op) : List Nat := (o.accs.filter fun a => !a.done && !a.remote).map fun a => lineOf a.loc.addr

/-- R1, R160, R176, R177, R178, R184: when the local part of a write may be performed. -/
def State.mayPerform (s : State) (n : Nat) (o : Op) : Bool :=
  let before := s.earlier n o
  s.heathOrder n o
    && before.all (fun p => !p.kind.reads && !(p.kind.writes && p.meets o)
      && !(p.kind.onLd && o.dest.covers o.words p.dest p.words))
    && (o.ord ≠ 3 || (before.all (fun p => !p.kind.released) && s.drained o.markers o.sheaf n))
    && (!(o.ord = 2 || o.ar) || (before.all (fun p => !p.sync) && !s.callsBefore o.sheaf n))
    && (o.kind.scratch || (o.accs.all (fun a => a.done
      || (!s.frozenFor n a.loc && (if a.remote then s.linkUp a.loc
        else !s.heldAt o.heath a.loc.addr && (o.heath || s.l1Room (s.slice o.core (lineOf a.loc.addr)) (lineOf a.loc.addr)))))
      && (o.heath || (s.fifoFits o.core o.lines && s.l2Fits o.lines))))

/-- The physical lines of a part of a page that lies at a location. -/
def linesAt (loc : Loc) (page lo hi : Nat) : List Nat :=
  (List.range (hi / 128 - lo / 128 + 1)).map fun j => lineOf (loc.addr / 65536 * 65536 + (lo / 128 * 128 - page) + 128 * j)

/-- The lines an accepted CFLUSH or CINV names in one page. -/
def Access.lines (a : Access) : List Nat := linesAt a.loc a.x.toNat a.va a.e.toNat

/-! ### Bytes -/

/-- R191: HBM read and written directly by a heath core; a write fires heath monitors (R288), and, of a line that its home L2
does not hold, is one that instruction caches observe (R225). -/
def State.hbmRead (s : State) (pa n : Nat) : List Byte := Store.slice s.mem pa n
def State.hbmWrite (s : State) (ctx pa : Nat) : List Byte → State
  | [] => s
  | b :: bs =>
    let w := mergeWord (s.rawWord pa) ((b.zeroExtend 32) <<< (8 * (pa % 4))) (2 ^ (pa % 4))
    let s := if (s.l2? (lineOf pa)).isNone then s.icDrop fun l => l = lineOf pa else s
    State.hbmWrite ((s.writeBack ctx (lineOf pa) (Store.set [] (wordIn pa) w) (1#32 <<< wordIn pa)).fire true (lineOf pa)) ctx
      (pa + 1) bs

/-- R166: an uncorrectable error whose record in the fault log follows: reported to the host, and pending for the log. -/
def State.lostAt (s : State) (ctx pa : Nat) : State :=
  ({ s with eccLog := s.eccLog ++ [(ctx, pa)] }.report (.uncorrectable pa)).raiseIrq 4

/-- The bytes at an address out of its words. -/
def bytesFrom (ws : List Word) (pa n : Nat) : List Byte := ((ws.flatMap bytesOf).drop (pa % 4)).take n

/-- R159, R164: a load by a compute core of `n` bytes, word by word; one that allocates nothing reads its staging block too. -/
def State.loadBytes (s : State) (core : Nat) (r : Req) (acq alloc : Bool) (pa n : Nat) : State × List Byte :=
  let (s, ws) := (wordsAt pa n).foldl (fun (acc : State × List Word) a =>
    let (s, w) :=
      if alloc || (acc.1.l1Word? (acc.1.slice core (lineOf a)) a).isSome then acc.1.loadWord core r acq a
      else
        let t := acc.1.recall (lineOf a) (wordIn a)
        (if isFallow a && (t.l2? (lineOf a)).isNone then t.touchStaging r.leaf (a / 65536) else t, acc.1.peek a)
    (s, acc.2 ++ [w])) (s, [])
  (s, bytesFrom ws pa n)

/-- R182: a store by a compute core, word by word. -/
def State.storeBytes (s : State) (core : Nat) (r : Req) (who : Nat × Nat) (pa : Nat) : List Byte → State
  | [] => s
  | b :: bs =>
    State.storeBytes (s.storeWord core r who pa ((b.zeroExtend 32) <<< (8 * (pa % 4))) (2 ^ (pa % 4))) core r who (pa + 1) bs

/-- R176: a load's bytes with those of the sheaf's own earlier stores that are not performed put over them. -/
def overlay (before : List Op) (a : Access) (bs : List Byte) : List Byte :=
  bs.zipIdx.map fun (p : Byte × Nat) =>
    before.foldl (fun (b : Byte) o =>
      if o.kind = .store then
        o.accs.foldl (fun (b : Byte) x =>
          let at_ := a.loc.addr + p.2
          if !x.done && x.loc.tier = a.loc.tier && x.loc.peer = a.loc.peer && x.loc.addr ≤ at_ && at_ < x.loc.addr + o.bytes
          then x.x.extractLsb' (8 * (at_ - x.loc.addr)) 8 else b) b
      else b) p.1

/-! ### Results -/

/-- R55, R57: raise sticky flags in one thread. -/
def Sticky.raise (k : Sticky) (t : Nat) (g : Flags) : Sticky :=
  { inv := if g.inv then setBit k.inv t true else k.inv, dz := if g.dz then setBit k.dz t true else k.dz
    ovf := if g.ovf then setBit k.ovf t true else k.ovf, unf := if g.unf then setBit k.unf t true else k.unf
    inx := if g.inx then setBit k.inx t true else k.inx }

/-- Raise flags in a set of threads. -/
def Sheaf.raiseFlags (sh : Sheaf) (ts : List Nat) (g : Flags) : Sheaf :=
  { sh with sticky := ts.foldl (fun k t => k.raise t g) sh.sticky }

/-- R70: contribute to a context's AXF. -/
def State.axf (s : State) (ctx : Nat) (g : Flags) : State :=
  if g.inv || g.ovf then
    s.onCtx ctx fun c => { c with axf := c.axf ||| (if g.inv then 1#3 else 0#3) ||| (if g.ovf then 4#3 else 0#3) }
  else s

/-- R128: a value for an ended sheaf is discarded. -/
def State.deliver (s : State) (o : Op) (t : Nat) (x : Val) : State :=
  s.onSheaf o.sheaf fun sh => if sh.status = .exited then sh else sh.deliver o.dest o.words t x

/-- R208: the flags of a value-returning add go to the issuing thread, or to every live thread. -/
def State.opFlags (s : State) (o : Op) (t : Nat) (g : Flags) : State :=
  s.onSheaf o.sheaf fun sh => sh.raiseFlags (if o.ucls then active sh.live else [t]) g

/-- R221, R313: an operation is done: its counter falls, and a handler that waited for it goes on. -/
def State.opDone (s : State) (n : Nat) (o : Op) : State :=
  let s := { s with ops := s.ops.del n }
  let s := if o.acquires then s.acquire o.sheaf else s
  match s.sheaf? o.sheaf with
  | none => s
  | some sh =>
    if sh.status = .exited then s
    else
      let s := if o.kind.onLd then s.doneLd o.sheaf n else s.decr o.sheaf .st
      if sh.status = .stalled (.access n) then (s.onSheaf o.sheaf Sheaf.advance).wake o.sheaf else s

/-- The requester of an access. -/
def Op.req (o : Op) (a : Access) : Req :=
  { ctx := o.ctx, va := a.va, hint := if o.hint ≠ 0 then o.hint else a.lh, leaf := a.lh }

/-- R199, R202, R206: one thread's loaded bytes. -/
def State.loadAccess (s : State) (n : Nat) (o : Op) (a : Access) (remote : Val) : State × Nat :=
  if o.kind = .lds then (s, leNat (s.spRead (o.bank a) a.loc.addr o.bytes))
  else if a.remote then (s, leNat (overlay (s.earlier n o) a (bytesLe o.bytes remote.toNat)))
  else if o.heath then (s, leNat (s.hbmRead a.loc.addr o.bytes))
  else
    let (s, bs) := s.loadBytes o.core (o.req a) (o.ord = 2) (o.kind ≠ .ldx) a.loc.addr o.bytes
    (s, leNat (overlay (s.earlier n o) a bs))

/-- R186, R208, R210: one thread's read-modify-write at its site: the old value. -/
def State.atomAccess (s : State) (n : Nat) (o : Op) (a : Access) : State × Nat :=
  let old : Nat :=
    if o.kind = .atoms then leNat (s.spRead (o.bank a) a.loc.addr o.bytes)
    else if o.heath then leNat (s.hbmRead a.loc.addr o.bytes)
    else leNat (s.peekBytes a.loc.addr o.bytes)
  let new := bytesLe o.bytes (atomNew o.aop o.ty old a.x.toNat a.e.toNat).1
  let s :=
    if o.kind = .atoms then s.spWrite (o.bank a) a.loc.addr new
    else if o.heath then s.hbmWrite o.ctx a.loc.addr new
    else (s.exclusive o.core (o.req a) (lineOf a.loc.addr)).storeBytes o.core (o.req a) (o.sheaf, n) a.loc.addr new
  (s, old)

/-- R209: one thread's local reduction outside a heath window, or a heath core's; on an uncorrectable sector it is not applied
(R166). -/
def State.redAccess (s : State) (n : Nat) (o : Op) (a : Access) : State :=
  if if o.heath then s.bad a.loc.addr else s.lostIn a.loc.addr o.bytes then s.lostAt o.ctx a.loc.addr else
  let old : Nat := if o.heath then leNat (s.hbmRead a.loc.addr o.bytes) else leNat (s.peekBytes a.loc.addr o.bytes)
  let r := atomNew o.aop o.ty old a.x.toNat 0
  let s := s.axf o.ctx r.2
  let new := bytesLe o.bytes r.1
  if o.heath then s.hbmWrite o.ctx a.loc.addr new
  else (s.exclusive o.core (o.req a) (lineOf a.loc.addr)).storeBytes o.core (o.req a) (o.sheaf, n) a.loc.addr new

/-- R200, R206: one thread's local store. -/
def State.storeAccess (s : State) (n : Nat) (o : Op) (a : Access) : State :=
  let bs := bytesLe o.bytes a.x.toNat
  if o.kind = .sts then s.spWrite (o.bank a) a.loc.addr bs
  else if o.heath then s.hbmWrite o.ctx a.loc.addr bs
  else s.storeBytes o.core (o.req a) (o.sheaf, n) a.loc.addr bs

/-- Whether an access is one that STORE_PERFORMED performs: local, not done, and not a reduction to a window, nor
one that has left for its base die (R298). -/
def State.direct (s : State) (o : Op) (a : Access) : Bool :=
  !a.remote && !a.done && (o.kind ≠ .red || o.heath || (s.windowsOf a.loc.addr = [] && !a.fwd))

/-- R182, R200, R206, R209: perform the local part of a store or reduction, in ascending thread order (R176). -/
def State.performStores (s : State) (n : Nat) (o : Op) : State :=
  let s := o.accs.foldl (fun s a =>
    if s.direct o a then if o.kind = .red then s.redAccess n o a else s.storeAccess n o a else s) s
  let accs := o.accs.map fun a => if s.direct o a then { a with done := true } else a
  let s := s.onOp n fun p => { p with accs := accs }
  if accs.all fun a => a.done then s.opDone n o else s

/-- One thread of a load or value-returning atomic: its value is written (R46, R208). -/
def State.returnOne (s : State) (n : Nat) (o : Op) (a : Access) (remote : Val) : State :=
  if o.kind = .atom ∨ o.kind = .atoms then
    let (s, old) := if a.remote then (s, a.e.toNat) else s.atomAccess n o a
    let s := if o.aop = 0 then s.opFlags o a.thread (atomNew 0 o.ty old a.x.toNat 0).2 else s
    s.deliver o a.thread (widen o.ty old)
  else
    let (s, v) := s.loadAccess n o a remote
    s.deliver o a.thread (widen o.ty v)

/-- R199, R208, R221: every thread that does not fail receives its value, and the instruction is done. -/
def State.returnAll (s : State) (n : Nat) (o : Op) (ok : Nat → Bool) (data : List Val) : State :=
  let s := if o.acquires then s.acquire o.sheaf else s
  let s := (o.accs.foldl (fun (p : State × List Val) a =>
    let rest := if a.remote then p.2.drop 1 else p.2
    if ok a.thread then (p.1.returnOne n o a (p.2.headD 0), rest) else (p.1, rest)) (s, data)).1
  s.opDone n o

end Sys2Proof.Machine
end

