-- ==== Sys2Proof/Machine/Ops.lean ====
section
/-! DEFINITION. The shared operations over sheafs, workgroups and contexts: the fault log (R325), ending sheafs, blocks,
workgroups and contexts (R243, R295, R324), the fault filter (R319), taking a trap (R309 to R312) and returning from one
(R323), and starting a release (R178). -/

namespace Sys2Proof.Machine

/-! ### Causes (R306) -/

/-- The code of a cause. -/
def Cause.code : Cause → Nat
  | .illop => 0x01 | .priv => 0x02 | .window => 0x03 | .latch => 0x04 | .divz => 0x05 | .fpinv => 0x06
  | .fpdz => 0x07 | .fpovf => 0x08 | .fpunf => 0x09 | .fpinx => 0x0A | .xlate => 0x0B | .prot => 0x0C
  | .align => 0x0D | .ecc => 0x0E | .fallow => 0x0F | .hover => 0x10 | .hdead => 0x11 | .lattice => 0x12
  | .role => 0x13 | .soft => 0x14 | .brk => 0x15

/-- The default routes of R306. -/
inductive Route
  | user | supervisor | kill
  deriving DecidableEq, Repr

def Cause.route : Cause → Route
  | .latch | .xlate | .ecc | .fallow => .supervisor
  | .divz | .fpinv | .fpdz | .fpovf | .fpunf | .fpinx | .soft | .brk => .user
  | _ => .kill

/-- The causes whose TA is an address. -/
def Cause.addressed : Cause → Bool
  | .xlate | .prot | .align | .ecc | .fallow | .hover | .hdead => true
  | _ => false

/-! ### What is held (R304) -/

/-- R304: whether something that waits does so for a stack that is in self-refresh: for its contents, or for a fill of its share
of the staging cache. -/
def State.onRefresh (s : State) (ws : List WaitOn) : Bool :=
  ws.any fun w =>
    match w with
    | .refresh st => (s.refresh.get? st).isSome
    | .fill b _ => ((s.stagingStack b).bind fun st => s.refresh.get? st).isSome
    | _ => false

/-- What a sheaf's instruction, or its fetch, waits for. -/
def Sheaf.waitsOn (sh : Sheaf) : List WaitOn :=
  match sh.status with
  | .stalled (.held ws) | .stalled (.fetch ws) | .stalled (.lost _ ws) => ws
  | _ => []

/-- R304: whether a read or write of a context's word that the dispatcher or trap entry makes is held: its walk, or its place. -/
def State.wordHeld (s : State) (core ctx va : Nat) : Bool :=
  (s.xlateHeld false core ctx va .look).isSome ||
    match s.xlate false core ctx va .look with
    | .ok leaf _ b _ => (s.place leaf b va).tier ≤ 1 && s.heldAt false (s.place leaf b va).addr
    | .fail .. => false

/-! ### The fault log (R325) -/

/-- One record of 64 bytes. -/
structure LogRec where
  kind : Nat
  exited : Bool := false
  imp : Bool := false
  causes : Nat := 0
  grid : Nat := 0
  shid : Nat := 0xFFFFFFFF
  wg : Nat × Nat × Nat := (0, 0, 0)
  core : Nat := 0
  pc : Nat := 0
  addr : Nat := 0
  rgnpc : Nat := 0
  rgncnt : Nat := 0
  deriving DecidableEq, Repr

/-- Its bytes. -/
def LogRec.bytes (r : LogRec) : List Byte :=
  bytesLe 4 (r.kind + (if r.exited then 256 else 0) + (if r.imp then 512 else 0))
    ++ bytesLe 4 r.causes ++ bytesLe 4 r.grid ++ bytesLe 4 r.shid
    ++ bytesLe 4 r.wg.1 ++ bytesLe 4 r.wg.2.1 ++ bytesLe 4 r.wg.2.2 ++ bytesLe 4 r.core
    ++ bytesLe 8 r.pc ++ bytesLe 8 r.addr ++ bytesLe 8 r.rgnpc ++ bytesLe 4 r.rgncnt ++ bytesLe 4 0

/-- The place of a context's next record. -/
def Ctx.flogAt (c : Ctx) (b : CtxBlock) : Nat := b.flog + 64 * (c.flogTail.toNat % b.flogn)

/-- Append a record, or count one that finds the ring full. -/
def State.appendLog (s : State) (ctx : Nat) (bs : List Byte) : State :=
  match s.ctx? ctx with
  | none => s
  | some c =>
    match c.blk with
    | none => s
    | some b =>
      if (c.flogTail - c.flogHead).toNat < b.flogn then
        ((s.homeWrite {} (c.flogAt b) bs).onCtx ctx fun c => { c with flogTail := c.flogTail + 1 }).raiseIrq 1
      else s.onCtx ctx fun c => { c with flogovf := c.flogovf + 1 }

/-- R304: whether the place of a context's next record is held. -/
def State.logHeld (s : State) (ctx : Nat) : Bool :=
  s.refresh ≠ [] && (((s.ctx? ctx).bind fun c => c.blk.map fun b => s.heldAt false (c.flogAt b)).getD false)

/-- R304, R325: append a record; one whose place is held, or that comes behind one of its context that waits, waits. -/
def State.faultLog (s : State) (ctx : Nat) (r : LogRec) : State :=
  if s.logHeld ctx || s.logWait.any fun e => e.1 = ctx then { s with logWait := s.logWait ++ [(ctx, r.bytes)] }
  else s.appendLog ctx r.bytes

/-- R304: records that have waited are appended, in order, as far as nothing holds them still. -/
def State.appendWaiting (s : State) : State :=
  s.logWait.foldl (fun s e =>
    if s.logHeld e.1 || s.logWait.any fun x => x.1 = e.1 then { s with logWait := s.logWait ++ [e] } else s.appendLog e.1 e.2)
    { s with logWait := [] }

/-- What a record says of a workgroup. -/
def State.wgRec (s : State) (w kind : Nat) : LogRec :=
  match s.wg? w with
  | none => { kind := kind }
  | some g =>
    { kind := kind, grid := ((s.grid? g.grid).map fun x => x.gid.toNat).getD 0, wg := (g.x, g.y, g.z), core := g.core }

/-- What a record says of a sheaf, with the causes of its open levels below the one named. -/
def State.sheafRec (s : State) (sh : Sheaf) (kind : Nat) (c : Cause) : LogRec :=
  let r := match sh.home with | .wg w => s.wgRec w kind | .block _ => { kind := kind, core := sh.core }
  let low (t : TrapRegs) : Nat := t.tc.toNat % 256
  let causes :=
    if sh.tlvl = 0 then c.code else if sh.tlvl = 1 then low sh.t1 + 256 * c.code
    else low sh.t1 + 256 * low sh.t2 + 65536 * c.code
  { r with causes := causes, shid := sh.shid }

/-- R166: an uncorrectable error is reported to the host and, in the fault log, to its context (KIND 4). -/
def State.uncorrectable (s : State) (ctx : Option Nat) (r : LogRec) (pa : Nat) : State :=
  let s := (s.report (.uncorrectable pa)).raiseIrq 4
  match ctx with
  | none => s
  | some c => s.faultLog c { r with kind := 4, causes := Cause.ecc.code }

/-- R166: whether the walk of an address meets an uncorrectable page-table read. -/
def State.walkLost (s : State) (heath : Bool) (core ctx va : Nat) : Bool :=
  match s.xlate heath core ctx va .look with | .fail .ecc _ => true | _ => false

/-! ### The fault filter (R319) -/

/-- An entry goes, resolved or dropped: its waiters walk again, with no trap waiting. -/
def State.dropFilters (s : State) (p : Filter → Bool) : State :=
  let gone := s.filters.filter p
  let again (sh : Sheaf) : Sheaf :=
    match sh.status with
    | .stalled (.filter page) =>
      if gone.any fun e => e.ctx = sh.ctx && e.page = page && e.cluster = s.cluster sh.core
      then { sh with status := .stalled (.walk page), pend := none } else sh
    | _ => sh
  { s with filters := s.filters.filter fun e => !p e, sheafs := s.sheafs.mapv again }

/-- The entry of a page for a cluster. -/
def State.filter? (s : State) (ctx page cluster : Nat) : Option Filter :=
  s.filters.find? fun e => e.ctx = ctx && e.page = page && e.cluster = cluster

/-- PMAP resolves the entry of its own cluster. -/
def State.resolveFilter (s : State) (ctx page cluster : Nat) : State :=
  s.dropFilters fun e => e.ctx = ctx && e.page = page && e.cluster = cluster

/-- Change the entry of a page. -/
def State.onFilter (s : State) (ctx page cluster : Nat) (g : Filter → Filter) : State :=
  { s with filters := s.filters.map fun e => if e.ctx = ctx && e.page = page && e.cluster = cluster then g e else e }

/-- R319: the entries a sheaf leads are dropped. -/
def State.dropLead (s : State) (k : Nat) : State :=
  (s.dropFilters fun e => e.lead = some k).onSheaf k fun sh => { sh with lead := [] }

/-- R319: the entry that a sheaf's handler of one level leads is dropped. -/
def State.dropLeadAt (s : State) (k : Nat) (lead : Table Nat) (level : Nat) : State :=
  match lead.get? level with
  | none => s
  | some page => (s.dropFilters fun e => e.lead = some k && e.page = page).onSheaf k fun sh => { sh with lead := sh.lead.del level }

/-! ### Ending sheafs -/

/-- A sheaf becomes EXITED: its lane, registers, monitor and trap state go (R128, R23).  The entry it has waited on keeps its
count of waiters (log 128). -/
def State.exitSheaf (s : State) (k : Nat) : State :=
  (s.dropLead k).onSheaf k fun t =>
    { t with status := .exited, lane := none, mon := none, pend := none, held := [], rel := none
             v := [], o := [], s := [], p := [], q := 0, ahead := [] }

/-- A sheaf ends, and its lane goes to the next ready one (R30). -/
def State.endSheaf (s : State) (k : Nat) : State :=
  match s.sheaf? k with
  | none => s
  | some sh => (s.exitSheaf k).grantLanes sh 32

/-- R243 step 1: sheafs end at once, their outstanding loads discarded; then the lanes they held are given (R27). -/
def State.endAll (s : State) (ks : List Nat) : State :=
  let s := { s with ops := s.ops.filter fun e =>
    !(ks.contains e.2.sheaf && (e.2.kind.onLd && e.2.kind ≠ .atom && e.2.kind ≠ .atoms)) }
  let live := ks.filter fun k => ((s.sheaf? k).map fun sh => decide (sh.status ≠ .exited)).getD false
  let t := live.foldl (fun s k => s.exitSheaf k) s
  (live.filterMap s.sheaf?).foldl (fun t sh => t.grantLanes sh 32) t

/-- The sheafs of a home. -/
def State.sheafsOf (s : State) (h : Home) : List Nat := (s.sheafs.filter fun e => e.2.home = h).map fun e => e.1

/-- A grid fails, to be passed upward when it retires (R24). -/
def State.failGrid (s : State) (g : Nat) : State := s.onGrid g fun x => { x with failed := true }

/-! ### The lattice lets a workgroup go (R247, R262) -/

/-- R247: the queued workgroup that is next: the highest launch priority of its context on the core, the earliest among
equals. -/
def State.nextOwner (s : State) (core : Nat) : Option Nat :=
  let prio (w : Nat) : Nat := match s.wg? w with | some g => s.ctxPrio g.ctx core | none => 0
  (s.core core).lattice.queue.foldl (fun best w =>
    match best with
    | none => some w
    | some b => if prio b < prio w then some w else best) none

/-- R247, R249: a core's lattice that is free, with no owner and every accepted operation performed, chooses its next owner from
the queue as it stands. -/
def State.chooseOwner (s : State) (core : Nat) : State :=
  let l := (s.core core).lattice
  if l.owner = none ∧ l.ops = [] ∧ l.next = none then
    s.onCore core fun c => { c with lattice := { c.lattice with next := s.nextOwner core } }
  else s

/-- R262: tile operations of a workgroup that are not performed are discarded or abandoned. -/
def State.dropTiles (s : State) (w : Nat) : State :=
  match s.wg? w with
  | none => s
  | some g =>
    let s := s.onCore g.core fun c => { c with lattice := { c.lattice with ops := c.lattice.ops.filter fun t => t.wg ≠ w } }
    (s.onWg w fun x => { x with joins := [] }).chooseOwner g.core

/-- R262: ownership, or the queue entry, is released. -/
def State.freeLattice (s : State) (w : Nat) : State :=
  match s.wg? w with
  | none => s
  | some g =>
    let leave (l : Lattice) : Lattice :=
      { l with queue := l.queue.filter (· ≠ w)
               next := if l.next = some w then none else l.next
               owner := if l.owner = some w then none else l.owner
               lastCtx := if l.owner = some w then some g.ctx else l.lastCtx }
    (s.onCore g.core fun c => { c with lattice := leave c.lattice }).chooseOwner g.core

/-! ### Workgroups leave (R17, R22, R161, R226, R326) -/

/-- R161: the L1s of a physical cluster are written back and invalidated. -/
def State.flushCluster (s : State) (cl : Nat) : State :=
  (s.clusterCores cl).foldl (fun s c => (s.core c).l1.foldl (fun s l => s.l1Evict c l.line) s) s

/-- R169: whether a write-back of a cluster's L1s is held by a frozen frame. -/
def State.clusterHeld (s : State) (cl : Nat) : Bool := (s.clusterCores cl).any fun c => (s.core c).l1.any s.stuck

/-- R161: a fused cluster that holds no workgroup unfuses, once none of its write-backs is held (R169). -/
def State.unfuse (s : State) (cl : Nat) : State :=
  if (s.fused.get? cl).isSome && !(s.resident.any fun e => s.cluster e.2.core = cl) && !s.clusterHeld cl then
    let s := s.flushCluster cl
    { s with fused := s.fused.del cl }
  else s

/-- R249: a context that is gone leaves no word to one that takes its number. -/
def Lattice.forget (l : Lattice) (ctx : Nat) : Lattice :=
  let l := { l with left := l.left.del ctx }
  if l.lastCtx ≠ some ctx then l
  else if l.owner = none then { l with lam := [], rowM := [], rowL := [], rowA := [], lastCtx := none }
  else { l with lastCtx := none }

/-- R223, R347: a destroyed context of which nothing is outstanding: its number is free, its grids are gone and its handles'
lines unhandled. -/
def State.freeCtx (s : State) (ctx : Nat) : State :=
  let plain (l : L2Line) : L2Line := if (l.handle.map fun h => h.1) = some ctx then { l with handle := none } else l
  { s with
    l2 := s.l2.map plain
    cores := s.cores.mapv fun c => { c with lattice := c.lattice.forget ctx }
    grids := s.grids.filter fun e => e.2.ctx ≠ ctx }.onCtx ctx fun x =>
      { csb := x.csb, state := 0, migb := x.migb, instb := x.instb, flogovf := x.flogovf, axf := x.axf
        flogHead := x.flogHead, flogTail := x.flogTail, mlogHead := x.mlogHead, mlogTail := x.mlogTail }

/-- Whether something of a context is outstanding: workgroups, freed ones included, calls, installs, moves, and records that
wait (log 111). -/
def State.ctxBusy (s : State) (ctx : Nat) : Bool :=
  s.wgs.any (fun e => e.2.ctx = ctx) || s.calls.any (fun e => e.2.ctx = ctx) || s.installs.any (fun e => e.2.ctx = ctx)
    || s.migrations.any (fun m => m.ctx = ctx) || s.logWait.any (fun e => e.1 = ctx) || s.eccLog.any fun e => e.1 = ctx

/-- R347: the number of a destroyed context is free once nothing of the context is outstanding. -/
def State.reapCtx (s : State) (ctx : Nat) : State :=
  if ((s.ctx? ctx).map fun c => c.dying).getD false && !s.ctxBusy ctx then s.freeCtx ctx else s

/-- R304, R347: records that have waited are appended, and the contexts that only these were outstanding of are free. -/
def State.runLog (s : State) : State := s.logWait.foldl (fun t e => t.reapCtx e.1) s.appendWaiting

/-- R166: the oldest error that waits is logged to its context. -/
def State.logEcc (s : State) : State :=
  match s.eccLog with
  | [] => s
  | e :: rest =>
    ({ s with eccLog := rest }.faultLog e.1 { kind := 4, causes := Cause.ecc.code, addr := e.2 }).reapCtx e.1

/-- R326, R336: a context with no resident workgroup is switched out, and is free if it has been destroyed. -/
def State.switchOut (s : State) (ctx : Nat) : State :=
  if s.resident.any fun e => e.2.ctx = ctx then s
  else (s.onCtx ctx fun c => { c with state := if c.state = 0 then 0 else 1, drain := none }).reapCtx ctx

/-- R226, R326, R336: a workgroup of a context is resident on a core no more: its cluster may unfuse, its context be switched out,
and the context's pins go with its last workgroup there. -/
def State.vacate (s : State) (ctx core : Nat) : State :=
  let s := (s.unfuse (s.cluster core)).switchOut ctx
  if s.resident.any fun e => e.2.ctx = ctx && e.2.core = core then s
  else s.onCore core fun c => { c with ic := c.ic.map fun l => { l with pins := l.pins.filter (· ≠ ctx) } }

/-- A workgroup and its sheafs are gone. -/
def State.dropWg (s : State) (w : Nat) : State :=
  { s with wgs := s.wgs.del w, sheafs := s.sheafs.filter fun e => e.2.home ≠ Home.wg w }

/-- A workgroup's slot, scratchpad and hurdles are freed. -/
def State.freeWg (s : State) (w : Nat) : State :=
  match s.wg? w with
  | none => s
  | some g => ((s.freeLattice w).dropWg w).vacate g.ctx g.core

/-- R23: the slot, scratchpad and hurdles of a killed context's workgroup are freed at once; what it has issued runs on, and its
lattice is released when nothing of that is outstanding (R262, R324; log 117). -/
def State.freeKilled (s : State) (w : Nat) : State :=
  match s.wg? w with
  | none => s
  | some g => (s.onWg w fun x => { x with freed := true, scratch := [], marks := [] }).vacate g.ctx g.core

/-! ### Heath blocks end (R286, R292, R295, R298) -/

/-- R191: a line of a flush range leaves the L2, its owners recalled and dirty words written back, and the caller's L1;
monitors on it fire (R212). -/
def State.flushLine (s : State) (core line : Nat) : State :=
  let s := s.recallLine line true
  let s := s.evictLine line
  (s.l1Evict (s.slice core line) line).fire false line

/-- R191, R292: the lines of a call's ranges. -/
def State.flushCall (s : State) (c : Call) : State :=
  c.ranges.foldl (fun s r =>
    (List.range ((r.1 % 128 + r.2 + 127) / 128)).foldl (fun s i => s.flushLine c.core (lineOf r.1 + i)) s) s

/-- R169, R304: whether a write-back that the flush of a call needs is held; whether self-refresh holds one. -/
def Call.flushes (c : Call) (line : Nat) : Bool := c.ranges.any fun r => 128 * line < r.1 + r.2 && r.1 < 128 * line + 128
def State.callHeld (s : State) (c : Call) : Bool := s.l2.any fun l => s.flushHeld l.line && c.flushes l.line
def State.callStalls (s : State) (c : Call) : Bool := s.l2.any fun l => s.flushStalls l.line && c.flushes l.line

/-- R243: end a workgroup for a cause met by an agent; the record has the operation's PC and failing address.  Its
accepted installs run on.  Its lattice is released with what else it holds, once nothing of it is outstanding (R262). -/
def State.terminateWg (s : State) (w : Nat) (c : Cause) (pc addr : Nat) : State :=
  match s.wg? w with
  | none => s
  | some g =>
    if g.terminated || g.freed then s
    else
      let r := s.wgRec w 3
      let s := s.endAll (s.sheafsOf (.wg w))
      let s := (s.dropTiles w).onWg w fun x => { x with terminated := true }
      let s := { s with engs := s.engs.filter fun e => e.2.wg ≠ w }
      let dead := fun (x : Call) => if x.wg = w then { x with dead := true } else x
      let s := { s with calls := s.calls.mapv dead }
      (s.failGrid g.grid).faultLog g.ctx { r with causes := c.code, pc := pc, addr := addr }

/-- R219: an agent's arrival or credit; a cause it meets ends the workgroup that holds the hurdle. -/
def State.agentArrive (s : State) (w a : Nat) (bytes : Word) (pc : Nat) : State :=
  match s.arrive (.wg w) a bytes with
  | .ok s => s
  | .error c => s.terminateWg w c pc a

def State.agentCredit (s : State) (w a bytes : Nat) (pc : Nat) : State :=
  match s.credit (.wg w) a bytes with
  | .ok s => s
  | .error c => s.terminateWg w c pc a

/-- R295: the status record of a call. -/
def Call.record (c : Call) : List Byte :=
  bytesLe 4 (c.stat + 16 * c.cause + 4096 * c.shid) ++ bytesLe 4 0 ++ bytesLe 8 c.addr.toNat

/-- R166: one thread's read-modify-write that no sheaf waits for any more; on an uncorrectable sector it is not applied. -/
def State.lastAtom (s : State) (n : Nat) (o : Op) (a : Access) : State :=
  if !o.kind.scratch && s.bad a.loc.addr then s.lostAt o.ctx a.loc.addr else (s.atomAccess n o a).1

/-- Perform what a heath sheaf has issued, oldest first (R295 step 3). -/
def State.flushHeath (s : State) (h : Nat) : State :=
  (s.ops.filter fun e => e.2.home = Home.block h).foldl (fun s e =>
    if e.2.kind.onLd then (e.2.accs.foldl (fun s a => s.lastAtom e.1 e.2 a) s) else s.performStores e.1 e.2) s

/-- R295 step 3: what the sheafs of an ended block had issued is performed and is over. -/
def State.settleHeath (s : State) (h : Nat) : State :=
  let s := s.flushHeath h
  { s with ops := s.ops.filter fun e => e.2.home ≠ Home.block h }

/-- R169, R304: whether a returning call waits: for what its block had issued on a stack in self-refresh, or for its flush. -/
def State.returnHeld (s : State) (c : Call) : Bool :=
  s.callHeld c || ((s.refresh.get? c.stack).isSome &&
    (c.ranOn.map fun h => s.ops.any fun e => e.2.home = Home.block h).getD false)

/-- R292 RETURN: what its block issued performed, ranges invalidated, record written, arrival; a stack in self-refresh
or a frozen frame holds it.  A dead call writes nothing. -/
def State.callReturn (s : State) (n : Nat) : State :=
  match s.calls.get? n with
  | none => s
  | some c =>
    if s.returnHeld c then s
    else
      let s := { s with calls := s.calls.del n }
      let s := match c.ranOn with | some h => s.settleHeath h | none => s
      if c.dead then s.reapCtx c.ctx
      else
        let s := s.flushCall c
        let s := s.spWrite (.wg c.wg) c.status c.record
        s.agentArrive c.wg c.hurdle 0 c.pc.toNat

/-- R294, R295: a block ends: its sheafs stop, the window closes, and its call returns with a status. -/
def State.endBlock (s : State) (h stat cause shid : Nat) (addr : DWord) : State :=
  match s.blocks.get? h with
  | none => s
  | some b =>
    let s := s.endAll (s.sheafsOf (.block h))
    let s := { s with
      sheafs := s.sheafs.filter fun e => e.2.home ≠ Home.block h
      blocks := s.blocks.del h }
    let s := s.onCall b.call fun c =>
      { c with stat := stat, cause := cause, shid := shid, addr := addr, state := .returning, ranOn := some h }
    s.callReturn b.call

/-- R286: the status of a cause, and whether the record's ADDR is an address (else the PC).  A PC target that fails has the
status of its cause as an access has: XLATE gives RANGE, ALIGN gives TRAP (log 127). -/
def heathStat (c : Cause) (scratch : Bool) : Nat × Bool :=
  match c with
  | .illop | .priv | .role | .lattice => (2, false)
  | .xlate | .prot => (1, true)
  | .align => if scratch then (1, true) else (6, false)
  | .ecc => (3, true)
  | _ => (6, false)

/-- R292, R295: calls of an ended caller stop, with no record and no arrival. -/
def State.stopCalls (s : State) : State :=
  s.calls.foldl (fun s e =>
    if e.2.dead then
      match e.2.state with
      | .running h => s.endBlock h 0 0 0 0
      | .returning => s.callReturn e.1
      | _ => { s with calls := s.calls.del e.1 }.reapCtx e.2.ctx
    else s) s

/-- R292: the calls whose blocks have ended return, unless they are held still. -/
def State.resumeCalls (s : State) : State :=
  (s.calls.foldl (fun s e => if e.2.state = .returning then s.callReturn e.1 else s) s).stopCalls

/-- End a workgroup with its calls. -/
def State.terminate (s : State) (w : Nat) (c : Cause) (pc addr : Nat) : State := (s.terminateWg w c pc addr).stopCalls

/-! ### The end of workgroups (R17, R22) -/

/-- R128, R324: whether a workgroup has nothing outstanding; an install of a killed context arrives nowhere. -/
def State.wgIdle (s : State) (w : Nat) (g : Wg) : Bool :=
  (s.sheafs.all fun e => e.2.home ≠ Home.wg w || (e.2.status = .exited && e.2.rel.isNone))
    && (s.ops.all fun e => e.2.home ≠ Home.wg w) && (s.engs.all fun e => e.2.wg ≠ w)
    && (s.calls.all fun e => e.2.wg ≠ w) && (s.installs.all fun e => e.2.dead || e.2.wg ≠ w)
    && (s.core g.core).lattice.ops.all (fun t => t.wg ≠ w) && g.joins = []

/-- R17, R22: a workgroup is done; its cluster's are freed together. -/
def State.wgDone (s : State) (w : Nat) (g : Wg) : State :=
  let s := (s.freeLattice w).onWg w fun x => { x with done := true }
  let s := s.onGrid g.grid fun x => { x with doneWgs := x.doneWgs + 1 }
  let all := if g.peers = [] then [w] else g.peers
  if all.all fun p => ((s.wg? p).map fun x => x.done).getD true then all.foldl (fun s p => s.freeWg p) s else s

/-- A workgroup of which nothing is outstanding is done; one that a kill has freed is gone, and its lattice released (R262). -/
def State.finishWg (s : State) (w : Nat) : State :=
  match s.wg? w with
  | none => s
  | some g =>
    if !s.wgIdle w g then s
    else if g.freed then ((s.freeLattice w).dropWg w).reapCtx g.ctx
    else if !g.done then s.wgDone w g
    else s

/-! ### Kill (R324) -/

/-- A context is killed; `r` is its record.  All its workgroups are freed at once (R23), their issued stores, atomics and
reductions still performed (R324; log 117).  Its handles stay (log 116). -/
def State.kill (s : State) (ctx : Nat) (r : LogRec) : State :=
  let ws := (s.resident.filter fun e => e.2.ctx = ctx).map fun e => e.1
  let s := s.endAll (ws.flatMap fun w => s.sheafsOf (.wg w))
  let s := ws.foldl (fun s w => s.dropTiles w) s
  let stopCall (c : Call) : Call := if c.ctx = ctx then { c with dead := true } else c
  let stopInstall (i : Install) : Install := if i.ctx = ctx then { i with dead := true } else i
  let fail (g : Grid) : Grid := if g.ctx = ctx then { g with failed := true } else g
  let stop (x : Slot) : Slot := if x.ctxn = ctx && x.state = 1 then { x with state := 0, ann := 0, cur := none } else x
  let s := { s with
    engs := s.engs.filter fun e => e.2.ctx ≠ ctx
    calls := s.calls.mapv stopCall
    installs := s.installs.mapv stopInstall
    grids := s.grids.mapv fail
    slots := s.slots.mapv stop }
  let s := s.stopCalls
  let s := s.dropFilters fun e => e.ctx = ctx
  let s := ws.foldl (fun s w => (s.freeKilled w).finishWg w) s
  let s := s.onCtx ctx fun c => { c with killed := true, drain := none }
  (s.faultLog ctx r).report (.killed ctx)

/-! ### Taking a trap (R309 to R312) -/

/-- TC at entry (R307). -/
def Pending.tc (p : Pending) (sup : Bool) : Word :=
  BitVec.ofNat 32 (p.dest.toNat * 2 ^ 25 + (if p.dv && !p.imp then 2 ^ 24 else 0) + (if p.imp then 2 ^ 23 else 0)
    + (if p.lead then 2 ^ 22 else 0) + (if sup then 2 ^ 21 else 0) + p.det * 2 ^ 16 + p.acc * 2 ^ 12
    + (if p.imp then 0 else p.len * 2 ^ 10) + (if p.ucls then 2 ^ 9 else 0) + (if p.w64 then 2 ^ 8 else 0) + p.cause.code)

/-- R311: an entry of the routing table of a context, read at its home L2; none when the read fails:
the table lies in a segment that serves no read (R299) among others (log 108). -/
def State.routeEntry (s : State) (sh : Sheaf) (c : Cause) : Option DWord :=
  match (s.ctx? sh.ctx).bind fun c => c.blk with
  | none => none
  | some b =>
    if b.trt = 0 then some 0
    else
      let va := b.trt + 8 * c.code
      match s.xlate false sh.core sh.ctx va .look with
      | .fail _ _ => none
      | .ok leaf _ block _ =>
        let l := s.place leaf block va
        let st := (s.seg (segOf l.addr)).state
        if l.tier ≤ 1 && (l.tier = 0 || st = .service || st = .worn) && !s.lostIn l.addr 8 && leaf.getLsbD 2 then
          some (s.peek64 l.addr)
        else none

/-- R166: where the read of an entry meets an uncorrectable sector: in the walk, at its address, or in the table. -/
def State.routeLost (s : State) (sh : Sheaf) (c : Cause) : Option Nat :=
  match (s.ctx? sh.ctx).bind fun c => c.blk with
  | none => none
  | some b =>
    let va := b.trt + 8 * c.code
    if b.trt = 0 then none
    else if s.walkLost false sh.core sh.ctx va then some va
    else
      match s.xlate false sh.core sh.ctx va .look with
      | .fail _ _ => none
      | .ok leaf _ block _ =>
        let l := s.place leaf block va
        if l.tier ≤ 1 && s.lostIn l.addr 8 then some l.addr else none

/-- R304: whether the read of an entry is held. -/
def State.routeHeld (s : State) (sh : Sheaf) (c : Cause) : Bool :=
  s.refresh ≠ [] && sh.tlvl < 2 &&
    match (s.ctx? sh.ctx).bind fun c => c.blk with
    | none => false
    | some b => b.trt ≠ 0 && s.wordHeld sh.core sh.ctx (b.trt + 8 * c.code)

/-- R328: a word of a grid's kernel descriptor; its entry address; the `.trapvec` offset of a cause, 0 for none. -/
def Grid.descWord (g : Grid) (i : Nat) : Word := (g.desc[i]?).getD 0
def Grid.entry (g : Grid) : DWord := (g.descWord 1).zeroExtend 64 <<< 32 ||| (g.descWord 0).zeroExtend 64
def Grid.trapvec (g : Grid) (c : Cause) : Word := g.descWord (10 + c.code)

/-- R311: where a trap goes: a vector and whether it runs in supervisor mode; none kills. -/
def State.resolve (s : State) (sh : Sheaf) (c : Cause) : Option (DWord × Bool) :=
  match s.routeEntry sh c with
  | none => none
  | some e =>
    if 2 ^ 49 ≤ e.toNat then none
    else
      let r : Route :=
        if e &&& 3 = 0 then c.route else if e &&& 3 = 1 then .user else if e &&& 3 = 2 then .supervisor else .kill
      let svec := e &&& ~~~3#64
      let sup : Option (DWord × Bool) := if svec = 0 then none else some (svec, true)
      match r with
      | .kill => none
      | .supervisor => sup
      | .user =>
        match sh.home with
        | .block _ => sup
        | .wg w =>
          match ((s.wg? w).bind fun g => s.grid? g.grid) with
          | none => sup
          | some g => if g.trapvec c = 0 then sup else some (g.entry + (g.trapvec c).signExtend 64, false)

/-- R312: trap entry: the shared operation every trap of a compute sheaf takes.  The context is killed when the route is
KILL or the sheaf is at TLVL 2 (R309). -/
def State.enterTrap (s : State) (k : Nat) (p : Pending) : State :=
  match s.sheaf? k with
  | none => s
  | some sh =>
    let die (s : State) : State :=
      let r := s.sheafRec sh 1 p.cause
      s.kill sh.ctx { r with
        imp := p.imp, pc := if p.imp then 0 else sh.pc.toNat
        addr := if p.cause.addressed then p.ta.toNat else 0
        rgnpc := if p.imp then p.rgnpc.toNat else sh.rgnpc.toNat
        rgncnt := if p.imp then p.rgncnt.toNat else sh.rgncnt.toNat }
    if 2 ≤ sh.tlvl then die s
    else
      match s.resolve sh p.cause with
      | none =>
        die (match s.routeLost sh p.cause with
          | some a => s.uncorrectable (some sh.ctx) { s.sheafRec sh 4 .ecc with addr := a } a
          | none => s)
      | some (vec, sup) =>
        let s := s.swapPoint k none
        let acc :=
          if p.lead then
            ((s.filters.find? fun e => e.lead = some k && e.page = p.ta.toNat / 65536).map fun e => e.acc).getD p.acc
          else p.acc
        s.onSheaf k fun t =>
          let regs : TrapRegs :=
            { tc := { p with acc := acc }.tc sup, tr := t.pc
              tm := t.em.zeroExtend 32 <<< 16 ||| p.mask.zeroExtend 32, ta := p.ta }
          { t with
            t1 := if t.tlvl = 0 then regs else t.t1
            t2 := if t.tlvl = 0 then t.t2 else regs
            rgnpc := if p.imp then p.rgnpc else t.rgnpc
            rgncnt := if p.imp then p.rgncnt else t.rgncnt
            em := p.mask, tlvl := t.tlvl + 1, pc := vec, pend := none, rel := none }

/-- A trap is raised: a heath sheaf's ends its block (R286); a compute sheaf waits in STALLED until MX = 0 (R35) and the routing
table can be read (R304), then enters. -/
def State.raise (s : State) (k : Nat) (p : Pending) (scratch : Bool) : State :=
  match s.sheaf? k with
  | none => s
  | some sh =>
    if sh.heath then
      let (stat, addressed) := heathStat p.cause scratch
      (s.endBlock sh.core stat (if stat = 6 then p.cause.code else 0) sh.shid (if addressed then p.ta else sh.pc)).stopCalls
    else if sh.mx ≠ 0 || s.routeHeld sh p.cause then s.onSheaf k fun t => { t with pend := some p, status := .stalled .mx }
    else s.enterTrap k p

/-- R312, R316: whether TRAP_ENTRY may happen: a trap waits and MX is 0, or an imprecise fault is held at TLVL 0 for a
sheaf about to issue. -/
def Sheaf.mayEnter (sh : Sheaf) : Bool :=
  match sh.pend with
  | some _ => sh.status = .stalled .mx && sh.mx = 0
  | none => sh.status = .issuing && sh.tlvl = 0 && sh.held ≠ []

/-- R316: hold an imprecise fault; at TLVL 0 it ends a wait on a CWAIT, HWAIT or MWAIT. -/
def State.holdFault (s : State) (k : Nat) (p : Pending) : State :=
  let s := s.onSheaf k fun t =>
    { t with held := (t.held.filter fun h => h.seq ≤ p.seq) ++ [p] ++ t.held.filter fun h => p.seq < h.seq }
  match s.sheaf? k with
  | none => s
  | some sh =>
    if sh.tlvl = 0 then
      match sh.status with
      | .waiting (.cwait ..) | .waiting (.hwait ..) | .waiting .mwait
      | .parked (.cwait ..) | .parked (.hwait ..) | .parked .mwait => s.wake k
      | _ => s
    else s

/-- R318: an access of a sheaf fails after the sheaf has exited: a KIND 2 record, and the grid fails. -/
def State.lateFault (s : State) (sh : Sheaf) (p : Pending) : State :=
  let r := s.sheafRec { sh with tlvl := 0 } 2 p.cause
  let s := s.faultLog sh.ctx { r with
    exited := true, imp := true, addr := p.ta.toNat, rgnpc := p.rgnpc.toNat, rgncnt := p.rgncnt.toNat }
  match sh.home with
  | .wg w =>
    match s.wg? w with
    | some g => (s.failGrid g.grid).report (.gridFailed sh.ctx (((s.grid? g.grid).map fun x => x.gid).getD 0))
    | none => s
  | .block _ => s

/-! ### Returning from a trap (R323) -/

/-- The trap registers of the current level. -/
def Sheaf.trapRegs (sh : Sheaf) : TrapRegs := if sh.tlvl = 1 then sh.t1 else if sh.tlvl = 2 then sh.t2 else {}

/-- R310: supervisor mode. -/
def Sheaf.supervisor (sh : Sheaf) : Bool := sh.tlvl ≠ 0 && sh.trapRegs.tc.getLsbD 21

/-- R323: whether a TRET form is legal. -/
def Sheaf.tretOk (sh : Sheaf) (form : Nat) : Bool :=
  let r := sh.trapRegs
  let imp := r.tc.getLsbD 23
  sh.tlvl ≠ 0 && (!imp || form = 3)
    && (form ≠ 3 || sh.rgnpc ≠ 0)
    && (form ≠ 2 || (r.tc.getLsbD 24 && r.tm.truncate 16 ≠ 0#16))

/-- R323 `.sub`: o0, or o0:o1, of this level into DEST, banked registers of the level returned to. -/
def Sheaf.substitute (sh : Sheaf) : Sheaf :=
  let r := sh.trapRegs
  let dest : BitVec 7 := r.tc.extractLsb' 25 7
  let n := if r.tc.getLsbD 8 then 2 else 1
  let m : Mask := r.tm.truncate 16
  let from_ (t : Nat) : Val := joinWords n fun j => sh.readO j t
  let below := { sh with tlvl := sh.tlvl - 1 }
  let out :=
    if r.tc.getLsbD 9 then
      match active m with
      | [] => below
      | t :: _ => below.write true n dest 0 (from_ t)
    else (active m).foldl (fun a t => a.write false n dest t (from_ t)) below
  { out with tlvl := sh.tlvl }

/-- R323: where a return goes. -/
def Sheaf.tretTarget (sh : Sheaf) (form : Nat) : DWord :=
  let r := sh.trapRegs
  if form = 0 then r.tr else if form = 3 then sh.rgnpc
  else r.tr + BitVec.ofNat 64 (4 * (r.tc.extractLsb' 10 2).toNat)

/-- R323: the return itself; `swap` is false for PFWAIT (R321).  The entry that the level's handler leads is dropped unless
PFWAIT returns (R319). -/
def State.tret (s : State) (k form : Nat) (swap : Bool) : State :=
  match s.sheaf? k with
  | none => s
  | some sh =>
    let r := sh.trapRegs
    let sh1 := if form = 2 then sh.substitute else sh
    let s := s.onSheaf k fun _ =>
      { sh1 with
        pc := sh.tretTarget form, em := (r.tm.extractLsb' 16 16) &&& sh.live, tlvl := sh.tlvl - 1
        held := if form = 3 then sh1.held.filter (fun h => h.rgncnt < sh.rgncnt) else sh1.held }
    let s := if swap then s.dropLeadAt k sh.lead sh.tlvl else s
    if swap then s.swapPoint k none else s

/-! ### Releases (R178, R184) -/

/-- A sheaf starts a release: a marker in its core's FIFOs, and what follows. -/
def State.startRelease (s : State) (k : Nat) (after : AfterRelease) : State :=
  match s.sheaf? k with
  | none => s
  | some sh =>
    let (n, s) := s.newId
    let (s, ms) := if sh.heath then (s, []) else s.mark sh.core
    s.onSheaf k fun t => { t with rel := some { seq := n, markers := ms, after := after } }

/-! ### Clocks (R3, R326) -/

/-- R326: whether a part of an operation's access is held in self-refresh. -/
def State.accessHeld (s : State) (o : Op) (a : Access) : Bool :=
  match o.kind with
  | .cflush | .cinv => a.lines.any s.flushStalls
  | .rhevict => s.flushStalls (lineOf a.loc.addr)
  | .load | .ldx | .store | .atom => !a.done && !a.remote && !s.copied o a && s.heldAt o.heath a.loc.addr
  | .red => !a.done && !a.remote && s.heldAt (o.heath || a.fwd || s.windowsOf a.loc.addr ≠ []) a.loc.addr
  | .lds | .sts | .atoms | .kvtr | .fqry | .lmst => false

/-- Whether a call's request is held: at its flush, in its stack's queue, or at its return. -/
def State.callRequestHeld (s : State) (c : Call) : Bool :=
  match c.state with
  | .release => s.released c.sheaf c.rel && s.callStalls c
  | .queued => (s.refresh.get? c.stack).isSome
  | .returning => (s.refresh.get? c.stack).isSome || s.callStalls c
  | .refuse _ | .running _ => false

/-- Whether a grid's reading of its event words, or, of a grid that could retire, its signal, is held. -/
def State.gridHeld (s : State) (n : Nat) (g : Grid) : Bool :=
  (g.head && g.waits.any (fun w => !w.2.2 && s.wordHeld dispatcher g.ctx w.1))
    || (g.sig ≠ 0 && !g.failed && g.gx * g.gy * g.gz = g.doneWgs && (s.grids.all fun e => e.2.parent ≠ some n)
      && s.wordHeld dispatcher g.ctx g.sig)

/-- R326: whether a request of a context is held in self-refresh: an access, a walk, a fetch or a trap's reading of the routing
table of a sheaf, a prefetch, an access of an engine operation, of an install or of a launch queue, a call, the reading of
a grid's event words, or a record of its fault log. -/
def State.heldRequest (s : State) (ctx : Nat) : Bool :=
  s.refresh ≠ [] &&
    (s.ops.any (fun e => e.2.ctx = ctx && (s.onRefresh e.2.waits || e.2.accs.any (s.accessHeld e.2)))
      || s.sheafs.any (fun e => e.2.ctx = ctx && (s.onRefresh e.2.waitsOn
        || (e.2.status = .stalled .mx && e.2.mx = 0 && (e.2.pend.map fun p => s.routeHeld e.2 p.cause).getD false)))
      || s.prefetches.any (fun p => p.ctx = ctx && s.heldAt false p.loc.addr)
      || s.engs.any (fun e => e.2.ctx = ctx && (s.onRefresh (e.2.waits.map fun w => w.2)
        || e.2.acpys.any fun c => c.n ≠ 0 && c.first.tier ≤ 1 && s.heldAt false c.first.addr))
      || s.installs.any (fun e => e.2.ctx = ctx && s.onRefresh e.2.waits)
      || s.slots.any (fun e => e.2.ctxn = ctx && s.onRefresh e.2.waits)
      || s.calls.any (fun e => e.2.ctx = ctx && s.callRequestHeld e.2)
      || s.logWait.any (fun e => e.1 = ctx)
      || s.grids.any fun e => e.2.ctx = ctx && s.gridHeld e.1 e.2)

/-- Clocks pass on a compute core; a drain's count leaves out those in which a request of its context is held. -/
def State.passClocks (s : State) (core n : Nat) : State :=
  let s1 := s.onCore core fun c => { c with clk := c.clk + n }
  if s.refresh = [] then s1
  else
    let pause (e : Nat × Ctx) : Nat × Ctx :=
      if s.heldRequest e.1 then (e.1, { e.2 with drain := e.2.drain.map fun t => t.upd core (· + n) }) else e
    { s1 with ctxs := s1.ctxs.map pause }

/-- One clock passes on a sheaf's core. -/
def State.tickOne (s : State) (sh : Sheaf) : State :=
  if sh.heath then { s with heathClk := s.heathClk.put sh.core ((s.heathClk.get? sh.core).getD 0 + 1) }
  else s.passClocks sh.core 1

end Sys2Proof.Machine
end

