-- ==== Sys2Proof/Machine/Issue.lean ====
section
/-! DEFINITION. Issuing one instruction: the order of checks (R94), the outcomes of an instruction, the fault filter
(R319), jumps (R71), latches (R82), and the arithmetic pattern of R57. -/

namespace Sys2Proof.Machine
open Sys2Proof.Forms

/-- One instruction at issue: its sheaf by number and as it stood, its fields, its row, the threads it acts for, and its
words. -/
structure Iss where
  k : Nat
  sh : Sheaf
  f : Fields
  row : Row
  m : Mask
  len : Nat

/-- What a trap reports (R306 to R308). -/
structure Trap where
  cause : Cause
  det : Nat := 0
  acc : Nat := 0
  mask : Mask
  ta : DWord := 0
  /-- Met at a scratchpad address (R286). -/
  scratch : Bool := false
  deriving DecidableEq, Repr

/-- How an instruction's own operation (check 8 of R94) ends. -/
inductive Eff
  /-- It completes; the PC moves past its words. -/
  | done (s : State)
  /-- It sets the PC (R71). -/
  | jump (s : State) (target : DWord)
  /-- A precise trap; nothing has happened but what the state holds (R57). -/
  | trap (s : State) (t : Trap)
  /-- It stalls in its lane and issues again. -/
  | stall (s : State)
  /-- It stalls on accesses or walks that are held, and issues again. -/
  | held (s : State) (ws : List WaitOn)
  /-- It stalls until an event ends the wait. -/
  | hold (s : State) (w : Wait)
  /-- A swap point with a wait (R28). -/
  | wait (s : State) (w : Wait)
  /-- The state is what follows, the PC included. -/
  | to (s : State)

/-- The state an instruction issues in. -/
def Iss.threads (i : Iss) : List Nat := if i.f.u then [0] else active i.m

/-- The width of the destination A names, in registers; 0 when A is none or a wider group (R307). -/
def destWords (r : Row) (f : Fields) : Nat :=
  match (r.uses f).a with
  | .dst n => if n ≤ 2 ∧ dstOk f.u n f.a then n else 0
  | .both n => if dstOk f.u n f.a then tyWords f.ty else 0
  | .dpair => 2
  | _ => 0

/-- The registers a result fills, for the latches (R82, R84). -/
def resWords (r : Row) (f : Fields) : Nat :=
  match (r.uses f).a with
  | .dst n => n
  | _ => 1

/-- A trap of an instruction as a pending one. -/
def Iss.pending (i : Iss) (t : Trap) (lead : Bool) : Pending :=
  let w := destWords i.row i.f
  { cause := t.cause, det := t.det, acc := t.acc, mask := t.mask, ta := t.ta, dest := i.f.a, dv := w ≠ 0, imp := false
    lead := lead, len := i.len, ucls := i.f.u, w64 := w = 2, rgnpc := 0, rgncnt := 0, seq := 0 }

/-- R319: a precise XLATE with NOMAP on a compute core: a new entry, led; an entry joined, and a wait; or a full core
filter, and a stall.  Every other trap is raised. -/
def State.trapOrWait (s : State) (k : Nat) (p : Pending) (scratch : Bool) : State :=
  match s.sheaf? k with
  | none => s
  | some sh =>
    if sh.heath || p.cause ≠ .xlate || p.det ≠ 0 || scratch then s.raise k p scratch
    else
      let page := p.ta.toNat / 65536
      let cl := s.cluster sh.core
      let full := 32 ≤ (s.filters.filter fun e => e.cores.contains sh.core).length
      match s.filter? sh.ctx page cl with
      | some e =>
        if !e.cores.contains sh.core && full then s.onSheaf k fun t => { t with status := .stalled .retry }
        else
          let s := s.onFilter sh.ctx page cl fun e =>
            { e with cores := if e.cores.contains sh.core then e.cores else e.cores ++ [sh.core]
                     acc := e.acc ||| p.acc, waiters := e.waiters + 1 }
          s.onSheaf k fun t => { t with status := .stalled (.filter page), pend := some p }
      | none =>
        if full then s.onSheaf k fun t => { t with status := .stalled .retry }
        else
          let e : Filter :=
            { ctx := sh.ctx, page := page, cluster := cl, cores := [sh.core], acc := p.acc, waiters := 0
              lead := some k, record := none }
          let s := { s with filters := s.filters ++ [e] }
          (s.onSheaf k fun t => { t with lead := t.lead.put (t.tlvl + 1) page }).raise k { p with lead := true } scratch

/-- A precise trap of an instruction. -/
def Iss.trap (i : Iss) (s : State) (t : Trap) : State := s.trapOrWait i.k (i.pending t false) t.scratch

/-- R71: the trap of setting the PC to a target it cannot hold; ALIGN of one that is misaligned and too high (log 100). -/
def Iss.pcTrap (i : Iss) (target : DWord) : Option Trap :=
  if target.toNat % 4 ≠ 0 then some { cause := .align, mask := i.sh.em, ta := target }
  else if 2 ^ 49 ≤ target.toNat then some { cause := .xlate, det := 2, mask := i.sh.em, ta := target }
  else none

/-- R71: set the PC, or trap at this instruction with the state `s0` it issued in. -/
def Iss.jump (i : Iss) (s0 s : State) (target : DWord) : State :=
  match i.pcTrap target with
  | some t => i.trap s0 t
  | none => s.onSheaf i.k fun t => { t with pc := target }

/-- Carry out the outcome of an instruction that issued in `s0`. -/
def Iss.finish (i : Iss) (s0 : State) : Eff → State
  | .done s => s.onSheaf i.k Sheaf.advance
  | .jump s target => i.jump s0 s target
  | .trap s t => i.trap s t
  | .stall s => s.onSheaf i.k fun t => { t with status := .stalled .retry }
  | .held s ws => s.onSheaf i.k fun t => { t with status := .stalled (.held ws) }
  | .hold s w => s.onSheaf i.k fun t => { t with status := .stalled w }
  | .wait s w => s.swapPoint i.k (some w)
  | .to s => s

/-! ### Latches (R82) -/

/-- What a thread outside the mask puts into y0: the register A names, or 0. -/
def Iss.outside (i : Iss) (n t : Nat) : DWord :=
  if i.f.w then 0
  else
    match dstOf i.f.u i.f.a with
    | .v j => (joinWords n fun x => i.sh.readV (i.sh.vslot j + x) t).truncate 64
    | .o j => (joinWords n fun x => i.sh.readO (j + x) t).truncate 64
    | _ => 0

/-- R82: whether a thread outside the mask puts 0 into y0: W, or A names no register. -/
def Iss.clears (i : Iss) : Bool := i.f.w || match dstOf i.f.u i.f.a with | .v _ | .o _ => false | _ => true

/-- R82: shift the latches with the results of the threads in the mask; a 128-bit result leaves 64 free bits (log 21),
but for the threads outside the mask that put 0 there. -/
def Iss.shift (i : Iss) (s : State) (n : Nat) (res : Nat → Val) : State :=
  if n = 4 then
    ({ s with fresh := s.fresh + 1 }).onSheaf i.k fun sh => sh.shift true fun t =>
      if !i.m.getLsbD t && i.clears then 0 else Config.freeLatch s.fresh t
  else
    s.onSheaf i.k fun sh => sh.shift (n = 2) fun t =>
      if i.m.getLsbD t then (res t).truncate 64 else i.outside n t

/-! ### Checks 2 to 7 of R94 -/

/-- NREG of a sheaf (R15, R293). -/
def State.nreg (s : State) (h : Home) : Nat :=
  match h with
  | .wg w => ((s.wg? w).map fun g => g.nreg).getD 0
  | .block c => ((s.blocks.get? c).map fun b => b.nreg).getD 0

/-- R25: issue rights. -/
def roleOk (role : BitVec 3) : Right → Bool
  | .any => true
  | .matrix => role = 0 || role = 2
  | .soft => role = 0 || role = 3 || role = 4

/-- R93, R289: what a heath core and a compute core refuse at check 2. -/
def subsetOk (r : Row) (f : Fields) (heath : Bool) : Bool :=
  if heath then
    r.heath f && (r.op ≠ 0x3D#8 || sregHeathWritable (sregIdx f))
  else r.op ≠ 0xC5#8 && (!(r.op = 0x3C#8 || r.op = 0x3D#8) || sregListed false (sregIdx f))

/-- R79, R81: the threads a trap of checks 2 to 7 reports: EM for a uniform instruction (R307), else the mask. -/
def Iss.whole (i : Iss) : Mask := if i.f.u then i.sh.em else i.m

/-- The first of checks 2 to 7 that fails. -/
def Iss.check (i : Iss) (s : State) : Option Trap :=
  let f := i.f
  let us := i.row.uses f
  if !(i.row.legal f && i.row.formed f && subsetOk i.row f i.sh.heath) then
    some { cause := .illop, mask := i.whole, ta := (baseWord i.row.op f).zeroExtend 64 }
  else if f.gn && f.gi = 7#3 then none
  else if i.row.super f && !i.sh.supervisor then some { cause := .priv, mask := i.whole }
  else if !roleOk i.sh.role i.row.right then some { cause := .role, mask := i.whole }
  else if i.row.lattice && i.sh.tlvl ≠ 0 then some { cause := .lattice, mask := i.whole }
  else
    match lowestFailing (s.nreg i.sh.home) (i.sh.slots us f) with
    | some n => some { cause := .window, mask := i.whole, ta := BitVec.ofNat 64 n }
    | none =>
      match i.sh.latchFail us f with
      | some j => some { cause := .latch, mask := i.whole, ta := BitVec.ofNat 64 j }
      | none => none

/-- R81, R94: whether the instruction acts at all: not nullified by negated p7 or q7, a mask that is not empty, a guard
that is true. -/
def Iss.acts (i : Iss) : Bool := if i.f.u then i.sh.guard i.f else i.m ≠ 0

/-- R81: negated p7 or q7, but for the EZ form of BRA. -/
def Iss.nullified (i : Iss) : Bool :=
  i.f.gn && i.f.gi = 7#3 && !(i.row.op = 0x30#8 && i.f.ty = 1#5)

/-- R71, R91: whether the sheaf goes on to the word after the instruction: not where a branch, a call or a return that acts
sets the PC, the sheaf ends, or the instruction only traps. -/
def Iss.goesOn (i : Iss) : Bool :=
  if i.row.op = 0x30#8 && i.f.ty = 1#5 then decide (i.sh.em = 0) == i.f.gn
  else
    i.nullified || !i.acts ||
      !([0x2F#8, 0x30#8, 0x31#8, 0x32#8, 0x33#8, 0x39#8, 0x3E#8, 0x3F#8, 0xC5#8, 0xF7#8].contains i.row.op)

/-- R71: the trap of going on to an address that the PC cannot hold; it comes before the operation's own checks (log 106). -/
def Iss.goTrap (i : Iss) : Option Trap :=
  if i.goesOn then i.pcTrap (i.sh.pc + BitVec.ofNat 64 (4 * i.len)) else none

/-- What an instruction that passes its checks and does not act still does: a vector one shifts the latches (R94). -/
def Iss.idle (i : Iss) (s : State) : State :=
  if !i.nullified && !i.f.u && i.row.result i.f then i.shift s (resWords i.row i.f) fun _ => 0 else s

/-- R317: the instructions that wait for the accesses of earlier regions. -/
def regionFirst (op : BitVec 8) : Bool :=
  op = 0xA0#8 || op = 0x92#8 || op = 0xA1#8 || op = 0xA2#8 || op = 0xB3#8 || op = 0xB4#8 || op = 0xB5#8
    || op = 0xC0#8 || op = 0xC1#8 || op = 0xC2#8 || op = 0xC3#8 || op = 0xC4#8 || op = 0xC6#8 || op = 0xE1#8
    || op = 0xD7#8 || op = 0xD8#8 || op = 0x3A#8

/-- R317: whether such an instruction may issue: every load, LDX and ATOM of another region has returned, and every
access to another device or the host is acknowledged. -/
def State.regionReady (s : State) (k : Nat) (sh : Sheaf) : Bool :=
  s.ops.all fun e => e.2.sheaf ≠ k
    || !((e.2.rgncnt ≠ sh.rgncnt && (e.2.kind = .load || e.2.kind = .ldx || e.2.kind = .atom))
      || e.2.accs.any fun a => a.remote && !a.done)

/-- How many words an instruction has (R71). -/
def words (f : Fields) : Nat := 1 + (if f.x then 1 else 0) + (if f.lit.isSome then 1 else 0)

/-- A sheaf as it issues an instruction of these fields. -/
def Sheaf.issuing (sh : Sheaf) (f : Fields) : Sheaf := { sh with len := words f, status := .issuing, pend := none }

/-- An instruction as a sheaf issues it. -/
def issOf (r : Row) (f : Fields) (k : Nat) (sh : Sheaf) : Iss :=
  { k := k, sh := sh.issuing f, f := f, row := r, m := sh.maskFor f, len := words f }

/-- R94: the checks, and the operation when it acts. -/
def Iss.run (i : Iss) (body : Iss → State → Eff) (s : State) : State :=
  match i.check s with
  | some t => i.trap s t
  | none =>
    match i.goTrap with
    | some t => i.trap s t
    | none =>
    if i.nullified then s.onSheaf i.k Sheaf.advance
    else if !i.acts && !(i.row.op = 0x30#8 && i.f.ty = 1#5) then (i.idle s).onSheaf i.k Sheaf.advance
    else if regionFirst i.row.op && !i.sh.heath && !s.regionReady i.k i.sh then i.finish s (.stall s)
    else i.finish s (body i s)

/-- The issue of an instruction by a sheaf, on a clock of its core (R3, R94). -/
def issueAt (r : Row) (f : Fields) (body : Iss → State → Eff) (k : Nat) (sh : Sheaf) (s : State) : State :=
  (issOf r f k sh).run body ((s.tickOne sh).onSheaf k fun t => t.issuing f)

/-- The meaning of an instruction row: the sheaf selected to issue (`State.cur`) issues it. -/
def issue (r : Row) (f : Fields) (body : Iss → State → Eff) (s : State) : Host.Outcome State Fault Refusal :=
  match s.cur with
  | none => .fault .noSheaf
  | some k =>
    match s.sheaf? k with
    | none => .fault .noSheaf
    | some sh => .next (issueAt r f body k sh s)

end Sys2Proof.Machine
end

