-- ==== Sys2Proof/Machine/Flags.lean ====
section
/-! DEFINITION. The pattern every instruction of groups 0x0 to 0x6 follows: a result for each thread of the mask, or
once, with its flags (R55, R56), the traps of R57 and R60, and the latch shift (R82). -/

namespace Sys2Proof.Machine
open Sys2Proof.Forms

/-- What one thread computes: a result of the destination's width, predicates to write, flags, a division by zero. -/
structure Out where
  val : Val := 0
  preds : List (BitVec 7 × Bool) := []
  flags : Flags := {}
  divz : Bool := false

/-- The first enabled exception of R57, or DIVZ where FPCR.IDZT is 1 (R60). -/
def enabled (fpcr : BitVec 12) (o : Out) : Option Cause :=
  if o.flags.inv && fpcr.getLsbD 4 then some .fpinv
  else if o.flags.dz && fpcr.getLsbD 5 then some .fpdz
  else if o.flags.ovf && fpcr.getLsbD 6 then some .fpovf
  else if o.flags.unf && fpcr.getLsbD 7 then some .fpunf
  else if o.flags.inx && fpcr.getLsbD 8 then some .fpinx
  else if o.divz && fpcr.getLsbD 11 then some .divz
  else none

/-- R57 step 4: the first of the causes several threads raise, in the order FPINV, FPDZ, FPOVF, FPUNF, FPINX. -/
def firstCause (cs : List Cause) : Option Cause :=
  [Cause.fpinv, .fpdz, .fpovf, .fpunf, .fpinx, .divz].find? fun c => cs.contains c

/-- What a completing thread writes: its destination, its predicates, its sticky flags. -/
def Sheaf.take (sh : Sheaf) (f : Fields) (n t : Nat) (ts : List Nat) (o : Out) : Sheaf :=
  let sh := if n = 0 then sh else sh.write f.u n f.a t o.val
  let sh := o.preds.foldl (fun s p => s.setPred f.u p.1 t p.2) sh
  sh.raiseFlags ts o.flags

/-- R57: the arithmetic pattern.  `n` is the width of the result in registers, 0 for predicates only. -/
def Iss.alu (i : Iss) (s : State) (n : Nat) (g : Nat → Out) : Eff :=
  if i.f.u then
    let o := g 0
    match enabled i.sh.fpcr o with
    | some c => .trap s { cause := c, mask := if c = .divz then i.sh.em else i.sh.live }
    | none => .done (s.onSheaf i.k fun sh => sh.take i.f n 0 (active i.sh.live) o)
  else
    let bad := maskOf fun t => i.m.getLsbD t && (enabled i.sh.fpcr (g t)).isSome
    let good := (active i.m).filter fun t => !bad.getLsbD t
    let s1 := s.onSheaf i.k fun sh => good.foldl (fun sh t => sh.take i.f n t [t] (g t)) sh
    match firstCause ((active bad).filterMap fun t => enabled i.sh.fpcr (g t)) with
    | some c => .trap s1 { cause := c, mask := bad }
    | none => .done (if i.row.result i.f then i.shift s1 n fun t => (g t).val else s1)

/-- ILLOP at check 8, with the base word in TA (R306). -/
def Iss.illop (i : Iss) (s : State) : Eff :=
  .trap s { cause := .illop, mask := i.whole, ta := (baseWord i.row.op i.f).zeroExtend 64 }

/-- A result with no flags. -/
def Iss.pure (i : Iss) (s : State) (n : Nat) (g : Nat → Val) : Eff := i.alu s n fun t => { val := g t }

/-- The operands of one thread: B, C and D as `n`-register values of the type in M. -/
def Iss.b (i : Iss) (n t : Nat) : Val := i.sh.read i.f i.f.ty n i.f.b t
def Iss.c (i : Iss) (n t : Nat) : Val := i.sh.read i.f i.f.ty n i.f.c t
def Iss.d (i : Iss) (n t : Nat) : Val := i.sh.read i.f i.f.ty n i.f.d t
def Iss.c32 (i : Iss) (t : Nat) : Nat := (i.sh.read32 i.f i.f.c t).toNat
def Iss.b32 (i : Iss) (t : Nat) : Nat := (i.sh.read32 i.f i.f.b t).toNat

end Sys2Proof.Machine
end

