-- ==== Sys2Proof/Machine/Address.lean ====
section
/-! DEFINITION. Addresses of memory instructions: R87 and R198 for global memory, R205 for scratchpad, R287 on heath
cores. -/

namespace Sys2Proof.Machine
open Sys2Proof.Forms

/-- ACC of R307. -/
def accLoad : Nat := 1
def accStore : Nat := 2
def accAtomic : Nat := 4
def accFetch : Nat := 8

/-- The 11-bit offset of an atomic (R207). -/
def off11 (f : Fields) : DWord := (f.imm.extractLsb' 0 11).signExtend 64

/-- R87: the global address of one thread, with a byte offset. -/
def Iss.addr (i : Iss) (wide sx : Bool) (off : DWord) (t : Nat) : DWord :=
  let base := i.sh.read64 i.f i.f.b t
  if wide then base + off
  else
    let c := i.sh.read32 i.f i.f.c t
    base + (if sx then c.signExtend 64 else c.zeroExtend 64) + off

/-- R87 with the memory-control field in D. -/
def Iss.memAddr (i : Iss) (off : DWord) (t : Nat) : DWord := i.addr (a64 i.f) (csx i.f) off t

/-- One translated address. -/
structure Hit where
  thread : Nat
  va : DWord
  xl : Xl
  loc : Loc
  hint : Nat
  deriving DecidableEq, Repr

/-- R198, R287: align, translate and check one address. -/
def State.checkAddr (s : State) (sh : Sheaf) (use : Use) (width t : Nat) (va : DWord) : Except (Cause × Nat) Hit :=
  if va.toNat % width ≠ 0 then .error (.align, 0)
  else
    match s.xlate sh.heath sh.core sh.ctx va.toNat use with
    | .fail c d => .error (c, d)
    | .ok leaf pte block hit =>
      let loc := s.place leaf block va.toNat
      if sh.heath && (loc.tier ≠ 0 || pteTier leaf ≠ 0 || stackOf loc.addr ≠ sh.core / 16 || leaf.getLsbD 9) then
        .error (.xlate, 1)
      else
        match permFail leaf use with
        | some d => .error (.prot, d)
        | none => .ok { thread := t, va := va, xl := .ok leaf pte block hit, loc := loc, hint := pteHint leaf }

/-- The threads whose check fails, each with its cause. -/
def failures {α : Type} (l : List (Nat × Except (Cause × Nat) α)) : List (Nat × Cause × Nat) :=
  l.filterMap fun p => match p.2 with | .error e => some (p.1, e) | .ok _ => none

/-- R198: the trap of the lowest failing thread: TM every thread that fails with its cause. -/
def Iss.trapOf (i : Iss) (fs : List (Nat × Cause × Nat)) (acc : Nat) (scratch : Bool) (ta : Nat → DWord) : Option Trap :=
  match fs with
  | [] => none
  | (t, c, d) :: _ =>
    some { cause := c, det := d, acc := acc, ta := ta t, scratch := scratch
           mask := if i.f.u then i.sh.em else maskOf fun x => fs.any fun p => p.1 = x && p.2.1 = c }

/-- The values that passed. -/
def passed {α : Type} (l : List (Nat × Except (Cause × Nat) α)) : List α :=
  l.filterMap fun p => match p.2 with | .ok x => some x | .error _ => none

/-- R198: check the addresses of every thread: the trap, or what each translates to. -/
def Iss.checkAll (i : Iss) (s : State) (use : Use) (acc width : Nat) (va : Nat → DWord) : Except Trap (List Hit) :=
  let l := i.threads.map fun t => (t, s.checkAddr i.sh use width t (va t))
  match i.trapOf (failures l) acc false va with
  | some t => .error t
  | none => .ok (passed l)

/-- R157: what the walks of an instruction leave behind. -/
def State.cacheHits (s : State) (sh : Sheaf) (use : Use) (hs : List Hit) : State :=
  hs.foldl (fun s h => s.cacheLeaf sh.heath sh.core sh.ctx h.va.toNat use h.xl) s

/-- R198, R304: an instruction whose walks meet a stack in self-refresh stalls until they can be made. -/
def Iss.walking (i : Iss) (s : State) (use : Use) (vas : List Nat) (e : Eff) : Eff :=
  match vas.findSome? fun va => s.xlateHeld i.sh.heath i.sh.core i.sh.ctx va use with
  | some st => .held s [.refresh st]
  | none => e

/-- R166: an uncorrectable page-table read is reported when it traps. -/
def Iss.walkReport (i : Iss) (s : State) (t : Trap) : State :=
  if t.cause = .ecc && t.det = 2 then
    s.uncorrectable (some i.sh.ctx)
      { s.sheafRec i.sh 4 .ecc with pc := i.sh.pc.toNat, addr := t.ta.toNat } t.ta.toNat
  else s

/-- R166: the walks of an instruction that drops or answers for a failing address are reported where they meet an
uncorrectable page-table read: those of `s` at the addresses, in `t`. -/
def Iss.reportWalks (i : Iss) (s : State) (vas : List Nat) (t : State) : State :=
  (vas.filter fun va => s.walkLost i.sh.heath i.sh.core i.sh.ctx va).foldl (fun t va =>
    i.walkReport t { cause := .ecc, det := 2, mask := i.sh.em, ta := BitVec.ofNat 64 va }) t

/-! ### Scratchpad (R205) -/

/-- The 32-bit address of a scratchpad operand. -/
def Iss.spAddr (i : Iss) (off : Word) (t : Nat) : Word := i.sh.read32 i.f i.f.b t + i.sh.read32 i.f i.f.c t + off

/-- A place in a scratchpad: the workgroup, or the block's heath core, and the offset. -/
structure Spot where
  home : Home
  off : Nat
  deriving DecidableEq, Repr

/-- The workgroup of a rank in a sheaf's cluster (R18). -/
def State.peerWg (s : State) (w r : Nat) : Option Nat := (s.wg? w).bind fun g => g.peers[r]?

/-- R205: align, resolve the window, check the range.  `window` allows a cluster-window address. -/
def State.spCheck (s : State) (h : Home) (window : Bool) (width : Nat) (a : Word) : Except (Cause × Nat) Spot :=
  if a.toNat % width ≠ 0 then .error (.align, 0)
  else
    match h with
    | .block c => if a.toNat + width ≤ 262144 then .ok { home := .block c, off := a.toNat } else .error (.xlate, 2)
    | .wg w =>
      if a.getLsbD 31 = false then
        if a.toNat + width ≤ s.spsz h then .ok { home := h, off := a.toNat } else .error (.xlate, 2)
      else if !window || a.extractLsb' 21 10 ≠ 0#10 then .error (.xlate, 2)
      else
        match s.peerWg w (a.extractLsb' 19 2).toNat with
        | none => .error (.xlate, 2)
        | some p =>
          let off := a.toNat % 524288
          if off + width ≤ s.spsz (.wg p) then .ok { home := .wg p, off := off } else .error (.xlate, 2)

/-- R205 for every thread. -/
def Iss.spAll (i : Iss) (s : State) (window : Bool) (acc width : Nat) (off : Word) : Except Trap (List (Nat × Spot)) :=
  let l := i.threads.map fun t => (t, s.spCheck i.sh.home window width (i.spAddr off t))
  match i.trapOf (failures l) acc true (fun t => (i.spAddr off t).zeroExtend 64) with
  | some t => .error t
  | none => .ok (i.threads.zip (passed l))

/-- A scratchpad access's place as a location: the workgroup as the peer. -/
def Spot.loc (p : Spot) : Loc :=
  { tier := 0, peer := (match p.home with | .wg w => w | .block c => c), addr := p.off }

end Sys2Proof.Machine
end

