-- ==== Sys2Proof/Machine/GlobalMem.lean ====
section
/-! DEFINITION. Memory instructions that start an access: LD, ST, LDX, PFM, CFLUSH, CINV, LDS, STS, ATOMS, ATOM, RED
(spec/15 R199 to R210).  What they start is performed by the events of MemEvents.lean. -/

namespace Sys2Proof.Machine
open Sys2Proof.Forms

/-- R177, R199: an acquire of the sheaf that has not returned holds back its later accesses. -/
def State.acquiring (s : State) (k : Nat) : Bool := s.ops.any fun e => e.2.sheaf = k && e.2.acquires

/-- R177: a synchronisation access of the sheaf that is not performed, or the release of a call it has issued. -/
def State.syncing (s : State) (k : Nat) : Bool :=
  s.ops.any (fun e => e.2.sheaf = k && e.2.sync) || s.callsBefore k s.fresh

/-- R10, R288: a scratchpad access of the sheaf that is not performed; of a heath sheaf, any access. -/
def State.usingScratch (s : State) (k : Nat) : Bool :=
  s.ops.any fun e => e.2.sheaf = k && (e.2.kind.scratch || e.2.heath)

/-- R164, R350: start the fill of a staging block that a tier-1 read misses; ask for the translation of a host page. -/
def State.requestFills (s : State) (accs : List Access) : State :=
  accs.foldl (fun s a =>
    if a.remote then s.requestAts a.loc
    else if s.staged a then s
    else s.startFill (a.loc.addr / 65536) a.lh) s

/-- R164: the accesses of an operation that its core's L1 does not serve. -/
def State.missing (s : State) (o : Op) : List Access := o.accs.filter fun a => !s.copied o a

/-- R288: the order code an access carries out: on a heath core, acquire and release add nothing to an access of HBM. -/
def Iss.order (i : Iss) (kind : OpKind) (ord : Nat) : Nat := if i.sh.heath && !kind.scratch then min ord 1 else ord

/-- An operation as its instruction starts it. -/
def Iss.newOp (i : Iss) (s : State) (kind : OpKind) (ord aop hint : Nat) (ar : Bool) (accs : List Access) : Op :=
  { kind := kind, sheaf := i.k, home := i.sh.home, ctx := i.sh.ctx, core := i.sh.core, heath := i.sh.heath
    ty := i.f.ty, ord := i.order kind ord, ar := ar && i.order kind ord = ord, aop := aop, hint := hint
    dest := if kind.onLd then i.sh.resolve i.f.u i.f.a else .none
    words := tyWords i.f.ty, accs := accs, rgnpc := i.sh.rgnpc, rgncnt := i.sh.rgncnt
    destField := i.f.a, ucls := i.f.u, mask := i.whole, markers := [], clk := s.clkOf i.sh, res := [] }

/-- R221: whether the counter of an operation stands at 63. -/
def Sheaf.full (sh : Sheaf) (kind : OpKind) : Bool := 63 ≤ if kind.onLd then sh.ld.length else sh.st

/-- Count an operation and put it among the outstanding ones; in a handler the sheaf waits for it (R313). -/
def Iss.startOp (i : Iss) (s : State) (o : Op) : Eff :=
  if i.sh.full o.kind then .stall s
  else
    let (n, s) := s.newId
    let (s, ms) := if o.ord = 3 && !o.heath then s.mark o.core else (s, [])
    let s := { s with ops := s.ops ++ [(n, { o with markers := ms })] }
    let s := s.onSheaf i.k fun t => if o.kind.onLd then t.countLd n else t.incr .st
    if i.sh.tlvl ≠ 0 && (o.kind.reads || o.kind.writes) then .hold s (.access n) else .done s

/-- The operand A of a thread: of an atomic, its value `x` and compare value `e` (R207). -/
def Iss.aVal (i : Iss) (n t : Nat) : Val := i.sh.read i.f i.f.ty n i.f.a t
def Iss.atomX (i : Iss) (t : Nat) : Val :=
  let w := tyBits i.f.ty
  BitVec.ofNat 128 ((i.aVal (atomWords i.f) t).toNat % 2 ^ w)
def Iss.atomE (i : Iss) (t : Nat) : Val :=
  if atomOp i.f = 7 then BitVec.ofNat 128 ((i.aVal (atomWords i.f) t).toNat / 2 ^ tyBits i.f.ty) else 0

/-- R208, R209: what tier 3 accepts. -/
def tier3Ok (kind : OpKind) (op : Nat) (ty : BitVec 5) : Bool :=
  match kind with
  | .atom => (op = 0 && isInt4 ty) || op = 6 || op = 7
  | .red => op = 0 && isInt4 ty
  | _ => true

/-- R198, R208, R209: check every address of a global access. -/
def Iss.globalHits (i : Iss) (s : State) (kind : OpKind) (use : Use) (acc width : Nat) (off : DWord) :
    Except Trap (List Hit) :=
  let va := i.memAddr off
  let l := i.threads.map fun t =>
    (t, match s.checkAddr i.sh use width t (va t) with
      | .ok h => if h.loc.tier = 3 && !tier3Ok kind (atomOp i.f) i.f.ty then .error (.prot, 4) else .ok h
      | e => e)
  match i.trapOf (failures l) acc false va with
  | some t => .error t
  | none => .ok (passed l)

/-- The lines that stores, atomics and reductions of a core have issued and not written. -/
def State.linesDue (s : State) (core : Nat) : List Nat :=
  (s.ops.filter fun e => e.2.core = core && !e.2.heath && (e.2.kind = .store || e.2.kind = .atom || e.2.kind = .red)).flatMap
    fun e => e.2.lines

/-- R160: whether a store to these lines must wait at issue for its core's FIFO. -/
def Iss.fifoFull (i : Iss) (s : State) (kind : OpKind) (accs : List Access) : Bool :=
  !i.sh.heath && (kind = .store || kind = .atom || kind = .red)
    && !s.fifoFits i.sh.core (s.linesDue i.sh.core ++ (accs.filter fun a => !a.remote).map fun a => lineOf a.loc.addr)

/-- A global access of one of the kinds. -/
def Iss.globalOp (i : Iss) (s : State) (kind : OpKind) (use : Use) (acc aop hint : Nat) (ar : Bool) (off : DWord)
    (x e : Nat → Val) : Eff :=
  if s.acquiring i.k then .stall s
  else
    i.walking s use (i.threads.map fun t => (i.memAddr off t).toNat)
      (match i.globalHits s kind use acc (tyBytes i.f.ty) off with
      | .error t => .trap (i.walkReport s t) t
      | .ok hs =>
        let accs := hs.map fun h =>
          { thread := h.thread, va := h.va.toNat, loc := h.loc, lh := h.hint, x := x h.thread, e := e h.thread : Access }
        if i.sh.full kind || i.fifoFull s kind accs then .stall s
        else
          let s := s.cacheHits i.sh use hs
          let o := i.newOp s kind (ord i.f) aop hint ar accs
          i.startOp (s.requestFills (s.missing o)) o)

/-- R199. -/
def ldBody (i : Iss) (s : State) : Eff :=
  i.globalOp s .load .load accLoad 0 (hintF i.f) false (sext16 i.f.imm) (fun _ => 0) fun _ => 0

def execLd (f : Fields) (s : State) := issue rowLd f ldBody s

/-- R200. -/
def stBody (i : Iss) (s : State) : Eff :=
  i.globalOp s .store .store accStore 0 (hintF i.f) false (sext16 i.f.imm) (i.aVal (tyWords i.f.ty)) fun _ => 0

def execSt (f : Fields) (s : State) := issue rowSt f stBody s

/-- R202. -/
def ldxBody (i : Iss) (s : State) : Eff :=
  i.globalOp s .ldx .load accLoad 0 0 false (sext16 i.f.imm) (fun _ => 0) fun _ => 0

def execLdx (f : Fields) (s : State) := issue rowLdx f ldxBody s

/-- R208. -/
def atomBody (i : Iss) (s : State) : Eff :=
  i.globalOp s .atom .atomic accAtomic (atomOp i.f) 0 (i.f.imm.getLsbD 11) (off11 i.f) i.atomX i.atomE

def execAtom (f : Fields) (s : State) := issue rowAtom f atomBody s

/-- R209. -/
def redBody (i : Iss) (s : State) : Eff :=
  i.globalOp s .red .store accStore (atomOp i.f) 0 false (off11 i.f)
    (fun t => BitVec.ofNat 128 ((i.aVal (tyWords i.f.ty) t).toNat % 2 ^ tyBits i.f.ty)) fun _ => 0

def execRed (f : Fields) (s : State) := issue rowRed f redBody s

/-- R203: whether a prefetch must wait: for a staging fill, or for a stack in self-refresh. -/
def State.prefetchWaits (s : State) (p : Prefetch) : Bool :=
  !(p.hint ≠ 3 && (s.l1Word? (s.slice p.core (lineOf p.loc.addr)) p.loc.addr).isSome)
    && (!s.staged { thread := 0, va := p.va, loc := p.loc, lh := p.lh, x := 0, e := 0 } || s.heldAt false p.loc.addr)

/-- R203: the line enters the L2, and the L1 unless the hint is bypass; one that cannot be read is dropped. -/
def State.prefetchNow (s : State) (p : Prefetch) : State :=
  let st := (s.seg (segOf p.loc.addr)).state
  let r : Req := { ctx := p.ctx, va := p.va, hint := if p.hint = 3 then 2 else p.hint, leaf := p.lh }
  if s.unreadable p.loc.addr || (p.loc.tier = 1 && st ≠ .service && st ≠ .worn) then s
  else if p.hint = 3 then s.fillL2 r (lineOf p.loc.addr)
  else (s.loadWord p.core r false (p.loc.addr / 4 * 4)).1

/-- R203: the prefetches that no longer wait. -/
def State.runPrefetches (s : State) : State :=
  s.prefetches.foldl (fun s p => if s.prefetchWaits p then s else s.prefetchNow p)
    { s with prefetches := s.prefetches.filter s.prefetchWaits }

/-- R203: one prefetched address. -/
def State.prefetch (s : State) (sh : Sheaf) (inst : Nat) (h : Hit) : State :=
  if 2 ≤ h.loc.tier then s
  else
    let s := s.cacheLeaf sh.heath sh.core sh.ctx h.va.toNat .look h.xl
    let p : Prefetch :=
      { core := sh.core, ctx := sh.ctx, va := h.va.toNat, loc := h.loc, lh := h.hint
        hint := if inst ≠ 0 then inst else h.hint }
    if s.prefetchWaits p then
      ({ s with prefetches := s.prefetches ++ [p] }).requestFills
        [{ thread := 0, va := h.va.toNat, loc := h.loc, lh := h.hint, x := 0, e := 0 }]
    else s.prefetchNow p

/-- R203: an address that fails a check is dropped. -/
def pfmBody (i : Iss) (s : State) : Eff :=
  let va (t : Nat) : DWord := i.memAddr (sext16 i.f.imm) t
  let met := i.threads.filter fun t => (va t).toNat % 4 = 0
  i.walking s .load (met.map fun t => (va t).toNat)
    (.done (i.reportWalks s (met.map fun t => (va t).toNat) (i.threads.foldl (fun s t =>
      match s.checkAddr i.sh .load 4 t (va t) with
      | .ok h => s.prefetch i.sh (hintF i.f) h
      | .error _ => s) s)))

def execPfm (f : Fields) (s : State) := issue rowPfm f pfmBody s

/-! ### Ranges (R204, R226) -/

/-- The 64 KiB pages a byte range overlaps: each page's address, and the first and last address of the range in it. -/
def pagesOf (base len : Nat) : List (Nat × Nat × Nat) :=
  if len = 0 then []
  else
    (List.range ((base % 65536 + len + 65535) / 65536)).map fun p =>
      let page := base / 65536 * 65536 + 65536 * p
      (page, max base page, min (base + len - 1) (page + 65535))

/-- R204: every page translated at issue, permissions not checked; the maintenance counts on ST. -/
def rangeBody (kind : OpKind) (i : Iss) (s : State) : Eff :=
  let base := (i.sh.read64 i.f i.f.b 0).toNat
  let ps := pagesOf base (i.c32 0)
  if ps = [] then .done s
  else if s.acquiring i.k ∨ i.sh.full kind then .stall s
  else
    let l := ps.map fun p => (p, s.checkAddr i.sh .look 1 0 (BitVec.ofNat 64 p.1))
    i.walking s .look (ps.map fun p => p.1) <|
    match l.findSome? fun e => match e.2 with | .error c => some (e.1.1, c) | .ok _ => none with
    | some (va, c, d) =>
      let t : Trap := { cause := c, det := d, mask := i.sh.em, ta := BitVec.ofNat 64 va }
      .trap (i.walkReport s t) t
    | none =>
      let s := l.foldl (fun s e => match e.2 with | .ok h => s.cacheHits i.sh .look [h] | .error _ => s) s
      let accs := l.filterMap fun e =>
        match e.2 with
        | .ok h =>
          if 2 ≤ h.loc.tier then none
          else some { thread := 0, va := e.1.2.1, loc := h.loc, lh := 0, x := BitVec.ofNat 128 e.1.1
                      e := BitVec.ofNat 128 e.1.2.2 : Access }
        | .error _ => none
      i.startOp s { i.newOp s kind 0 0 0 false accs with ty := 7#5 }

def execCflush (f : Fields) (s : State) := issue rowCflush f (rangeBody .cflush) s
def execCinv (f : Fields) (s : State) := issue rowCinv f (rangeBody .cinv) s

/-- R204: the work of a CFLUSH or CINV: of a tier-1 page CINV drops the lines from the home L2 only; what CINV invalidates
fires monitors (R212). -/
def State.maintain (s : State) (o : Op) : State :=
  o.accs.foldl (fun s a =>
    a.lines.foldl (fun s line =>
      if a.loc.tier = 1 then (if o.kind = .cinv then (s.evictLine line).fire false line else s)
      else
        let s := (s.recallLine line false).cleanLine line
        if o.kind = .cinv then ((s.evictLine line).l1Evict (s.slice o.core line) line).fire false line else s) s) s

/-! ### Scratchpad (R205, R206, R210) -/

/-- A scratchpad access of one of the kinds. -/
def Iss.scratchOp (i : Iss) (s : State) (kind : OpKind) (acc aop : Nat) (ar : Bool) (off : Word) (x e : Nat → Val) : Eff :=
  if s.acquiring i.k then .stall s
  else
    match i.spAll s true acc (tyBytes i.f.ty) off with
    | .error t => .trap s t
    | .ok ps =>
      let accs := ps.map fun p =>
        { thread := p.1, va := p.2.off, loc := p.2.loc, lh := 0, x := x p.1, e := e p.1 : Access }
      i.startOp s (i.newOp s kind (ord i.f) aop 0 ar accs)

def ldsBody (i : Iss) (s : State) : Eff :=
  i.scratchOp s .lds accLoad 0 false (i.f.imm.signExtend 32) (fun _ => 0) fun _ => 0

def execLds (f : Fields) (s : State) := issue rowLds f ldsBody s

def stsBody (i : Iss) (s : State) : Eff :=
  i.scratchOp s .sts accStore 0 false (i.f.imm.signExtend 32) (i.aVal (tyWords i.f.ty)) fun _ => 0

def execSts (f : Fields) (s : State) := issue rowSts f stsBody s

def atomsBody (i : Iss) (s : State) : Eff :=
  i.scratchOp s .atoms accAtomic (atomOp i.f) (i.f.imm.getLsbD 11) ((off11 i.f).truncate 32) i.atomX i.atomE

def execAtoms (f : Fields) (s : State) := issue rowAtoms f atomsBody s

end Sys2Proof.Machine
end

