-- ==== Sys2Proof/Machine/EngineMem.lean ====
section
/-! DEFINITION. How engines reach memory (spec/17 R187, R227): reads and writes at the home L2 through the context's page
tables, and what they meet. -/

namespace Sys2Proof.Machine

/-- What an engine's access meets: it is served, with the state after it; it fails; or it is held, waiting for what is
named, or for the data of another device. -/
inductive Met (α : Type)
  | ok (s : State) (x : α)
  | fault (s : State) (c : Cause) (va : Nat)
  | held (waits : List WaitOn)

/-- One access after another. -/
def Met.andThen {α β : Type} (m : Met α) (g : State → α → Met β) : Met β :=
  match m with
  | .ok s x => g s x
  | .fault s c va => .fault s c va
  | .held b => .held b

/-- A list of accesses, one after another. -/
def Met.each {α β : Type} (s : State) (x : β) (g : State → β → α → Met β) : List α → Met β
  | [] => .ok s x
  | a :: rest =>
    match g s x a with
    | .ok s y => Met.each s y g rest
    | .fault s c va => .fault s c va
    | .held b => .held b

/-- Who an engine works for. -/
structure Agent where
  ctx : Nat
  core : Nat
  wg : Nat
  pc : Nat
  /-- The hint the instruction names, 0 for the leaf's. -/
  hint : Nat
  deriving DecidableEq, Repr

def Eng.agent (g : Eng) : Agent := { ctx := g.ctx, core := g.core, wg := g.wg, pc := g.pc.toNat, hint := g.hint }

/-- R166: an engine meets an uncorrectable error. -/
def State.engEcc {α : Type} (s : State) (g : Agent) (pa va : Nat) : Met α :=
  .fault (s.uncorrectable (some g.ctx) { s.wgRec g.wg 4 with pc := g.pc, addr := va } pa) .ecc va

/-- R164, R350: start the fills and ask for the translations an engine waits for. -/
def State.fillBlocks (s : State) (ws : List WaitOn) : State :=
  ws.foldl (fun s w =>
    match w with
    | .fill b h => s.startFill b h
    | .page p _ => s.requestAts { tier := 3, peer := 0, addr := p * 65536 }
    | .refresh _ | .peer .. => s) s

/-- Whether a wait is for the host's translation of a page; for another device's answer. -/
def WaitOn.onPage : WaitOn → Bool
  | .page _ _ => true
  | _ => false
def WaitOn.onPeer : WaitOn → Bool
  | .peer t _ => t = 2
  | _ => false

/-- A wait for a stack in self-refresh, if there is one. -/
def Met.unless {α : Type} (st : Option Nat) (m : Met α) : Met α := match st with | some k => .held [.refresh k] | none => m

/-- An engine translates one address: the place, and the leaf's hint.  `touch` false only checks. -/
def State.engWalk (s : State) (g : Agent) (use : Use) (va : Nat) (touch : Bool) : Met (Loc × Nat) :=
  Met.unless (s.xlateHeld false g.core g.ctx va use)
    (match s.xlate false g.core g.ctx va use with
    | .fail .ecc _ => s.engEcc g va va
    | .fail c _ => .fault s c va
    | .ok leaf pte block hit =>
      match permFail leaf use with
      | some _ => .fault s .prot va
      | none =>
        .ok (if touch then s.cacheLeaf false g.core g.ctx va use (.ok leaf pte block hit) else s)
          (s.place leaf block va, pteHint leaf))

/-- An engine translates one address and accesses it. -/
def State.engXlate (s : State) (g : Agent) (use : Use) (va : Nat) : Met (Loc × Nat) := s.engWalk g use va true

/-- R165, R227, R304: an engine reads one word at a place; words of other devices come from `data`, and are waited
for while it is short; a read that is to fail does (R353). -/
def State.engLoad (s : State) (g : Agent) (va : Nat) (l : Loc) (lh : Nat) (data : List Byte) : Met (Word × List Byte) :=
  if s.linkFails l false then .fault s .xlate va
  else if !s.linkUp l then .held [.page (l.addr / 65536) va]
  else if 2 ≤ l.tier then
    match s.farFail l with
    | some (s, ecc) => .fault s (if ecc then .ecc else .xlate) va
    | none =>
    if data.length < 4 then .held [.peer l.tier va]
    else .ok s (wordOf (data.headD 0) ((data[1]?).getD 0) ((data[2]?).getD 0) ((data[3]?).getD 0), data.drop 4)
  else
    let req : Req := { ctx := g.ctx, va := va, hint := if g.hint ≠ 0 then g.hint else lh, leaf := lh }
    let read : Met (Word × List Byte) :=
      Met.unless (s.heldStack false l.addr)
        (if s.unreadable l.addr then s.engEcc g l.addr va
        else let (s, w) := s.homeRead req l.addr; .ok s (w, data))
    if l.tier = 1 then
      match (s.seg (segOf l.addr)).state with
      | .install => .held []
      | .invalid | .failed => s.engEcc g l.addr va
      | _ =>
        if s.staged { thread := 0, va := va, loc := l, lh := lh, x := 0, e := 0 } then read
        else .held [.fill (l.addr / 65536) lh]
    else read

/-- An engine reads the word at an aligned virtual address. -/
def State.engWord (s : State) (g : Agent) (va : Nat) (data : List Byte) : Met (Word × List Byte) :=
  (s.engXlate g .load va).andThen fun s p => s.engLoad g va p.1 p.2 data

/-- Words at a list of aligned virtual addresses. -/
def State.engWords (s : State) (g : Agent) (data : List Byte) (vas : List Nat) : Met (List Word × List Byte) :=
  Met.each s ([], data) (fun s (x : List Word × List Byte) va =>
    (s.engWord g va x.2).andThen fun s p => .ok s (x.1 ++ [p.1], p.2)) vas

/-- `n` bytes. -/
def State.engBytes (s : State) (g : Agent) (va n : Nat) (data : List Byte) : Met (List Byte × List Byte) :=
  (s.engWords g data (wordsAt va n)).andThen fun s p => .ok s (bytesFrom p.1 va n, p.2)

/-- Words out of bytes. -/
def toWords (n : Nat) (bs : List Byte) : List Word :=
  (List.range n).map fun i => BitVec.ofNat 32 (leNat ((bs.drop (4 * i)).take 4))

/-- `n` consecutive words, at any address. -/
def State.engRun (s : State) (g : Agent) (va n : Nat) (data : List Byte) : Met (List Word × List Byte) :=
  (s.engBytes g va (4 * n) data).andThen fun s p => .ok s (toWords n p.1, p.2)

/-- Translate and check an address without using it. -/
def State.engLook (s : State) (g : Agent) (use : Use) (va : Nat) : Met (Loc × Nat) := s.engWalk g use va false

/-- One write of up to four bytes within a word: its address, its bytes. -/
def pieces4 (va : Nat) (bs : List Byte) : List (Nat × List Byte) :=
  (wordsAt va bs.length).map fun a => (max a va, (bs.drop (max a va - va)).take (a + 4 - max a va))

/-- Whether an engine's write, or add (`base`: at the base die), to a translated place can be made now: a link that fails,
and what holds it (R169, R304, R350, R353). -/
def State.engHold (s : State) (l : Loc) (va : Nat) (base : Bool) : Met Unit :=
  if s.linkFails l true then .fault s .xlate va
  else if !s.linkUp l then .held [.page (l.addr / 65536) va]
  else if s.frozen l then .held []
  else Met.unless (if l.tier = 0 then s.heldStack base l.addr else none) (.ok s ())

/-- An engine writes bytes: every page is translated, and nothing held, before the first byte is written (R169). -/
def State.engStore (s : State) (g : Agent) (va : Nat) (bs : List Byte) : Met Unit :=
  (Met.each s [] (fun s (ls : List ((Loc × Nat) × Nat × List Byte)) (p : Nat × List Byte) =>
    (s.engXlate g .store p.1).andThen fun s q =>
      (s.engHold q.1 p.1 false).andThen fun s _ => .ok s (ls ++ [(q, p.1, p.2)])) (pieces4 va bs)).andThen fun s ls =>
    .ok (ls.foldl (fun s e =>
      if 2 ≤ e.1.1.tier then s.farWritten e.1.1
      else s.homeWrite { ctx := g.ctx, va := e.2.1, hint := if g.hint ≠ 0 then g.hint else e.1.2, leaf := e.1.2 } e.1.1.addr e.2.2)
      s) ()

/-- An engine reads words of HBM it names physically, with the normal hint (R266, R273). -/
def State.engPhys (s : State) (g : Agent) (pas : List Nat) : Met (List Word) :=
  Met.each s [] (fun s (ws : List Word) pa =>
    Met.unless (s.heldStack false pa)
      (if s.unreadable pa then s.engEcc g pa pa
      else let (s, w) := s.homeRead { ctx := g.ctx, va := 2 ^ 49 } pa; .ok s (ws ++ [w]))) pas

/-- R228, R229: a scratchpad offset of an engine: alignment, then bit 31 and the range. -/
def engAlign (off align : Nat) : Option Cause := if off % align ≠ 0 then some .align else none
def State.engSpan (s : State) (w off len : Nat) : Option Cause :=
  if 2 ^ 31 ≤ off || s.spsz (.wg w) < off + len then some .xlate else none

/-- The first check that fails, each with its cause and address. -/
def firstFault (l : List (Option Cause × Nat)) : Option (Cause × Nat) :=
  l.findSome? fun p => p.1.map fun c => (c, p.2)

end Sys2Proof.Machine
end

