-- ==== Sys2Proof/Machine/Transcend.lean ====
section
/-! DEFINITION. The transcendental functions (spec/09 R141, R142) to far more bits than a rounding needs: fixed-point
series whose error lies hundreds of bits below an f32 result; exact cases apart. -/

namespace Sys2Proof.Machine

/-- π ÷ 2 in 512 fraction bits. -/
def halfPi : Nat := 0x1921fb54442d18469898cc51701b839a252049c1114cf98e804177d4c76273644a29410f31c6809bbdf2a33679a748636605614dbe4be286e9fc26adadaa3848b

/-- ln 2 in 256 fraction bits. -/
def ln2 : Nat := 0xb17217f7d1cf79abc9e3b39803f2f6af40f343267298b62d8a0d175b8baafa2b

/-- Σ y^k ÷ k! from the term number `k`, in `p` fraction bits. -/
def expTerms (p y : Nat) : Nat → Nat → Nat → Nat
  | 0, _, _ => 0
  | n + 1, k, term => term + expTerms p y n (k + 1) (term * y / 2 ^ p / (k + 1))

/-- Σ (−1)^j y^2j · term, in `p` fraction bits: the even or odd terms of the sine series. -/
def sinTerms (p y2 : Nat) : Nat → Nat → Nat → Nat
  | 0, _, _ => 0
  | n + 1, k, term => term - sinTerms p y2 n (k + 2) (term * y2 / 2 ^ p / (k * (k + 1)))

/-- sin(π·u ÷ 2) and cos(π·u ÷ 2) for u = r ÷ d in (0, 1), in 512 fraction bits. -/
def sinQuarter (r d : Nat) : Nat :=
  let y := halfPi * r / d
  sinTerms 512 (y * y / 2 ^ 512) 80 2 y
def cosQuarter (r d : Nat) : Nat :=
  let y := halfPi * r / d
  sinTerms 512 (y * y / 2 ^ 512) 80 1 (2 ^ 512)

/-- R141: 2^a. -/
def Fl.exp2 : Fl → Fl
  | .nan => .nan
  | .inf true => .fin false 0 0 false
  | .inf false => .inf false
  | .fin neg m e _ =>
    if m = 0 then .fin false 1 0 false
    else if (Nat.log2 m : Int) + e < -60 then
      -- 1 ± a value far below one unit of any rounding
      if neg then .fin false (2 ^ 61 - 1) (-61) true else .fin false (2 ^ 60) (-60) true
    else
      let d := 2 ^ (-e).toNat
      let n := m * 2 ^ e.toNat
      let q := n / d
      let r := n % d
      let k : Int := if neg then (if r = 0 then -(q : Int) else -(q : Int) - 1) else q
      let k : Int := if k < -1000 then -1000 else if 1000 < k then 1000 else k
      let f := if neg && r ≠ 0 then d - r else r
      if r = 0 then .fin false 1 k false
      else .fin false (expTerms 256 (f * 2 ^ 256 / d * ln2 / 2 ^ 256) 80 0 (2 ^ 256)) (k - 256) true

/-- The first `n` bits of log₂ z for z in [1, 2) of 320 fraction bits, by repeated squaring. -/
def logBits : Nat → Nat → Nat → Nat
  | 0, _, acc => acc
  | n + 1, z, acc =>
    let y := z * z / 2 ^ 320
    if 2 ^ 321 ≤ y then logBits n (y / 2) (2 * acc + 1) else logBits n y (2 * acc)

/-- R141: log₂ a, with whether invalid and divide by zero arise; the zero of log₂ 1 is +0 (log 137). -/
def Fl.log2 : Fl → Fl × Bool × Bool
  | .nan => (.nan, false, false)
  | .inf true => (.nan, true, false)
  | .inf false => (.inf false, false, false)
  | .fin neg m e _ =>
    if m = 0 then (.inf true, false, true)
    else if neg then (.nan, true, false)
    else
      let l := Nat.log2 m
      let w : Int := l + e
      if m = 2 ^ l then (.fin (w < 0) w.natAbs 0 false, false, false)
      else
        let b := logBits 140 (m * 2 ^ 320 / 2 ^ l) 0
        if w < 0 then (.fin true (w.natAbs * 2 ^ 140 - b - 1) (-140) true, false, false)
        else (.fin false (w.natAbs * 2 ^ 140 + b) (-140) true, false, false)

/-- R141: 1 ÷ √a, with whether invalid and divide by zero arise. -/
def Fl.rsqrt : Fl → Fl × Bool × Bool
  | .nan => (.nan, false, false)
  | .inf true => (.nan, true, false)
  | .inf false => (.fin false 0 0 false, false, false)
  | .fin neg m e _ =>
    if m = 0 then (.inf neg, false, true)
    else if neg then (.nan, true, false)
    else
      let m2 := if e % 2 = 0 then m else 2 * m
      let h := (if e % 2 = 0 then e else e - 1) / 2
      let n := 2 ^ 400
      let r := isqrt (n / m2) 202 0
      (.fin false r (-200 - h) (r * r * m2 ≠ n), false, false)

/-- R142: the quarter turn of |a| and what is left, as a fraction of a quarter: (quarter, r, d). -/
def quarters (m : Nat) (e : Int) : Nat × Nat × Nat :=
  let d := 2 ^ (-e).toNat
  let n := m * 2 ^ e.toNat * 4
  (n / d % 4, n % d, d)

/-- R141, R142: sin(2πa); an infinity is invalid. -/
def Fl.sin2pi : Fl → Fl × Bool
  | .nan => (.nan, false)
  | .inf _ => (.nan, true)
  | .fin neg m e _ =>
    if m = 0 ∨ -1 ≤ e then (.fin neg 0 0 false, false)
    else
      let (q, r, d) := quarters m e
      let sgn := neg != (2 ≤ q : Bool)
      if r = 0 then
        if q % 2 = 0 then (.fin neg 0 0 false, false) else (.fin sgn 1 0 false, false)
      else (.fin sgn (if q % 2 = 0 then sinQuarter r d else cosQuarter r d) (-512) true, false)

/-- R141, R142: cos(2πa). -/
def Fl.cos2pi : Fl → Fl × Bool
  | .nan => (.nan, false)
  | .inf _ => (.nan, true)
  | .fin _ m e _ =>
    if m = 0 ∨ 0 ≤ e then (.fin false 1 0 false, false)
    else
      let (q, r, d) := quarters m e
      let sgn := q = 1 || q = 2
      if r = 0 then
        if q % 2 = 1 then (.fin false 0 0 false, false) else (.fin sgn 1 0 false, false)
      else (.fin sgn (if q % 2 = 0 then cosQuarter r d else sinQuarter r d) (-512) true, false)

end Sys2Proof.Machine
end

