-- ==== Sys2Proof/Machine/KvMaps.lean ====
section
/-! DEFINITION. Key-value maps (spec/21 R264 to R269): the attention descriptor, the sequence map, the block map, their
caches, and the elements of the rows KVLD writes. -/

namespace Sys2Proof.Machine

/-- Word `i` of a list, as a number. -/
def wd (ws : List Word) (i : Nat) : Nat := ((ws[i]?).getD 0).toNat

/-- Block tokens. -/
def AttDesc.bt (d : AttDesc) : Nat := 2 ^ d.bts

/-- R264: the descriptor of 16 words, or none when it is malformed. -/
def attDesc (ws : List Word) : Option AttDesc :=
  let d : AttDesc :=
    { smb := wd ws 0 + wd ws 1 % 2 ^ 17 * 2 ^ 32, nseq := wd ws 2, bts := wd ws 3 / 256 % 16, span := wd ws 3 % 32
      pair := wd ws 4 / 2 ^ 24 % 2 = 1, rhalf := wd ws 4 / 65536 % 256, hdim := wd ws 4 % 512
      frq := wd ws 5 + wd ws 6 % 2 ^ 17 * 2 ^ 32 }
  if 2 ^ 17 ≤ wd ws 1 ∨ 4096 ≤ wd ws 3 ∨ wd ws 3 / 32 % 8 ≠ 0 ∨ 2 ^ 25 ≤ wd ws 4 ∨ wd ws 4 / 512 % 128 ≠ 0
      ∨ 2 ^ 17 ≤ wd ws 6 ∨ wd ws 7 ≠ 2 ^ 31 ∨ !((List.range 8).all fun i => wd ws (8 + i) = 0)
      ∨ d.bts < 4 ∨ 8 < d.bts ∨ 24 < d.span ∨ d.hdim % 16 ≠ 0 ∨ d.hdim < 16 ∨ 256 < d.hdim ∨ d.hdim < 2 * d.rhalf
      ∨ d.frq % 8 ≠ 0 then none
  else some d

/-- R265: whether a sequence-map entry of four words is valid. -/
def seqOk (e : List Word) : Bool :=
  let w := wd e 2
  let tier := w / 2 ^ 29 % 4
  2 ^ 31 ≤ w && w / 16 % 4096 = 0 && wd e 3 = 0 && (tier = 0 || tier = 2) && (tier = 2 || w / 65536 % 8192 = 0)
    && w % 4 < 2 && w / 4 % 4 < 2

/-- The bytes of an element: format 0 bf16, 1 e4m3. -/
def kvSize (fmt : Nat) : Nat := if fmt = 0 then 2 else 1

/-- The key and value bases of a block-map entry. -/
def keyBase (b : List Word) : Nat := wd b 0 + wd b 1 % 2 ^ 20 * 2 ^ 32
def valBase (b : List Word) : Nat := wd b 2 + wd b 3 % 2 ^ 20 * 2 ^ 32

/-- R266: whether a block-map entry of eight words is valid for blocks of these sizes. -/
def State.blockOk (s : State) (b : List Word) (bt hdim kSize vSize : Nat) : Bool :=
  2 ^ 31 ≤ wd b 1 && wd b 1 / 2 ^ 20 % 2048 = 0 && wd b 3 < 2 ^ 20 && wd b 6 = 0 && wd b 7 = 0
    && keyBase b % 256 = 0 && valBase b % 256 = 0
    && s.usableHbm (keyBase b) (bt * hdim * kSize) && s.usableHbm (valBase b) (bt * hdim * vSize)

/-! ### The caches (R268) -/

/-- The key of a context's descriptor, and of its sequence-map entry at an address, in a core's cache. -/
def kvDescKey (ctx : Nat) : Nat := ctx
def kvSeqKey (ctx va : Nat) : Nat := (va + 1) * 4096 + ctx

/-- R273: a page without R is, to the maps and the frequency table, a read that fails: XLATE. -/
def Met.noProt {α : Type} (m : Met α) : Met α := match m with | .fault s .prot va => .fault s .xlate va | m => m

/-- Words of a map through a core's cache: the old contents where they are cached. -/
def State.kvRead (s : State) (g : Agent) (key va n : Nat) (data : List Byte) : Met (List Word × List Byte) :=
  match (s.core g.core).kv.get? key with
  | some ws => .ok s (ws, data)
  | none =>
    (s.engRun { g with hint := 0 } va n data).noProt.andThen fun s p =>
      .ok (s.onCore g.core fun c => { c with kv := c.kv.put key p.1 }) p

/-- A block-map entry through the device's cache (R266, R268). -/
def State.blockRead (s : State) (g : Agent) (gbn : Nat) : Met (List Word) :=
  match s.bmCache.get? gbn with
  | some ws => .ok s ws
  | none =>
    (s.engPhys g ((List.range 8).map fun i => s.bmbase.toNat + 32 * gbn + 4 * i)).andThen fun s ws =>
      .ok { s with bmCache := s.bmCache.put gbn ws } ws

/-! ### Translation (R267) -/

/-- The descriptor of a context: status 1 when it is malformed. -/
def State.kvDesc (s : State) (g : Agent) (data : List Byte) : Met (Except Nat AttDesc × List Byte) :=
  let atd := (((s.ctx? g.ctx).bind fun c => c.blk).map fun b => b.atd).getD 0
  (s.kvRead g (kvDescKey g.ctx) atd 16 data).andThen fun s p =>
    .ok s (match attDesc p.1 with | some d => .ok d | none => .error 1, p.2)

/-- R267 after the descriptor: a hit, or the status NOSEQ 2 or NOBLK 3.  Of a block on another device the first word of
`data` is that device's status: 0, or NOBLK; any other is no answer to the request, a failure of the link (log 133); an identifier
the link cannot carry fails (R353). -/
def State.kvToken (s : State) (g : Agent) (d : AttDesc) (h t : Nat) (data : List Byte) :
    Met (Except Nat KvHit × List Byte) :=
  let b := t / d.bt
  if d.nseq ≤ h ∨ 2 ^ d.span ≤ b then .ok s (.error 2, data)
  else
    let va := d.smb + 16 * (h * 2 ^ d.span + b)
    (s.kvRead g (kvSeqKey g.ctx va) va 4 data).andThen fun s p =>
      let e := p.1
      if !seqOk e then .ok s (.error 2, p.2)
      else
        let w := wd e 2
        let k : KvHit :=
          { pos := BitVec.ofNat 32 (wd e 1 + t % d.bt), gbn := wd e 0, kf := w % 4, vf := w / 4 % 4, blk := none }
        let peer := w / 65536 % 8192
        if w / 2 ^ 29 % 4 = 2 ∧ peer ≠ s.ownId then
          let st := leNat (p.2.take 4)
          if s.linkFails { tier := 2, peer := peer, addr := 0 } false then .fault s .xlate va
          else if p.2.length < 4 then .held [.peer 2 va]
          else if st = 0 then .ok s (.ok k, p.2.drop 4)
          else if st = 3 then .ok s (.error 3, p.2.drop 4)
          else .fault s .xlate va
        else if s.bmcount.toNat ≤ k.gbn then .ok s (.error 3, p.2)
        else
          (s.blockRead g k.gbn).andThen fun s bw =>
            .ok s (if s.blockOk bw d.bt d.hdim (kvSize k.kf) (kvSize k.vf) then .ok { k with blk := some bw } else .error 3, p.2)

/-- Translate(H, t). -/
def State.kvTranslate (s : State) (g : Agent) (h t : Nat) (data : List Byte) :
    Met (Except Nat (AttDesc × KvHit) × List Byte) :=
  (s.kvDesc g data).andThen fun s p =>
    match p.1 with
    | .error e => .ok s (.error e, p.2)
    | .ok d =>
      (s.kvToken g d h t p.2).andThen fun s q =>
        .ok s (match q.1 with | .ok k => .ok (d, k) | .error e => .error e, q.2)

/-! ### Rows (R269) -/

/-- One rounding to f32, or to bf16. -/
def rne32 (x : Fl) : Nat := (f32.pack .rne false false x).1
def rneBf (x : Fl) : Nat := (bf16.pack .rne false false x).1
def val32 (x : Nat) : Fl := f32.value false x

/-- The product and the sum of exact values. -/
def Fl.times (x y : Fl) : Fl := (Fl.mul x y).1
def Fl.plus (x y : Fl) : Fl := (Fl.add .rne x y).1

/-- R269: the cosine and sine of a phase, rounded to f32. -/
def turn (phi : Nat) : Nat × Nat :=
  let a := Fl.fin false phi (-32) false
  (rne32 (Fl.cos2pi a).1, rne32 (Fl.sin2pi a).1)

/-- R269: the phase of a pair at a position. -/
def phase (pos : Word) (freq : DWord) : Nat := ((pos.signExtend 64 * freq) >>> 32).toNat

/-- R269: the two outputs of a rotated pair. -/
def rotate (phi x0 x1 : Nat) : Nat × Nat :=
  let (c, sn) := turn phi
  let a := rne32 ((val32 x1).times (val32 sn))
  let b := rne32 ((val32 x1).times (val32 c))
  (rneBf (val32 (rne32 (((val32 x0).times (val32 c)).plus (val32 a).neg))),
   rneBf (val32 (rne32 (((val32 x0).times (val32 sn)).plus (val32 b)))))

/-- R269: an element as it is read, scaled and rounded to f32. -/
def scaled (fmt : Fmt) (scale e : Nat) : Nat := rne32 ((fmt.value false e).times (val32 scale))

/-- R269: whether element `i` of a key row is rotated; the pair it is of; the pair's two elements; whether it is the second. -/
def AttDesc.rotates (d : AttDesc) (i : Nat) : Bool := i < 2 * d.rhalf
def AttDesc.pairOf (d : AttDesc) (i : Nat) : Nat := if d.pair then i % d.rhalf else i / 2
def AttDesc.first (d : AttDesc) (j : Nat) : Nat := if d.pair then j else 2 * j
def AttDesc.second (d : AttDesc) (j : Nat) : Nat := if d.pair then j + d.rhalf else 2 * j + 1
def AttDesc.isSecond (d : AttDesc) (i : Nat) : Bool := if d.pair then d.rhalf ≤ i else i % 2 = 1

/-- R269: bf16 element `i` of a key row: of one that is not rotated, `e0` as it is read; else of its pair's elements and the pair's
frequency. -/
def keyElement (d : AttDesc) (pos : Word) (fmt : Fmt) (scale : Nat) (freq : DWord) (i e0 e1 : Nat) : Nat :=
  if d.rotates i then
    let r := rotate (phase pos freq) (scaled fmt scale e0) (scaled fmt scale e1)
    if d.isSecond i then r.2 else r.1
  else rneBf (val32 (scaled fmt scale e0))

/-- R269: a bf16 element of a value row. -/
def valueElement (fmt : Fmt) (scale e : Nat) : Nat := rneBf ((fmt.value false e).times (val32 scale))

/-- Elements of `k` bytes out of bytes. -/
def elemsOf (k : Nat) (bs : List Byte) : List Nat :=
  (List.range (bs.length / k)).map fun i => leNat ((bs.drop (k * i)).take k)

end Sys2Proof.Machine
end

