-- ==== Sys2Proof/Machine/Copy.lean ====
section
/-! DEFINITION. Copies and look-ups (spec/17): ACPY, BCPY, GATH, SCAT, and XRED (spec/29 R355): their issue, their
acceptance by the engine, the pieces the engine moves, those of KVLD (spec/21 R273) too, and what may not be mixed (R241). -/

namespace Sys2Proof.Machine
open Sys2Proof.Forms

/-! ### Issue -/

/-- The workgroup of a compute sheaf. -/
def Home.wgId : Home → Nat
  | .wg w => w
  | .block _ => 0

/-- An engine operation as its instruction starts it. -/
def Iss.newEng (i : Iss) (s : State) (kind : EngKind) : Eng :=
  { kind := kind, sheaf := i.k, wg := i.sh.home.wgId, ctx := i.sh.ctx, core := i.sh.core, part := i.sh.part, pc := i.sh.pc
    accepted := false, blk := [], reg := i.f.a.toNat, lvl := i.sh.tlvl, acpys := [], hint := 0, words := [], base := 0
    pitch := 0, sp := false, hurdle := 0, pieces := [], rows := [], tiled := false, applied := [], dropped := false
    fault := none, clk := s.clkOf i.sh }

/-- Put an operation among the engines'. -/
def State.addEng (s : State) (g : Eng) : State :=
  let (n, s) := s.newId
  { s with engs := s.engs ++ [(n, g)] }

/-- R229: BCPY, GATH, SCAT, KVLD and XRED queue a request and count on EN. -/
def Iss.request (i : Iss) (s : State) (kind : EngKind) : Eff :=
  if 63 ≤ i.sh.en ∨ s.acquiring i.k then .stall s
  else
    let blk := (List.range 8).map fun j => i.sh.readS (i.f.a.toNat + j)
    let s := s.addEng { i.newEng s kind with blk := blk }
    .done (s.onSheaf i.k fun t => t.incr .en)

/-- R230: an address in each page of the bytes a thread reads. -/
def copyPages (src v : Nat) : List Nat :=
  let last := src + v - 1
  if v = 0 then [] else if last / 65536 = src / 65536 then [src] else [src, last / 65536 * 65536]

/-- R230: the checks of one thread: the copy, or a trap's cause, DET, ACC and TA.  Where both of its addresses fail one check, d
is the one named, and of a source that spans two pages the first address in the page that fails (log 119). -/
def State.checkCopy (s : State) (sh : Sheaf) (hint : Nat) (d : Word) (src : DWord) (v : Nat) :
    Except (Cause × Nat × Nat × DWord) (Copied × List (DWord × Xl)) :=
  if d.toNat % 16 ≠ 0 then .error (.align, 0, accStore, d.zeroExtend 64)
  else if v ≠ 0 ∧ src.toNat % 4 ≠ 0 then .error (.align, 0, accLoad, src)
  else if d.getLsbD 31 ∨ s.spsz sh.home < d.toNat + 32 then .error (.xlate, 2, accStore, d.zeroExtend 64)
  else
    let xs := (copyPages src.toNat v).map fun va => (BitVec.ofNat 64 va, s.xlate false sh.core sh.ctx va .load)
    match xs.findSome? fun x => match x.2 with | .fail c e => some (x.1, c, e) | .ok .. => none with
    | some (va, c, e) => .error (c, e, accLoad, va)
    | none =>
      match xs.findSome? fun x => match x.2 with | .ok leaf _ _ _ => (permFail leaf .load).map fun e => (x.1, e) | _ => none with
      | some (va, e) => .error (.prot, e, accLoad, va)
      | none =>
        let at_ (x : DWord × Xl) : Loc :=
          match x.2 with | .ok leaf _ b _ => s.place leaf b x.1.toNat | .fail .. => { tier := 0, peer := 0, addr := 0 }
        let hintAt (x : DWord × Xl) : Nat := match x.2 with | .ok leaf _ _ _ => pteHint leaf | .fail .. => 0
        let l0 := (xs.head?.map at_).getD { tier := 0, peer := 0, addr := 0 }
        .ok ({ dst := d.toNat, va := src.toNat, n := v, first := l0, last := (xs.getLast?.map at_).getD l0, hint := hint
               lh := (xs.head?.map hintAt).getD 0, lastLh := (xs.getLast?.map hintAt).getD 0 }, xs)

/-- R230: all operands read and checked at issue; the tag's counter rises once. -/
def acpyBody (i : Iss) (s : State) : Eff :=
  let tag := (i.f.imm &&& 3#16).toNat
  let p : Path := if tag = 0 then .ac0 else if tag = 1 then .ac1 else .ac2
  if 63 ≤ i.sh.counter p ∨ s.acquiring i.k then .stall s
  else
    let hint := (i.f.imm.extractLsb' 2 2).toNat
    let src (t : Nat) : DWord := i.addr (i.f.imm.getLsbD 4) (i.f.imm.getLsbD 5) 0 t
    let valid (t : Nat) : Nat := min (i.sh.read32 i.f i.f.d t).toNat 32
    let l := i.threads.map fun t => (t, s.checkCopy i.sh hint (i.sh.read32 i.f i.f.a t) (src t) (valid t))
    i.walking s .load (i.threads.flatMap fun t => copyPages (src t).toNat (valid t)) <|
    match l.findSome? fun e => match e.2 with | .error x => some x | .ok _ => none with
    | some (c, e, acc, ta) =>
      let same (r : Except (Cause × Nat × Nat × DWord) (Copied × List (DWord × Xl))) : Bool :=
        match r with | .error x => x.1 = c | .ok _ => false
      let t : Trap := { cause := c, det := e, acc := acc, ta := ta, mask := maskOf fun t => l.any fun x => x.1 = t && same x.2 }
      .trap (i.walkReport s t) t
    | none =>
      let ps := l.filterMap fun e => match e.2 with | .ok x => some x | .error _ => none
      let s := ps.foldl (fun s p =>
        p.2.foldl (fun s x => s.cacheLeaf false i.sh.core i.sh.ctx x.1.toNat .load x.2) s) s
      let s := ps.foldl (fun s p =>
        if p.1.n = 0 then s else (s.requestAts p.1.first).requestAts p.1.last) s
      let s := s.addEng { i.newEng s (.acpy tag) with accepted := true, acpys := ps.map fun p => p.1 }
      .done (s.onSheaf i.k fun t => t.incr p)

def execAcpy (f : Fields) (s : State) := issue rowAcpy f acpyBody s

/-- R234. -/
def bcpyBody (i : Iss) (s : State) : Eff :=
  i.request s (.bcpy (i.f.imm &&& 0xFF#16).toNat (i.f.imm.getLsbD 8))

def execBcpy (f : Fields) (s : State) := issue rowBcpy f bcpyBody s

/-- R238. -/
def gathBody (i : Iss) (s : State) : Eff := i.request s (.gath (i.f.imm.getLsbD 0))

def execGath (f : Fields) (s : State) := issue rowGath f gathBody s

/-- R239. -/
def scatBody (i : Iss) (s : State) : Eff := i.request s .scat

def execScat (f : Fields) (s : State) := issue rowScat f scatBody s

/-- R355. -/
def xredBody (i : Iss) (s : State) : Eff := i.request s (.xred i.f.ty (i.f.imm.getLsbD 0))

def execXred (f : Fields) (s : State) := issue rowXred f xredBody s

/-! ### Copy templates (R232 to R234) -/

/-- A template. -/
structure Tmpl where
  base : Nat
  rank : Nat
  esz : Nat
  skw : Nat
  ext : List Nat
  pitch : List Nat
  box : List Nat
  fill : Word
  deriving DecidableEq, Repr

/-- Item `i` of a list. -/
def nth (l : List Nat) (i : Nat) : Nat := (l[i]?).getD 0

/-- R232: the fields of 16 words; box sizes B0 to B4. -/
def tmplOf (ws : List Word) : Tmpl :=
  { base := wd ws 0 + wd ws 1 % 2 ^ 17 * 2 ^ 32, rank := wd ws 1 / 2 ^ 28 % 8, esz := wd ws 1 / 2 ^ 25 % 8
    skw := wd ws 1 / 2 ^ 23 % 4
    ext := (List.range 5).map fun d => wd ws (2 + d)
    pitch := 1 :: (List.range 4).map fun d => wd ws (7 + d)
    box := [wd ws 11 % 1024 + 1, wd ws 11 / 2 ^ 10 % 256 + 1, wd ws 11 / 2 ^ 18 % 256 + 1, wd ws 12 % 256 + 1,
            wd ws 12 / 256 % 256 + 1]
    fill := (ws[13]?).getD 0 }

/-- Element bytes, bytes of a box row, elements of the box, the chunks of a skew group. -/
def Tmpl.e (t : Tmpl) : Nat := 2 ^ t.esz
def Tmpl.rowb (t : Tmpl) : Nat := nth t.box 0 * t.e
def Tmpl.elems (t : Tmpl) : Nat := t.box.foldl (· * ·) 1
def Tmpl.group (t : Tmpl) : Nat := 2 ^ (t.skw + 1)

/-- R233: whether an entry is well formed. -/
def tmplOk (ws : List Word) : Bool :=
  let t := tmplOf ws
  2 ^ 31 ≤ wd ws 1 && wd ws 1 / 2 ^ 17 % 64 = 0 && wd ws 11 < 2 ^ 26 && wd ws 12 < 2 ^ 16 && wd ws 14 = 0 && wd ws 15 = 0
    && 1 ≤ t.rank && t.rank ≤ 5 && t.esz ≤ 4
    && ((List.range 5).all fun d =>
      if d < t.rank then nth t.ext d ≠ 0
      else nth t.ext d = 0 && nth t.box d = 1 && (d = 0 || nth t.pitch d = 0))
    && t.base % t.e = 0 && t.rowb ≤ 4096 && (t.skw = 0 || t.rowb % (16 * t.group) = 0)

/-- Word `i` of an operation's request block, as a number and as s32. -/
def Eng.blkN (g : Eng) (i : Nat) : Nat := wd g.blk i
def Eng.blkI (g : Eng) (i : Nat) : Int := ((g.blk[i]?).getD 0).toInt

/-- R234: element `n` of the box: its offset from the box's start, and its global address when it is in bounds. -/
def Tmpl.element (t : Tmpl) (c : Nat → Int) (n : Nat) : Nat × Option Nat :=
  let b (d : Nat) : Nat := nth t.box d
  let i : List Nat := [n % b 0, n / b 0 % b 1, n / (b 0 * b 1) % b 2, n / (b 0 * b 1 * b 2) % b 3, n / (b 0 * b 1 * b 2 * b 3)]
  let x (d : Nat) : Int := c d + nth i d
  let inb := (List.range t.rank).all fun d => 0 ≤ x d && x d < nth t.ext d
  let gaddr := t.base + t.e * ((List.range t.rank).foldl (fun a d => a + (x d).toNat * nth t.pitch d) 0)
  let rho := n / b 0
  let byte := t.e * nth i 0
  let byte :=
    if t.skw = 0 then byte
    else
      let ch := byte / 16
      (ch - ch % t.group + (ch % t.group + rho) % t.group) * 16 + byte % 16
  (rho * t.rowb + byte, if inb then some gaddr else none)

/-! ### Sources (R241)

An engine reads each word of its source once: the pieces that share a word see it as it was then. -/

/-- R241: bytes of global memory out of words read once each, by `read` where the operation has not read them; `part`
keeps apart the words of its threads or rows. -/
def Eng.sourced (g : Eng) (s : State) (part va n : Nat) (data : List Byte)
    (read : State → Nat → List Byte → Met (Word × List Byte)) : Met (Eng × List Byte × List Byte) :=
  (Met.each s (g, [], data) (fun s (x : Eng × List Word × List Byte) a =>
    let key := part * 2 ^ 128 + a
    match x.1.buf.get? key with
    | some w => .ok s (x.1, x.2.1 ++ [w], x.2.2)
    | none => (read s a x.2.2).andThen fun s p =>
        .ok s ({ x.1 with buf := x.1.buf.put key p.1 }, x.2.1 ++ [p.1], p.2)) (wordsAt va n)).andThen fun s x =>
    .ok s (x.1, bytesFrom x.2.1 va n, x.2.2)

/-- Bytes at a virtual address. -/
def State.srcBytes (s : State) (g : Eng) (part va n : Nat) (data : List Byte) : Met (Eng × List Byte × List Byte) :=
  g.sourced s part va n data fun s a d => s.engWord g.agent a d

/-- Bytes of the workgroup's scratchpad. -/
def State.srcScratch (s : State) (g : Eng) (off n : Nat) : Eng × List Byte :=
  let x := (wordsAt off n).foldl (fun (x : Eng × List Word) a =>
    match x.1.buf.get? a with
    | some w => (x.1, x.2 ++ [w])
    | none => let w := s.spWord (.wg g.wg) a; ({ x.1 with buf := x.1.buf.put a w }, x.2 ++ [w])) (g, [])
  (x.1, bytesFrom x.2 off n)

/-- R230: where a byte of a thread's source lies, and the hint of its leaf. -/
def Copied.place (c : Copied) (va : Nat) : Loc × Nat :=
  if va / 65536 ≠ c.va / 65536 then ({ c.last with addr := c.last.addr / 65536 * 65536 + va % 65536 }, c.lastLh)
  else ({ c.first with addr := c.first.addr + (va - c.va) }, c.lh)

/-- The part of a piece of `n` bytes that is moved: all of it, or one byte ahead of the others (R241). -/
def extent (one : Option Nat) (n : Nat) : Nat × Nat := match one with | none => (0, n) | some j => (j, min 1 (n - j))

/-- Bytes of a piece from byte `lo` on, to scratchpad at `at_`; those written ahead stay as they are (R241). -/
def State.putPart (s : State) (g : Eng) (p at_ lo : Nat) (bs : List Byte) : State :=
  if g.early = [] then s.spWrite (.wg g.wg) (at_ + lo) bs
  else
    bs.zipIdx.foldl (fun s b =>
      if g.early.contains (p, lo + b.2) then s else s.spWrite (.wg g.wg) (at_ + lo + b.2) [b.1]) s

/-- The same, to global memory at `va`. -/
def State.storePart (s : State) (g : Eng) (p va lo : Nat) (bs : List Byte) : Met Unit :=
  if g.early = [] then s.engStore g.agent (va + lo) bs
  else
    Met.each s () (fun s _ (b : Byte × Nat) =>
      if g.early.contains (p, lo + b.2) then .ok s () else s.engStore g.agent (va + lo + b.2) [b.1]) bs.zipIdx

/-- R230: the source byte of byte `p % 32` of thread `p / 32` of an ACPY. -/
def State.copySource (s : State) (g : Eng) (c : Copied) (p : Nat) (data : List Byte) : Met (Eng × List Byte × List Byte) :=
  g.sourced s (p / 32) (c.va + p % 32) 1 data fun s va d =>
    s.engLoad { g.agent with hint := c.hint } va (c.place va).1 (c.place va).2 d

/-- R230: one byte of an ACPY: thread `p / 32`, byte `p % 32`; zero past the valid ones. -/
def State.copyByte (s : State) (g : Eng) (p : Nat) (data : List Byte) : Met (Eng × List Byte) :=
  match g.acpys[p / 32]? with
  | none => .ok s (g, data)
  | some c =>
    let put (s : State) (b : List Byte) : State := s.spWrite (.wg g.wg) (c.dst + p % 32) b
    if c.n ≤ p % 32 then .ok (put s [0]) (g, data)
    else (s.copySource g c p data).andThen fun s x => .ok (put s x.2.1) (x.1, x.2.2)

/-- R234: where element `n` of a BCPY's box lies in scratchpad, and in global memory when it is in bounds. -/
def Eng.element (g : Eng) (n : Nat) : Nat × Option Nat :=
  let x := (tmplOf g.words).element (fun d => g.blkI (2 + d)) n
  (g.blkN 0 + x.1, x.2)

/-- R234: the fill of an element, low byte first. -/
def Tmpl.fillBytes (t : Tmpl) : List Byte := (List.range t.e).map fun j => t.fill.extractLsb' (8 * (j % 4)) 8

/-- R234: move one element, or one byte of it; words of other devices come from `data`. -/
def State.moveElement (s : State) (g : Eng) (store : Bool) (n : Nat) (one : Option Nat) (data : List Byte) :
    Met (Eng × List Byte) :=
  let t := tmplOf g.words
  let (lo, len) := extent one t.e
  let (at_, ga) := g.element n
  if store then
    match ga with
    | none => .ok s (g, data)
    | some va =>
      let (h, bs) := s.srcScratch g (at_ + lo) len
      (s.storePart g n va lo bs).andThen fun s _ => .ok s (h, data)
  else
    match ga with
    | none => .ok (s.putPart g n at_ lo ((t.fillBytes.drop lo).take len)) (g, data)
    | some va => (s.srcBytes g 0 (va + lo) len data).andThen fun s p => .ok (s.putPart g n at_ lo p.2.1) (p.1, p.2.2)

/-! ### Tables (R236 to R239) -/

/-- A table descriptor. -/
structure Desc where
  base : Nat
  rows : Nat
  rbytes : Nat
  stride : Nat
  fmt : BitVec 5
  deriving DecidableEq, Repr

/-- R236: the fields of eight words. -/
def descOf (ws : List Word) : Desc :=
  { base := wd ws 0 + wd ws 1 % 2 ^ 17 * 2 ^ 32, rows := wd ws 2, rbytes := wd ws 3
    stride := wd ws 4 + wd ws 5 % 2 ^ 17 * 2 ^ 32, fmt := BitVec.ofNat 5 (wd ws 6) }

/-- Elements of a row, and bytes of an element. -/
def Desc.size (d : Desc) : Nat := tyBytes d.fmt
def Desc.width (d : Desc) : Nat := d.rbytes / d.size

/-- R236: the formats an operation accepts. -/
def fmtOk (k : EngKind) (t : BitVec 5) : Bool :=
  match k with
  | .gath false => tyBytes t ≠ 0
  | .gath true => t = 8#5 || t = 9#5 || t = 0xA#5 || t = 0xC#5 || t = 0xD#5
  | _ => t = 8#5 || t = 0xA#5

/-- R236: whether a descriptor is well formed for an operation. -/
def descOk (k : EngKind) (ws : List Word) : Bool :=
  let d := descOf ws
  wd ws 0 % 4 = 0 && wd ws 1 < 2 ^ 17 && 4 ≤ d.rbytes && d.rbytes ≤ 65536 && d.rbytes % 4 = 0 && wd ws 4 % 4 = 0
    && wd ws 5 < 2 ^ 17 && 2 ^ 31 ≤ wd ws 6 && wd ws 6 / 32 % 2 ^ 26 = 0 && wd ws 7 = 0
    && fmtOk k d.fmt && d.rbytes % d.size = 0

/-- The descriptor and the indices an accepted GATH or SCAT has read. -/
def Eng.desc (g : Eng) : Desc := descOf (g.words.take 8)
def Eng.index (g : Eng) (j : Nat) : Nat := wd g.words (8 + j)

/-- R237: whether row `j` of the list is dropped; how many are. -/
def Eng.dropsRow (g : Eng) (j : Nat) : Bool := g.desc.rows ≤ g.index j || g.index j = 0xFFFFFFFF
def Eng.drops (g : Eng) : Nat := ((List.range (g.words.length - 8)).filter fun j => g.dropsRow j).length

/-- The drop counter's address, 0 for none. -/
def Eng.dropAt (g : Eng) : Nat := g.blkN 6 * 2 ^ 32 + g.blkN 7

/-- R237: add to the drop counter at its home. -/
def State.addDrops (s : State) (g : Eng) : Met Unit :=
  if g.dropped ∨ g.dropAt = 0 ∨ g.drops = 0 then .ok s ()
  else
    (s.engXlate g.agent .atomic g.dropAt).andThen fun s p =>
      let l := p.1
      if l.tier = 3 then .fault s .prot g.dropAt
      else
        (s.engHold l g.dropAt false).andThen fun s _ =>
          if l.tier = 2 then .ok (s.farWritten l) ()
          else if s.unreadable l.addr then s.engEcc g.agent l.addr g.dropAt
          else
            .ok (s.homeWriteWord { ctx := g.ctx, va := g.dropAt, hint := p.2, leaf := p.2 } l.addr
              (s.peek l.addr + BitVec.ofNat 32 g.drops) 15) ()

/-- The address of row `j` of the list. -/
def Eng.rowAt (g : Eng) (j : Nat) : Nat := g.desc.base + g.index j * g.desc.stride

/-- R238: where element `p % W` of row `p / W` of the list goes in scratchpad, and comes from. -/
def Eng.gathered (g : Eng) (p : Nat) : Nat × Nat :=
  let d := g.desc
  let at_ := p % d.width * d.size
  (g.blkN 4 + p / d.width * d.rbytes + at_, g.rowAt (p / d.width) + at_)

/-- R238: copy one element of a row of the list, or one byte of it. -/
def State.gatherElement (s : State) (g : Eng) (p : Nat) (one : Option Nat) (data : List Byte) : Met (Eng × List Byte) :=
  let (lo, len) := extent one g.desc.size
  let j := p / g.desc.width
  if g.dropsRow j then .ok s (g, data)
  else
    (s.srcBytes g j ((g.gathered p).2 + lo) len data).andThen fun s x =>
      .ok (s.putPart g p (g.gathered p).1 lo x.2.1) (x.1, x.2.2)

/-- R67: one element pooled over rows: the first converted exactly, one rounding for each addition. -/
def poolSum (f : Fmt) : List Nat → Nat
  | [] => 0
  | x :: xs => xs.foldl (fun acc y => rne32 ((val32 acc).plus (f.value false y))) (rne32 (f.value false x))

/-- The rows of the list that are not dropped. -/
def Eng.liveRows (g : Eng) : List Nat := (List.range (g.words.length - 8)).filter fun j => !g.dropsRow j

/-- R238: element `e` of the rows of the list, pooled. -/
def State.poolElement (s : State) (g : Eng) (e : Nat) (data : List Byte) : Met (Eng × Nat × List Byte) :=
  let d := g.desc
  (Met.each s (g, [], data) (fun s (x : Eng × List Nat × List Byte) j =>
    (s.srcBytes x.1 j (g.rowAt j + e * d.size) d.size x.2.2).andThen fun s p =>
      .ok s (p.1, x.2.1 ++ [leNat p.2.1], p.2.2)) g.liveRows).andThen
    fun s x => .ok s (x.1, poolSum (fmtOf d.fmt) x.2.1, x.2.2)

/-- The values of the elements of `w` bytes that the bytes from `lo` to `lo + len` are of, one after another, by `elem`: those bytes. -/
def Met.elements (s : State) (g : Eng) (w lo len : Nat) (data : List Byte)
    (elem : State → Eng → Nat → List Byte → Met (Eng × Nat × List Byte)) : Met (Eng × List Byte × List Byte) :=
  let es := (List.range ((lo % w + len + w - 1) / w)).map fun i => lo / w + i
  (Met.each s (g, [], data) (fun s (x : Eng × List Nat × List Byte) e =>
    (elem s x.1 e x.2.2).andThen fun s p => .ok s (p.1, x.2.1 ++ [p.2.1], p.2.2)) es).andThen fun s x =>
      .ok s (x.1, ((x.2.1.flatMap (bytesLe w)).drop (lo % w)).take len, x.2.2)

/-- R238: pool every row of the list, or one byte of the result; a word that the engine has read already is as it was then
(R241). -/
def State.gatherPool (s : State) (g : Eng) (one : Option Nat) (data : List Byte) : Met (Eng × List Byte) :=
  let (lo, len) := extent one (4 * g.desc.width)
  (Met.elements s g 4 lo len data State.poolElement).andThen fun s x =>
    .ok (s.putPart g 0 (g.blkN 4) lo x.2.1) (x.1, x.2.2)

/-! ### KVLD (R269, R273) -/

/-- The bytes of an element of a row, and of the row, as its block holds them. -/
def KvOpen.size (r : KvOpen) (value : Bool) : Nat := kvSize (if value then r.hit.vf else r.hit.kf)
def KvOpen.bytes (r : KvOpen) (value : Bool) : Nat := r.desc.hdim * r.size value

/-- R267, R273: translate the token of row `u`, once for each row: BADDESC is ILLOP, NOSEQ and NOBLK are XLATE, of the address 0
(log 120).  Of a block on another device the scale and the row come with it. -/
def State.openRow (s : State) (g : Eng) (value : Bool) (u : Nat) (data : List Byte) : Met (Eng × KvOpen × List Byte) :=
  match g.kvs.get? u with
  | some r => .ok s (g, r, data)
  | none =>
    (s.kvTranslate g.agent (g.blkN 0) (g.blkN 1 + u) data).andThen fun s p =>
      match p.1 with
      | .error 1 => .fault s .illop 0
      | .error _ => .fault s .xlate 0
      | .ok (d, k) =>
        let r : KvOpen := { desc := d, hit := k, far := [] }
        let n := 4 + r.bytes value
        if k.blk.isSome then .ok s ({ g with kvs := g.kvs.put u r }, r, p.2)
        else if p.2.length < n then .held [.peer 2 0]
        else
          let r := { r with far := p.2.take n }
          .ok s ({ g with kvs := g.kvs.put u r }, r, p.2.drop n)

/-- R273: the scale of a row. -/
def KvOpen.scale (r : KvOpen) (value : Bool) : Nat :=
  match r.hit.blk with
  | none => leNat (r.far.take 4)
  | some b => if value then wd b 5 else wd b 4

/-- R266: the physical address of the row of token `t` in a block of this device. -/
def KvOpen.base (r : KvOpen) (value : Bool) (t : Nat) (b : List Word) : Nat :=
  (if value then valBase b else keyBase b) + t % r.desc.bt * r.bytes value

/-- Words of HBM that an operation names physically. -/
def State.srcPhys (s : State) (g : Eng) (part pa n : Nat) : Met (Eng × List Byte) :=
  (g.sourced s part pa n [] fun s a d => (s.engPhys g.agent [a]).andThen fun s ws => .ok s (ws.headD 0, d)).andThen
    fun s x => .ok s (x.1, x.2.1)

/-- R273: element `e` of the row of piece `u`, as its block holds it. -/
def State.kvRaw (s : State) (g : Eng) (value : Bool) (u : Nat) (r : KvOpen) (e : Nat) : Met (Eng × Nat) :=
  let k := r.size value
  match r.hit.blk with
  | none => .ok s (g, leNat ((r.far.drop (4 + e * k)).take k))
  | some b => (s.srcPhys g u (r.base value (g.blkN 1 + u) b + e * k) k).andThen fun s x => .ok s (x.1, leNat x.2)

/-- R267, R269: frequency `j`, through the context's page tables, read for piece `u`. -/
def State.kvFreq (s : State) (g : Eng) (u : Nat) (r : KvOpen) (j : Nat) (data : List Byte) : Met (Eng × DWord × List Byte) :=
  (s.srcBytes g (32 + u) (r.desc.frq + 8 * j) 8 data).noProt.andThen fun s x =>
    .ok s (x.1, BitVec.ofNat 64 (leNat x.2.1), x.2.2)

/-- R269, R273: bf16 element `i` of the row of piece `u`. -/
def State.kvElement (s : State) (g : Eng) (value : Bool) (u : Nat) (r : KvOpen) (i : Nat) (data : List Byte) :
    Met (Eng × Nat × List Byte) :=
  let fmt := if (if value then r.hit.vf else r.hit.kf) = 0 then bf16 else e4m3
  let key := keyElement r.desc r.hit.pos fmt (r.scale value)
  if value then (s.kvRaw g value u r i).andThen fun s x => .ok s (x.1, valueElement fmt (r.scale value) x.2, data)
  else if r.desc.rotates i then
    let j := r.desc.pairOf i
    (s.kvRaw g value u r (r.desc.first j)).andThen fun s x0 =>
      (s.kvRaw x0.1 value u r (r.desc.second j)).andThen fun s x1 =>
        (s.kvFreq x1.1 u r j data).andThen fun s q => .ok s (q.1, key q.2.1 i x0.2 x1.2, q.2.2)
  else (s.kvRaw g value u r i).andThen fun s x => .ok s (x.1, key 0 i x.2 0, data)

/-- R273: one row of a KVLD, or one byte of it; where the descriptor has changed since acceptance, a row has the HDIM it has now,
zero rows and Credits the HDIM of acceptance (log 121). -/
def State.kvldRow (s : State) (g : Eng) (value : Bool) (u : Nat) (one : Option Nat) (data : List Byte) :
    Met (Eng × List Byte) :=
  let row := g.blkN 3 + u * g.blkN 4
  if g.blkN 2 ≤ u then
    let (lo, len) := extent one (2 * g.base)
    .ok (s.putPart g u row lo (List.replicate len 0)) (g, data)
  else
    (s.openRow g value u data).andThen fun s p =>
      let (lo, len) := extent one (2 * p.2.1.desc.hdim)
      (Met.elements s p.1 2 lo len p.2.2 fun s g i d => s.kvElement g value u p.2.1 i d).andThen fun s x =>
        .ok (s.putPart g u row lo x.2.1) (x.1, x.2.2)

/-! ### Outstanding operations that write one place (R241) -/

/-- R234: the element of a box at an offset of its bytes: the skew undone. -/
def Tmpl.elementAt (t : Tmpl) (o : Nat) : Nat :=
  let rho := o / t.rowb
  let ch := o % t.rowb / 16
  let ch := if t.skw = 0 then ch else ch - ch % t.group + (ch % t.group + t.group * (rho + 1) - rho) % t.group
  rho * nth t.box 0 + (ch * 16 + o % t.rowb % 16) / t.e

/-- The piece of an operation, and the byte of it, that is written to a scratchpad address. -/
def Eng.byteAt (g : Eng) (a : Nat) : Option (Nat × Nat) :=
  let d := g.desc
  let t := tmplOf g.words
  let from_ (b n : Nat) (f : Nat → Nat × Nat) : Option (Nat × Nat) := if b ≤ a ∧ a < b + n then some (f (a - b)) else none
  match g.kind with
  | .acpy _ =>
    (g.acpys.zipIdx.find? fun c => c.1.dst ≤ a && a < c.1.dst + 32).map fun c => (32 * c.2 + (a - c.1.dst), 0)
  | .bcpy _ false => from_ (g.blkN 0) (t.elems * t.e) fun o => (t.elementAt o, o % t.e)
  | .gath true => from_ (g.blkN 4) (4 * d.width) fun o => (0, o)
  | .gath false =>
    (from_ (g.blkN 4) ((g.words.length - 8) * d.rbytes) fun o => (o / d.size, o % d.size)).filter fun x =>
      !g.dropsRow (x.1 / d.width)
  | .kvld _ =>
    (from_ (g.blkN 3) (16 * g.blkN 4) fun o => (o / g.blkN 4, o % g.blkN 4)).filter fun x => x.2 < 2 * g.base
  | .lmsav _ =>
    if g.sp then (from_ g.base (64 * g.pitch) fun o => (o / g.pitch, o % g.pitch)).filter fun x => x.2 < 256 else none
  | .bcpy _ true | .scat | .lmrst _ | .xred _ _ => none

/-- The bytes of one of its elements: of an ACPY, those of a thread. -/
def Eng.elementSize (g : Eng) : Nat :=
  match g.kind with
  | .acpy _ => 32
  | .bcpy _ _ => (tmplOf g.words).e
  | .gath true | .lmsav _ => 4
  | .gath false => g.desc.size
  | .kvld _ => 2
  | .scat | .lmrst _ | .xred _ _ => 1

/-- Whether a piece is done. -/
def Eng.has (g : Eng) (p : Nat) : Bool := g.pieces.any fun r => r.1 ≤ p && p < r.1 + r.2

/-- What writes scratchpad: the element that an address is of, as its first address and its size, and whether it is written. -/
structure Writer where
  element : Nat → Option (Nat × Nat)
  wrote : Nat → Bool

/-- An engine operation as one. -/
def Eng.writer (g : Eng) : Writer where
  element a := (g.byteAt a).map fun x =>
    let n := g.elementSize
    (a - (match g.kind with | .acpy _ => x.1 % 32 | _ => x.2 % n), n)
  wrote a := ((g.byteAt a).map fun x => g.has x.1 || g.early.contains x).getD false

/-- R278: an SMXU of which bytes of P are written as one: its elements have two bytes. -/
def Tiled.writer (t : Tiled) : Option Writer :=
  match t.op with
  | .smxp rows _ _ p out _ =>
    some {
      element := fun a => if p ≤ a ∧ a < p + 2048 ∧ rows.any fun r => r % 16 = (a - p) / 128 then some (a / 2 * 2, 2) else none
      wrote := fun a => !out.any fun x => x.1 = a }
  | _ => none

/-- The others of a workgroup that write its scratchpad. -/
def State.writers (s : State) (w self : Nat) : List Writer :=
  (s.engs.filterMap fun e =>
    if e.1 ≠ self && e.2.wg = w && e.2.accepted && e.2.fault.isNone then some e.2.writer else none)
  ++ s.cores.flatMap fun c => c.2.lattice.ops.filterMap fun t => if t.id ≠ self && t.wg = w then t.writer else none

/-- A writer's elements among addresses; of one that has written no byte of them, none. -/
def Writer.elements (w : Writer) (r : Nat × Nat) : List (Nat × Nat) :=
  (List.range (r.2 - r.1)).filterMap fun j => w.element (r.1 + j)
def Writer.begun (w : Writer) (r : Nat × Nat) : List (Nat × Nat) :=
  let es := w.elements r
  if es.any fun e => (List.range e.2).any fun j => w.wrote (e.1 + j) then es else []

/-- Addresses, with every element that is chained to one of them by common bytes: of `me`, and of those that have begun there. -/
def chained (me : Writer) (ws : List Writer) : Nat → Nat × Nat → Nat × Nat
  | 0, r => r
  | fuel + 1, r =>
    let es := me.elements r ++ ws.flatMap fun w => w.begun r
    let t := es.foldl (fun (t : Nat × Nat) e => (min t.1 e.1, max t.2 (e.1 + e.2))) r
    if t = r then r else chained me ws fuel t

/-- Whether some bytes of a writer's elements among addresses are written and others not. -/
def Writer.amid (w : Writer) (r : Nat × Nat) : Bool :=
  let mine := ((List.range (r.2 - r.1)).map fun j => r.1 + j).filter fun a => (w.element a).isSome
  mine.any w.wrote && mine.any fun a => !w.wrote a

/-- R241: whether an element that `me` writes at `e` would come amid another operation's, so that one of theirs kept a mixture of
both. -/
def mixesWith (me : Writer) (ws : List Writer) (e : Nat × Nat) : Bool :=
  (ws.any fun w => (List.range e.2).any fun j => (w.element (e.1 + j)).isSome)
    && ws.any fun w => w.amid (chained me ws 4096 (e.1, e.1 + e.2))

/-! ### Reductions at the base die (R190) -/

/-- R166, R190: recall, write back and drop the line, then apply a reduction of R207 in HBM; an uncorrectable sector is
left as it is and reported.  Monitors on the line fire (R212). -/
def State.reduceAt (s : State) (ctx pa aop : Nat) (ty : BitVec 5) (x : Nat) : State :=
  let s := (s.evictLine (lineOf pa)).fire false (lineOf pa)
  if s.bad pa then s.uncorrectable (some ctx) { kind := 4, addr := pa } pa
  else
    let r := atomNew aop ty (leNat (s.hbmRead pa (tyBytes ty))) x 0
    (s.axf ctx r.2).hbmWrite ctx pa (bytesLe (tyBytes ty) r.1)

/-- R297: credit a reduction to a window on its block's hurdle; a cause it meets ends the block. -/
def State.creditWindow (s : State) (h bytes : Nat) : State :=
  match s.blocks.get? h with
  | none => s
  | some b =>
    match s.credit (.block h) (b.winh.toNat % 2 ^ 18) bytes with
    | .ok s => s
    | .error c => (s.endBlock h 6 c.code 0 0).stopCalls

/-- R190, R297: a reduction at the base die, credited to every window that is open on its line. -/
def State.reduceHome (s : State) (ctx pa aop : Nat) (ty : BitVec 5) (x : Nat) : State :=
  let t := s.reduceAt ctx pa aop ty x
  (s.windowsOf pa).foldl (fun t h => t.creditWindow h (tyBytes ty)) t

/-- R239: one element of a SCAT's row: its adds at the base die, or on its way to another device. -/
def State.scatElement (s : State) (g : Eng) (row e : Nat) : Met Eng :=
  let d := g.desc
  let va := g.rowAt row + e * d.size
  (s.engXlate g.agent .store va).andThen fun s p =>
    let l := p.1
    if l.tier = 3 then .fault s .prot va
    else
      (s.engHold l va true).andThen fun s _ =>
        let (g, bs) := s.srcScratch g (g.blkN 4 + row * d.rbytes + e * d.size) d.size
        .ok (if l.tier = 2 then s.farWritten l else s.reduceHome g.ctx l.addr 0 d.fmt (leNat bs)) g

/-! ### XRED at the switch (R68, R355, R356) -/

/-- The bytes of one payload element and of one result. -/
def xredSize (ty : BitVec 5) (rf : Bool) : Nat := if rf then 4 else tyBytes ty

/-- R68: the f32 sum of contributions in port order, with invalid and overflow. -/
def xredSum (f : Fmt) : List Nat → Nat × Flags
  | [] => (0, {})
  | x :: xs =>
    let first := rne32 (f.value false x)
    let (r, g) := xs.foldl (fun (a : Nat × Flags) y =>
      let (v, g) := f32.pack .rne false false ((val32 a.1).plus (f.value false y))
      (v, a.2.or { ovf := g.ovf })) (first, {})
    (r, g.or (Flags.invalid (f32.isNan r)))

/-- R68: the result of one element. -/
def xredResult (ty : BitVec 5) (rf : Bool) (xs : List Nat) : Nat × Flags :=
  let (r, g) := xredSum (fmtOf ty) xs
  if rf ∨ ty = 8#5 then (r, g)
  else
    let (q, h) := (fmtOf ty).pack .rne (ty = 0xC#5) false (val32 r)
    (q, g.or { ovf := h.ovf })

/-- Contributions in ascending port order. -/
def byPort (c : Contribution) : List Contribution → List Contribution
  | [] => [c]
  | d :: r => if c.port ≤ d.port then c :: d :: r else d :: byPort c r

/-- Fields of XGRP (R356). -/
def State.xgrpV (s : State) (n : Nat) : Bool := n < 64 && (s.xgrp.get n).getLsbD 63
def State.xgrpNmem (s : State) (n : Nat) : Nat := ((s.xgrp.get n).extractLsb' 0 10).toNat

def State.xgrpStn (s : State) (n : Nat) : Nat := ((s.xgrp.get n).extractLsb' 40 8).toNat

/-- R356: the ports of the other members of a group, ascending. -/
def portsOf (others : List Contribution) : List Nat := (others.foldl (fun l c => byPort c l) []).map fun c => c.port

/-- R355, R356, R368: a group that is bound and well formed: 2 to 512 members, on a station in service. -/
def State.xgrpOk (s : State) (n : Nat) : Bool :=
  let stn := s.xgrpStn n
  s.xgrpV n && 2 ≤ s.xgrpNmem n && s.xgrpNmem n ≤ 512 && stn ≤ 23 && (s.descr.get (208 + stn)).getLsbD 7

/-! ### Acceptance (R229) -/

/-- Accept with a fault already met, or with the words read. -/
def Eng.faulted (g : Eng) (c : Cause) (a : Nat) : Eng := { g with fault := some (c, a) }

/-- R232 to R234: the template first (log 44); an ILLOP names the template's address (log 120). -/
def State.acceptBcpy (s : State) (g : Eng) (tmpl : Nat) (data : List Byte) : Met Eng :=
  let ctt := (((s.ctx? g.ctx).bind fun c => c.blk).map fun b => b.ctt).getD 0
  let va := ctt + 64 * tmpl
  (s.engRun g.agent va 16 data).andThen fun s p =>
    let t := tmplOf p.1
    let g := { g with words := p.1, hurdle := g.blkN 1 }
    if !tmplOk p.1 then .fault s .illop va
    else
      match firstFault
        [(engAlign (g.blkN 0) 16, g.blkN 0), (engAlign (g.blkN 1) 16, g.blkN 1),
         (s.engSpan g.wg (g.blkN 0) (t.elems * t.e), g.blkN 0), (s.engSpan g.wg (g.blkN 1) 16, g.blkN 1)] with
      | some (c, a) => .fault s c a
      | none => .ok s g

/-- R237: check the drop counter's address. -/
def State.checkDrop (s : State) (g : Eng) : Met Unit :=
  if g.dropAt = 0 then .ok s ()
  else if g.dropAt % 4 ≠ 0 then .fault s .align g.dropAt
  else
    (s.engLook g.agent .atomic g.dropAt).andThen fun s p =>
      if p.1.tier = 3 then .fault s .prot g.dropAt else .ok s ()

/-- R236 to R239: the descriptor first (log 44); an ILLOP names its address, also for a count above 65,535 (log 120). -/
def State.acceptTable (s : State) (g : Eng) (data : List Byte) : Met Eng :=
  let va := g.blkN 0 * 2 ^ 32 + g.blkN 1
  if va % 32 ≠ 0 then .fault s .align va
  else
    (s.engRun g.agent va 8 data).andThen fun s p =>
      let d := descOf p.1
      let n := g.blkN 3
      if !descOk g.kind p.1 ∨ 65535 < n then .fault s .illop va
      else
        let len := match g.kind with | .gath true => 4 * d.width | _ => n * d.rbytes
        match firstFault
          [(engAlign (g.blkN 2) 4, g.blkN 2), (engAlign (g.blkN 4) 4, g.blkN 4), (engAlign (g.blkN 5) 16, g.blkN 5),
           (s.engSpan g.wg (g.blkN 2) (4 * n), g.blkN 2), (s.engSpan g.wg (g.blkN 4) len, g.blkN 4),
           (s.engSpan g.wg (g.blkN 5) 16, g.blkN 5)] with
        | some (c, a) => .fault s c a
        | none =>
          (s.checkDrop g).andThen fun s _ =>
            let idx := (List.range n).map fun j => s.spWord (.wg g.wg) (g.blkN 2 + 4 * j)
            .ok s { g with words := p.1 ++ idx, hurdle := g.blkN 5 }

/-- R273: KVLD's descriptor, then its checks in their order; an ILLOP names the address 0 (log 120). -/
def State.acceptKvld (s : State) (g : Eng) (data : List Byte) : Met Eng :=
  (s.kvDesc g.agent data).andThen fun s p =>
    match p.1 with
    | .error _ => .fault s .illop 0
    | .ok d =>
      let dest := g.blkN 3
      let pitch := g.blkN 4
      let h := g.blkN 5
      match firstFault
        [(engAlign dest 16, dest), (engAlign pitch 16, pitch), (engAlign h 16, h),
         (if 16 < g.blkN 2 ∨ pitch < 2 * d.hdim then some .illop else none, 0),
         (s.engSpan g.wg dest (15 * pitch + 2 * d.hdim), dest), (s.engSpan g.wg h 16, h)] with
      | some (c, a) => .fault s c a
      | none => .ok s { g with base := d.hdim, hurdle := h }

/-- R355: the pages of a vector: every page on tier 0, with the permission its use needs. -/
def State.checkVector (s : State) (g : Eng) (use : Use) (base len : Nat) : Met Unit :=
  Met.each s () (fun s _ (p : Nat × Nat × Nat) =>
    (s.engLook g.agent use p.2.1).andThen fun s q =>
      if q.1.tier ≠ 0 then .fault s .prot p.2.1 else .ok s ()) (pagesOf base len)

/-- R355; an ILLOP names the address 0 (log 120). -/
def State.acceptXred (s : State) (g : Eng) (ty : BitVec 5) (rf : Bool) : Met Eng :=
  let src := g.blkN 0 * 2 ^ 32 + g.blkN 1
  let dst := g.blkN 2 * 2 ^ 32 + g.blkN 3
  let n := g.blkN 4
  let k := tyBytes ty
  let r := xredSize ty rf
  if !s.xgrpOk (g.blkN 6) ∨ n = 0 ∨ 1048576 < n then .fault s .illop 0
  else
    match firstFault
      [(engAlign src k, src), (engAlign dst r, dst), (engAlign (g.blkN 5) 16, g.blkN 5),
       (s.engSpan g.wg (g.blkN 5) 16, g.blkN 5)] with
    | some (c, a) => .fault s c a
    | none =>
      (s.checkVector g .load src (n * k)).andThen fun s _ =>
        (s.checkVector g .store dst (n * r)).andThen fun s _ =>
          (s.engBytes g.agent src (n * k) []).andThen fun s p =>
            .ok { s with xseq := s.xseq + 1 } { g with
              words := (elemsOf k p.1).map (BitVec.ofNat 32), base := dst, hurdle := g.blkN 5, seq := s.xseq }

/-- What acceptance reads and checks. -/
def State.accept (s : State) (g : Eng) (data : List Byte) : Met Eng :=
  match g.kind with
  | .bcpy t _ => s.acceptBcpy g t data
  | .gath _ | .scat => s.acceptTable g data
  | .kvld _ => s.acceptKvld g data
  | .xred ty rf => s.acceptXred g ty rf
  | .acpy _ | .lmsav _ | .lmrst _ => .ok s g

end Sys2Proof.Machine
end

