-- ==== Sys2Proof/Machine/Attention.lean ====
section
/-! DEFINITION. Key-value maps: KVTR, KVLD, KVINV (spec/21 R272 to R275), and the answers to peers' block requests (R267, R354). -/

namespace Sys2Proof.Machine
open Sys2Proof.Forms

/-- R174, R272: counts on LD; the translation is made when the value returns, and waits for the sheaf's earlier acquires, as a
KVLD does. -/
def kvtrBody (i : Iss) (s : State) : Eff :=
  let a : Access :=
    { thread := 0, va := i.c32 0, loc := { tier := 0, peer := 0, addr := 0 }, lh := 0, x := BitVec.ofNat 128 (i.b32 0)
      e := BitVec.ofNat 128 i.sh.pc.toNat }
  if s.acquiring i.k then .stall s else i.startOp s { i.newOp s .kvtr 0 0 0 false [a] with words := 4 }

def execKvtr (f : Fields) (s : State) := issue rowKvtr f kvtrBody s

/-- R272: the result group of a failed translation. -/
def kvtrFail (st : Nat) : List Word := [BitVec.ofNat 32 st, 0, 0, 0]

/-- R272: the result group of a KVTR, with what its reads leave behind; what it waits for while a read is held.  A result
already fixed is a failure met meanwhile (R350, R353). -/
def State.kvtrResult (s : State) (o : Op) (data : List Byte) : State × Except (List WaitOn) (List Word) :=
  match o.accs with
  | [] => (s, .ok [])
  | a :: _ =>
    if o.res ≠ [] then (s, .ok o.res)
    else
      let g : Agent := { ctx := o.ctx, core := o.core, wg := o.home.wgId, pc := a.e.toNat, hint := 0 }
      match s.kvTranslate g a.x.toNat a.va data with
      | .held ws => (s.fillBlocks ws, .error ws)
      | .fault s _ _ => (s, .ok (kvtrFail 4))
      | .ok s (.error e, _) => (s, .ok (kvtrFail e))
      | .ok s (.ok (d, k), _) =>
        (s, .ok [0, k.pos, BitVec.ofNat 32 k.gbn, BitVec.ofNat 32 (d.bt - a.va % d.bt)])

/-- R273. -/
def kvldBody (i : Iss) (s : State) : Eff := i.request s (.kvld (i.f.imm.getLsbD 0))

def execKvld (f : Fields) (s : State) := issue rowKvld f kvldBody s

/-- R274: the caches a KIND removes. -/
def State.kvInvalidate (s : State) (ctx kind : Nat) : State :=
  let s := if kind % 2 = 1 then
      let drop (c : Core) : Core := { c with kv := c.kv.filter fun e => e.1 % 4096 ≠ ctx }
      { s with cores := s.cores.mapv drop }
    else s
  if 2 ≤ kind then { s with bmCache := [] } else s

/-- R274: waits until the sheaf's earlier accesses are performed. -/
def kvinvBody (i : Iss) (s : State) : Eff :=
  if s.ops.any fun e => e.2.sheaf = i.k && (e.2.kind.reads || e.2.kind.writes) then .stall s
  else .done (s.kvInvalidate i.sh.ctx i.f.imm.toNat)

def execKvinv (f : Fields) (s : State) := issue rowKvinv f kvinvBody s

/-! ### PEER_BLOCK_READ (R267, R354) -/

/-- R354: whether export windows allow a peer's access to a range: with R, with W, or with both. -/
def exported (win : Store 128) (pa n : Nat) (r w : Bool) : Bool :=
  isHbm pa && (List.range 16).any fun k =>
    let x := win.get k
    let base := (x.extractLsb' 16 36).toNat * 65536
    let len := (x.extractLsb' 80 36).toNat * 65536
    base ≤ pa && pa + n ≤ base + len && (!r || x.getLsbD 64) && (!w || x.getLsbD 65)

/-- R267: this device's answer to a peer, under the windows as of the request's arrival: a status word; with status 0, the scale
and the raw elements, unless it only translates (R272). -/
def State.answerBlock (s : State) (win : Store 128) (r : BlockRequest) : Met (List Byte) :=
  let g : Agent := { ctx := 4096, core := dispatcher, wg := 0, pc := 0, hint := 0 }
  let entry := s.bmbase.toNat + 32 * r.gbn
  let fail (s : State) (st : Nat) : Met (List Byte) := .ok s (bytesLe 4 st)
  if s.bmcount.toNat ≤ r.gbn then fail s 3
  else if !exported win entry 32 true false then .fault s .xlate entry
  else
    (s.blockRead g r.gbn).andThen fun s b =>
      if !s.blockOk b r.bt r.hdim r.kSize r.vSize then fail s 3
      else if r.look then fail s 0
      else
        let n := r.hdim * (if r.value then r.vSize else r.kSize)
        let base := (if r.value then valBase b else keyBase b) + r.token % r.bt * n
        if !exported win base n true false then .fault s .xlate base
        else
          (s.engPhys g ((List.range (n / 4)).map fun i => base + 4 * i)).andThen fun s ws =>
            .ok s (bytesLe 4 0 ++ bytesLe 4 (if r.value then wd b 5 else wd b 4) ++ ws.flatMap bytesOf)

/-- R304: answer a peer; a request that a stack in self-refresh holds waits, with the windows of its arrival (R354). -/
def State.serveBlock (s : State) (win : Store 128) (r : BlockRequest) : State :=
  match s.answerBlock win r with
  | .ok s bs => s.report (.answer bs)
  | .fault s _ _ => s.report (.ack false [])
  | .held _ => { s with blockWait := s.blockWait ++ [(r, win)] }

def execPeerBlockRead (r : BlockRequest) (s : State) : Host.Outcome State Fault Refusal := .next (s.serveBlock s.xwin r)

/-- R304: the requests that have waited, in order of arrival. -/
def State.serveBlocks (s : State) : State :=
  s.blockWait.foldl (fun s e => s.serveBlock e.2 e.1) { s with blockWait := [] }

end Sys2Proof.Machine
end

