-- ==== Sys2Proof/Machine/Control.lean ====
section
/-! DEFINITION. Group 0x3 but for the special registers and LAUNCH: branches, calls, masks, regions, EXIT, YIELD, TRAP,
TRET (spec/07 R119 to R131, spec/25 R323). -/

namespace Sys2Proof.Machine
open Sys2Proof.Forms

/-- R91: the target of a branch word, 4·OFF from its own address. -/
def Iss.offTarget (i : Iss) : DWord :=
  i.sh.pc + ((i.f.a ++ i.f.b ++ i.f.c : BitVec 21).signExtend 64 <<< 2)

/-- R28: a taken BRA or BRX backwards is a swap point once its sheaf has held its lane for 4,096 clocks and a ready
sheaf of its partition is pending. -/
def Iss.branch (i : Iss) (s : State) (target : DWord) : Eff :=
  let old := 4096 ≤ s.clkOf i.sh - i.sh.laneClk
  if target.toNat % 4 = 0 ∧ target.toNat < 2 ^ 49 ∧ target.toNat ≤ i.sh.pc.toNat ∧ old ∧ (s.nextReady i.sh).isSome then
    .to ((s.onSheaf i.k fun t => { t with pc := target }).swapPoint i.k none)
  else .jump s target

/-- R120. -/
def braBody (i : Iss) (s : State) : Eff := i.branch s i.offTarget

def execBra (f : Fields) (s : State) := issue rowBra f braBody s

/-- R91: taken when EM = 0, or with GN = 1 when EM ≠ 0. -/
def braEzBody (i : Iss) (s : State) : Eff :=
  if (i.sh.em = 0) != i.f.gn then i.branch s i.offTarget else .done s

def execBraEz (f : Fields) (s : State) := issue rowBraEz f braEzBody s

/-- R121. -/
def brxBody (i : Iss) (s : State) : Eff := i.branch s (i.sh.read64 i.f i.f.b 0)

def execBrx (f : Fields) (s : State) := issue rowBrx f brxBody s

/-- R122: the link, then the target. -/
def Iss.call (i : Iss) (s : State) (target : DWord) : Eff :=
  let link := i.sh.pc + BitVec.ofNat 64 (4 * i.len)
  .jump (s.onSheaf i.k fun t => (t.writeS 62 (link.extractLsb' 32 32)).writeS 63 (link.truncate 32)) target

def callBody (i : Iss) (s : State) : Eff := i.call s i.offTarget

def execCall (f : Fields) (s : State) := issue rowCall f callBody s

def callRegBody (i : Iss) (s : State) : Eff := i.call s (i.sh.read64 i.f i.f.b 0)

def execCallReg (f : Fields) (s : State) := issue rowCallReg f callRegBody s

/-- R123. -/
def retBody (i : Iss) (s : State) : Eff := .jump s (i.sh.read64 i.f i.f.b 0)

def execRet (f : Fields) (s : State) := issue rowRet f retBody s

/-- R124. -/
def emsavBody (i : Iss) (s : State) : Eff :=
  .done (s.onSheaf i.k fun t => t.write true 1 i.f.a 0 (i.sh.em.zeroExtend 128))

def execEmsav (f : Fields) (s : State) := issue rowEmsav f emsavBody s

/-- R124: bits 31:16 of B are ignored. -/
def emldBody (i : Iss) (s : State) : Eff :=
  .done (s.onSheaf i.k fun t => { t with em := (i.sh.read32 i.f i.f.b 0).truncate 16 &&& i.sh.live })

def execEmld (f : Fields) (s : State) := issue rowEmld f emldBody s

/-- R125. -/
def emandBody (i : Iss) (s : State) : Eff :=
  .done (s.onSheaf i.k fun t =>
    { t with em := i.sh.em &&& maskOf fun x => i.sh.pred false i.f.b x != i.f.imm.getLsbD 0 })

def execEmand (f : Fields) (s : State) := issue rowEmand f emandBody s

/-- R126: a value of 64 or more traps with ILLOP. -/
def wbaseBody (i : Iss) (s : State) : Eff :=
  if 64 ≤ i.b32 0 then i.illop s
  else .done (s.onSheaf i.k fun t => { t with wb := BitVec.ofNat 6 (i.b32 0) })

def execWbase (f : Fields) (s : State) := issue rowWbase f wbaseBody s

/-- R127. -/
def rgnBody (i : Iss) (s : State) : Eff :=
  .done (s.onSheaf i.k fun t =>
    { t with rgnpc := i.sh.pc + BitVec.ofNat 64 (4 * i.len), rgncnt := i.sh.rgncnt + 1 })

def execRgn (f : Fields) (s : State) := issue rowRgn f rgnBody s

/-- R128, R318: what EXIT discards at once: the loads that cannot fail any more.  A global load that is outstanding stays
until it returns, to no register, or fails, which is reported (log 31). -/
def State.discardLoads (s : State) (k : Nat) : State :=
  { s with ops := s.ops.filter fun e =>
      e.2.sheaf ≠ k || !e.2.kind.onLd || e.2.kind = .load || e.2.kind = .ldx || e.2.kind = .atom || e.2.kind = .atoms }

/-- R128: the sheaf stalls until MX and EN are 0, then ends, its loads discarded, its release started; faults still held
for it are logged (R327). -/
def exitBody (i : Iss) (s : State) : Eff :=
  if i.sh.mx ≠ 0 ∨ i.sh.en ≠ 0 then .stall s
  else
    let s := i.sh.held.foldl (fun s p => s.lateFault i.sh p) s
    .to (((s.discardLoads i.k).endSheaf i.k).startRelease i.k .exit)

def execExit (f : Fields) (s : State) := issue rowExit f exitBody s

/-- R131. -/
def yieldBody (i : Iss) (s : State) : Eff := .to ((s.onSheaf i.k Sheaf.advance).swapPoint i.k none)

def execYield (f : Fields) (s : State) := issue rowYield f yieldBody s

/-- R323: SOFT, with the code in TA. -/
def trapBody (i : Iss) (s : State) : Eff := .trap s { cause := .soft, mask := i.sh.em, ta := i.f.imm.zeroExtend 64 }

def execTrap (f : Fields) (s : State) := issue rowTrap f trapBody s

/-- R323: the registers that a substitution's DEST takes. -/
def Sheaf.substWords (sh : Sheaf) : Nat := if sh.trapRegs.tc.getLsbD 8 then 2 else 1

/-- R323: whether the DEST that TC holds now is no destination (R77, R78), or no pair where two registers are to be written
(R80). -/
def Sheaf.substBad (sh : Sheaf) : Bool :=
  match dstOf (sh.trapRegs.tc.getLsbD 9) (sh.trapRegs.tc.extractLsb' 25 7) with
  | .bad => true
  | .discard => false
  | .v j | .o j | .s j => sh.substWords = 2 && j % 2 = 1

/-- R86, R323: the allocation slots that DEST names with the WB in force. -/
def Sheaf.substSlots (sh : Sheaf) : List Nat :=
  match dstOf (sh.trapRegs.tc.getLsbD 9) (sh.trapRegs.tc.extractLsb' 25 7) with
  | .v j => (List.range sh.substWords).map fun x => sh.vslot j + x
  | _ => []

/-- R323: the return, or a trap at this level. -/
def tretBody (i : Iss) (s : State) : Eff :=
  let form := (i.f.imm &&& 3#16).toNat
  if !i.sh.tretOk form || (form = 2 && i.sh.substBad) then i.illop s
  else
    match if form = 2 then lowestFailing (s.nreg i.sh.home) i.sh.substSlots else none with
    | some n => .trap s { cause := .window, mask := i.sh.em, ta := BitVec.ofNat 64 n }
    | none =>
      match i.pcTrap (i.sh.tretTarget form) with
      | some t => .trap s t
      | none => .to (s.tret i.k form true)

def execTret (f : Fields) (s : State) := issue rowTret f tretBody s

end Sys2Proof.Machine
end

