-- ==== Sys2Proof/Machine/Integer.lean ====
section
/-! DEFINITION. Group 0x0: integer arithmetic, LEA, IADDC, MOV, NOP (spec/07 R103 to R106, spec/03 R60, R61). -/

namespace Sys2Proof.Machine
open Sys2Proof.Forms

/-- An operand's value as its type reads it (R45). -/
def toNum (ty : BitVec 5) (x : Val) : Int :=
  let w := tyBits ty
  let n : Nat := x.toNat % 2 ^ w
  if tySigned ty && 2 ^ (w - 1) ≤ n then (n : Int) - 2 ^ w else n

/-- A number as `w` bits, modulo 2^w. -/
def ofNum (ty : BitVec 5) (x : Int) : Val := BitVec.ofNat 128 (x % (2 ^ tyBits ty : Nat)).toNat

/-- The range of a type (R45). -/
def minNum (ty : BitVec 5) : Int := if tySigned ty then -(2 ^ (tyBits ty - 1) : Nat) else 0
def maxNum (ty : BitVec 5) : Int := if tySigned ty then (2 ^ (tyBits ty - 1) : Nat) - 1 else (2 ^ tyBits ty : Nat) - 1

/-- R49, R103: the clamp of SAT. -/
def clampNum (ty : BitVec 5) (x : Int) : Int := if x < minNum ty then minNum ty else if maxNum ty < x then maxNum ty else x

/-- R103: the pattern of group 0x0: an exact result, clamped with SAT, else modulo 2^w. -/
def intBody (sat : Bool) (g : Int → Int → Int → Int) (i : Iss) (s : State) : Eff :=
  let ty := i.f.ty
  let n := tyWords ty
  i.pure s n fun t =>
    let x := g (toNum ty (i.b n t)) (toNum ty (i.c n t)) (toNum ty (i.d n t))
    ofNum ty (if sat && i.f.imm.getLsbD 3 then clampNum ty x else x)

/-- R60: quotient and remainder; the corner −2^(w−1) ÷ −1 wraps to the dividend. -/
def divBody (rem : Bool) (i : Iss) (s : State) : Eff :=
  let ty := i.f.ty
  let n := tyWords ty
  i.alu s n fun t =>
    let a := toNum ty (i.b n t)
    let b := toNum ty (i.c n t)
    if b = 0 then { val := ofNum ty (if rem then a else 0), divz := true }
    else { val := ofNum ty (if rem then Int.tmod a b else Int.tdiv a b) }

def execIadd (f : Fields) (s : State) := issue rowIadd f (intBody true fun a b _ => a + b) s
def execIsub (f : Fields) (s : State) := issue rowIsub f (intBody true fun a b _ => a - b) s
def execImul (f : Fields) (s : State) := issue rowImul f (intBody true fun a b _ => a * b) s

/-- R103: the upper half of the product, ⌊a·b ÷ 2^w⌋. -/
def execImulh (f : Fields) (s : State) := issue rowImulh f (intBody false fun a b _ => (a * b) / (2 ^ tyBits f.ty : Nat)) s

def execImad (f : Fields) (s : State) := issue rowImad f (intBody true fun a b d => a * b + d) s
def execIdiv (f : Fields) (s : State) := issue rowIdiv f (divBody false) s
def execIrem (f : Fields) (s : State) := issue rowIrem f (divBody true) s
def execImin (f : Fields) (s : State) := issue rowImin f (intBody false fun a b _ => if a ≤ b then a else b) s
def execImax (f : Fields) (s : State) := issue rowImax f (intBody false fun a b _ => if a ≤ b then b else a) s
def execIabs (f : Fields) (s : State) := issue rowIabs f (intBody true fun a _ _ => if a < 0 then -a else a) s
def execIneg (f : Fields) (s : State) := issue rowIneg f (intBody true fun a _ _ => -a) s
def execIsad (f : Fields) (s : State) :=
  issue rowIsad f (intBody true fun a b d => (if a ≤ b then b - a else a - b) + d) s

/-- R105: B + (ext(C) << sh); a literal B is extended with zeros (log 98). -/
def leaBody (i : Iss) (s : State) : Eff :=
  i.pure s 2 fun t =>
    let c := i.sh.read32 i.f i.f.c t
    let ext : DWord := if i.f.ty = 0#5 then c.signExtend 64 else c.zeroExtend 64
    (i.sh.read64 i.f i.f.b t + ext <<< (i.f.imm &&& 0x3F#16).toNat).zeroExtend 128

def execLea (f : Fields) (s : State) := issue rowLea f leaBody s

/-- R104: add with a carry in predicates. -/
def iaddcBody (i : Iss) (s : State) : Eff :=
  let n := tyWords i.f.ty
  let co : BitVec 7 := (i.f.imm &&& 7#16).truncate 7
  i.alu s n fun t =>
    let cin := i.sh.pred i.f.u i.f.d t != i.f.imm.getLsbD 3
    let u := (i.b n t).toNat + (i.c n t).toNat + (if cin then 1 else 0)
    { val := BitVec.ofNat 128 (u % 2 ^ tyBits i.f.ty), preds := [(co, 2 ^ tyBits i.f.ty ≤ u)] }

def execIaddc (f : Fields) (s : State) := issue rowIaddc f iaddcBody s

/-- R106: the type selects only how much is copied; of a narrow type a literal is copied whole (log 99). -/
def movBody (i : Iss) (s : State) : Eff :=
  let n := tyWords i.f.ty
  i.pure s n fun t => i.b n t

def execMov (f : Fields) (s : State) := issue rowMov f movBody s

/-- R106: no effect. -/
def execNop (f : Fields) (s : State) := issue rowNop f (fun _ s => .done s) s

end Sys2Proof.Machine
end

