-- ==== Sys2Proof/Machine/Lanes.lean ====
section
/-! DEFINITION. Group 0x2: compares, predicates, lane exchange, BRK (spec/07 R110 to R118). -/

namespace Sys2Proof.Machine
open Sys2Proof.Forms

/-- R110: COMB: the comparison alone, or combined with P(D). -/
def combine (i : Iss) (c : Bool) (t : Nat) : Bool :=
  let comb := ((i.f.imm >>> 11) &&& 3#16).toNat
  let p := i.sh.pred i.f.u i.f.d t
  if comb = 1 then c && p else if comb = 2 then c || p else c

/-- R111: conditions 0 to 5 on integers. -/
def condNum (c : Nat) (a b : Int) : Bool :=
  match c with
  | 0 => a = b | 1 => a ≠ b | 2 => a < b | 3 => a ≤ b | 4 => b < a | _ => b ≤ a

def isetBody (i : Iss) (s : State) : Eff :=
  let n := tyWords i.f.ty
  i.alu s 0 fun t =>
    { preds := [(i.f.a, combine i (condNum (i.f.imm &&& 0xF#16).toNat (toNum i.f.ty (i.b n t)) (toNum i.f.ty (i.c n t))) t)] }

def execIset (f : Fields) (s : State) := issue rowIset f isetBody s

/-- R88: a float operand with its absolute value and negation bits, as raw bits. -/
def modOperand (fm : Fmt) (abs neg : Bool) (x : Nat) : Nat :=
  let x := x % 2 ^ fm.width
  let sign := (fm.sign x && !abs) != neg
  fm.withSign sign (fm.mag x)

/-- R51: whether an instruction flushes. -/
def Iss.ftz (i : Iss) : Bool := i.f.imm.getLsbD 9 || i.sh.fpcr.getLsbD 9

/-- R111: the truth of a float condition, with whether any operand is NaN. -/
def condFloat (c : Nat) (nan : Bool) (a b : Fl) : Bool :=
  if nan then c = 1 || c = 7 || c = 8 || 10 ≤ c
  else
    match c with
    | 0 | 8 => a.eq b
    | 1 => !a.eq b
    | 2 | 10 => a.lt b
    | 3 | 11 => a.lt b || a.eq b
    | 4 | 12 => b.lt a
    | 5 | 13 => b.lt a || a.eq b
    | 6 => true
    | _ => false

def fsetBody (i : Iss) (s : State) : Eff :=
  let fm := fmtOf i.f.ty
  let n := tyWords i.f.ty
  let c := (i.f.imm &&& 0xF#16).toNat
  i.alu s 0 fun t =>
    let a := modOperand fm (i.f.imm.getLsbD 7) (i.f.imm.getLsbD 4) (i.b n t).toNat
    let b := modOperand fm (i.f.imm.getLsbD 8) (i.f.imm.getLsbD 5) (i.c n t).toNat
    let nan := fm.isNan a || fm.isNan b
    { preds := [(i.f.a, combine i (condFloat c nan (fm.value i.ftz a) (fm.value i.ftz b)) t)]
      flags := .invalid (fm.isSnan a || fm.isSnan b || (nan && 2 ≤ c && c ≤ 5)) }

def execFset (f : Fields) (s : State) := issue rowFset f fsetBody s

/-- R112; of a narrow type a literal is copied whole (log 99). -/
def selBody (i : Iss) (s : State) : Eff :=
  let n := tyWords i.f.ty
  i.pure s n fun t => if i.sh.pred i.f.u i.f.d t then i.b n t else i.c n t

def execSel (f : Fields) (s : State) := issue rowSel f selBody s

/-- R113. -/
def plopBody (i : Iss) (s : State) : Eff :=
  i.alu s 0 fun t =>
    let bit (fld : BitVec 7) := if i.sh.pred i.f.u fld t then 1 else 0
    { preds := [(i.f.a, i.f.imm.getLsbD (4 * bit i.f.b + 2 * bit i.f.c + bit i.f.d))] }

def execPlop (f : Fields) (s : State) := issue rowPlop f plopBody s

/-- R114: pack p0 to p7 (q0 to q7), or unpack the predicates of ENB. -/
def pmovBody (i : Iss) (s : State) : Eff :=
  if i.f.imm.getLsbD 0 then
    i.alu s 0 fun t =>
      { preds := ((List.range 7).filter fun k => i.f.imm.getLsbD (8 + k)).map fun k =>
          (BitVec.ofNat 7 k, (i.b32 t).testBit k) }
  else
    i.pure s 1 fun t =>
      BitVec.ofNat 128 ((List.range 8).foldl (fun x k => if i.sh.pred i.f.u (BitVec.ofNat 7 k) t then x + 2 ^ k else x) 0)

def execPmov (f : Fields) (s : State) := issue rowPmov f pmovBody s

/-- R115: the participating threads where P(B) holds; B is read under the vector decode in both classes. -/
def voteBody (i : Iss) (s : State) : Eff :=
  let set := active (if i.f.u then i.sh.em else i.m)
  let yes := set.filter fun t => i.sh.pred false i.f.b t
  let mode := (i.f.imm &&& 3#16).toNat
  if mode = 2 then i.pure s 1 fun _ => (maskOf fun t => yes.contains t).zeroExtend 128
  else
    let v : Bool := if mode = 0 then yes.length = set.length else if mode = 1 then yes ≠ [] else yes = [] || yes.length = set.length
    i.alu s 0 fun _ => { preds := [(i.f.a, v)] }

def execVote (f : Fields) (s : State) := issue rowVote f voteBody s

/-- R116: the source thread; one outside 0 to 15 is the thread itself. -/
def shflSrc (mode t n : Nat) : Nat :=
  let src : Int := if mode = 0 then n % 16 else if mode = 1 then (t : Int) - n else if mode = 2 then t + n else (t ^^^ (n % 16) : Nat)
  if src < 0 ∨ 15 < src then t else src.toNat

def shflBody (i : Iss) (s : State) : Eff :=
  let n := tyWords i.f.ty
  i.pure s n fun t => i.b n (shflSrc (i.f.imm &&& 3#16).toNat t (i.c32 t))

def execShfl (f : Fields) (s : State) := issue rowShfl f shflBody s

/-- R117: one thread's value to every thread of the mask. -/
def bcastBody (i : Iss) (s : State) : Eff :=
  let n := tyWords i.f.ty
  let src := if i.f.imm.getLsbD 0 then (active i.m).headD 0 else i.c32 0 % 16
  i.pure s n fun _ => i.b n src

def execBcast (f : Fields) (s : State) := issue rowBcast f bcastBody s

/-- R118: a precise trap with a code. -/
def brkBody (i : Iss) (s : State) : Eff :=
  .trap s { cause := .brk, mask := if i.f.u then i.sh.em else i.m, ta := i.f.imm.zeroExtend 64 }

def execBrk (f : Fields) (s : State) := issue rowBrk f brkBody s

end Sys2Proof.Machine
end

