-- ==== Sys2Proof/Machine/Float.lean ====
section
/-! DEFINITION. Groups 0x4, 0x5 and the packed instructions of group 0x6 (spec/09 R133 to R143, R151, R152). -/

namespace Sys2Proof.Machine
open Sys2Proof.Forms

/-- R47: the rounding direction of an instruction. -/
def Iss.rm (i : Iss) : Rm :=
  let sel (n : Nat) : Rm := if n = 1 then .rz else if n = 2 then .ru else if n = 3 then .rd else .rne
  let r := (i.f.imm &&& 7#16).toNat
  if r = 4 then sel (i.sh.fpcr &&& 3#12).toNat else sel r

/-- FPCR.NANP (R53) and the SAT bit (R49). -/
def Iss.nanp (i : Iss) : Bool := i.sh.fpcr.getLsbD 10
def Iss.sat (i : Iss) : Bool := i.f.imm.getLsbD 3

/-- How one operation rounds, flushes and treats NaNs. -/
structure Mode where
  fm : Fmt
  rm : Rm
  sat : Bool
  ftz : Bool
  nanp : Bool

def Iss.mode (i : Iss) (fm : Fmt) : Mode := { fm := fm, rm := i.rm, sat := i.sat, ftz := i.ftz, nanp := i.nanp }

/-- R53, R135: one exact result, or the NaN of the source operands, rounded once.  `made` and `dz` are what the
operation itself raises (R136). -/
def Mode.finish (o : Mode) (srcs : List Nat) (r : Fl) (made dz : Bool) : Nat × Flags :=
  let ps := srcs.map fun x => (o.fm, x)
  let g : Flags := { inv := made || anySnan ps, dz := dz }
  if anyNan ps ∨ r = .nan then (nanOf o.nanp o.fm ps, g)
  else
    let (x, h) := o.fm.pack o.rm o.sat o.ftz r
    (x, g.or h)

/-- The scalar operations of R135 and R137, on operands as bits after their modifiers. -/
def Mode.fadd (o : Mode) (a b : Nat) : Nat × Flags :=
  let (r, made) := Fl.add o.rm (o.fm.value o.ftz a) (o.fm.value o.ftz b)
  o.finish [a, b] r made false

def Mode.fmul (o : Mode) (a b : Nat) : Nat × Flags :=
  let (r, made) := Fl.mul (o.fm.value o.ftz a) (o.fm.value o.ftz b)
  o.finish [a, b] r made false

def Mode.ffma (o : Mode) (a b d : Nat) : Nat × Flags :=
  let (p, m1) := Fl.mul (o.fm.value o.ftz a) (o.fm.value o.ftz b)
  let (r, m2) := Fl.add o.rm p (o.fm.value o.ftz d)
  o.finish [a, b, d] r (m1 || m2) false

/-- Negate an encoding. -/
def Fmt.flip (fm : Fmt) (x : Nat) : Nat := fm.withSign (!fm.sign x) (fm.mag x)

/-- R137: whether `a` is the lesser operand, −0 below +0. -/
def Fmt.less (fm : Fmt) (a b : Nat) : Bool :=
  if fm.isZero a && fm.isZero b then fm.sign a && !fm.sign b else (fm.value false a).lt (fm.value false b)

/-- R51: an operand as FMIN and FMAX deliver it, flushed where flushing applies. -/
def Mode.flushed (o : Mode) (x : Nat) : Nat := if o.ftz && o.fm.isSub x then o.fm.withSign (o.fm.sign x) 0 else x

/-- R54, R137. -/
def Mode.fminmax (o : Mode) (max nanm : Bool) (a b : Nat) : Nat × Flags :=
  let ps := [(o.fm, a), (o.fm, b)]
  let g : Flags := { inv := anySnan ps }
  let a' := o.flushed a
  let b' := o.flushed b
  if o.fm.isNan a && o.fm.isNan b then (nanOf o.nanp o.fm ps, g)
  else if anyNan ps then
    if nanm then (nanOf o.nanp o.fm ps, g) else (if o.fm.isNan a then b' else a', g)
  else if max then (if o.fm.less a' b' then b' else a', g)
  else (if o.fm.less b' a' then b' else a', g)

/-- R88: the operands B, C and D of one thread with their sign modifiers. -/
def Iss.fa (i : Iss) (fm : Fmt) (t : Nat) : Nat :=
  modOperand fm (i.f.imm.getLsbD 7) (i.f.imm.getLsbD 4) (i.b (tyWords i.f.ty) t).toNat
def Iss.fb (i : Iss) (fm : Fmt) (t : Nat) : Nat :=
  modOperand fm (i.f.imm.getLsbD 8) (i.f.imm.getLsbD 5) (i.c (tyWords i.f.ty) t).toNat
def Iss.fd (i : Iss) (fm : Fmt) (t : Nat) : Nat :=
  modOperand fm false (i.f.imm.getLsbD 6) (i.d (tyWords i.f.ty) t).toNat

/-- A result with its flags as what a thread computes. -/
def outOf (r : Nat × Flags) : Out := { val := BitVec.ofNat 128 r.1, flags := r.2 }

/-- R135: a two-operand instruction of the type in M. -/
def float2 (g : Mode → Nat → Nat → Nat × Flags) (i : Iss) (s : State) : Eff :=
  let fm := fmtOf i.f.ty
  i.alu s (tyWords i.f.ty) fun t => outOf (g (i.mode fm) (i.fa fm t) (i.fb fm t))

def execFadd (f : Fields) (s : State) := issue rowFadd f (float2 Mode.fadd) s
def execFsub (f : Fields) (s : State) := issue rowFsub f (float2 fun o a b =>
  let (r, made) := Fl.add o.rm (o.fm.value o.ftz a) (o.fm.value o.ftz b).neg
  o.finish [a, b] r made false) s
def execFmul (f : Fields) (s : State) := issue rowFmul f (float2 Mode.fmul) s

def ffmaBody (i : Iss) (s : State) : Eff :=
  let fm := fmtOf i.f.ty
  i.alu s (tyWords i.f.ty) fun t => outOf ((i.mode fm).ffma (i.fa fm t) (i.fb fm t) (i.fd fm t))

def execFfma (f : Fields) (s : State) := issue rowFfma f ffmaBody s
def execFmin (f : Fields) (s : State) := issue rowFmin f (float2 fun o => o.fminmax false (f.imm.getLsbD 10)) s
def execFmax (f : Fields) (s : State) := issue rowFmax f (float2 fun o => o.fminmax true (f.imm.getLsbD 10)) s

/-- R138: the class bit of raw bits. -/
def classBit (fm : Fmt) (x : Nat) : Nat :=
  if fm.isSnan x then 0 else if fm.isNan x then 1
  else if fm.sign x then
    if fm.isInf x then 2 else if fm.isZero x then 5 else if fm.isSub x then 4 else 3
  else if fm.isInf x then 9 else if fm.isZero x then 6 else if fm.isSub x then 7 else 8

def fclassBody (i : Iss) (s : State) : Eff :=
  let fm := fmtOf i.f.ty
  i.pure s 1 fun t => BitVec.ofNat 128 (2 ^ classBit fm ((i.b 1 t).toNat % 2 ^ fm.width))

def execFclass (f : Fields) (s : State) := issue rowFclass f fclassBody s

/-- R135: a · 2^n.  A count beyond ±1000 moves every nonzero operand past the range of its format either way. -/
def fsclBody (i : Iss) (s : State) : Eff :=
  let fm := fmtOf i.f.ty
  i.alu s 1 fun t =>
    let a := i.fa fm t
    let n := toNum 0#5 (i.sh.read32 i.f i.f.c t |>.zeroExtend 128)
    let n : Int := if n < -1000 then -1000 else if 1000 < n then 1000 else n
    let r : Fl := match fm.value i.ftz a with | .fin neg m e k => .fin neg m (e + n) k | v => v
    outOf ((i.mode fm).finish [a] r false false)

def execFscl (f : Fields) (s : State) := issue rowFscl f fsclBody s

/-- R139: the significand, exponent or fractional part. -/
def ffrxBody (i : Iss) (s : State) : Eff :=
  let fm := fmtOf i.f.ty
  i.alu s 1 fun t =>
    let a := i.fa fm t
    let v := fm.value i.ftz a
    let o : Mode := { i.mode fm with rm := .rne, sat := false, ftz := false }
    if i.f.d = 1#7 then
      match v with
      | .fin _ m e _ =>
        if m = 0 then { val := 0x80000000, flags := { inv := true } }
        else { val := ofNum 0#5 ((Nat.log2 m : Int) + e) }
      | _ => { val := 0x7FFFFFFF, flags := { inv := true } }
    else
      match v with
      | .fin neg m e _ =>
        if m = 0 then outOf (o.finish [a] v false false)
        else if i.f.d = 0#7 then outOf (o.finish [a] (.fin neg m (-(Nat.log2 m : Int)) false) false false)
        else
          let r := if 0 ≤ e then 0 else m % 2 ^ (-e).toNat
          outOf (o.finish [a] (.fin neg r e false) false false)
      | .inf _ => if i.f.d = 0#7 then outOf (o.finish [a] v false false) else outOf (o.finish [a] .nan true false)
      | .nan => outOf (o.finish [a] .nan false false)

def execFfrx (f : Fields) (s : State) := issue rowFfrx f ffrxBody s

/-- R140: rounded to an integral value of the same format. -/
def frndBody (i : Iss) (s : State) : Eff :=
  let fm := fmtOf i.f.ty
  i.alu s 1 fun t =>
    let a := i.fa fm t
    let r : Fl :=
      match fm.value i.ftz a with
      | .fin neg m e _ => .fin neg (roundShift i.rm neg m (-e) false).1 0 false
      | v => v
    outOf ({ i.mode fm with sat := false, ftz := false }.finish [a] r false false)

def execFrnd (f : Fields) (s : State) := issue rowFrnd f frndBody s

def execFdiv (f : Fields) (s : State) := issue rowFdiv f (float2 fun o a b =>
  let (r, made, dz) := Fl.div (o.fm.value o.ftz a) (o.fm.value o.ftz b)
  o.finish [a, b] r made dz) s

/-- R141: a function of one f32 operand, with the invalid and divide-by-zero it raises. -/
def transBody (g : Fl → Fl × Bool × Bool) (i : Iss) (s : State) : Eff :=
  i.alu s 1 fun t =>
    let a := i.fa f32 t
    let (r, made, dz) := g (f32.value i.ftz a)
    outOf ((i.mode f32).finish [a] r made dz)

def execFrcp (f : Fields) (s : State) := issue rowFrcp f (transBody fun a => Fl.div (.fin false 1 0 false) a) s
def execFrsq (f : Fields) (s : State) := issue rowFrsq f (transBody Fl.rsqrt) s
def execFsqrt (f : Fields) (s : State) := issue rowFsqrt f (transBody fun a => (a.sqrt.1, a.sqrt.2, false)) s
def execFexp2 (f : Fields) (s : State) := issue rowFexp2 f (transBody fun a => (a.exp2, false, false)) s
def execFlog2 (f : Fields) (s : State) := issue rowFlog2 f (transBody Fl.log2) s
def execFsin (f : Fields) (s : State) := issue rowFsin f (transBody fun a => (a.sin2pi.1, a.sin2pi.2, false)) s
def execFcos (f : Fields) (s : State) := issue rowFcos f (transBody fun a => (a.cos2pi.1, a.cos2pi.2, false)) s

/-! ### Packed 16-bit (R143) -/

/-- Half `h` of a register. -/
def half (x : Val) (h : Nat) : Nat := x.toNat / 65536 ^ h % 65536

/-- R143: the scalar operation on each half, flags ORed. -/
def packed (g : Mode → Nat → Nat → Nat → Nat × Flags) (i : Iss) (s : State) : Eff :=
  let fm := fmtOf i.f.ty
  i.alu s 1 fun t =>
    let one (h : Nat) : Nat × Flags :=
      g (i.mode fm) (modOperand fm (i.f.imm.getLsbD 7) (i.f.imm.getLsbD 4) (half (i.b 1 t) h))
        (modOperand fm (i.f.imm.getLsbD 8) (i.f.imm.getLsbD 5) (half (i.c 1 t) h))
        (modOperand fm false (i.f.imm.getLsbD 6) (half (i.d 1 t) h))
    { val := BitVec.ofNat 128 ((one 0).1 + 65536 * (one 1).1), flags := (one 0).2.or (one 1).2 }

def execHadd2 (f : Fields) (s : State) := issue rowHadd2 f (packed fun o a b _ => o.fadd a b) s
def execHmul2 (f : Fields) (s : State) := issue rowHmul2 f (packed fun o a b _ => o.fmul a b) s
def execHfma2 (f : Fields) (s : State) := issue rowHfma2 f (packed Mode.ffma) s
def execHmin2 (f : Fields) (s : State) := issue rowHmin2 f (packed fun o a b _ => o.fminmax false (f.imm.getLsbD 10) a b) s
def execHmax2 (f : Fields) (s : State) := issue rowHmax2 f (packed fun o a b _ => o.fminmax true (f.imm.getLsbD 10) a b) s

end Sys2Proof.Machine
end

