-- ==== Sys2Proof/Machine/Convert.lean ====
section
/-! DEFINITION. The conversions, PACK, UNPK and MXCVT of group 0x6 (spec/09 R144 to R150, spec/03 R50, R59). -/

namespace Sys2Proof.Machine
open Sys2Proof.Forms

/-- The B operand of a conversion, as its source type reads it (R144). -/
def Iss.cvtSrc (i : Iss) (t : Nat) : Val := i.sh.read i.f (srcTy i.f) (tyWords (srcTy i.f)) i.f.b t

/-- R53, R145: one value of format `a` converted to format `o.fm`. -/
def Mode.convert (o : Mode) (a : Fmt) (x : Nat) : Nat × Flags :=
  if a.isNan x then
    (if o.nanp then convNan a o.fm x else o.fm.nan, { inv := a.isSnan x || !o.fm.hasNan })
  else
    match a.value o.ftz x with
    | .inf neg =>
      let (r, _) := o.fm.pack o.rm o.sat false (.inf neg)
      (r, { ovf := !o.fm.hasInf, inx := !o.fm.hasInf })
    | v => o.fm.pack o.rm o.sat o.ftz v

def fcvtBody (i : Iss) (s : State) : Eff :=
  let a := fmtOf (srcTy i.f)
  i.alu s (tyWords i.f.ty) fun t =>
    outOf ((i.mode (fmtOf i.f.ty)).convert a (modOperand a (i.f.imm.getLsbD 7) (i.f.imm.getLsbD 4) (i.cvtSrc t).toNat))

def execFcvt (f : Fields) (s : State) := issue rowFcvt f fcvtBody s

/-- R46: an integer of a narrow type in its register. -/
def intReg (ty : BitVec 5) (x : Int) : Val := widen ty (x % (2 ^ tyBits ty : Nat)).toNat

/-- R50, R146: rounded, then saturated; a NaN gives 0. -/
def f2iBody (i : Iss) (s : State) : Eff :=
  let a := fmtOf (srcTy i.f)
  let ty := i.f.ty
  i.alu s (tyWords ty) fun t =>
    match a.value i.ftz (modOperand a (i.f.imm.getLsbD 7) (i.f.imm.getLsbD 4) (i.cvtSrc t).toNat) with
    | .nan => { val := 0, flags := { inv := true } }
    | .inf neg => { val := intReg ty (if neg then minNum ty else maxNum ty), flags := { inv := true } }
    | .fin neg m e _ =>
      let (q, lost) := roundShift i.rm neg m (-e) false
      let x : Int := if neg then -(q : Int) else q
      if x < minNum ty then { val := intReg ty (minNum ty), flags := { inv := true } }
      else if maxNum ty < x then { val := intReg ty (maxNum ty), flags := { inv := true } }
      else { val := intReg ty x, flags := { inx := lost } }

def execF2i (f : Fields) (s : State) := issue rowF2i f f2iBody s

/-- R147. -/
def i2fBody (i : Iss) (s : State) : Eff :=
  i.alu s (tyWords i.f.ty) fun t =>
    let x := toNum (srcTy i.f) (i.cvtSrc t)
    let (r, g) := (fmtOf i.f.ty).pack i.rm i.sat false (.fin (x < 0) x.natAbs 0 false)
    outOf (r, { ovf := g.ovf, inx := g.inx })

def execI2f (f : Fields) (s : State) := issue rowI2f f i2fBody s

/-- R148. -/
def packBody (i : Iss) (s : State) : Eff :=
  i.pure s 1 fun t =>
    let h (k : Nat) : Nat := if i.f.imm.getLsbD k then 1 else 0
    BitVec.ofNat 128 (half (i.b 1 t) (h 0) + 65536 * half (i.c 1 t) (h 1))

def execPack (f : Fields) (s : State) := issue rowPack f packBody s

/-- R149: one element, of a literal one of all its bits (log 102), extended or converted exactly to f32. -/
def unpkBody (i : Iss) (s : State) : Eff :=
  let ty := i.f.ty
  let w := tyBits ty
  let k := (i.f.imm &&& 7#16).toNat
  i.alu s 1 fun t =>
    let x := (i.b 1 t).toNat / 2 ^ (w * k) % 2 ^ w
    if unpkFloat ty then outOf ({ i.mode f32 with rm := .rne, sat := false }.convert (fmtOf ty) x)
    else { val := widen ty x }

def execUnpk (f : Fields) (s : State) := issue rowUnpk f unpkBody s

/-! ### MXCVT (R59, R150) -/

/-- The largest power of two of an element format's magnitudes, emax. -/
def emax (ty : BitVec 5) : Int := if ty = 0xC#5 then 8 else if ty = 0xD#5 then 15 else 2

/-- R59: the scale exponent of a block, −127 to 127; none when every input is zero. -/
def mxExp (ty : BitVec 5) (xs : List Fl) : Option Int :=
  xs.foldl (fun (best : Option Int) v =>
    match v with
    | .fin _ m e _ =>
      if m = 0 then best
      else
        let l : Int := (Nat.log2 m : Int) + e
        match best with | none => some l | some b => some (if b < l then l else b)
    | _ => best) none |>.map fun l => let e := l - emax ty; if e < -127 then -127 else if 127 < e then 127 else e

/-- A NaN or an infinity. -/
def Fl.special : Fl → Bool
  | .fin .. => false
  | _ => true

/-- R59: one element: its bits and whether it differs from the exact quotient. -/
def mxElem (ty : BitVec 5) (e : Int) : Fl → Nat × Bool
  | .fin neg m x _ =>
    let (r, g) := (fmtOf ty).pack .rne true false (.fin neg m (x - e) false)
    (r, g.inx)
  | _ => (0, false)

def mxcvtBody (i : Iss) (s : State) : Eff :=
  let ty := i.f.ty
  let vals (t : Nat) : List Fl :=
    let x := i.b 2 t
    [f32.value i.ftz (x.toNat / 2 ^ 32 % 2 ^ 32), f32.value i.ftz (x.toNat % 2 ^ 32)]
  let all := (active i.m).flatMap vals
  let bad := all.any Fl.special
  let e := mxExp ty all
  let scale : Nat := if bad then 0xFF else match e with | none => 0x7F | some e => (e + 127).toNat
  if i.f.d = 1#7 then i.pure s 1 fun _ => BitVec.ofNat 128 scale
  else
    let w := tyBits ty
    i.alu s 1 fun t =>
      if bad then { val := 0, flags := { inv := (vals t).any Fl.special } }
      else
        let es := (vals t).map (mxElem ty (e.getD 0))
        { val := BitVec.ofNat 128 (es.foldr (fun p n => p.1 + 2 ^ w * n) 0), flags := { inx := es.any fun p => p.2 } }

def execMxcvt (f : Fields) (s : State) := issue rowMxcvt f mxcvtBody s

end Sys2Proof.Machine
end

