-- ==== Sys2Proof/Machine/LatticeNumbers.lean ====
section
/-! DEFINITION. The arithmetic of the lattice (spec/03 R62 to R66, spec/19 R252 to R256, R260, spec/21 R277 to R279), over
rows of words and fragments. -/

namespace Sys2Proof.Machine

/-! ### Fragments (R252) -/

/-- Elements of `k` bits in a word, low position first. -/
def unpackWord (k : Nat) (w : Word) : List Nat := (List.range (32 / k)).map fun p => (w.extractLsb' (k * p) k).toNat

/-- The elements a thread holds in a fragment of `n` registers, stored by register·16 + thread. -/
def fragElems (st : Store 32) (n k t : Nat) : List Nat :=
  (List.range n).flatMap fun j => unpackWord k (st.get (j * 16 + t))

/-- The element format of the A side, and of the B side (R251). -/
def Join.fmtA (j : Join) : Fmt := fmtOf j.ty
def Join.fmtB (j : Join) : Fmt := if j.bf = 0 then j.fmtA else if j.bf = 1 then e4m3 else e5m2

/-- The exact sum of products, +0 when it is zero. -/
def dot (xs ys : List Fl) : Fl :=
  (xs.zip ys).foldl (fun a p => a.plus (p.1.times p.2)) (.fin false 0 0 false)

/-- R62: accumulate one output. -/
def accumulate (d : Word) (s : Fl) : Word :=
  BitVec.ofNat 32 (rne32 ((val32 d.toNat).plus (val32 (rne32 s))))

/-- R63: a block scale. -/
def scaleOf (x : Nat) : Fl := if x = 255 then .nan else .fin false 1 ((x : Int) - 127) false

/-- R63: the exact scaled sum over four blocks of 32. -/
def dotMx (xs ys : List Fl) (sa sb : Word) : Fl :=
  (List.range 4).foldl (fun (a : Fl) b =>
    let part := dot ((xs.drop (32 * b)).take 32) ((ys.drop (32 * b)).take 32)
    let k (w : Word) : Fl := scaleOf (w.extractLsb' (8 * b) 8).toNat
    a.plus ((part.times (k sa)).times (k sb))) (.fin false 0 0 false)

/-- R64: an INT8 output. -/
def accumulateInt (d : Word) (xs ys : List Nat) : Word :=
  (xs.zip ys).foldl (fun a p => a + (BitVec.ofNat 8 p.1).signExtend 32 * (BitVec.ofNat 8 p.2).signExtend 32) d

/-- A complex element of a word: real, imaginary. -/
def complexOf (w : Word) : Fl × Fl :=
  (bf16.value false (w.extractLsb' 0 16).toNat, bf16.value false (w.extractLsb' 16 16).toNat)

/-- R65: the sums of one complex output over pairs of elements. -/
def dotComplex (ps : List ((Fl × Fl) × (Fl × Fl))) : Fl × Fl :=
  ps.foldl (fun acc p =>
    let (ar, ai) := p.1
    let (br, bi) := p.2
    ((acc.1.plus (ar.times br)).plus (ai.times bi).neg, (acc.2.plus (ar.times bi)).plus (ai.times br)))
    (.fin false 0 0 false, .fin false 0 0 false)

/-- The fragments the lattice has read of a member. -/
def Member.fragA (m : Member) : Store 32 := (m.got.map fun g => g.1).getD m.issueA
def Member.fragB (m : Member) : Store 32 := (m.got.map fun g => g.2).getD m.issueB

/-- The member on a partition. -/
def Join.member (j : Join) (part : Nat) : Option Member := j.members.find? fun m => m.part = part

/-- R252, R254: the B columns: elements, values, the member's block scales. -/
def Join.columns (j : Join) : List (List Nat × List Fl × Word) :=
  (List.range 64).map fun n =>
    let c := j.member (n / 16)
    let b := (c.map fun x => fragElems x.fragB 16 (Forms.tyBits j.ty) (n % 16)).getD []
    (b, b.map (j.fmtB.value false), (c.map fun x => x.scaleB).getD 0)

/-- R256: the complex B columns. -/
def Join.complexColumns (j : Join) : List (List (Fl × Fl)) :=
  (List.range 32).map fun n =>
    (List.range 8).map fun k =>
      let c := n + 32 * (k / 4)
      complexOf (((j.member (c / 16)).map fun x => x.fragB.get (k % 4 * 16 + c % 16)).getD 0)

/-- R254: one row of a product over the columns: `old` its words. -/
def Join.row (j : Join) (cols : List (List Nat × List Fl × Word)) (m : Member) (t : Nat) (old : List Word) : List Word :=
  let a := fragElems m.fragA 16 (Forms.tyBits j.ty) t
  let av := a.map (j.fmtA.value false)
  (old.zip cols).map fun p =>
    if j.ty = 6#5 then accumulateInt p.1 a p.2.1
    else if j.ty = 0xE#5 then accumulate p.1 (dotMx av p.2.2.1 m.scaleA p.2.2.2)
    else accumulate p.1 (dot av p.2.2.1)

/-- R256: one row of a complex product: words 2n and 2n + 1 are the parts of column n. -/
def Join.complexRow (cols : List (List (Fl × Fl))) (m : Member) (t : Nat) (old : List Word) : List Word :=
  let a := (List.range 8).map fun k => complexOf (m.fragA.get (k * 16 + t))
  cols.zipIdx.flatMap fun p =>
    let r := dotComplex (a.zip p.1)
    [accumulate ((old[2 * p.2]?).getD 0) r.1, accumulate ((old[2 * p.2 + 1]?).getD 0) r.2]

/-! ### Rows -/

/-- R260: a row scaled. -/
def scaleRow (f : Word) (row : List Word) : List Word :=
  row.map fun x => BitVec.ofNat 32 (rne32 ((val32 x.toNat).times (val32 f.toNat)))

/-- R279: a row divided by l. -/
def divideRow (l : Word) (row : List Word) : List Word :=
  if l &&& 0x7FFFFFFF = 0 then row.map fun _ => 0
  else row.map fun x => BitVec.ofNat 32 (rne32 (Fl.div (val32 x.toNat) (val32 l.toNat)).1)

/-! ### The soft maximum (R66) -/

def negInf : Nat := 0xFF800000
def one32 : Nat := 0x3F800000

/-- The larger of two f32 values that are not NaN, −0 below +0; a NaN of either is canonical. -/
def maxState (a b : Nat) : Nat :=
  if f32.isNan a || f32.isNan b then f32.nan
  else if (val32 a).lt (val32 b) then b
  else if (val32 b).lt (val32 a) then a
  else if f32.sign a then b else a

/-- R66: FEXP2 of a difference. -/
def expDiff (a b : Nat) : Nat := rne32 (Fl.exp2 (val32 (rne32 ((val32 a).plus (val32 b).neg))))

/-- What SMXU makes of one row: m′, l′, α and the row of P. -/
structure SoftRow where
  m : Nat
  l : Nat
  a : Nat
  p : List Nat
  deriving DecidableEq, Repr

/-- R66. -/
def softRow (c m l : Nat) (masked : Nat → Bool) (s : List Word) : SoftRow :=
  let t := s.zipIdx.map fun p =>
    if masked p.2 then negInf else rne32 ((val32 p.1.toNat).times (val32 c))
  let m' := t.foldl maxState m
  let p := t.zipIdx.map fun x =>
    if masked x.2 then 0
    else if f32.isNan m' then bf16.nan
    else rneBf (val32 (expDiff x.1 m'))
  let a := if f32.isNan m' then f32.nan else if m = negInf ∧ m' = negInf then one32 else expDiff m m'
  let sum := if f32.isNan m' then f32.nan
    else rne32 (p.foldl (fun (x : Fl) y => x.plus (bf16.value false y)) (.fin false 0 0 false))
  { m := m', a := a, p := p
    l := rne32 ((val32 (rne32 ((val32 l).times (val32 a)))).plus (val32 sum)) }

end Sys2Proof.Machine
end

