-- ==== Sys2Proof/Machine/Lattice.lean ====
section
/-! DEFINITION. The lattice's instructions: groups 0xD and the tile instructions of 0xE (spec/19 R246 to R261, spec/21
R271, R277 to R279). -/

namespace Sys2Proof.Machine
open Sys2Proof.Forms

/-! ### Ownership (R247, R248) -/

/-- Change the lattice of a core. -/
def State.onLattice (s : State) (core : Nat) (g : Lattice → Lattice) : State :=
  s.onCore core fun c => { c with lattice := g c.lattice }

/-- R247: the states of a workgroup for its core's lattice. -/
inductive Owning
  | none | queued | owner
  deriving DecidableEq, Repr

def State.owning (s : State) (core w : Nat) : Owning :=
  let l := (s.core core).lattice
  if l.owner = some w then .owner else if l.queue.contains w then .queued else .none

/-- R246: whether the sheaf's kernel was assembled with `.lattice`. -/
def State.latticeKernel (s : State) (h : Home) : Bool :=
  match h with
  | .wg w => ((s.wg? w).map fun g => g.lat).getD false
  | .block _ => false

/-- R247, R248: MXACQ joins the queue; of a free lattice whose queue was empty the workgroup is the next owner. -/
def mxacqBody (i : Iss) (s : State) : Eff :=
  let w := i.sh.home.wgId
  if !s.latticeKernel i.sh.home then i.illop s
  else
    match s.owning i.sh.core w with
    | .none => .done ((s.onLattice i.sh.core fun l => { l with queue := l.queue ++ [w] }).chooseOwner i.sh.core)
    | _ => .done s

def execMxacq (f : Fields) (s : State) := issue rowMxacq f mxacqBody s

/-- R248: MXREL leaves the queue, or gives the lattice up. -/
def mxrelBody (i : Iss) (s : State) : Eff :=
  if !s.latticeKernel i.sh.home then i.illop s else .done (s.freeLattice i.sh.home.wgId)

def execMxrel (f : Fields) (s : State) := issue rowMxrel f mxrelBody s

/-! ### Acceptance (R250) -/

/-- Put an operation among the accepted ones of a core. -/
def State.acceptTile (s : State) (core : Nat) (t : Tiled) : State :=
  s.onLattice core fun l => { l with ops := l.ops ++ [t] }

/-- A tile instruction other than LMMA: ILLOP with no `.lattice` or no ownership, then its own checks, also those of R261
(log 123), a wait for ownership, and acceptance. -/
def Iss.tileOp (i : Iss) (s : State) (check : Option Trap) (start : State → Eff) : Eff :=
  if !s.latticeKernel i.sh.home then i.illop s
  else
    match s.owning i.sh.core i.sh.home.wgId with
    | .none => i.illop s
    | o =>
      match check with
      | some t => .trap (i.walkReport s t) t
      | none => if o = .owner then start s else .stall s

/-- An accepted operation that counts on nothing. -/
def Iss.acceptPlain (i : Iss) (tile : Nat) (op : TileOp) (s : State) : Eff :=
  let (n, s) := s.newId
  .done (s.acceptTile i.sh.core
    { id := n, tile := tile, sheaf := i.k, wg := i.sh.home.wgId, pc := i.sh.pc, op := op })

/-- R245: the rows of threads of a mask. -/
def Iss.rows (i : Iss) (m : Mask) : List Nat := (active m).map fun t => 16 * i.sh.part + t

/-! ### LMMA (R251 to R258) -/

/-- The quad of a sheaf, and its sheafs. -/
def Sheaf.quad (sh : Sheaf) : Nat := sh.shid / 4
def State.quadSheafs (s : State) (sh : Sheaf) : List Sheaf :=
  (s.sheafs.filter fun e => e.2.home = sh.home && e.2.quad = sh.quad).map fun e => e.2

/-- The registers a member supplies, at issue, by register·16 + thread. -/
def Sheaf.fragment (sh : Sheaf) (slot n : Nat) : Store 32 :=
  (List.range (16 * n)).foldl (fun (st : Store 32) x => st.set x (sh.readV (slot + x / 16) (x % 16))) []

/-- R255: the scales of a member, read at issue. -/
def Iss.scale (i : Iss) (j : Nat) : Word := if i.f.ty = 0xE#5 then i.sh.readS (i.f.d.toNat - 0x60 + j) else 0

/-- The member an LMMA makes. -/
def Iss.member (i : Iss) : Member :=
  let na := if mmCplx i.f then 8 else 16
  let nb := if mmCplx i.f then 4 else 16
  let ra := i.sh.vslot i.f.b.toNat
  let rb := i.sh.vslot i.f.c.toNat
  { sheaf := i.k, part := i.sh.part, mask := i.m, nor := mmNor i.f, aReg := ra, bReg := rb, scaleA := i.scale 0
    scaleB := i.scale 1, issueA := i.sh.fragment ra na, issueB := i.sh.fragment rb nb, got := none }

/-- Whether an LMMA has the shape of an open join (R253). -/
def Join.fits (j : Join) (f : Fields) : Bool :=
  j.tile = Forms.tile f && j.ty = f.ty && j.cplx = mmCplx f && j.bf = mmBf f

/-- R253: accept every complete join of a workgroup that owns its lattice, in the order in which the joins were opened (log 122);
all their members become ready. -/
def State.acceptJoins (s : State) (core w : Nat) : State :=
  match s.wg? w with
  | none => s
  | some g =>
    let full := g.joins.filter fun j => 4 ≤ j.members.length
    let s := s.onWg w fun x => { x with joins := x.joins.filter fun j => j.members.length < 4 }
    let t := full.foldl (fun s j =>
      let (n, s) := s.newId
      let pc := ((j.members.head?.bind fun m => s.sheaf? m.sheaf).map fun t => t.pc).getD 0
      s.acceptTile core { id := n, tile := j.tile, sheaf := 0, wg := w, pc := pc, op := .product j }) s
    t.endWaits ((full.flatMap fun j => j.members.map fun m => m.sheaf).filter fun k =>
      ((t.sheaf? k).bind Sheaf.waitsFor) = some .join) false

/-- R251, R253: the checks of check 8, the join, and acceptance or the wait. -/
def lmmaBody (i : Iss) (s : State) : Eff :=
  let quad := s.quadSheafs i.sh
  let w := i.sh.home.wgId
  let open_ := ((s.wg? w).map fun g => g.joins).getD [] |>.find? fun j => j.quad = i.sh.quad && j.members.length < 4
  if !s.latticeKernel i.sh.home then i.illop s
  else if quad.length < 4 then i.illop s
  else if quad.any fun t => t.status = .exited then i.illop s
  else if s.owning i.sh.core w = .none then i.illop s
  else if (open_.map fun j => j.fits i.f) = some false then i.illop s
  else if 63 ≤ i.sh.mx then .stall s
  else
    let s := s.onSheaf i.k fun t => t.incr .mx
    let s := s.onWg w fun g =>
      { g with joins :=
          match open_ with
          | none => g.joins ++ [{ quad := i.sh.quad, tile := tile i.f, ty := i.f.ty, cplx := mmCplx i.f, bf := mmBf i.f
                                  members := [i.member] }]
          | some _ => g.joins.map fun j =>
              if j.quad = i.sh.quad ∧ j.members.length < 4 then { j with members := j.members ++ [i.member] } else j }
    let complete : Bool := match open_ with | none => false | some j => j.members.length = 3
    if complete ∧ s.owning i.sh.core w = .owner then .done (s.acceptJoins i.sh.core w) else .wait s .join

def execLmma (f : Fields) (s : State) := issue rowLmma f lmmaBody s

/-! ### Row instructions (R259, R260) -/

def lmzBody (i : Iss) (s : State) : Eff := i.tileOp s none (i.acceptPlain (tile i.f) (.lmz (i.rows i.m)))

def execLmz (f : Fields) (s : State) := issue rowLmz f lmzBody s

/-- CG of LMLD and LMST. -/
def colGroup (f : Fields) : Nat := (f.imm.extractLsb' 4 2).toNat

/-- R259: the registers are read at issue; words by row·16 + q. -/
def lmldBody (i : Iss) (s : State) : Eff :=
  let vals := (active i.m).foldl (fun (st : Store 32) t =>
    (List.range 16).foldl (fun (st : Store 32) q =>
      st.set ((16 * i.sh.part + t) * 16 + q) (i.sh.readV (i.sh.vslot i.f.a.toNat + q) t)) st) []
  i.tileOp s none (i.acceptPlain (tile i.f) (.lmld (i.rows i.m) (colGroup i.f) vals))

def execLmld (f : Fields) (s : State) := issue rowLmld f lmldBody s

/-- R259: counts on LD. -/
def lmstBody (i : Iss) (s : State) : Eff :=
  i.tileOp s none fun s =>
    if i.sh.full .lmst then .stall s
    else
      let (n, s) := s.newId
      let accs := (active i.m).map fun t =>
        { thread := t, va := 0, loc := { tier := 0, peer := 0, addr := 0 }, lh := 0, x := 0, e := 0 : Access }
      let o : Op := { i.newOp s .lmst 0 0 0 false accs with dest := .v (i.sh.vslot i.f.a.toNat), words := 16 }
      let s := { s with ops := s.ops ++ [(n, o)] }
      let s := s.onSheaf i.k fun t => t.countLd n
      .done (s.acceptTile i.sh.core
        { id := n, tile := tile i.f, sheaf := i.k, wg := i.sh.home.wgId, pc := i.sh.pc
          op := .lmst n (i.rows i.m) (colGroup i.f) })

def execLmst (f : Fields) (s : State) := issue rowLmst f lmstBody s

/-- R260: factors by row. -/
def lmsclBody (i : Iss) (s : State) : Eff :=
  let alpha := i.f.imm.getLsbD 4
  let fs := if alpha then [] else (active i.m).foldl (fun (st : Store 32) t =>
    st.set (16 * i.sh.part + t) (i.sh.read32 i.f i.f.b t)) []
  i.tileOp s none (i.acceptPlain (tile i.f) (.lmscl (i.rows i.m) alpha fs))

def execLmscl (f : Fields) (s : State) := issue rowLmscl f lmsclBody s

/-! ### LMSAV and LMRST (R261) -/

/-- The pitch; 0 means 256. -/
def Iss.pitch (i : Iss) : Nat := if i.c32 0 = 0 then 256 else i.c32 0

/-- The base: a global address, or a scratchpad offset. -/
def Iss.tileBase (i : Iss) : Nat := if i.f.imm.getLsbD 4 then i.b32 0 else (i.sh.read64 i.f i.f.b 0).toNat

/-- R261: an address in each page of the 64 rows. -/
def Iss.tilePages (i : Iss) : List Nat :=
  (List.range 64).flatMap fun r => (pagesOf (i.tileBase + r * i.pitch) 256).map fun q => q.2.1

/-- R261: checks 1 to 4 of issue, in order; of a check that the base and the hurdle offset both fail, the base is named (log 134). -/
def Iss.tileForm (i : Iss) (s : State) (acc : Nat) : Option Trap :=
  let sp := i.f.imm.getLsbD 4
  let p := i.pitch
  let b := i.tileBase
  let h := (i.sh.read32 i.f i.f.d 0).toNat
  let size := s.spsz i.sh.home
  let em := i.sh.em
  let at_ (a : Nat) : DWord := BitVec.ofNat 64 a
  if p % 16 ≠ 0 ∨ p < 256 then some { cause := .illop, mask := em, ta := (baseWord i.row.op i.f).zeroExtend 64 }
  else if b % 16 ≠ 0 then some { cause := .align, acc := acc, mask := em, ta := at_ b, scratch := sp }
  else if h % 16 ≠ 0 then some { cause := .align, mask := em, ta := at_ h, scratch := true }
  else if sp ∧ (2 ^ 31 ≤ b ∨ size < b + 63 * p + 256) then
    some { cause := .xlate, det := 2, acc := acc, mask := em, ta := at_ b, scratch := true }
  else if 2 ^ 31 ≤ h ∨ size < h + 16 then some { cause := .xlate, det := 2, mask := em, ta := at_ h, scratch := true }
  else none

/-- R261: the checks of issue, in order; of several pages that fail one check, the first in row order is named (log 134). -/
def Iss.tileCheck (i : Iss) (s : State) (use : Use) (acc : Nat) : Option Trap :=
  let em := i.sh.em
  let at_ (a : Nat) : DWord := BitVec.ofNat 64 a
  match i.tileForm s acc with
  | some t => some t
  | none =>
    if i.f.imm.getLsbD 4 then none
    else
    let xs := i.tilePages.map fun va => (va, s.xlate false i.sh.core i.sh.ctx va use)
    match xs.findSome? fun x => match x.2 with | .fail c d => some (x.1, c, d) | .ok .. => none with
    | some (va, c, d) => some { cause := c, det := d, acc := acc, mask := em, ta := at_ va }
    | none =>
      match xs.findSome? fun x => match x.2 with | .ok leaf _ _ _ => (permFail leaf use).map fun d => (x.1, d) | _ => none with
      | some (va, d) => some { cause := .prot, det := d, acc := acc, mask := em, ta := at_ va }
      | none => none

/-- R261: whether a whole-tile move comes to walk pages. -/
def Iss.tileWalks (i : Iss) (s : State) (acc : Nat) : Bool :=
  s.latticeKernel i.sh.home && s.owning i.sh.core i.sh.home.wgId ≠ .none && !i.f.imm.getLsbD 4 && (i.tileForm s acc).isNone

/-- R250, R261: a whole-tile move is accepted at issue. -/
def Iss.tileMove (i : Iss) (s : State) (use : Use) (acc : Nat) (kind : EngKind) (op : Nat → TileOp) : Eff :=
  i.walking s use (if i.tileWalks s acc then i.tilePages else []) <|
  i.tileOp s (i.tileCheck s use acc) fun s =>
    if s.acquiring i.k then .stall s
    else
      let (n, s) := s.newId
      let g : Eng :=
        { i.newEng s kind with
          accepted := true, base := i.tileBase, pitch := i.pitch, sp := i.f.imm.getLsbD 4
          hurdle := (i.sh.read32 i.f i.f.d 0).toNat }
      let s := { s with engs := s.engs ++ [(n, g)] }
      .done (s.acceptTile i.sh.core
        { id := n, tile := tile i.f, sheaf := i.k, wg := i.sh.home.wgId, pc := i.sh.pc, op := op n })

def lmsavBody (i : Iss) (s : State) : Eff := i.tileMove s .store accStore (.lmsav (tile i.f)) .lmsav

def execLmsav (f : Fields) (s : State) := issue rowLmsav f lmsavBody s

def lmrstBody (i : Iss) (s : State) : Eff := i.tileMove s .load accLoad (.lmrst (tile i.f)) .lmrst

def execLmrst (f : Fields) (s : State) := issue rowLmrst f lmrstBody s

/-! ### Soft maximum (R277 to R279) -/

/-- R277: the sinks are read at acceptance, after the sheaf's own scratchpad writes. -/
def smxiBody (i : Iss) (s : State) : Eff :=
  let sink := i.f.imm.getLsbD 4
  let b := i.b32 0
  let check : Option Trap :=
    if !sink then none
    else if b % 4 ≠ 0 then
      some { cause := .align, acc := accLoad, mask := i.sh.em, ta := BitVec.ofNat 64 b, scratch := true }
    else if 2 ^ 31 ≤ b ∨ s.spsz i.sh.home < b + 64 then
      some { cause := .xlate, det := 2, acc := accLoad, mask := i.sh.em, ta := BitVec.ofNat 64 b, scratch := true }
    else none
  i.tileOp s check fun s =>
    if s.usingScratch i.k ∨ s.acquiring i.k then .stall s
    else
      let words := (active i.sh.em).foldl (fun (st : Store 32) t =>
        st.set (16 * i.sh.part + t) (s.spWord i.sh.home (b + 4 * t))) []
      i.acceptPlain (tile i.f) (.smxi (i.rows i.sh.em) (if sink then some words else none)) s

def execSmxi (f : Fields) (s : State) := issue rowSmxi f smxiBody s

/-- R278: the checks of SMXU. -/
def Iss.smxuCheck (i : Iss) (s : State) : Option Trap :=
  let c := i.c32 0
  let d := (i.sh.read32 i.f i.f.d 0).toNat
  let mo := (i.sh.readS i.f.a.toNat).toNat
  let m2 : Bool := smMask i.f = 2
  let size := s.spsz i.sh.home
  let bad (cause : Cause) (acc a : Nat) : Option Trap :=
    some { cause := cause, det := if cause = .xlate then 2 else 0, acc := acc, mask := i.sh.em, ta := BitVec.ofNat 64 a
           scratch := true }
  if c % 16 ≠ 0 then bad .align accStore c
  else if d % 16 ≠ 0 then bad .align 0 d
  else if m2 ∧ mo % 8 ≠ 0 then bad .align accLoad mo
  else if 2 ^ 31 ≤ c ∨ size < c + 2048 then bad .xlate accStore c
  else if 2 ^ 31 ≤ d ∨ size < d + 16 then bad .xlate 0 d
  else if m2 ∧ (2 ^ 31 ≤ mo ∨ size < mo + 128) then bad .xlate accLoad mo
  else none

/-- R278: all operands read at issue, mask words at acceptance. -/
def smxuBody (i : Iss) (s : State) : Eff :=
  i.tileOp s (i.smxuCheck s) fun s =>
    if s.usingScratch i.k ∨ s.acquiring i.k then .stall s
    else
      let mo := (i.sh.readS i.f.a.toNat).toNat
      let masks := if smMask i.f ≠ 2 then [] else (active i.sh.em).foldl (fun (st : Store 64) t =>
        st.set t (BitVec.ofNat 64 (leNat (s.spRead i.sh.home (mo + 8 * t) 8)))) []
      i.acceptPlain (smTs i.f) (.smxu (i.rows i.sh.em) (smTo i.f) (smNo i.f) (smMask i.f) (i.sh.readS i.f.a.toNat)
        (i.sh.readS (i.f.a.toNat + 1)) (i.f.imm.getLsbD 10) (i.sh.read32 i.f i.f.b 0) (i.c32 0)
        (i.sh.read32 i.f i.f.d 0).toNat masks) s

def execSmxu (f : Fields) (s : State) := issue rowSmxu f smxuBody s

/-- R279. -/
def smxnBody (i : Iss) (s : State) : Eff := i.tileOp s none (i.acceptPlain (tile i.f) (.smxn (i.rows i.sh.em)))

def execSmxn (f : Fields) (s : State) := issue rowSmxn f smxnBody s

end Sys2Proof.Machine
end

