-- ==== Sys2Proof/Machine/LatticeEvents.lean ====
section
/-! DEFINITION. The events of the lattice (spec/19 R247 to R262, spec/21 R277 to R279): the grant of ownership, the reads
of fragments, products, and the other tile operations in tile order.  An event that is not enabled changes nothing
(log 2). -/

namespace Sys2Proof.Machine

/-! ### Tile words -/

def Lattice.rowWords (l : Lattice) (tile r : Nat) : List Word := l.lam.slice (tile * 4096 + r * 64) 64
def Lattice.setWords (l : Lattice) (tile r c : Nat) (ws : List Word) : Lattice :=
  { l with lam := Store.blit l.lam (tile * 4096 + r * 64 + c) ws }

/-! ### Ownership (R247, R249) -/

/-- R249: what earlier owners of a context left in the tiles, and what the others left. -/
def Lattice.leftOf (l : Lattice) (ctx : Nat) : Tiles × Table Tiles :=
  let now : Tiles := { lam := l.lam, rowM := l.rowM, rowL := l.rowL, rowA := l.rowA }
  if l.lastCtx = some ctx then (now, l.left)
  else ((l.left.get? ctx).getD {}, match l.lastCtx with | some c => l.left.put c now | none => l.left)

/-- R249: of the words left, those that a new owner finds; +0 in place of the others. -/
def Tiles.carried (t : Tiles) (c : Carry) : Tiles :=
  match c with
  | .keepAll => t
  | .zeroAll => {}
  | .zeroWords ws =>
    ws.foldl (fun t w =>
      if w < 65536 then { t with lam := t.lam.set w 0 }
      else if w < 66560 then { t with rowM := t.rowM.set (w - 65536) 0 }
      else if w < 67584 then { t with rowL := t.rowL.set (w - 66560) 0 }
      else { t with rowA := t.rowA.set (w - 67584) 0 }) t

/-- R249: what the tiles hold for a new owner: words earlier owners of its context left, or +0. -/
def Lattice.pass (l : Lattice) (ctx : Nat) (c : Carry) : Lattice :=
  let (mine, others) := l.leftOf ctx
  let t := mine.carried c
  { l with lam := t.lam, rowM := t.rowM, rowL := t.rowL, rowA := t.rowA, left := others }

/-- R247, R249: LATTICE_GRANT, when nobody owns the lattice and every accepted operation is performed: the workgroup chosen
when the lattice became free receives it. -/
def execLatticeGrant (core : Nat) (carry : Carry) (s : State) : Host.Outcome State Fault Refusal :=
  let l := (s.core core).lattice
  if l.owner ≠ none ∨ l.ops ≠ [] then .next s
  else
    match l.next.bind fun w => (s.wg? w).map fun g => (w, g.ctx) with
    | none => .next s
    | some (w, ctx) =>
      let s := s.onLattice core fun l =>
        { l.pass ctx carry with owner := some w, next := none, queue := l.queue.filter (· ≠ w) }
      .next (s.acceptJoins core w)

/-! ### Tile order (R250) -/

/-- The tiles an operation reads or writes, row state included. -/
def Tiled.tiles (t : Tiled) : List Nat :=
  match t.op with
  | .smxu _ dst no _ _ _ _ _ _ _ _ | .smxp _ dst no _ _ _ => t.tile :: (List.range (no + 1)).map fun k => dst + k
  | _ => [t.tile]

/-- R250: the accepted operations with no earlier one on a tile of theirs. -/
def startable : List Nat → List Tiled → List Tiled
  | _, [] => []
  | busy, t :: rest =>
    let more := startable (busy ++ t.tiles) rest
    if t.tiles.any busy.contains then more else t :: more

/-- An accepted product. -/
def Tiled.join? (t : Tiled) : Option Join := match t.op with | .product j => some j | _ => none

/-- The product the lattice works on next. -/
def State.nextProduct (s : State) (core : Nat) : Option (Tiled × Join) :=
  (startable [] (s.core core).lattice.ops).findSome? fun t => t.join?.map fun j => (t, j)

/-- Replace or remove an accepted operation. -/
def State.setTiled (s : State) (core id : Nat) (op : TileOp) : State :=
  s.onLattice core fun l => { l with ops := l.ops.map fun t => if t.id = id then { t with op := op } else t }
def State.dropTiled (s : State) (core id : Nat) : State :=
  (s.onLattice core fun l => { l with ops := l.ops.filter fun t => t.id ≠ id }).chooseOwner core

/-! ### LMMA_FRAGMENT_READ (R257) -/

/-- R257: the fragments as the lattice reads them: per register and thread, the value at issue where `stale` says so (B
registers from 16 up), else the register. -/
def Member.take (m : Member) (cplx : Bool) (stale : List (Nat × Nat)) (sh : Option Sheaf) : Member :=
  let get (issue : Store 32) (slot b n : Nat) : Store 32 :=
    (List.range (16 * n)).foldl (fun (st : Store 32) x =>
      let v := match sh with
        | some t => if stale.contains (b + x / 16, x % 16) then issue.get x else t.readV (slot + x / 16) (x % 16)
        | none => issue.get x
      st.set x v) []
  { m with got := some (get m.issueA m.aReg 0 (if cplx then 8 else 16), get m.issueB m.bReg 16 (if cplx then 4 else 16)) }

def execLmmaFragmentRead (core member : Nat) (stale : List (Nat × Nat)) (s : State) : Host.Outcome State Fault Refusal :=
  match s.nextProduct core with
  | none => .next s
  | some (t, j) =>
    match j.members[member]? with
    | none => .next s
    | some m =>
      if m.got.isSome then .next s
      else
        let m2 := m.take j.cplx stale (s.sheaf? m.sheaf)
        let j2 := { j with members := j.members.map fun x => if x.sheaf = m.sheaf then m2 else x }
        .next ((s.setTiled core t.id (.product j2)).decr m.sheaf .mx)

/-! ### LATTICE_PRODUCT (R254) -/

/-- R254: the product's rows. -/
def Lattice.product (l : Lattice) (j : Join) : Lattice :=
  let cols := if j.cplx then [] else j.columns
  let ccols := if j.cplx then j.complexColumns else []
  j.members.foldl (fun l m =>
    if m.nor then l
    else
      (active m.mask).foldl (fun l t =>
        let r := 16 * m.part + t
        let old := l.rowWords j.tile r
        l.setWords j.tile r 0 (if j.cplx then Join.complexRow ccols m t old else j.row cols m t old)) l) l

def execLatticeProduct (core : Nat) (s : State) : Host.Outcome State Fault Refusal :=
  match s.nextProduct core with
  | none => .next s
  | some (t, j) =>
    if j.members.all fun m => m.got.isSome then
      .next ((s.onLattice core fun l => l.product j).dropTiled core t.id)
    else .next s

/-! ### TILE_OPERATION_PERFORMED (R250, R259 to R261, R277 to R279) -/

/-- R278: whether SMXU masks a column of a row. -/
def smxuMasked (mode : Nat) (qp kp : Word) (qstep : Bool) (masks : Store 64) (t j : Nat) : Bool :=
  if mode = 1 then qp.toInt + (if qstep then (t : Int) else 0) < kp.toInt + j
  else if mode = 2 then (masks.get t).getLsbD j
  else false

/-- R66, R278: one row of SMXU: its state, and the bytes of P. -/
def Lattice.softStep (l : Lattice) (ts dst no mode : Nat) (qp kp : Word) (qstep : Bool) (scale : Word) (masks : Store 64)
    (r : Nat) : Lattice × List Byte :=
  let key := dst * 64 + r
  let x := softRow scale.toNat (l.rowM.get key).toNat (l.rowL.get key).toNat
    (smxuMasked mode qp kp qstep masks (r % 16)) (l.rowWords ts r)
  let l := (List.range (no + 1)).foldl (fun (l : Lattice) k =>
    let key := (dst + k) * 64 + r
    { l with rowM := l.rowM.set key (BitVec.ofNat 32 x.m), rowL := l.rowL.set key (BitVec.ofNat 32 x.l)
             rowA := l.rowA.set key (BitVec.ofNat 32 x.a) }) l
  (l, x.p.flatMap (bytesLe 2))

/-- R278: an SMXU's rows: what they leave in the row state, the operation of which only P is still to be written, the bytes of
P, and the hurdle. -/
def Lattice.soft (l : Lattice) (t : Tiled) : Lattice × TileOp × List (Nat × Byte) × Nat :=
  match t.op with
  | .smxu rows dst no mode qp kp qstep scale p hurdle masks =>
    let x := rows.foldl (fun (x : Lattice × List (Nat × Byte)) r =>
      let (l, bs) := x.1.softStep t.tile dst no mode qp kp qstep scale masks r
      (l, x.2 ++ bs.zipIdx.map fun b => (p + 128 * (r % 16) + b.2, b.1))) (l, [])
    (x.1, .smxp rows dst no p x.2 hurdle, x.2, hurdle)
  | .smxp _ _ _ _ out hurdle => (l, t.op, out, hurdle)
  | op => (l, op, [], 0)

/-- R241: whether bytes of P among these would come amid the elements of another operation that writes there. -/
def State.softMixes (s : State) (t : Tiled) (x : TileOp × List (Nat × Byte) × Nat) : Bool :=
  let ws := s.writers t.wg t.id
  if ws = [] then false
  else
    match { t with op := x.1 }.writer with
    | some me => x.2.1.any fun b => mixesWith me ws (b.1 / 2 * 2, 2)
    | none => false

/-- R241, R282: an SMXU that is first on its tiles writes some bytes of P before the rest. -/
def State.softBytes (s : State) (core op : Nat) (at_ : List Nat) : State :=
  match (startable [] (s.core core).lattice.ops).find? fun t => t.id = op with
  | none => s
  | some t =>
    let (l, x) := (s.core core).lattice.soft t
    let now := x.2.1.filter fun b => at_.contains b.1
    if now = [] || s.softMixes t (x.1, now, x.2.2) then s
    else
      let s := now.foldl (fun (s : State) b => s.spWrite (.wg t.wg) b.1 [b.2]) (s.onLattice core fun _ => l)
      s.setTiled core op (match x.1 with
        | .smxp rows dst no p out h => .smxp rows dst no p (out.filter fun b => !at_.contains b.1) h
        | o => o)

/-- Perform an operation that is first on its tiles. -/
def State.performTile (s : State) (core : Nat) (t : Tiled) : State :=
  let on (g : Lattice → Lattice) : State := (s.onLattice core g).dropTiled core t.id
  match t.op with
  | .product _ => s
  | .lmz rows => on fun l => rows.foldl (fun l r => l.setWords t.tile r 0 (List.replicate 64 0)) l
  | .lmld rows cg vals => on fun l => rows.foldl (fun l r => l.setWords t.tile r (16 * cg) (vals.slice (16 * r) 16)) l
  | .lmst op rows cg =>
    let l := (s.core core).lattice
    let word (x : Nat) : Word :=
      match rows.find? fun r => r % 16 = x / 16 with
      | some r => l.lam.get (t.tile * 4096 + r * 64 + 16 * cg + x % 16)
      | none => 0
    (s.onOp op fun o => { o with res := (List.range 256).map word }).dropTiled core t.id
  | .lmscl rows alpha fs =>
    on fun l => rows.foldl (fun l r =>
      let f := if alpha then l.rowA.get (t.tile * 64 + r) else fs.get r
      l.setWords t.tile r 0 (scaleRow f (l.rowWords t.tile r))) l
  | .lmsav e =>
    let l := (s.core core).lattice
    (s.onEng e fun g => { g with rows := (List.range 64).map fun r => (r, l.rowWords t.tile r), tiled := true }).dropTiled core t.id
  | .lmrst e =>
    match s.engs.get? e with
    | none => s
    | some g =>
      ((s.onLattice core fun l => g.rows.foldl (fun l r => l.setWords t.tile r.1 0 r.2) l).onEng e fun g =>
        { g with tiled := true }).dropTiled core t.id
  | .smxi rows sink =>
    on fun l => rows.foldl (fun l r =>
      let key := t.tile * 64 + r
      let m := match sink with | some ws => ws.get r | none => BitVec.ofNat 32 negInf
      { l with rowM := l.rowM.set key m, rowL := l.rowL.set key (if sink.isSome then BitVec.ofNat 32 one32 else 0)
               rowA := l.rowA.set key (BitVec.ofNat 32 one32) }) l
  | .smxu .. | .smxp .. =>
    let (l, x) := (s.core core).lattice.soft t
    let s := x.2.1.foldl (fun (s : State) b => s.spWrite (.wg t.wg) b.1 [b.2]) (s.onLattice core fun _ => l)
    ((s.dropTiled core t.id).agentArrive t.wg x.2.2 0 t.pc.toNat).stopCalls
  | .smxn rows =>
    on fun l => rows.foldl (fun l r =>
      l.setWords t.tile r 0 (divideRow (l.rowL.get (t.tile * 64 + r)) (l.rowWords t.tile r))) l

/-- R241, R261: whether an operation may be performed once it is first: a whole-tile restore waits for its 64 rows, an SMXU for
what writes amid its P. -/
def State.tileReady (s : State) (core : Nat) (t : Tiled) : Bool :=
  match t.op with
  | .product _ => false
  | .smxu .. | .smxp .. => !s.softMixes t ((s.core core).lattice.soft t).2
  | .lmrst e => ((s.engs.get? e).map fun g => decide (64 ≤ g.rows.length)).getD false
  | _ => true

def execTileOperationPerformed (core op : Nat) (s : State) : Host.Outcome State Fault Refusal :=
  match (startable [] (s.core core).lattice.ops).find? fun t => t.id = op with
  | none => .next s
  | some t => .next (if s.tileReady core t then s.performTile core t else s)

end Sys2Proof.Machine
end

