-- ==== Sys2Proof/Machine/EngineEvents.lean ====
section
/-! DEFINITION. The events of the engines (spec/17 R229 to R243, spec/19 R261, spec/21 R273, spec/29 R355, R356): requests
are accepted, pieces moved and credited, reductions applied, faults taken.  An event that is not enabled changes nothing
(log 2). -/

namespace Sys2Proof.Machine

/-! ### ENGINE_ACCEPT (R229) -/

/-- The first request of a core that no engine has accepted. -/
def State.nextRequest (s : State) (core : Nat) : Option (Nat × Eng) :=
  s.engs.find? fun e => e.2.core = core && !e.2.accepted

/-- R187: whether an operation reads scratchpad: its indices at acceptance, its source. -/
def Eng.readsScratch (g : Eng) : Bool :=
  match g.kind with
  | .bcpy _ st => st && g.accepted
  | .gath _ => !g.accepted
  | .scat => true
  | .lmrst _ => g.sp
  | .acpy _ | .kvld _ | .xred _ _ | .lmsav _ => false

/-- R187: one that reads scratchpad sees every scratchpad write of the sheaf that precedes it. -/
def State.requestReady (s : State) (n : Nat) (g : Eng) : Bool :=
  !g.readsScratch || s.ops.all fun e => e.2.sheaf ≠ g.sheaf || n < e.1 || !(e.2.kind.scratch && e.2.kind.writes)

/-- R229: a block register as it stands. -/
def State.blockReg (s : State) (g : Eng) (j : Nat) : Word :=
  match s.sheaf? g.sheaf with
  | some sh => sh.s.get (sKey g.lvl (g.reg + j))
  | none => (g.blk[j]?).getD 0

/-- R229: a block register reads as the engine has read it before, else as its value at issue where its bit of `stale` is
1, else as it stands. -/
def State.readBlock (s : State) (g : Eng) (stale : Byte) : List Word :=
  (List.range 8).map fun j =>
    match g.got.get? j with
    | some w => w
    | none => if stale.getLsbD j then (g.blk[j]?).getD 0 else s.blockReg g j

/-- R229: an engine reads one register of a queued request's block. -/
def State.readReg (s : State) (id j : Nat) : State :=
  s.onEng id fun g => if g.accepted ∨ 8 ≤ j ∨ (g.got.get? j).isSome then g else { g with got := g.got.put j (s.blockReg g j) }

/-- How many pieces an accepted operation has: bytes, elements, rows, one pool. -/
def Eng.total (g : Eng) : Nat :=
  match g.kind with
  | .acpy _ => 32 * g.acpys.length
  | .bcpy _ _ => (tmplOf g.words).elems
  | .gath true => 1
  | .gath false => (g.words.length - 8) * g.desc.width
  | .scat => g.words.length - 8
  | .kvld _ => 16
  | .lmsav _ | .lmrst _ => 64
  | .xred _ _ => 0

/-- R238: an operation that accesses and credits nothing. -/
def Eng.empty (g : Eng) : Bool := match g.kind with | .xred _ _ => false | _ => g.total = 0

/-! What an operation waits for is kept by its parts: a piece by its number, the drop counter, and a word read ahead, or an add
of a SCAT, by its piece or row and its place there. -/

def dropPart : Nat := 2 ^ 40
def wordPart (p w : Nat) : Nat := 2 ^ 41 + p * 2 ^ 20 + w
def partOf (lo n x : Nat) : Bool :=
  (lo ≤ x && x < lo + n) || (2 ^ 41 + lo * 2 ^ 20 ≤ x && x < 2 ^ 41 + (lo + n) * 2 ^ 20)

/-- R350, R353: what a part waits for, with the pages that it has waited for before, and since when it waits for another
device. -/
def Eng.waiting (g : Eng) (p : Nat) (ws : List WaitOn) (clk : Nat) : Eng :=
  { g with
    waits := (ws.map fun w => (p, w)) ++ g.waits.filter fun w => w.1 ≠ p || (w.2.onPage && !ws.contains w.2)
    asked := if ws.any WaitOn.onPeer && (g.asked.get? p).isNone then g.asked.put p clk else g.asked }

/-- A part of an operation waits. -/
def State.engWaits (s : State) (id p : Nat) (ws : List WaitOn) : State :=
  (s.fillBlocks ws).onEng id fun g => g.waiting p ws (s.core g.core).clk

/-- R350, R353: parts that have been served wait no more. -/
def Eng.settled (g : Eng) (done : Nat → Bool) : Eng :=
  { g with waits := g.waits.filter fun w => !done w.1, asked := g.asked.filter fun w => !done w.1 }

/-- R353: whether an answer of another device comes too late for one of `n` pieces from `lo`: they then take none.  A GATH that
pools has one piece. -/
def State.engLate (s : State) (g : Eng) (lo n : Nat) (data : List Byte) : Bool :=
  data ≠ [] && g.asked.any fun a =>
    2 ^ 22 < (s.core g.core).clk - a.2 && (g.kind = .gath true || partOf lo n a.1)

/-- R229, R242: the engine reads the block, EN falls, and the checks are made; a failing check is a fault to be taken.
An operation without pieces, a gather or a scatter of no rows, is done at once (R238). -/
def execEngineAccept (core : Nat) (stale : Byte) (data : List Byte) (s : State) : Host.Outcome State Fault Refusal :=
  match s.nextRequest core with
  | none => .next s
  | some (n, g) =>
    if !s.requestReady n g || g.fault.isSome || s.engLate g 0 1 data then .next s
    else
      let g := { g with accepted := true, blk := s.readBlock g stale, waits := [], asked := [] }
      match s.accept g data with
      | .held ws => .next (s.engWaits n 0 ws)
      | .fault s c a => .next ((s.onEng n fun _ => g.faulted c a).decr g.sheaf .en)
      | .ok s g =>
        let s := if g.empty then { s with engs := s.engs.del n } else s.onEng n fun _ => g
        .next (s.decr g.sheaf .en)

/-! ### ENGINE_CREDIT (R240) -/

/-- How many pieces are done. -/
def Eng.count (g : Eng) : Nat := g.pieces.foldl (fun a r => a + r.2) 0

/-- Whether a range of pieces is new. -/
def Eng.fresh (g : Eng) (lo n : Nat) : Bool :=
  0 < n && lo + n ≤ g.total && g.pieces.all fun r => lo + n ≤ r.1 || r.1 + r.2 ≤ lo

/-- R238: whether every element of a row is copied; the rows that `n` elements from `lo` complete. -/
def Eng.rowDone (g : Eng) (j : Nat) : Bool := (List.range g.desc.width).all fun e => g.has (j * g.desc.width + e)
def Eng.newRows (g : Eng) (lo n : Nat) : List Nat :=
  ((List.range (n / g.desc.width + 2)).map fun i => lo / g.desc.width + i).filter fun j =>
    j * g.desc.width < lo + n && !g.credited.contains j && g.rowDone j

/-- R234, R238, R239, R261, R273: the bytes of each Credit that `n` pieces from `lo` bring, merged where the rules allow it. -/
def Eng.credits (g : Eng) (lo n : Nat) : List Nat :=
  match g.kind with
  | .acpy _ | .xred _ _ => []
  | .bcpy _ _ => [n * (tmplOf g.words).e]
  | .gath true => [4 * g.desc.width]
  | .gath false => (g.newRows lo n).map fun _ => g.desc.rbytes
  | .scat => List.replicate n g.desc.rbytes
  | .kvld _ => [n * (2 * g.base)]
  | .lmsav _ | .lmrst _ => [n * 256]

/-- R240, R219: credits one after another, until one ends the workgroup. -/
def State.creditAll (s : State) (w h pc : Nat) : List Nat → State
  | [] => s
  | b :: rest =>
    let t := s.agentCredit w h b pc
    if ((t.wg? w).map fun x => x.terminated).getD true then t else State.creditAll t w h pc rest

/-- R261: one row of a whole-tile save, or one byte of it. -/
def State.saveRow (s : State) (g : Eng) (r : Nat) (one : Option Nat) (data : List Byte) : Met (Eng × List Byte) :=
  let (lo, len) := extent one 256
  let bs := ((((g.rows.get? r).getD []).flatMap bytesOf).drop lo).take len
  if g.sp then .ok (s.putPart g r (g.base + r * g.pitch) lo bs) (g, data)
  else (s.storePart g r (g.base + r * g.pitch) lo bs).andThen fun s _ => .ok s (g, data)

/-- R261: one row a whole-tile restore reads. -/
def State.restoreRow (s : State) (g : Eng) (r : Nat) (data : List Byte) : Met (Eng × List Byte) :=
  let at_ := g.base + r * g.pitch
  let put (g : Eng) (bs : List Byte) : Eng := { g with rows := g.rows.put r (toWords 64 bs) }
  if g.sp then let (h, bs) := s.srcScratch g at_ 256; .ok s (put h bs, data)
  else (s.srcBytes g r at_ 256 data).andThen fun s x => .ok s (put x.1 x.2.1, x.2.2)

/-- One piece, or one byte of it, before its credit. -/
def State.movePiece (s : State) (g : Eng) (p : Nat) (one : Option Nat) (data : List Byte) : Met (Eng × List Byte) :=
  match g.kind with
  | .acpy _ => s.copyByte g p data
  | .bcpy _ st => s.moveElement g st p one data
  | .gath true => s.gatherPool g one data
  | .gath false => s.gatherElement g p one data
  | .kvld v => s.kvldRow g v p one data
  | .lmsav _ => s.saveRow g p one data
  | .scat | .lmrst _ | .xred _ _ => .ok s (g, data)

/-- Parts of an operation, one after another; of one that is not served, also which it is. -/
def runParts {α β : Type} (f : State → α → β → Met α) (s : State) (x : α) : List β → Option β × Met α
  | [] => (none, .ok s x)
  | p :: ps =>
    match f s x p with
    | .ok s x => runParts f s x ps
    | m => (some p, m)

/-- R239: every add of a row is applied or acknowledged. -/
def Eng.rowApplied (g : Eng) (j : Nat) : Bool :=
  g.dropsRow j || (List.range g.desc.width).all fun e => g.applied.contains (j * g.desc.width + e)

/-- Whether pieces may be moved and credited now. -/
def Eng.mayCredit (g : Eng) (lo n : Nat) : Bool :=
  g.accepted && g.fault = none && g.fresh lo n
    && (match g.kind with
      | .scat => (List.range n).all fun j => g.rowApplied (lo + j)
      | .lmsav _ | .lmrst _ => g.tiled
      | .xred _ _ => false
      | _ => true)

/-- R241: the elements in scratchpad that a piece writes, or, of an ACPY, writes into: the first address and the size of each. -/
def Eng.elementsOf (g : Eng) (p : Nat) : List (Nat × Nat) :=
  let run (a w n : Nat) : List (Nat × Nat) := (List.range n).map fun i => (a + w * i, w)
  match g.kind with
  | .acpy _ => ((g.acpys[p / 32]?).map fun c => (c.dst, 32)).toList
  | .bcpy _ false => [((g.element p).1, (tmplOf g.words).e)]
  | .gath true => run (g.blkN 4) 4 g.desc.width
  | .gath false => if g.dropsRow (p / g.desc.width) then [] else [((g.gathered p).1, g.desc.size)]
  | .kvld _ => run (g.blkN 3 + p * g.blkN 4) 2 g.base
  | .lmsav _ => if g.sp then run (g.base + p * g.pitch) 4 64 else []
  | .bcpy _ true | .scat | .lmrst _ | .xred _ _ => []

/-- R241: whether pieces would come amid the elements of another operation, and one element of one of them keep a mixture of
both. -/
def State.mixes (s : State) (op : Nat) (g : Eng) (lo n : Nat) : Bool :=
  let ws := s.writers g.wg op
  ws ≠ [] && (List.range n).any fun j => (g.elementsOf (lo + j)).any (mixesWith g.writer ws)

/-- The virtual addresses that a piece accesses after acceptance, one in each page. -/
def Eng.pieceVas (g : Eng) (p : Nat) : List Nat :=
  let d := g.desc
  let span (va n : Nat) : List Nat := (pagesOf va n).map fun q => q.2.1
  match g.kind with
  | .bcpy _ _ =>
    match ((tmplOf g.words).element (fun d => g.blkI (2 + d)) p).2 with
    | some va => span va (tmplOf g.words).e
    | none => []
  | .gath true =>
    ((List.range (g.words.length - 8)).filter fun j => !g.dropsRow j).flatMap fun j => span (g.rowAt j) d.rbytes
  | .gath false =>
    if g.dropsRow (p / d.width) then [] else span (g.rowAt (p / d.width) + p % d.width * d.size) d.size
  | .scat =>
    if g.dropsRow p then []
    else ((List.range d.width).filter fun e => !g.applied.contains (p * d.width + e)).map fun e => g.rowAt p + e * d.size
  | .lmsav _ | .lmrst _ => if g.sp then [] else span (g.base + p * g.pitch) 256
  | .acpy _ | .kvld _ | .xred _ _ => []

/-- The operation after `n` pieces from `lo` are moved. -/
def Eng.moved (g : Eng) (lo n : Nat) : Eng :=
  let left (p : Nat) : Bool := p < lo || lo + n ≤ p
  let h := { g.settled (partOf lo n) with
    pieces := g.pieces ++ [(lo, n)], early := g.early.filter fun e => left e.1, kvs := g.kvs.filter fun e => left e.1 }
  match g.kind with
  | .gath false => { h with credited := h.credited ++ h.newRows lo n }
  | _ => h

/-- R237: the parts of a run of pieces: after those that are the last of a gather or a scatter the drop counter is added to,
`none`, before the last credit. -/
def Eng.parts (g : Eng) (lo n : Nat) : List (Option Nat) :=
  let ps := (List.range n).map fun j => some (lo + j)
  match g.kind with
  | .gath _ | .scat => if g.count + n = g.total then ps ++ [none] else ps
  | _ => ps

/-- One part. -/
def State.movePart (s : State) (x : Eng × List Byte) (part : Option Nat) : Met (Eng × List Byte) :=
  match part with
  | some p => s.movePiece x.1 p none x.2
  | none => (s.addDrops x.1).andThen fun s _ => .ok s x

/-- R237, R240: pieces are moved, and the bytes credited; an operation with no more pieces is done. -/
def State.creditPieces (s : State) (id : Nat) (g : Eng) (lo n : Nat) (data : List Byte) : State :=
  match runParts State.movePart s (g, data) (g.parts lo n) with
  | (p, .held ws) => s.engWaits id (p.join.getD dropPart) ws
  | (_, .fault s c a) => s.onEng id fun _ => g.faulted c a
  | (_, .ok s x) =>
    let h := { x.1 with pieces := g.pieces ++ [(lo, n)] }
    let bs := h.credits lo n
    let g := x.1.moved lo n
    match g.kind with
    | .acpy _ => s.onEng id fun _ => g
    | _ =>
      let s := if g.count = g.total then { s with engs := s.engs.del id } else s.onEng id fun _ => g
      (s.creditAll g.wg g.hurdle g.pc.toNat bs).stopCalls

/-- R261: a restore reads rows. -/
def State.readRows (s : State) (id : Nat) (g : Eng) (lo n : Nat) (data : List Byte) : State :=
  let rs := ((List.range n).map fun j => lo + j).filter fun r => r < 64 && (g.rows.get? r).isNone
  match runParts (fun s (x : Eng × List Byte) r => s.restoreRow x.1 r x.2) s (g, data) rs with
  | (r, .held ws) => s.engWaits id (r.getD 0) ws
  | (_, .fault s c a) => s.onEng id fun _ => g.faulted c a
  | (_, .ok s x) => s.onEng id fun _ => x.1.settled (partOf lo n)

def execEngineCredit (op lo n : Nat) (data : List Byte) (s : State) : Host.Outcome State Fault Refusal :=
  match s.engs.get? op with
  | none => .next s
  | some g =>
    let reads : Bool := match g.kind with | .lmrst _ => !g.tiled && g.fault = none | _ => false
    .next (if !s.requestReady op g || s.engLate g lo n data then s
      else if reads then s.readRows op g lo n data
      else if g.mayCredit lo n && !s.mixes op g lo n then s.creditPieces op g lo n data
      else s)

/-! ### ACPY_COMPLETE (R230) -/

def execAcpyComplete (op : Nat) (s : State) : Host.Outcome State Fault Refusal :=
  match s.engs.get? op with
  | none => .next s
  | some g =>
    match g.kind with
    | .acpy tag =>
      if g.fault = none ∧ g.count = g.total then
        let p : Path := if tag = 0 then .ac0 else if tag = 1 then .ac1 else .ac2
        .next ({ s with engs := s.engs.del op }.decr g.sheaf p)
      else .next s
    | _ => .next s

/-! ### ENGINE_FAULT (R242, R243) -/

/-- Whether a piece's accesses to memory are over. -/
def Eng.over (g : Eng) (p : Nat) : Bool := match g.kind with | .lmrst _ => (g.rows.get? p).isSome | _ => g.has p

/-- R242: whether an operation's pieces read no data of other devices: they write or add there, or are a reduction's link. -/
def Eng.onlyWrites (g : Eng) : Bool :=
  match g.kind with
  | .bcpy _ st => st
  | .scat | .lmsav _ | .xred _ _ => true
  | .acpy _ | .gath _ | .kvld _ | .lmrst _ => false

/-- The first address of an accepted operation's pieces still to be moved that lies on another device or the host; where it
must be one of data that is read (`reads`), none of an operation that only writes there, but for its drop counter. -/
def State.farVa (s : State) (g : Eng) (reads : Bool) : Option Nat :=
  let far (va : Nat) : Bool :=
    match s.xlate false g.core g.ctx va .look with
    | .ok leaf _ b _ => 2 ≤ (s.place leaf b va).tier
    | .fail .. => false
  let rest := (List.range g.total).filter fun p => !g.over p
  let drop := if g.drops ≠ 0 ∧ g.dropAt ≠ 0 ∧ far g.dropAt then some g.dropAt else none
  if reads && g.onlyWrites then (match g.kind with | .scat => drop | _ => none) else
  match g.kind with
  | .xred _ _ => some 0
  | .acpy _ =>
    rest.findSome? fun p => (g.acpys[p / 32]?).bind fun c =>
      let va := c.va + p % 32
      if p % 32 < c.n ∧ 2 ≤ (c.place va).1.tier then some va else none
  | .gath _ | .scat => (rest.findSome? fun p => (g.pieceVas p).find? far).or drop
  | _ => rest.findSome? fun p => (g.pieceVas p).find? far

/-- R242, R353: the address of an access of an operation that another device or the host serves and has not answered: one
it waits for, or, once it is accepted, one it still has to make, of data it reads where `reads`; a reduction's link to its switch has none (log 113). -/
def State.remoteVa (s : State) (g : Eng) (reads : Bool) : Option Nat :=
  (g.waits.findSome? fun w => match w.2 with | .peer _ va => some va | _ => none).or
    (if g.accepted then s.farVa g reads else none)

/-- R166: whether an accepted operation has still to read a word of its workgroup's scratchpad: of its index list, as long as it has
used no index; of its source. -/
def Eng.toRead (g : Eng) (a : Nat) : Bool :=
  let d := g.desc
  let n := g.words.length - 8
  let fresh : Bool := g.pieces = [] && g.early = [] && g.buf = [] && g.applied = []
  let list (b : Nat) : Bool := fresh && g.blkN 2 ≤ b && b < g.blkN 2 + 4 * n
  let byte (b : Nat) : Bool :=
    match g.kind with
    | .bcpy _ true =>
      let t := tmplOf g.words
      g.blkN 0 ≤ b && b < g.blkN 0 + t.elems * t.e &&
        (let p := t.elementAt (b - g.blkN 0); !g.has p && (g.element p).2.isSome)
    | .gath _ => list b
    | .scat =>
      list b || (g.blkN 4 ≤ b && b < g.blkN 4 + n * d.rbytes &&
        (let e := (b - g.blkN 4) / d.size; !g.dropsRow (e / d.width) && !g.applied.contains e))
    | .lmrst _ =>
      g.sp && g.base ≤ b && (b - g.base) / g.pitch < 64 && (b - g.base) % g.pitch < 256
        && (g.rows.get? ((b - g.base) / g.pitch)).isNone
    | .acpy _ | .bcpy _ false | .kvld _ | .xred _ _ | .lmsav _ => false
  g.accepted && g.fault = none && (g.buf.get? (a / 4 * 4)).isNone && (List.range 4).any fun j => byte (a / 4 * 4 + j)

/-- R166, R242: an operation meets an uncorrectable word of its workgroup's scratchpad, of a list or a source it reads there: an
engine fault to be taken; the report and the fault name the word's offset (log 39). -/
def State.scratchLost (s : State) (id a : Nat) : State :=
  match s.engs.get? id with
  | none => s
  | some g =>
    if g.toRead a then
      (s.uncorrectable (some g.ctx) { s.wgRec g.wg 4 with pc := g.pc.toNat, addr := a } a).onEng id fun h => h.faulted .ecc a
    else s

/-- R243: the fault met, or, of an operation that reaches other devices, a failure on the link: the workgroup ends. -/
def execEngineFault (op : Nat) (link ecc : Bool) (s : State) : Host.Outcome State Fault Refusal :=
  match s.engs.get? op with
  | none => .next s
  | some g =>
    match g.fault with
    | some (c, a) => .next (s.terminate g.wg c g.pc.toNat a)
    | none =>
      match if link then s.remoteVa g ecc else none with
      | some va => .next (s.terminate g.wg (if ecc then .ecc else .xlate) g.pc.toNat va)
      | none => .next s

/-! ### Words read, and bytes written, ahead (R241) -/

/-- Whether an operation has still to read words of a piece, or, where it pools, of a row; of a SCAT, of an element. -/
def Eng.mayRead (g : Eng) (p : Nat) : Bool :=
  g.accepted && g.fault = none &&
    match g.kind with
    | .acpy _ | .bcpy _ _ | .kvld _ => p < g.total && !g.has p
    | .gath false => p < g.total && !g.has p && !g.dropsRow (p / g.desc.width)
    | .gath true => p < g.words.length - 8 && !g.has 0 && !g.dropsRow p
    | .scat => p < g.total * g.desc.width && !g.dropsRow (p / g.desc.width) && !g.applied.contains p
    | .lmrst _ => p < 64 && !g.tiled && (g.rows.get? p).isNone
    | .lmsav _ | .xred _ _ => false

/-- R241: source word `w` of a piece is read; of a KVLD, the word of the row's element `w`, or of frequency `w - hdim`. -/
def State.readWord (s : State) (g : Eng) (p w : Nat) (data : List Byte) : Met Eng :=
  let word (part va n : Nat) : Met Eng :=
    if va + n ≤ va / 4 * 4 + 4 * w then .ok s g
    else (s.srcBytes g part (va / 4 * 4 + 4 * w) 4 data).andThen fun s x => .ok s x.1
  let scratch (a n : Nat) : Met Eng :=
    .ok s (if a + n ≤ a / 4 * 4 + 4 * w then g else (s.srcScratch g (a / 4 * 4 + 4 * w) 4).1)
  match g.kind with
  | .acpy _ =>
    match g.acpys[p / 32]? with
    | none => .ok s g
    | some c => if c.n ≤ p % 32 then .ok s g else (s.copySource g c p data).andThen fun s x => .ok s x.1
  | .bcpy _ st =>
    match (g.element p).2 with
    | none => .ok s g
    | some va => if st then scratch (g.element p).1 (tmplOf g.words).e else word 0 va (tmplOf g.words).e
  | .gath true => word p (g.rowAt p) g.desc.rbytes
  | .gath false => word (p / g.desc.width) (g.gathered p).2 g.desc.size
  | .scat => scratch (g.blkN 4 + p * g.desc.size) g.desc.size
  | .kvld v =>
    if g.blkN 2 ≤ p then .ok s g
    else
      (s.openRow g v p data).andThen fun s o =>
        let d := o.2.1.desc
        if w < d.hdim then (s.kvRaw o.1 v p o.2.1 w).andThen fun s x => .ok s x.1
        else if !v && w - d.hdim < d.rhalf then
          (s.kvFreq o.1 p o.2.1 (w - d.hdim) o.2.2).andThen fun s x => .ok s x.1
        else .ok s o.1
  | .lmrst _ => if g.sp then scratch (g.base + p * g.pitch) 256 else word p (g.base + p * g.pitch) 256
  | .lmsav _ | .xred _ _ => .ok s g

/-- R241: an operation reads a source word before the others of its piece. -/
def State.wordAhead (s : State) (id p w : Nat) (data : List Byte) : State :=
  match s.engs.get? id with
  | none => s
  | some g =>
    if !g.mayRead p || !s.requestReady id g || s.engLate g p 1 data then s
    else
      match s.readWord g p w data with
      | .held ws => s.engWaits id (wordPart p w) ws
      | .fault s c a => s.onEng id fun _ => g.faulted c a
      | .ok s h => s.onEng id fun _ => h.settled fun x => x = wordPart p w

/-- Whether an operation writes pieces of several bytes, each by itself. -/
def Eng.byBytes (g : Eng) : Bool :=
  match g.kind with
  | .bcpy _ _ | .gath _ | .kvld _ | .lmsav _ => true
  | .acpy _ | .scat | .lmrst _ | .xred _ _ => false

/-- R241: an operation writes byte `j` of a piece before the rest. -/
def State.byteAhead (s : State) (id p j : Nat) (data : List Byte) : State :=
  match s.engs.get? id with
  | none => s
  | some g =>
    if !g.byBytes || !g.mayCredit p 1 || g.early.contains (p, j) || !s.requestReady id g || s.engLate g p 1 data
        || s.mixes id g p 1 then s
    else
      match s.movePiece g p (some j) data with
      | .held ws => s.engWaits id p ws
      | .fault s c a => s.onEng id fun _ => g.faulted c a
      | .ok s x => s.onEng id fun _ => { x.1 with early := (p, j) :: x.1.early }

/-! ### MEMSIDE_REDUCTION (R190, R194, R239, R297) -/

/-- Whether an add of a SCAT is still to be applied. -/
def Eng.mayApply (g : Eng) (row e : Nat) : Bool :=
  g.kind = .scat && g.accepted && g.fault = none && row < g.total && e < g.desc.width && !g.dropsRow row
    && !g.applied.contains (row * g.desc.width + e)

/-- R239. -/
def State.applyScat (s : State) (id : Nat) (g : Eng) (row e : Nat) : State :=
  match s.scatElement g row e with
  | .held ws => s.engWaits id (wordPart row e) ws
  | .fault s c a => s.onEng id fun _ => g.faulted c a
  | .ok s g =>
    s.onEng id fun _ =>
      { g.settled (fun x => x = wordPart row e) with applied := (row * g.desc.width + e) :: g.applied }

/-- R297, R298: whether a thread's element of a compute core's RED goes to the base die: it has left for it, or a window is
open on its line and the reduction may be performed. -/
def State.redReady (s : State) (n : Nat) (o : Op) (a : Access) : Bool :=
  o.kind = .red && !o.heath && !s.heldAt true a.loc.addr
    && (a.fwd || (!s.frozen a.loc && s.windowsOf a.loc.addr ≠ [] && s.mayPerform n o))

/-- R190, R297: a thread's element of a compute core's RED at the base die.  The core's own copy of the line leaves its L1, so
that its later loads see the reduction (R176). -/
def State.applyRed (s : State) (n : Nat) (o : Op) (a : Access) : State :=
  let line := lineOf a.loc.addr
  let s := (s.reduceHome o.ctx a.loc.addr o.aop o.ty a.x.toNat).l1Evict (s.slice o.core line) line
  let accs := o.accs.map fun b => if b.thread = a.thread then { b with done := true } else b
  let s := s.onOp n fun p => { p with accs := accs }
  if accs.all fun b => b.done then s.opDone n { o with accs := accs } else s

/-- R297: the home L2 forwards a thread's element to the base die of an open window. -/
def State.forward (s : State) (n t : Nat) : State :=
  match s.ops.get? n with
  | none => s
  | some o =>
    match o.accs.find? fun a => a.thread = t && !a.done && !a.remote with
    | none => s
    | some a =>
      if s.redReady n o a then
        s.onOp n fun p => { p with accs := p.accs.map fun b => if b.thread = t then { b with fwd := true } else b }
      else s

/-- R194: a request of a peer or the host, performed at this device's home L2, or, a reduction, at the base die (R190). -/
def State.serve (s : State) (r : RemoteRequest) : State :=
  let req : Req := { ctx := 4096, va := 2 ^ 49 }
  let lost : State := (s.uncorrectable none { kind := 4 } r.addr).report (.ack false [])
  match r.kind with
  | .load n =>
    if (wordsAt r.addr n).any s.unreadable then lost
    else
      let (s, ws) := (wordsAt r.addr n).foldl (fun (p : State × List Word) a =>
        let (s, w) := p.1.homeRead req a; (s, p.2 ++ [w])) (s, [])
      s.report (.ack true (bytesFrom ws r.addr n))
  | .store bs => (s.homeWrite req r.addr bs).report (.ack true [])
  | .atomic op ty x e =>
    let t := BitVec.ofNat 5 ty
    let n := Forms.tyBytes t
    if (wordsAt r.addr n).any s.unreadable then lost
    else
      let old := leNat (s.peekBytes r.addr n)
      (s.homeWrite req r.addr (bytesLe n (atomNew op t old x.toNat e.toNat).1)).report (.ack true (bytesLe n old))
  | .reduce op ty x => (s.reduceHome r.ctx r.addr op (BitVec.ofNat 5 ty) x.toNat).report (.ack true [])
  | .arrive w off bytes => (s.agentArrive w off bytes 0).stopCalls

/-- R169, R304: whether a request of a peer or the host is held: a write to a frozen frame, anything that needs a stack in
self-refresh. -/
def State.requestHeld (s : State) (r : RemoteRequest) : Bool :=
  match r.kind with
  | .load _ => s.heldAt false r.addr
  | .store _ | .atomic .. => s.frozen { tier := 0, peer := 0, addr := r.addr } || s.heldAt false r.addr
  | .reduce .. => s.frozen { tier := 0, peer := 0, addr := r.addr } || s.heldAt true r.addr
  | .arrive .. => false

/-- R196: whether an earlier request to the same stack waits, before request `n`. -/
def State.behind (s : State) (n : Nat) (r : RemoteRequest) : Bool :=
  s.packets.any fun e => e.1 < n && stackOf e.2.addr = stackOf r.addr

/-- R194: a request that waits at its home is performed.  The flags of a reduction go to the context that its packet
names, on this device (log 97). -/
def State.applyPacket (s : State) (n : Nat) (r : RemoteRequest) : State := { s with packets := s.packets.del n }.serve r

def execMemsideReduction (r : ReductionRef) (s : State) : Host.Outcome State Fault Refusal :=
  match r with
  | .scat op row e =>
    match s.engs.get? op with
    | none => .next s
    | some g => .next (if g.mayApply row e then s.applyScat op g row e else s)
  | .red n t =>
    match s.ops.get? n with
    | none => .next s
    | some o =>
      match o.accs.find? fun a => a.thread = t && !a.done && !a.remote with
      | none => .next s
      | some a => .next (if s.redReady n o a then s.applyRed n o a else s)
  | .packet n =>
    match s.packets.get? n with
    | none => .next s
    | some p => .next (if s.requestHeld p || s.behind n p then s else s.applyPacket n p)

/-! ### XRED_RESULT (R68, R356) -/

/-- R355: write and credit the results of a reduction whose contributions have all arrived; its flags are raised even where
a result cannot be written (R68). -/
def State.xredWrite (s : State) (id : Nat) (g : Eng) (ty : BitVec 5) (rf : Bool) (cs : List Contribution) : State :=
  let rs := (List.range g.words.length).map fun e => xredResult ty rf (cs.map fun c => wd c.elems e)
  let bs := rs.flatMap fun r => bytesLe (xredSize ty rf) r.1
  let flags := rs.foldl (fun (f : Flags) r => f.or r.2) {}
  match s.engStore g.agent g.base bs with
  | .held ws => s.engWaits id 0 ws
  | .fault s c a => (s.axf g.ctx flags).onEng id fun _ => g.faulted c a
  | .ok s _ =>
    let s := s.axf g.ctx flags
    ({ s with engs := s.engs.del id }.creditAll g.wg g.hurdle g.pc.toNat (rs.map fun _ => xredSize ty rf)).stopCalls

/-- Whether an operation is a reduction; its group. -/
def Eng.isXred (g : Eng) : Bool := match g.kind with | .xred _ _ => true | _ => false
def Eng.group (g : Eng) : Nat := g.blkN 6

/-- R356: whether a reduction is the earliest accepted on its group that is not over. -/
def State.firstXred (s : State) (g : Eng) : Bool :=
  s.engs.all fun e => !(e.2.isXred && e.2.accepted && e.2.fault = none && e.2.group = g.group) || g.seq ≤ e.2.seq

/-- R356: whether ports can be those of a group's members: distinct, the own one that of its bound station, the others those of
the group's earlier reductions, as long as no member is bound anew (log 112). -/
def State.portsOk (s : State) (group port : Nat) (others : List Nat) : Bool :=
  (port :: others).eraseDups.length = others.length + 1
    && ((s.stnPort.get? (s.xgrpStn group)).map fun p => decide (p = port)).getD true
    && ((s.xports.get? group).map fun l => decide (l = others)).getD true

/-- R356: another member of a group is bound anew: the ports of the others are found anew. -/
def State.rebound (s : State) (group : Nat) : State := { s with xports := s.xports.del group }

/-- R356: the earliest reduction of a group, summed from its members' contributions in port order.  Members that disagree
are an ILLOP on every member. -/
def execXredResult (op port : Nat) (others : List Contribution) (s : State) : Host.Outcome State Fault Refusal :=
  match s.engs.get? op with
  | none => .next s
  | some g =>
    match g.kind with
    | .xred ty rf =>
      let ports := portsOf others
      if g.accepted ∧ g.fault = none ∧ others.length + 1 = s.xgrpNmem g.group ∧ s.firstXred g ∧ s.portsOk g.group port ports then
        let s := { s with stnPort := s.stnPort.put (s.xgrpStn g.group) port, xports := s.xports.put g.group ports }
        if others.all fun c => c.agrees then
          let own : Contribution := { port := port, elems := g.words, agrees := true }
          .next (s.xredWrite op g ty rf ((own :: others).foldl (fun l c => byPort c l) []))
        else .next (s.onEng op fun _ => g.faulted .illop 0)
      else .next s
    | _ => .next s

end Sys2Proof.Machine
end

