-- ==== Sys2Proof/Machine/Fetch.lean ====
section
/-! DEFINITION. Fetching an instruction's words (spec/05 R71, R72, spec/15 R225) and the words that are no instruction
(R93). -/

namespace Sys2Proof.Machine
open Sys2Proof.Forms

/-- What the fetch of one word, or of an instruction, comes to: what it gives; a precise trap; or a wait for what is
named. -/
inductive Fetched (α : Type)
  | got (s : State) (x : α)
  | trap (s : State) (t : Trap)
  | wait (s : State) (ws : List WaitOn)

/-- R72: a precise trap of a fetch. -/
def fetchTrap (sh : Sheaf) (c : Cause) (det : Nat) (va : DWord) : Trap :=
  { cause := c, det := det, acc := accFetch, mask := sh.em, ta := va }

/-- R166: an uncorrectable error a fetch meets is reported. -/
def State.fetchEcc (s : State) (sh : Sheaf) (det : Nat) (pa : Nat) (va : DWord) : State × Trap :=
  (s.uncorrectable (some sh.ctx) { s.sheafRec sh 4 .ecc with pc := sh.pc.toNat, addr := va.toNat } pa,
   fetchTrap sh .ecc det va)

/-- R225: a word that a compute core's instruction cache holds. -/
def State.cachedCode (s : State) (sh : Sheaf) (l : Loc) : Option Word :=
  if sh.heath then none else s.icWord? sh.core (l.icLine (lineOf l.addr)) (wordIn l.addr)

/-- R72, R165, R166, R225, R353: the word at a translated place: of the instruction cache, where it holds it; else the line is
fetched into it.  A heath core has none (R283). -/
def State.fetchAt (s : State) (sh : Sheaf) (h : Hit) : Fetched Word :=
  let l := h.loc
  match s.cachedCode sh l with
  | some w => .got s w
  | none =>
  let a : Access := { thread := 0, va := h.va.toNat, loc := l, lh := h.hint, x := 0, e := 0 }
  if 2 ≤ l.tier then
    if s.linkFails l false then .trap s (fetchTrap sh .xlate 4 h.va)
    else if !s.linkUp l then .wait (s.requestAts l) [.page (l.addr / 65536) h.va.toNat]
    else
      match s.farFail l with
      | some (s, true) =>
        let (s, t) := s.fetchEcc sh 1 h.va.toNat h.va
        .trap s t
      | some (s, false) => .trap s (fetchTrap sh .xlate 4 h.va)
      | none =>
      .got (s.icFar sh.core (l.icLine (lineOf l.addr)) none) (farWord s.fresh (wordIn l.addr))
  else
    let seg := (s.seg (segOf l.addr)).state
    if l.tier = 1 ∧ seg = .install then .trap s (fetchTrap sh .fallow 0 h.va)
    else if l.tier = 1 ∧ (seg = .invalid ∨ seg = .failed) then
      let (s, t) := s.fetchEcc sh 0 l.addr h.va
      .trap s t
    else
      match s.heldStack sh.heath l.addr with
      | some st => .wait s [.refresh st]
      | none =>
        if if sh.heath then s.bad l.addr else s.unreadable l.addr then
          let (s, t) := s.fetchEcc sh 0 l.addr h.va
          .trap s t
        else if !s.staged a then .wait (s.startFill (l.addr / 65536) h.hint) [.fill (l.addr / 65536) h.hint]
        else if sh.heath then .got s (s.rawWord l.addr)
        else
          .got (s.icFill sh.core { ctx := sh.ctx, va := h.va.toNat, hint := h.hint, leaf := h.hint } (lineOf l.addr) none)
            (s.peek l.addr)

/-- R72, R304: fetch the word at an address. -/
def State.fetchMem (s : State) (sh : Sheaf) (va : DWord) : Fetched Word :=
  match s.xlateHeld sh.heath sh.core sh.ctx va.toNat .fetch with
  | some st => .wait s [.refresh st]
  | none =>
    match s.checkAddr sh .fetch 4 0 va with
    | .ok h => (s.cacheHits sh .fetch [h]).fetchAt sh h
    | .error (.ecc, d) =>
      let (s, t) := s.fetchEcc sh d va.toNat va
      .trap s t
    | .error (c, d) => .trap s (fetchTrap sh c d va)

/-- R350: whether the host has failed the page of an address that a sheaf's fetch waited for. -/
def Sheaf.lostAt (sh : Sheaf) (va : DWord) : Bool :=
  match sh.status with
  | .stalled (.lost a _) => a = va.toNat
  | _ => false

/-- R225, R350: a word fetched ahead; of a page that has failed, XLATE with REMOTE; else from memory. -/
def State.fetchWord (s : State) (sh : Sheaf) (va : DWord) : Fetched Word :=
  match sh.ahead.get? va.toNat with
  | some w => .got s w
  | none => if sh.lostAt va then .trap s (fetchTrap sh .xlate 4 va) else s.fetchMem sh va

/-- An instruction's words as far as they are fetched, and the trap of the next. -/
structure Words where
  base : Option Word := none
  mod : Option Word := none
  lit : Option Word := none
  deriving DecidableEq, Repr

/-- The words in order. -/
def Words.list (w : Words) : List Word := w.base.toList ++ w.mod.toList ++ w.lit.toList

/-- R225: what a sheaf has fetched ahead is at most 64 bytes from its PC. -/
def Sheaf.nearAhead (sh : Sheaf) : Sheaf :=
  { sh with ahead := sh.ahead.filter fun e => sh.pc.toNat ≤ e.1 && e.1 < sh.pc.toNat + 64 }

/-- R71, R72: fetch every word of the instruction at a sheaf's PC; of one that fails, the words before it. -/
def State.fetchInstr (s : State) (sh : Sheaf) : Fetched Words × Words :=
  match s.fetchWord sh sh.pc with
  | .trap s t => (.trap s t, {})
  | .wait s ws => (.wait s ws, {})
  | .got s base =>
    let w1 : Words := { base := some base }
    let modded : Fetched Words :=
      if baseX base then
        match s.fetchWord sh (sh.pc + 4) with
        | .got s m => .got s { w1 with mod := some m }
        | .trap s t => .trap s t
        | .wait s ws => .wait s ws
      else .got s w1
    match modded with
    | .trap s t => (.trap s t, w1)
    | .wait s ws => (.wait s ws, w1)
    | .got s w2 =>
      let n := w2.list.length
      if lengthOf base w2.mod ≤ n then (.got s w2, w2)
      else
        match s.fetchWord sh (sh.pc + BitVec.ofNat 64 (4 * n)) with
        | .got s l => (.got s { w2 with lit := some l }, { w2 with lit := some l })
        | .trap s t => (.trap s t, w2)
        | .wait s ws => (.wait s ws, w2)

/-- A trap met before the fields of an instruction have a meaning (R72, R93): LEN counts the words known, DEST and UCLS
are the base word's where it is known. -/
def State.wordTrap (s : State) (k : Nat) (w : Words) (t : Trap) : State :=
  let f := fieldsOf (w.base.getD 0) w.mod
  let p : Pending :=
    { cause := t.cause, det := t.det, acc := t.acc, mask := t.mask, ta := t.ta, dest := f.a, dv := false, imp := false
      lead := false, len := max 1 w.list.length, ucls := f.u, w64 := false, rgnpc := 0, rgncnt := 0, seq := 0 }
  (s.onSheaf k fun x => { x with len := max 1 w.list.length, status := .issuing, pend := none }).trapOrWait k p false

/-- R93: words whose class and op name no instruction: ILLOP, with the base word in TA, and no other effect. -/
def State.reserved (s : State) (k : Nat) (sh : Sheaf) (base : Word) (mod : Option Word) : State :=
  (s.tickOne sh).wordTrap k { base := some base, mod := mod }
    { cause := .illop, mask := sh.em, ta := base.zeroExtend 64 }

def execReservedOpcode (base : Word) (mod : Option Word) (s : State) : Host.Outcome State Fault Refusal :=
  match s.cur with
  | none => .fault .noSheaf
  | some k =>
    match s.sheaf? k with
    | none => .fault .noSheaf
    | some sh => .next (s.reserved k sh base mod)

end Sys2Proof.Machine
end

