-- ==== Sys2Proof/Machine/Launch.lean ====
section
/-! DEFINITION. From launch to issue slot (spec/27): launch records and kernel descriptors, LAUNCH (spec/07 R129), queues,
event words, placement, dispatch, the life of workgroups and grids, drains.  An event that is not enabled changes nothing
(log 2). -/

namespace Sys2Proof.Machine
open Sys2Proof.Forms

/-! ### Records and descriptors (R328 to R331) -/

/-- The launch values of a grid: the record, the kernel descriptor, the argument words. -/
structure LaunchVals where
  words : List Word
  desc : List Word
  args : List Word
  deriving DecidableEq, Repr

/-- An address of a record, bits 31:0 in one word and 48:32 in the next. -/
def addrAt (ws : List Word) (j : Nat) : Nat := wd ws j + wd ws (j + 1) % 2 ^ 17 * 2 ^ 32

/-- The RSV bits of an address's high word. -/
def highClean (ws : List Word) (j : Nat) : Bool := wd ws j < 2 ^ 17

/-- R330: whether a record names a descriptor that can be read, and an argument block that can (an address of 0 is none). -/
def kdNamed (ws : List Word) : Bool := highClean ws 1 && addrAt ws 0 ≠ 0 && addrAt ws 0 % 128 = 0
def argsNamed (ws : List Word) : Bool :=
  wd ws 5 % 64 = 0 || (wd ws 5 % 64 ≤ 62 && highClean ws 7 && addrAt ws 6 ≠ 0 && addrAt ws 6 % 8 = 0)

/-- R331: read a record, its descriptor and its argument block; none when the record names no block to read. -/
def State.readLaunch (s : State) (g : Agent) (va : Nat) (data : List Byte) : Met (Option LaunchVals) :=
  (s.engRun g va 16 data).andThen fun s r =>
    let ws := r.1
    if !kdNamed ws then .ok s none
    else
      (s.engRun g (addrAt ws 0) 32 r.2).andThen fun s d =>
        if !argsNamed ws then .ok s none
        else
          (s.engRun g (addrAt ws 6) (wd ws 5 % 64) d.2).andThen fun s a =>
            .ok s (some { words := ws, desc := d.1, args := a.1 })

/-- The initial ROLE of a SHID (R328). -/
def roleOf (ds : List Word) (shid : Nat) : Nat :=
  ((List.range 6).foldl (fun x j => x + wd ds (4 + j) * 2 ^ (32 * j)) 0) / 2 ^ (3 * shid) % 8

/-- Fields of the descriptor's word 2. -/
def descNsh (ds : List Word) : Nat := wd ds 2 % 128
def descRg (ds : List Word) : Nat := wd ds 2 / 65536 % 128
def descClus (ds : List Word) : Nat := wd ds 2 / 2 ^ 29 % 4
def descLat (ds : List Word) : Bool := 2 ^ 31 ≤ wd ds 2

/-- R330: the rules of the descriptor. -/
def kernelOk (ds : List Word) : Bool :=
  highClean ds 1 && wd ds 0 % 4 = 0 && (ds[2]?).getD 0 &&& 0x1F80FF80#32 = 0 && wd ds 10 = 0
    && 1 ≤ descNsh ds && descNsh ds ≤ 64 && 2 ≤ descRg ds && descRg ds ≤ 64 && wd ds 3 ≤ 524288
    && (List.range 64).all fun k => roleOf ds k ≤ 4

/-- R330: the rules of the record that need no page table. -/
def recOk (ws ds : List Word) : Bool :=
  let gx := wd ws 2
  let gy := wd ws 3 / 65536
  let gz := wd ws 3 % 65536
  let nthr := wd ws 4 % 2048
  let nsh := descNsh ds
  (ws[4]?).getD 0 &&& 0x700C7800#32 = 0 && wd ws 5 < 64 && highClean ws 7
    && [9, 11, 15].all (fun j => highClean ws j && addrAt ws (j - 1) % 8 = 0)
    && 1 ≤ gx && gx < 2 ^ 31 && 1 ≤ gy && 1 ≤ gz
    && 16 * nsh - 15 ≤ nthr && nthr ≤ 16 * nsh
    && (descClus ds = 0 || gx % (descClus ds + 1) = 0)
    && (!((ws[4]?).getD 0).getLsbD 15 || descClus ds = 3)
    && (nsh + 3) / 4 * (8 * descRg ds) ≤ 4096

/-- R330: a named event word lies on a tier-0 page with R and W. -/
def State.eventWordOk (s : State) (core ctx a : Nat) : Bool :=
  a = 0 ||
    match s.xlate false core ctx a .look with
    | .ok leaf _ b _ => (s.place leaf b a).tier = 0 && leaf.getLsbD 2 && leaf.getLsbD 3
    | .fail _ _ => false

/-- The event words that a record names. -/
def eventWords (ws : List Word) : List Nat := ([8, 10, 14].map (addrAt ws)).filter (· ≠ 0)

/-- R330: whether a launch is accepted. -/
def State.launchOk (s : State) (core ctx : Nat) (l : LaunchVals) : Bool :=
  kernelOk l.desc && recOk l.words l.desc && [8, 10, 14].all fun j => s.eventWordOk core ctx (addrAt l.words j)

/-! ### Grids (R331, R334) -/

/-- R331: the GRID value a new grid of a context receives: the first that no unretired grid of it holds. -/
def State.freeGid (s : State) (ctx : Nat) : Word :=
  let held := (s.grids.filter fun e => e.2.ctx = ctx).map fun e => e.2.gid
  let from_ := ((s.ctx? ctx).map fun c => c.nextGid).getD 0
  (((List.range (held.length + 1)).map fun i => from_ + BitVec.ofNat 32 i).find? fun g => !held.contains g).getD from_

/-- The number of workgroups of a grid, and of its clusters' members (1 when it is not cluster-shaped). -/
def Grid.total (g : Grid) : Nat := g.gx * g.gy * g.gz
def Grid.clus (g : Grid) : Nat := if descClus g.desc = 0 then 1 else descClus g.desc + 1

/-- A new grid; its number. -/
def State.newGrid (s : State) (ctx depth : Nat) (parent : Option Nat) (src : QueueRef) (prio : Nat) (l : LaunchVals)
    (head : Bool) : Nat × State :=
  let ws := l.words
  let gid := s.freeGid ctx
  let w4 := (ws[4]?).getD 0
  let (n, s) := s.newId
  let g : Grid :=
    { ctx := ctx, gid := gid, depth := depth, parent := parent, src := src, prio := prio, desc := l.desc, args := l.args
      gx := wd ws 2, gy := wd ws 3 / 65536, gz := wd ws 3 % 65536, nthr := wd ws 4 % 2048
      fpcr := if w4.getLsbD 31 then w4.extractLsb' 16 12 else 0, fuse := w4.getLsbD 15
      waits := ([(8, 12), (10, 13)].filter fun j => addrAt ws j.1 ≠ 0).map fun j =>
        (addrAt ws j.1, (ws[j.2]?).getD 0, false)
      sig := addrAt ws 14, head := head }
  (n, { s with grids := s.grids ++ [(n, g)] }.onCtx ctx fun c => { c with nextGid := gid + 1 })

/-- The dispatcher's reads and writes for a context (R331, R334). -/
def dispAgent (ctx : Nat) : Agent := { ctx := ctx, core := dispatcher, wg := 0, pc := 0, hint := 0 }

/-- Whether every wait of a grid has been read satisfied. -/
def Grid.waited (g : Grid) : Bool := g.waits.all fun w => w.2.2

/-- R334: read the waited words of a head grid, until one reading has found them all satisfied.  A word that cannot be
read is not; one that is lost is reported (R166). -/
def State.readWaits (s : State) (n : Nat) : State :=
  match s.grid? n with
  | none => s
  | some g =>
    if g.waited || !g.head then s
    else
      let r := g.waits.foldl (fun (p : State × List (Nat × Word × Bool)) w =>
        match p.1.engWord (dispAgent g.ctx) w.1 [] with
        | .ok s x => (s, p.2 ++ [(w.1, w.2.1, decide ((x.1 - w.2.1).toNat < 2 ^ 31))])
        | .fault s _ _ => (s, p.2 ++ [(w.1, w.2.1, false)])
        | .held _ => (p.1, p.2 ++ [(w.1, w.2.1, false)])) (s, [])
      r.1.onGrid n fun g => { g with waits := r.2 }

/-! ### The device-side queue (R333) -/

/-- The head grid of a context's device-side queue that still has workgroups to dispatch. -/
def State.deviceHead (s : State) (ctx : Nat) : Bool :=
  s.grids.any fun e => e.2.src = .device ctx && e.2.head && e.2.next < e.2.total

/-- R333: the next entry becomes head once the grid before it has had every workgroup dispatched. -/
def State.pumpDevice (s : State) (ctx : Nat) : State :=
  if s.deviceHead ctx then s
  else
    match (s.ctx? ctx).map fun c => c.dq with
    | some (g :: rest) =>
      ((s.onCtx ctx fun c => { c with dq := rest }).onGrid g fun x => { x with head := true }).readWaits g
    | _ => s

/-- R333: the entry written for a child. -/
def deviceEntry (l : LaunchVals) (gid : Word) (depth prio : Nat) : List Byte :=
  let args := (l.args ++ List.replicate 62 0).take 62
  (l.words ++ l.desc ++ args ++ [gid, BitVec.ofNat 32 (depth % 16 + prio % 16 * 256)]).flatMap bytesOf ++ List.replicate 64 0

/-! ### LAUNCH (R129, R130) -/

/-- The DET of a failure of an engine-style read or write at an address (R308): of an XLATE that neither the walk nor a
permission explains, REMOTE; of an ECC at another device or the host, a remote source. -/
def State.detOf (s : State) (sh : Sheaf) (use : Use) (c : Cause) (va : Nat) : Nat :=
  match s.xlate false sh.core sh.ctx va use with
  | .fail _ d => d
  | .ok leaf _ b _ =>
    (permFail leaf use).getD (if c = .xlate then 4 else if c = .ecc ∧ 2 ≤ (s.place leaf b va).tier then 1 else 0)

/-- The precise trap of a failing access of LAUNCH. -/
def Iss.launchTrap (i : Iss) (s : State) (use : Use) (acc : Nat) (c : Cause) (va : Nat) : Eff :=
  .trap s { cause := c, det := s.detOf i.sh use c va, acc := acc, mask := i.sh.em, ta := BitVec.ofNat 64 va }

/-- R333: the place of the next entry of a context's device-side queue of `n` entries. -/
def State.deviceAt (s : State) (ctx n : Nat) : Nat :=
  ((((s.ctx? ctx).bind fun c => c.blk).map fun b => b.dqb).getD 0) + 512 * (((s.ctx? ctx).map fun c => c.dqNext).getD 0 % n)

/-- R350: LAUNCH traps where the host has given no translation for a page that it reads, or to which it writes the child's
entry. -/
def Iss.launchLost (i : Iss) (s : State) (va : Nat) : Eff :=
  let at_ := s.deviceAt i.sh.ctx ((((s.ctx? i.sh.ctx).bind fun c => c.blk).map fun b => b.dqn).getD 0)
  .trap s
    { cause := .xlate, det := 4, acc := if at_ ≤ va ∧ va < at_ + 512 then accStore else accLoad, mask := i.sh.em
      ta := BitVec.ofNat 64 va }

/-- LAUNCH answers: its pair is written and its release, if any, is over. -/
def Iss.launched (i : Iss) (s : State) (stat : Word) (gid : Word) : Eff :=
  .done (s.onSheaf i.k fun t =>
    { (t.writeS i.f.a.toNat stat).writeS (i.f.a.toNat + 1) gid with rel := none })

/-- R129 steps 4 and 5: the entry, and the child. -/
def Iss.launchChild (i : Iss) (s : State) (parent : Nat) (p : Grid) (l : LaunchVals) : Eff :=
  let ctx := i.sh.ctx
  let s := s.pumpDevice ctx
  let blk := (s.ctx? ctx).bind fun c => c.blk
  let dqn := (blk.map fun b => b.dqn).getD 0
  let queued := ((s.ctx? ctx).map fun c => c.dq.length).getD 0
  if dqn ≤ queued then i.launched s 2 0
  else
    let at_ := s.deviceAt ctx dqn
    let g : Agent := { ctx := ctx, core := i.sh.core, wg := i.sh.home.wgId, pc := i.sh.pc.toNat, hint := 0 }
    let gid := s.freeGid ctx
    match s.engStore g at_ (deviceEntry l gid (p.depth + 1) p.prio) with
    | .held ws => .held (s.fillBlocks ws) ws
    | .fault s c va => i.launchTrap s .store accStore c va
    | .ok s _ =>
      let (n, s) := s.newGrid ctx (p.depth + 1) (some parent) (.device ctx) p.prio l false
      let s := (s.onCtx ctx fun c => { c with dq := c.dq ++ [n], dqNext := c.dqNext + 1 }).pumpDevice ctx
      i.launched s 0 gid

/-- R129. -/
def launchBody (i : Iss) (s : State) : Eff :=
  let w := i.sh.home.wgId
  match (s.wg? w).bind fun g => (s.grid? g.grid).map fun p => (g.grid, p) with
  | none => .done s
  | some (parent, p) =>
    let va := (i.sh.pairS i.f.b.toNat).toNat
    if p.depth = 10 then i.launched s 1 0
    else if va % 64 ≠ 0 then
      .trap s { cause := .align, acc := accLoad, mask := i.sh.em, ta := BitVec.ofNat 64 va }
    else
      match i.sh.rel with
      | none => .hold (s.startRelease i.k .launch) .release
      | some r =>
        match r.lost with
        | some va => i.launchLost s va
        | none =>
        let g : Agent := { ctx := i.sh.ctx, core := i.sh.core, wg := w, pc := i.sh.pc.toNat, hint := 0 }
        match s.readLaunch g va ((List.range 440).map (Config.remoteByte s.fresh)) with
        | .held ws => .held (s.fillBlocks ws) ws
        | .fault s c va => i.launchTrap s .load accLoad c va
        | .ok s none => i.launched { s with fresh := s.fresh + 1 } 3 0
        | .ok s (some l) =>
          let s := { s with fresh := s.fresh + 1 }
          i.walking s .look (eventWords l.words) <|
          if !s.launchOk i.sh.core i.sh.ctx l then i.launched (i.reportWalks s (eventWords l.words) s) 3 0
          else i.launchChild s parent p l

def execLaunch (f : Fields) (s : State) := issue rowLaunch f launchBody s

end Sys2Proof.Machine
end

