-- ==== Sys2Proof/Machine/Paging.lean ====
section
/-! DEFINITION. Group 0xF: residency handles (spec/15 R223, R224), the instruction cache (R226), first-touch mapping, host
faults and shootdowns (spec/25 R320 to R322). -/

namespace Sys2Proof.Machine
open Sys2Proof.Forms

/-! ### Residency handles -/

/-- Operand A as a source, n32. -/
def Iss.a32 (i : Iss) : Nat := (i.sh.read32 i.f i.f.a 0).toNat

/-- R223: the lines of a handle become unhandled, at the least recent position. -/
def State.unhandle (s : State) (h : Nat × Nat) : State :=
  let mine := s.l2.filter fun l => l.handle = some h
  { s with l2 := (s.l2.filter fun l => l.handle ≠ some h) ++ mine.map fun l => { l with handle := none } }

/-- R223; a literal base or length is extended with zeros (log 98). -/
def rhdefBody (i : Iss) (s : State) : Eff :=
  let n := i.a32
  let b := (i.sh.read64 i.f i.f.b 0).toNat
  let c := (i.sh.read64 i.f i.f.c 0).toNat
  if 255 < n ∨ c = 0 ∨ 2 ^ 49 < b + c then i.illop s
  else
    let s := s.unhandle (i.sh.ctx, n)
    let (k, s) := s.newId
    let h : Handle := { lo := b / 128 * 128, hi := (b + c + 127) / 128 * 128, prio := (i.f.imm &&& 7#16).toNat, order := k }
    .done (s.onCtx i.sh.ctx fun x => { x with handles := x.handles.put n h })

def execRhdef (f : Fields) (s : State) := issue rowRhdef f rhdefBody s

/-- R224. -/
def rhpriBody (i : Iss) (s : State) : Eff :=
  let p := i.c32 0
  if 7 < p then i.illop s
  else .done (s.onCtx i.sh.ctx fun x => { x with handles := x.handles.upd i.a32 fun h => { h with prio := p } })

def execRhpri (f : Fields) (s : State) := issue rowRhpri f rhpriBody s

/-- R224: the eviction counts on ST; FREE undefines the handle at issue. -/
def rhevictBody (i : Iss) (s : State) : Eff :=
  match s.handle? (i.sh.ctx, i.a32) with
  | none => .done s
  | some _ =>
    if i.sh.full .rhevict then .stall s
    else
      let lines := (s.l2.filter fun l => l.handle = some (i.sh.ctx, i.a32)).map fun l => l.line
      let accs := lines.map fun l =>
        { thread := 0, va := 0, loc := { tier := 0, peer := 0, addr := 128 * l }, lh := 0, x := 0, e := 0 : Access }
      let s := if i.f.imm.getLsbD 0 then
          s.onCtx i.sh.ctx fun x => { x with handles := x.handles.del i.a32 }
        else s
      i.startOp s (i.newOp s .rhevict 0 0 0 false accs)

def execRhevict (f : Fields) (s : State) := issue rowRhevict f rhevictBody s

/-! ### The instruction cache (R226) -/

/-- The range of IPF, IPIN and IUNPIN: each page with its first and last address in it. -/
def Iss.codePages (i : Iss) : List (Nat × Nat × Nat) := pagesOf (i.sh.read64 i.f i.f.b 0).toNat (i.c32 0)

/-- The lines of one page of a range that lies at a location, as the instruction cache numbers them. -/
def Loc.icLines (l : Loc) (p : Nat × Nat × Nat) : List Nat :=
  (linesAt { l with addr := l.addr / 65536 * 65536 } p.1 p.2.1 p.2.2).map l.icLine

/-- The lines of one page of a range, of any tier (log 114), or none when it fails translation or lacks X. -/
def State.codeLines (s : State) (sh : Sheaf) (p : Nat × Nat × Nat) : Option (Hit × List Nat) :=
  match s.checkAddr sh .look 1 0 (BitVec.ofNat 64 p.2.1) with
  | .error _ => none
  | .ok h =>
    match h.xl with
    | .ok leaf _ _ _ =>
      if leaf.getLsbD 4 then
        some (h, h.loc.icLines p)
      else none
    | .fail _ _ => none

/-- R165, R225: whether the contents of a place can be fetched now, and what that waits for. -/
def State.codeWaits (s : State) (h : Hit) : List WaitOn :=
  if s.linkFails h.loc false || 2 ≤ h.loc.tier then []
  else
    match s.heldStack false h.loc.addr with
    | some st => [.refresh st]
    | none =>
      if s.staged { thread := 0, va := h.va.toNat, loc := h.loc, lh := h.hint, x := 0, e := 0 } then []
      else [.fill (h.loc.addr / 65536) h.hint]
def State.codeServed (s : State) (h : Hit) : Bool :=
  if 2 ≤ h.loc.tier then s.linkUp h.loc && !s.linkFails h.loc false
  else s.codeWaits h = [] && (h.loc.tier = 0 || match (s.seg (segOf h.loc.addr)).state with | .service | .worn => true | _ => false)

/-- R226: lines of one page are fetched into a core's instruction cache, and pinned where a pin is given; a line that is pinned while
its contents cannot be fetched enters without them (log 130). -/
def State.takeLines (s : State) (core : Nat) (pin : Option Nat) (x : Hit × List Nat) : State :=
  let h := x.1
  if s.codeServed h then
    let r (l : Nat) : Req :=
      { ctx := pin.getD 4294967296, va := h.va.toNat / 65536 * 65536 + 128 * (l % 512), hint := h.hint, leaf := h.hint }
    x.2.foldl (fun s l => if 2 ≤ h.loc.tier then s.icFar core l pin else s.icFill core (r l) l pin) s
  else if pin.isSome then x.2.foldl (fun s l => s.icPut core l pin []) s
  else s

/-- R226: pages that fail are dropped. -/
def ipfBody (i : Iss) (s : State) : Eff :=
  i.walking s .look (i.codePages.map fun p => p.2.1) <|
  .done (i.reportWalks s (i.codePages.map fun p => p.2.1) (i.codePages.foldl (fun s p =>
    match s.codeLines i.sh p with
    | none => s
    | some x => (s.cacheHits i.sh .look [x.1]).takeLines i.sh.core none x) s))

def execIpf (f : Fields) (s : State) := issue rowIpf f ipfBody s

/-- R226: FAULT, FULL, or every line pinned; the sheaf stalls while what it fetches is held (R304) or being staged (R164). -/
def ipinBody (i : Iss) (s : State) : Eff :=
  let ps := i.codePages.map fun p => s.codeLines i.sh p
  let put (s : State) (n : Word) : State := s.onSheaf i.k fun t => t.write true 1 i.f.a 0 (n.zeroExtend 128)
  i.walking s .look (i.codePages.map fun p => p.2.1) <|
  if i.c32 0 = 0 then .done s
  else if ps.any fun p => p.isNone then .done (i.reportWalks s (i.codePages.map fun p => p.2.1) (put s 2))
  else
    let lines := ((ps.filterMap id).flatMap fun p => p.2).eraseDups
    let pinned := ((s.core i.sh.core).ic.filter fun l => l.pins ≠ []).map fun l => l.line
    if 512 < pinned.length + (lines.filter fun l => !pinned.contains l).length then .done (put s 1)
    else
      let xs := ps.filterMap id
      let ws := xs.flatMap fun x => s.codeWaits x.1
      if ws ≠ [] then .held (s.fillBlocks ws) ws
      else
        let s := s.cacheHits i.sh .look (xs.map fun x => x.1)
        .done (put (xs.foldl (fun s x => s.takeLines i.sh.core (some i.sh.ctx) x) s) 0)

def execIpin (f : Fields) (s : State) := issue rowIpin f ipinBody s

/-- R226: pages that fail translation hold no pinned line to unpin. -/
def iunpinBody (i : Iss) (s : State) : Eff :=
  let lines := i.codePages.flatMap fun p =>
    match s.xlate false i.sh.core i.sh.ctx p.2.1 .look with
    | .fail _ _ => []
    | .ok leaf _ b _ => (s.place leaf b p.2.1).icLines p
  i.walking s .look (i.codePages.map fun p => p.2.1) <|
  .done (i.reportWalks s (i.codePages.map fun p => p.2.1) (s.onCore i.sh.core fun c =>
    { c with ic := c.ic.map fun l =>
        if lines.contains l.line then { l with pins := l.pins.filter (· ≠ i.sh.ctx) } else l }))

def execIunpin (f : Fields) (s : State) := issue rowIunpin f iunpinBody s

/-! ### PMAP (R320) -/

/-- The walk of PMAP: the address of the level-3 entry, none for NOTABLE, or an uncorrectable page-table read. -/
def State.tableEntry (s : State) (ttb va : Nat) : Except Unit (Option Nat) :=
  let a1 := ttb + 8 * (va / 2 ^ 42 % 128)
  if !s.tableAt a1 then .ok none
  else if s.lostIn a1 8 then .error ()
  else
    let e1 := s.peek64 a1
    if !pteV e1 || pteT e1 || !ptePointer e1 then .ok none
    else
      let a2 := pteFrame e1 * 65536 + 8 * (va / 2 ^ 29 % 8192)
      if !s.tableAt a2 then .ok none
      else if s.lostIn a2 8 then .error ()
      else
        let e2 := s.peek64 a2
        if !pteV e2 || pteT e2 || !ptePointer e2 then .ok none
        else
          let a3 := pteFrame e2 * 65536 + 8 * (va / 65536 % 8192)
          if !s.tableAt a3 then .ok none else if s.lostIn a3 8 then .error () else .ok (some a3)

/-- R212, R288: writes of lines fire the monitors of both kinds of core. -/
def State.fireBoth (s : State) (lines : List Nat) : State :=
  lines.foldl (fun s l => (s.fire false l).fire true l) s

/-- R320: zero a frame and drop every copy of its lines. -/
def State.zeroFrame (s : State) (pa : Nat) : State :=
  let lo := pa / 128
  let mine (l : Nat) : Bool := lo ≤ l && l < lo + 512
  let drop (c : Core) : Core :=
    { c with l1 := c.l1.filter fun l => !mine l.line, fifo := c.fifo.filter fun e => !mine e.line }
  let s := { s with
    mem := Store.clear s.mem pa (pa + 65536)
    l2 := s.l2.filter fun l => !mine l.line
    cores := s.cores.mapv drop
    badSectors := s.badSectors.filter fun b => !mine (b / 2) }
  (s.icDrop mine).fireBoth ((List.range 512).map fun j => lo + j)

/-- R320: the leaf PMAP writes. -/
def pmapLeaf (frame : Nat) (template : Word) : DWord :=
  (3#64 ||| template.zeroExtend 64) ||| (BitVec.ofNat 64 frame <<< 15)

/-- R320: take a frame from the pool and map it: the status. -/
def State.mapFirst (s : State) (sh : Sheaf) (va pte : Nat) (template : Word) : State × Nat :=
  let page := va / 65536
  if pteV (s.peek64 pte) then (s.resolveFilter sh.ctx page (s.cluster sh.core), 1)
  else
    let pool := (((s.ctx? sh.ctx).bind fun c => c.blk).map fun b => b.pool).getD 0
    let count := (s.peek pool).toNat
    if count = 0 then (s, 3)
    else
      let arr := (s.peek64 (pool + 8)).toNat
      let at_ := arr + 8 * (count - 1)
      let frame := (s.peek64 at_).toNat % 2 ^ 36
      if !isHbm at_ ∨ !s.usableHbm (frame * 65536) 65536 then (s, 4)
      else
        let s := s.homeWriteWord {} pool (BitVec.ofNat 32 (count - 1)) 15
        let s := s.zeroFrame (frame * 65536)
        let e := pmapLeaf frame template
        let s := (s.homeWriteWord {} pte (e.truncate 32) 15).homeWriteWord {} (pte + 4) ((e >>> 32).truncate 32) 15
        (s.resolveFilter sh.ctx page (s.cluster sh.core), 0)

/-- R320: the header of a context's free pool; the address of the entry it names next, and that entry's frame. -/
def State.poolAt (s : State) (ctx : Nat) : Nat := (((s.ctx? ctx).bind fun c => c.blk).map fun b => b.pool).getD 0
def State.poolEntry (s : State) (pool : Nat) : Nat := (s.peek64 (pool + 8)).toNat + 8 * ((s.peek pool).toNat - 1)
def State.poolFrame (s : State) (pool : Nat) : Nat := (s.peek64 (s.poolEntry pool)).toNat % 2 ^ 36 * 65536

/-- R304: the stack that holds taking a frame: at the header, at its entry, or at the frame. -/
def State.poolHeld (s : State) (pool : Nat) : Option Nat :=
  (s.heldStack false pool).or (if s.peek pool = 0 then none
    else (s.heldStack false (s.poolEntry pool)).or (s.heldStack true (s.poolFrame pool)))

/-- R166: whether taking a frame meets an uncorrectable sector. -/
def State.poolLost (s : State) (pool : Nat) : Bool :=
  s.unreadable pool || (s.peek pool ≠ 0 && (s.lostIn (pool + 8) 8 || s.lostIn (s.poolEntry pool) 8))

/-- R320. -/
def pmapBody (i : Iss) (s : State) : Eff :=
  let va := i.sh.read64 i.f i.f.b 0
  let template := i.sh.read32 i.f i.f.c 0
  if 2 ^ 49 ≤ va.toNat ∨ template &&& ~~~(0x39C#32) ≠ 0 then i.illop s
  else
    let ttb := (s.ttb i.sh.ctx).getD 0
    let pool := s.poolAt i.sh.ctx
    let ecc : Trap := { cause := .ecc, det := 2, mask := i.sh.em, ta := va }
    let put (r : State × Nat) : Eff := .done (r.1.onSheaf i.k fun t => t.write true 1 i.f.a 0 (BitVec.ofNat 128 r.2))
    match s.walkHeld ttb va.toNat, s.tableEntry ttb va.toNat with
    | some st, _ => .held s [.refresh st]
    | none, .error _ => .trap (i.walkReport s ecc) ecc
    | none, .ok none => put (s, 2)
    | none, .ok (some pte) =>
      if pteV (s.peek64 pte) then put (s.mapFirst i.sh va.toNat pte template)
      else
        match s.poolHeld pool with
        | some st => .held s [.refresh st]
        | none =>
          if s.poolLost pool then .trap (i.walkReport s ecc) ecc else put (s.mapFirst i.sh va.toNat pte template)

def execPmap (f : Fields) (s : State) := issue rowPmap f pmapBody s

/-! ### PFWAIT (R321) -/

/-- The entries of the host fault queue, and whether it is full. -/
def fqSize : Nat := 4096
def State.fqFull (s : State) : Bool := fqSize ≤ s.fqTail - s.fqHead

/-- R321: append the record of an entry. -/
def State.postFault (s : State) (sh : Sheaf) (e : Filter) : State :=
  let bytes := bytesLe 4 e.ctx ++ bytesLe 4 (e.acc + 16 * (e.waiters % 4096) + 65536 * sh.core)
    ++ bytesLe 8 (e.page * 65536) ++ bytesLe 8 s.fqSeq ++ bytesLe 8 0
  let seq := s.fqSeq
  let s := s.onFilter e.ctx e.page e.cluster fun x => { x with record := some seq, lead := none }
  ({ s with
    fqTail := s.fqTail + 1
    fqSeq := (s.fqSeq + 1) % 2 ^ 48
    fqOut := s.fqOut ++ [seq] }.report (.faultRecord (s.fqTail % fqSize) bytes)).raiseIrq 0

/-- R319, R321: the unresolved entry that a sheaf's handler of its present level leads. -/
def State.ledBy (s : State) (k : Nat) (sh : Sheaf) : Option Filter :=
  (sh.lead.get? sh.tlvl).bind fun page => s.filters.find? fun e => e.lead = some k && e.page = page

/-- R321: legal for a led XLATE; the record, then the return as TRET.retry, without a swap. -/
def pfwaitBody (i : Iss) (s : State) : Eff :=
  let tc := i.sh.trapRegs.tc
  if tc &&& 0xFF ≠ 0x0B ∨ !tc.getLsbD 22 then i.illop s
  else
    match i.pcTrap (i.sh.tretTarget 0), s.ledBy i.k i.sh with
    | some t, _ => .trap s t
    | none, none => .to ((s.onSheaf i.k fun t => { t with lead := t.lead.del i.sh.tlvl }).tret i.k 0 false)
    | none, some e =>
      if s.fqFull then .stall s
      else .to (((s.postFault i.sh e).onSheaf i.k fun t => { t with lead := t.lead.del i.sh.tlvl }).tret i.k 0 false)

def execPfwait (f : Fields) (s : State) := issue rowPfwait f pfwaitBody s

/-! ### TLBI (R322) -/

/-- Whether a 64 KiB page is among the named ones: `none` names every page. -/
def inPages (r : Option (Nat × Nat)) (page : Nat) : Bool :=
  match r with | none => true | some (lo, n) => lo ≤ page && page < lo + n

/-- R322: whether a cached leaf is one of a context's for the pages; a block that covers one is. -/
def TlbEntry.named (e : TlbEntry) (ctx : Nat) (r : Option (Nat × Nat)) : Bool :=
  e.ctx = ctx &&
    (if e.block then
      (match r with
        | none => true
        | some (lo, n) => 0 < n && lo < (e.page / 8192 + 1) * 8192 && e.page / 8192 * 8192 < lo + n)
    else inPages r e.page)

/-- R322 step 1: remove a context's entries for pages, blocks that cover one included. -/
def State.shootdown (s : State) (ctx : Nat) (r : Option (Nat × Nat)) : State :=
  { s with tlbs := s.tlbs.mapv fun l => l.filter fun e => !e.named ctx r }

/-- R322: the 512 MiB blocks whose leaves a shootdown removes. -/
def State.namedBlocks (s : State) (ctx : Nat) (r : Option (Nat × Nat)) : List Nat :=
  s.tlbs.flatMap fun t => (t.2.filter fun e => e.block && e.named ctx r).map fun e => e.page / 8192

/-- R322 step 2: accesses issued before `seq` through a translation of the pages, or of the blocks: of sheafs and copies, of
accepted installs to their segments, of calls to their flush ranges. -/
def State.using (s : State) (ctx : Nat) (r : Option (Nat × Nat)) (blocks : List Nat) (seq : Nat) : Bool :=
  let hit (va : Nat) : Bool := inPages r (va / 65536) || blocks.contains (va / 2 ^ 29)
  (s.ops.any fun e => e.1 < seq && e.2.ctx = ctx
      && (match e.2.kind with
        | .load | .ldx | .store | .atom | .red | .cflush | .cinv => true
        | _ => false)
      && e.2.accs.any fun a => !a.done && hit a.va)
  || (s.engs.any fun e => e.1 < seq && e.2.ctx = ctx
      && e.2.acpys.any fun c => c.n ≠ 0 && (hit c.va || hit (c.va + c.n - 1)))
  || (s.installs.any fun e => e.1 < seq && e.2.ctx = ctx
      && (List.range (512 * e.2.segs.length)).any fun j => 512 * e.2.done ≤ j && hit (e.2.dest + 65536 * j))
  || s.calls.any fun e => e.1 < seq && e.2.ctx = ctx && e.2.pages.any hit

/-- R322: the entries are removed once, and the sheaf waits for what had been translated. -/
def tlbiBody (i : Iss) (s : State) : Eff :=
  let r : Option (Nat × Nat) :=
    if i.f.imm = 2#16 then none else some ((i.sh.read64 i.f i.f.b 0).toNat / 65536, i.c32 0)
  let first : Nat × List Nat × State :=
    let (n, t) := (s.shootdown i.sh.ctx r).newId
    let bs := s.namedBlocks i.sh.ctx r
    (n, bs, t.onSheaf i.k fun t => { t with rel := some { seq := n, markers := [], after := .tlbi bs } })
  let (n, blocks, t) : Nat × List Nat × State :=
    match i.sh.rel with
    | some x => match x.after with | .tlbi bs => (x.seq, bs, s) | _ => first
    | none => first
  if t.using i.sh.ctx r blocks n then .stall t
  else .done (t.onSheaf i.k fun t => { t with rel := none })

def execTlbi (f : Fields) (s : State) := issue rowTlbi f tlbiBody s

end Sys2Proof.Machine
end

