-- ==== Sys2Proof/Machine/Dispatcher.lean ====
section
/-! DEFINITION. The dispatcher (spec/27 R332 to R344, spec/25 R326): records become head, decisions, placement, buddy
blocks, the compactor, drains, and the end of workgroups and grids.  An event that is not enabled changes nothing
(log 2). -/

namespace Sys2Proof.Machine
open Sys2Proof.Forms

/-! ### The context-state block (R344) -/

/-- The rules of the block, over its 64 words. -/
def blockRules (ws : List Word) : Bool :=
  let q (j : Nat) : Nat := wd ws j + wd ws (j + 1) * 2 ^ 32
  q 0 % 1024 = 0 && q 2 % 64 = 0 && q 4 % 64 = 0 && q 6 % 256 = 0 && q 8 % 16 = 0 && q 10 % 64 = 0 && q 12 % 32 = 0
    && q 14 % 512 = 0 && wd ws 18 ≤ 4096 && wd ws 19 % 64 + wd ws 19 / 256 % 2 * 256 = wd ws 19
    && 10 ≤ wd ws 19 % 64 && wd ws 19 % 64 ≤ 40 && q 20 % 1024 = 0
    && (ws.drop 24).all fun w => w = 0

/-- R344: the block at a physical address, with the initial TSB; none when it breaks a rule or cannot be read. -/
def State.blockAt (s : State) (csb : Nat) : Option (CtxBlock × DWord) :=
  if !isHbm (csb + 255) || (List.range 256).any (fun j => s.unreadable (csb + j)) then none
  else
    let ws := toWords 64 (s.peekBytes csb 256)
    if !blockRules ws then none
    else
      let q (j : Nat) : Nat := wd ws j + wd ws (j + 1) * 2 ^ 32
      some ({ ttb := q 0, ctt := q 2, atd := q 4, trt := q 6, pool := q 8, flog := q 10, mlog := q 12, dqb := q 14
              flogn := wd ws 16, mlogn := wd ws 17, dqn := wd ws 18, dl := wd ws 19 % 64
              heath := (wd ws 19).testBit 8, slice := q 22 }, BitVec.ofNat 64 (q 20))

/-- R304: whether the read of a block is held in self-refresh. -/
def State.blockHeld (s : State) (csb : Nat) : Bool := s.heldAt false csb || s.heldAt false (csb + 128)

/-- R332, R344: a slot enters ERROR, and the host is told. -/
def State.slotError (s : State) (n : Nat) : State :=
  (({ s with slots := s.slots.upd n fun x => { x with state := 2, waits := [], lost := false, askClk := none } }).report (.slotError n)).raiseIrq 2

/-- R166: a block that cannot be read for an uncorrectable sector is reported. -/
def State.blockReport (s : State) (ctx : Nat) : State :=
  match s.ctx? ctx with
  | none => s
  | some c =>
    match ((List.range 256).map fun j => c.csb.toNat + j).find? fun a => isHbm a && s.unreadable a with
    | some a => s.uncorrectable (some ctx) { kind := 4, addr := a } a
    | none => s

/-- R344: the running slots of a context enter ERROR. -/
def State.failSlots (s : State) (ctx : Nat) : State :=
  match s.slots.filter fun e => e.2.ctxn = ctx && e.2.state = 1 with
  | [] => s
  | l => l.foldl (fun s e => s.slotError e.1) (s.blockReport ctx)

/-! ### RECORD_HEAD (R332, R333) -/

/-- Whether a context's queues run. -/
def State.queuesRun (s : State) (ctx : Nat) : Bool :=
  s.dev = .ready && ((s.ctx? ctx).map fun c => c.state ≠ 0 && !c.killed && !c.dying).getD false

/-- R332: whether the grid ahead of a slot's next record has had every workgroup dispatched. -/
def State.slotFree (s : State) (x : Slot) : Bool :=
  match x.cur.bind fun g => s.grid? g with
  | none => true
  | some g => g.total ≤ g.next

/-- R195, R349: whether a write of the host waits at its home: it precedes what a later doorbell announces. -/
def State.hostWrites (s : State) : Bool :=
  s.packets.any fun e => e.2.host && (match e.2.kind with | .load _ | .arrive .. => false | _ => true)

/-- R353: whether a slot's reads of another device have gone unanswered for too long. -/
def State.slotLate (s : State) (x : Slot) : Bool := (x.askClk.map fun c => decide (2 ^ 22 < s.dispClk - c)).getD false

/-- A slot waits for what its reads need, and, for an answer of another device, from now on. -/
def State.slotWaits (s : State) (n : Nat) (ws : List WaitOn) : State :=
  { s.fillBlocks ws with slots := s.slots.upd n fun x =>
      { x with waits := ws, askClk := if ws.any WaitOn.onPeer then x.askClk.or (some s.dispClk) else x.askClk } }

/-- R344: a context of which no block is in force has it read before a record of it (log 61); none where the block breaks a rule. -/
def State.withBlock (s : State) (ctx : Nat) : Option State :=
  (s.ctx? ctx).bind fun c =>
    if c.blk.isSome then some s
    else (s.blockAt c.csb.toNat).map fun b => s.onCtx ctx fun x => { x with blk := some b.1, tsb := b.2 }

/-- The stack in self-refresh that holds the read of that block. -/
def State.blockStack (s : State) (ctx : Nat) : Option Nat :=
  (s.ctx? ctx).bind fun c =>
    if c.blk.isSome then none else (s.heldStack false c.csb.toNat).or (s.heldStack false (c.csb.toNat + 128))

/-- R166: walks of event words that meet an uncorrectable page-table read are reported. -/
def State.reportEvents (s : State) (ctx : Nat) (vas : List Nat) : State :=
  (vas.filter fun va => s.walkLost false dispatcher ctx va).foldl (fun t va =>
    t.uncorrectable (some ctx) { kind := 4, addr := va } va) s

/-- R331, R332: a slot's next record is read, and refused or made a head grid. -/
def State.slotHead (s : State) (n : Nat) (x : Slot) (data : List Byte) : State :=
  let ctx := x.ctxn
  match s.blockStack ctx with
  | some st => s.slotWaits n [.refresh st]
  | none =>
  match s.withBlock ctx with
  | none => (s.blockReport ctx).slotError n
  | some s =>
  if x.lost || s.slotLate x then s.slotError n
  else
    match s.readLaunch (dispAgent ctx) (x.rbase.toNat + 64 * (x.rhead % 2 ^ x.rsize)) data with
    | .held ws => s.slotWaits n ws
    | .fault s _ _ => s.slotError n
    | .ok s none => s.slotError n
    | .ok s (some l) =>
      match (eventWords l.words).findSome? fun a => s.xlateHeld false dispatcher ctx a .look with
      | some st => s.slotWaits n [.refresh st]
      | none =>
      if !s.launchOk dispatcher ctx l then (s.reportEvents ctx (eventWords l.words)).slotError n
      else
        let (g, s) := s.newGrid ctx 0 none (.slot n) x.prio l true
        { s with slots := s.slots.upd n fun x =>
            { x with rhead := (x.rhead + 1) % 2 ^ x.rsize, ann := x.ann - 1, cur := some g, waits := []
                     askClk := none } }.readWaits g

def execRecordHead (q : QueueRef) (data : List Byte) (s : State) : Host.Outcome State Fault Refusal :=
  match q with
  | .device ctx => .next (if s.queuesRun ctx then s.pumpDevice ctx else s)
  | .slot n =>
    match s.slots.get? n with
    | none => .next s
    | some x =>
      .next (if x.state = 1 ∧ x.ann ≠ 0 ∧ s.queuesRun x.ctxn ∧ s.slotFree x ∧ !s.hostWrites then s.slotHead n x data else s)

/-- R334: EVENT_WORD_READ. -/
def execEventWordRead (grid : Nat) (s : State) : Host.Outcome State Fault Refusal := .next (s.readWaits grid)

/-! ### Buddy blocks (R15, R340) -/

/-- The block sizes of an allocation, largest first. -/
def blockSizes (b : Nat) : List Nat := (List.range 10).reverse.filterMap fun k => if b.testBit k then some (2 ^ k) else none

/-- Allocations to make: who, and how many units. -/
abbrev Wanted := List ((Nat × Nat) × Nat)

/-- Blocks of one size for everyone who needs one: the lowest free aligned places of `total` units. -/
def takeSize (total size : Nat) : List (Nat × Nat) → Wanted → Option (List (Nat × Nat) × List ((Nat × Nat) × Nat × Nat))
  | used, [] => some (used, [])
  | used, (who, b) :: rest =>
    if b &&& size = 0 then takeSize total size used rest
    else
      match (List.range (total / size)).find? fun j => used.all fun u => j * size + size ≤ u.1 || u.1 + u.2 ≤ j * size with
      | none => none
      | some j =>
        (takeSize total size ((j * size, size) :: used) rest).map fun r => (r.1, (who, j * size, size) :: r.2)

/-- R340: every block of every allocation, the largest sizes first; none when one finds no place. -/
def takeAll (total : Nat) (used : List (Nat × Nat)) (want : Wanted) : Option (List ((Nat × Nat) × Nat × Nat)) :=
  ((List.range 10).reverse.foldl (fun (p : Option (List (Nat × Nat) × List ((Nat × Nat) × Nat × Nat))) k =>
    p.bind fun p => (takeSize total (2 ^ k) p.1 want).map fun r => (r.1, p.2 ++ r.2)) (some (used, []))).map fun p => p.2

/-- What one kernel needs on a core. -/
structure Need where
  nsh : Nat
  rg : Nat
  gran : Nat
  deriving DecidableEq, Repr

def Grid.need (g : Grid) : Need :=
  { nsh := descNsh g.desc, rg := descRg g.desc, gran := (wd g.desc 3 + 4095) / 4096 }

/-- The SHIDs of a workgroup placed on a partition (R14). -/
def Need.on (n : Need) (part : Nat) : List Nat := (List.range n.nsh).filter fun k => k % 4 = part

/-- The workgroups resident on a core. -/
def State.wgsOn (s : State) (core : Nat) : Table Wg := s.resident.filter fun e => e.2.core = core

/-- R22, R340: the register blocks held on a partition: a sheaf frees its own when it exits. -/
def State.regsUsed (s : State) (core part : Nat) : List ((Nat × Nat) × Nat × Nat) :=
  (s.wgsOn core).flatMap fun e =>
    (e.2.regBlocks.filter fun b => b.1 % 4 = part
      && s.sheafs.any fun t => t.2.home = Home.wg e.1 && t.2.shid = b.1 && t.2.status ≠ .exited).map fun b => ((e.1, b.1), b.2)

/-- The scratchpad blocks held on a core. -/
def State.spUsed (s : State) (core : Nat) : List ((Nat × Nat) × Nat × Nat) :=
  (s.wgsOn core).flatMap fun e => e.2.spBlocks.map fun b => ((e.1, 0), b)

/-- R15: the sheafs resident on a partition of a compute core. -/
def State.residents (s : State) (core part : Nat) : Nat :=
  (s.sheafs.filter fun e => !e.2.heath && e.2.core = core && e.2.part = part && e.2.status ≠ .exited).length

/-- Units of a list of blocks. -/
def unitsOf (l : List ((Nat × Nat) × Nat × Nat)) : Nat := l.foldl (fun n b => n + b.2.2) 0

/-- R15: the totals: slots, sheafs, registers, scratchpad. -/
def State.totalsFit (s : State) (core : Nat) (n : Need) : Bool :=
  (s.wgsOn core).length < 64
    && (List.range 4).all (fun p => s.residents core p + (n.on p).length ≤ 64
      && unitsOf (s.regsUsed core p) + n.rg * (n.on p).length ≤ 512)
    && unitsOf (s.spUsed core) + n.gran ≤ 128

/-- The blocks a workgroup would take on a core, as it stands. -/
def State.blocksFor (s : State) (core : Nat) (n : Need) : Option (List (Nat × Nat × Nat) × List (Nat × Nat)) :=
  let regs := (List.range 4).map fun p =>
    takeAll 512 ((s.regsUsed core p).map fun b => b.2) ((n.on p).map fun k => ((0, k), n.rg))
  let sp := takeAll 128 ((s.spUsed core).map fun b => b.2) [((0, 0), n.gran)]
  match regs.all (fun r => r.isSome), sp with
  | true, some sp => some ((regs.flatMap fun r => r.getD []).map fun b => (b.1.2, b.2), sp.map fun b => b.2)
  | _, _ => none

/-- R15, R340: whether a workgroup fits on a core. -/
def State.fits (s : State) (core : Nat) (n : Need) : Bool := s.totalsFit core n && (s.blocksFor core n).isSome

/-! ### The compactor (R341) -/

/-- Whether a sheaf's registers may move. -/
def Sheaf.movable (sh : Sheaf) : Bool := sh.lane.isNone && sh.mx = 0 && sh.en = 0

/-- Whether a workgroup's scratchpad may move: no sheaf of it holds a lane, and nothing outstanding names it. -/
def State.spMovable (s : State) (w : Nat) : Bool :=
  (s.sheafs.all fun e => e.2.home ≠ Home.wg w || e.2.lane.isNone)
    && (s.ops.all fun e => !e.2.kind.scratch || e.2.accs.all fun a => e.2.bank a ≠ Home.wg w)
    && (s.engs.all fun e => e.2.wg ≠ w) && (s.calls.all fun e => e.2.wg ≠ w) && (s.installs.all fun e => e.2.wg ≠ w)
    && s.cores.all fun c => c.2.lattice.ops.all fun t => t.wg ≠ w || match t.op with | .smxu .. | .smxp .. => false | _ => true

/-- New blocks for those who moved. -/
def rePlace (old : List ((Nat × Nat) × Nat × Nat)) (moved : List ((Nat × Nat) × Nat × Nat)) (who : Nat × Nat) :
    List (Nat × Nat) :=
  let mine := moved.filter fun b => b.1 = who
  if mine = [] then (old.filter fun b => b.1 = who).map fun b => b.2 else mine.map fun b => b.2

/-- The allocations of a list of blocks, by owner. -/
def wantedOf (l : List ((Nat × Nat) × Nat × Nat)) : Wanted :=
  (l.map fun b => b.1).eraseDups.map fun who => (who, unitsOf (l.filter fun b => b.1 = who))

/-- R341: move what may move on one resource so that `extra` fits too, if it can. -/
def repack (total : Nat) (held : List ((Nat × Nat) × Nat × Nat)) (mv : Nat × Nat → Bool) (extra : Wanted) :
    List ((Nat × Nat) × Nat × Nat) :=
  let fixed := held.filter fun b => !mv b.1
  match takeAll total (fixed.map fun b => b.2) (wantedOf (held.filter fun b => mv b.1) ++ extra) with
  | none => held
  | some l => fixed ++ l.filter fun b => extra.all fun e => e.1 ≠ b.1

/-- R341: the compactor on one core, for a workgroup that needs `n`. -/
def State.compact (s : State) (core : Nat) (n : Need) : State :=
  let me := s.fresh
  let mvReg (who : Nat × Nat) : Bool :=
    s.sheafs.all fun e => !(e.2.home = Home.wg who.1 && e.2.shid = who.2) || e.2.movable
  let regs := (List.range 4).flatMap fun p =>
    repack 512 (s.regsUsed core p) mvReg ((n.on p).map fun k => ((me, k), n.rg))
  let sp := repack 128 (s.spUsed core) (fun who => s.spMovable who.1) [((me, 0), n.gran)]
  let put (e : Nat × Wg) : Nat × Wg :=
    if e.2.core ≠ core then e
    else
      (e.1, { e.2 with
        regBlocks := (regs.filter fun b => b.1.1 = e.1).map fun b => (b.1.2, b.2)
        spBlocks := (sp.filter fun b => b.1.1 = e.1).map fun b => b.2 })
  { s with wgs := s.wgs.map put }

/-! ### Placement (R17, R161, R338) -/

/-- R363, R366: whether a physical cluster is eligible for fusion. -/
def State.fusible (s : State) (cl : Nat) : Bool := (s.descr.get (72 + cl / 8)).getLsbD (cl % 8)

/-- R161, R169: whether a physical cluster may take a workgroup of a grid. -/
def State.clusterTakes (s : State) (g : Grid) (cl : Nat) : Bool :=
  match s.fused.get? cl with
  | some c => g.fuse && c = g.ctx
  | none => !g.fuse || (s.fusible cl && !s.clusterHeld cl && !s.resident.any fun e => s.cluster e.2.core = cl)

/-- R338: the cores for a grid's next workgroup or cluster. -/
def State.placeFor (s : State) (g : Grid) : Option (List Nat) :=
  let n := g.need
  let cores := List.range s.ncore
  if g.clus = 1 then
    (cores.foldl (fun (best : Option (Nat × Nat)) c =>
      let k := (s.wgsOn c).length
      let better := match best with | none => true | some b => k < b.1
      if better && s.clusterTakes g (s.cluster c) && s.fits c n then some (k, c) else best) none).map fun b => [b.2]
  else
    (cores.map fun c => s.cluster c).eraseDups.findSome? fun cl =>
      let ok := (s.clusterCores cl).filter fun c => s.fits c n
      if s.clusterTakes g cl && g.clus ≤ ok.length then some (ok.take g.clus) else none

/-! ### Dispatch (R27, R38, R331, R336 to R338) -/

/-- R336: the contexts that have resident work. -/
def State.residentCtx (s : State) (ctx : Nat) : Bool := s.resident.any fun e => e.2.ctx = ctx

/-- R336, R322: read a context's state block as it is switched in, and remove its TLB and filter entries. -/
def State.switchIn (s : State) (ctx : Nat) : State :=
  if s.residentCtx ctx then s
  else
    match (s.ctx? ctx).bind fun c => s.blockAt c.csb.toNat with
    | none => s
    | some (b, tsb) =>
      { (s.shootdown ctx none).dropFilters (fun e => e.ctx = ctx) with switches := s.switches + 1 }.onCtx ctx fun c =>
        { c with blk := some b, tsb := tsb, state := 2, inClk := s.dispClk, inOrder := s.switches, drain := none }

/-- R161: a cluster is fused for a context. -/
def State.fuse (s : State) (cl ctx : Nat) : State :=
  if (s.fused.get? cl).isSome then s
  else
    let s := s.flushCluster cl
    { s with fused := s.fused.put cl ctx }

/-- The lowest workgroup slot free on a core, and resident-slot index free on a partition (R27). -/
def State.freeWgSlot (s : State) (core : Nat) : Nat :=
  ((List.range 64).find? fun k => !(s.wgsOn core).any fun e => e.2.slot = k).getD 0
def State.freeSlot (s : State) (sh : Sheaf) : Nat :=
  ((List.range 64).find? fun k => !(s.mates sh).any fun e => e.2.slot = k).getD 0

/-- R13: the live mask of a SHID. -/
def liveMask (nthr shid : Nat) : Mask := maskOf fun t => 16 * shid + t < nthr

/-- R38, R331: a sheaf of a workgroup as it starts. -/
def Grid.newSheaf (g : Grid) (w core clk shid : Nat) : Sheaf :=
  { home := .wg w, ctx := g.ctx, core := core, heath := false, part := shid % 4, shid := shid, slot := 0, readyClk := clk
    pc := g.entry, live := liveMask g.nthr shid, em := liveMask g.nthr shid
    role := BitVec.ofNat 3 (roleOf g.desc shid), fpcr := g.fpcr
    s := g.args.zipIdx.foldl (fun (st : Store 32) p => st.set p.2 p.1) [] }

/-- R27: one sheaf becomes resident, and takes a lane if one is idle. -/
def State.addSheaf (s : State) (sh : Sheaf) : State :=
  let sh := { sh with slot := s.freeSlot sh }
  let (n, s) := s.newId
  { s with sheafs := s.sheafs ++ [(n, sh)] }.grantLanes sh 1

/-- One workgroup is dispatched to a core: the `r`-th of its cluster, with the numbers of all its members. -/
def State.addWg (s : State) (gid : Nat) (g : Grid) (peers : List Nat) (w core r : Nat) : State :=
  let i := g.next + r
  let blocks := (s.blocksFor core g.need).getD ([], [])
  let x : Wg :=
    { grid := gid, ctx := g.ctx, core := core, slot := s.freeWgSlot core, x := i % g.gx, y := i / g.gx % g.gy
      z := i / (g.gx * g.gy), prio := g.prio, nshf := descNsh g.desc, nreg := 8 * descRg g.desc, spsz := wd g.desc 3
      rank := r, peers := if g.clus = 1 then [] else peers, regBlocks := blocks.1, spBlocks := blocks.2
      lat := descLat g.desc }
  let s := { s with wgs := s.wgs ++ [(w, x)] }.acquireCore core
  let clk := (s.core core).clk
  (List.range (descNsh g.desc)).foldl (fun s k => s.addSheaf (g.newSheaf w core clk k)) s

/-- Dispatch a grid's next workgroup or cluster. -/
def State.dispatchOn (s : State) (gid : Nat) (g : Grid) (cores : List Nat) : State :=
  let s := s.switchIn g.ctx
  let s := if g.fuse then s.fuse (s.cluster (cores.headD 0)) g.ctx else s
  let ids := (List.range cores.length).map fun j => s.fresh + j
  let s := { s with fresh := s.fresh + cores.length }
  let s := (cores.zip ids).zipIdx.foldl (fun s p => s.addWg gid g ids p.1.2 p.1.1 p.2) s
  let s := s.onGrid gid fun x => { x with next := x.next + cores.length, w := 0 }
  match g.src with
  | .device ctx => s.pumpDevice ctx
  | .slot _ => s

/-! ### Decisions (R336, R337, R339) -/

/-- R304, R336: whether a grid is ready, and the block that its dispatch would read is not held. -/
def State.gridReady (s : State) (g : Grid) : Bool :=
  g.head && g.next < g.total && g.waited && s.queuesRun g.ctx
    && (match s.ctx? g.ctx with
      | none => false
      | some c => c.drain.isNone
          && (s.residentCtx g.ctx || (!s.blockHeld c.csb.toNat
            && (s.ctxs.filter fun e => s.residentCtx e.1).length < 64)))

/-- R337: the effective priority, and the place in the rotation. -/
def Grid.eff (g : Grid) : Nat := min 11 (g.prio + g.w / 1024)
def QueueRef.source : QueueRef → Nat
  | .slot n => n
  | .device c => 128 + c
def State.turnOf (s : State) (g : Grid) : Nat := (QueueRef.source g.src + 4224 - s.dispPtr) % 4224

/-- Put a grid into a list in the dispatcher's order. -/
def State.insertReady (s : State) (e : Nat × Grid) : List (Nat × Grid) → List (Nat × Grid)
  | [] => [e]
  | x :: r =>
    if x.2.eff < e.2.eff || (x.2.eff = e.2.eff && s.turnOf e.2 < s.turnOf x.2) then e :: x :: r
    else x :: State.insertReady s e r

/-- Ready grids in the dispatcher's order. -/
def State.readyOrder (s : State) : List (Nat × Grid) :=
  (s.grids.filter fun e => s.gridReady e.2).foldl (fun l e => s.insertReady e l) []

/-- R326: request a drain. -/
def State.requestDrain (s : State) (ctx : Nat) : State :=
  match s.ctx? ctx with
  | none => s
  | some c =>
    if c.drain.isSome || !s.residentCtx ctx then s
    else
      let cores := ((s.resident.filter fun e => e.2.ctx = ctx).map fun e => e.2.core).eraseDups
      s.onCtx ctx fun c => { c with state := 3, drain := some (cores.map fun k => (k, (s.core k).clk)) }

/-- A context's launch priority over all its cores: the highest of those R335 gives it on each (log 135). -/
def State.ctxLaunchPrio (s : State) (ctx : Nat) : Nat :=
  s.resident.foldl (fun m e => if e.2.ctx = ctx then max m e.2.prio else m) 0

/-- R339 step 2: the context to drain: below priority `p`, the lowest, among equals the one switched in most recently. -/
def State.drainChoice (s : State) (ctx p : Nat) : Option Nat :=
  (s.ctxs.foldl (fun (best : Option (Nat × Ctx)) e =>
    if e.1 = ctx || !s.residentCtx e.1 || p ≤ s.ctxLaunchPrio e.1 then best
    else
      match best with
      | none => some e
      | some b =>
        if s.ctxLaunchPrio e.1 < s.ctxLaunchPrio b.1
            || (s.ctxLaunchPrio e.1 = s.ctxLaunchPrio b.1 && b.2.inOrder < e.2.inOrder) then some e else best) none).map
    fun e => e.1

/-- R339: the target does not fit. -/
def State.misfit (s : State) (g : Grid) : State :=
  let n := g.need
  match (List.range s.ncore).find? fun c => s.totalsFit c n && (s.blocksFor c n).isNone with
  | some c => s.compact c n
  | none =>
    match s.drainChoice g.ctx g.prio with
    | some c => s.requestDrain c
    | none => s

/-- R344: whether a context would be switched in with a block that breaks a rule. -/
def State.badBlock (s : State) (ctx : Nat) : Bool :=
  !s.residentCtx ctx && ((s.ctx? ctx).map fun c => (s.blockAt c.csb.toNat).isNone).getD true

/-- R337: a grid's next workgroups are dispatched to cores; every other ready grid has waited for one decision more. -/
def State.dispatchReady (s : State) (order : List (Nat × Grid)) (gid : Nat) (g : Grid) (cores : List Nat) : State :=
  let aged := (order.filter fun e => e.1 ≠ gid).map fun e => e.1
  let s := aged.foldl (fun s n => s.onGrid n fun x => { x with w := x.w + 1 }) s
  { s.dispatchOn gid g cores with dispPtr := (QueueRef.source g.src + 1) % 4224 }

/-- R337 step 2: the next ready grid in the order that fits.  A context whose block breaks a rule is not switched in: its slots enter
ERROR, and the decision goes on (R344). -/
def State.dispatchNext (s : State) (order : List (Nat × Grid)) : List (Nat × Grid) → State
  | [] => s
  | e :: rest =>
    match if s.gridReady e.2 then s.placeFor e.2 else none with
    | none => s.dispatchNext order rest
    | some cores =>
      if s.badBlock e.2.ctx then (s.failSlots e.2.ctx).dispatchNext order rest else s.dispatchReady order e.1 e.2 cores

/-- R337: the target, or, where it does not fit, the next ready grid in the order that does then (R339). -/
def State.decide (s : State) (order : List (Nat × Grid)) : List (Nat × Grid) → State
  | [] => s
  | e :: rest =>
    match s.placeFor e.2 with
    | some cores =>
      if s.badBlock e.2.ctx then (s.failSlots e.2.ctx).decide order rest else s.dispatchReady order e.1 e.2 cores
    | none => (s.misfit e.2).dispatchNext order rest

/-- R337: one decision. -/
def State.decision (s : State) : State := s.decide s.readyOrder s.readyOrder

def execDispatchDecision (s : State) : Host.Outcome State Fault Refusal := .next s.decision

/-! ### The end of workgroups and grids (R17, R22, R24, R334) -/

def execWorkgroupDone (wg : Nat) (s : State) : Host.Outcome State Fault Refusal :=
  .next (s.finishWg wg)

/-- R334: the signal of a grid: performed; not performed, with a report; or held, none. -/
def State.signal (s : State) (g : Grid) : Option (State × Bool) :=
  if g.sig = 0 || g.failed then some (s, g.failed)
  else
    let a := dispAgent g.ctx
    match s.engXlate a .atomic g.sig with
    | .held _ => none
    | .fault s _ _ => some (s.report (.gridFailed g.ctx g.gid), true)
    | .ok s (l, _) =>
      if 2 ≤ l.tier then some (s, false)
      else if s.heldAt false l.addr || s.frozen l then none
      else if s.lostIn l.addr 8 then
        some ((s.uncorrectable (some g.ctx) { kind := 4, grid := g.gid.toNat, addr := g.sig } l.addr).report
          (.gridFailed g.ctx g.gid), true)
      else
        let old := leNat (s.peekBytes l.addr 8)
        some (s.homeWrite { ctx := g.ctx, va := g.sig } l.addr (bytesLe 8 (old + 1)), false)

def execGridRetire (grid : Nat) (s : State) : Host.Outcome State Fault Refusal :=
  match s.grid? grid with
  | none => .next s
  | some g =>
    let killed := ((s.ctx? g.ctx).map fun c => c.killed).getD true
    if g.total = g.doneWgs ∧ !killed ∧ s.grids.all fun e => e.2.parent ≠ some grid then
      match s.signal g with
      | none => .next s
      | some (s, failed) =>
        let s := { s with grids := s.grids.del grid }
        .next (match g.parent with
          | some p => if failed then s.failGrid p else s
          | none => s)
    else .next s

/-! ### Drains (R326) -/

/-- The record of a reset that no instruction caused (R325). -/
def resetRec (kind : Nat) : LogRec := { kind := kind }

def execDrainDeadline (ctx core : Nat) (s : State) : Host.Outcome State Fault Refusal :=
  match s.ctx? ctx with
  | none => .next s
  | some c =>
    match c.drain.bind fun t => t.get? core with
    | none => .next s
    | some start =>
      let dl := (c.blk.map fun b => b.dl).getD 40
      if 2 ^ dl ≤ (s.core core).clk - start ∧ s.resident.any fun e => e.2.ctx = ctx && e.2.core = core then
        .next (s.kill ctx (resetRec 5))
      else .next s

def execTimeSliceExpiry (ctx : Nat) (s : State) : Host.Outcome State Fault Refusal :=
  match s.ctx? ctx with
  | none => .next s
  | some c =>
    let slice := (c.blk.map fun b => b.slice).getD 0
    .next (if slice ≠ 0 ∧ slice ≤ s.dispClk - c.inClk then s.requestDrain ctx else s)

end Sys2Proof.Machine
end

