-- ==== Sys2Proof/Machine/Sync.lean ====
section
/-! DEFINITION. Group 0xB: fences, monitors, hurdles, CWAIT (spec/15 R211 to R222). -/

namespace Sys2Proof.Machine
open Sys2Proof.Forms

/-- R211: a release, an acquire, or both. -/
def fenceBody (i : Iss) (s : State) : Eff :=
  if i.f.d = 2#7 then
    if s.acquiring i.k ∨ s.syncing i.k then .stall s else .done (s.acquire i.k)
  else .hold (s.startRelease i.k (.fence (i.f.d = 1#7))) .release

def execFence (f : Fields) (s : State) := issue rowFence f fenceBody s

/-- R212: arm the monitor; on another device's page it is armed fired. -/
def monBody (i : Iss) (s : State) : Eff :=
  let va := i.memAddr (sext16 i.f.imm)
  i.walking s .load (i.threads.map fun t => (va t).toNat) <|
  match i.checkAll s .load accLoad 1 va with
  | .error t => .trap (i.walkReport s t) t
  | .ok [] => .done s
  | .ok (h :: _) =>
    .done ((s.cacheHits i.sh .look [h]).onSheaf i.k fun t =>
      { t with mon := some { line := lineOf h.loc.addr, fired := 2 ≤ h.loc.tier } })

def execMon (f : Fields) (s : State) := issue rowMon f monBody s

/-- R213. -/
def mwaitBody (i : Iss) (s : State) : Eff :=
  if s.acquiring i.k ∨ s.syncing i.k then .stall s
  else
    match i.sh.mon with
    | some m => if m.fired then .done ((s.acquire i.k).onSheaf i.k fun t => { t with mon := none }) else .wait s .mwait
    | none => .done (s.acquire i.k)

def execMwait (f : Fields) (s : State) := issue rowMwait f mwaitBody s

/-! ### Hurdles -/

/-- The address of a hurdle, B + sext(I16). -/
def Iss.hurdleAddr (i : Iss) : Word := i.sh.read32 i.f i.f.b 0 + i.f.imm.signExtend 32

/-- R205, R216 to R218: a hurdle's spot, or the trap. -/
def Iss.hurdleSpot (i : Iss) (s : State) (window : Bool) : Except Trap Spot :=
  match s.spCheck i.sh.home window 16 i.hurdleAddr with
  | .ok p => .ok p
  | .error (c, d) =>
    .error { cause := c, det := d, mask := i.sh.em, ta := i.hurdleAddr.zeroExtend 64, scratch := true }

/-- R215: a cause a hurdle operation of a sheaf meets. -/
def Iss.hurdleTrap (i : Iss) (c : Cause) : Trap := { cause := c, mask := i.sh.em, ta := i.hurdleAddr.zeroExtend 64 }

/-- R216. -/
def hinitBody (i : Iss) (s : State) : Eff :=
  let n := i.c32 0
  if n = 0 ∨ 32767 < n then i.illop s
  else
    match i.hurdleSpot s false with
    | .error t => .trap s t
    | .ok p => if s.usingScratch i.k ∨ s.acquiring i.k then .stall s else .done (s.hinitAt p.home p.off n)

def execHinit (f : Fields) (s : State) := issue rowHinit f hinitBody s

/-- R217: an arrival, at once with `.rlx`, else when the sheaf's release completes. -/
def harvBody (i : Iss) (s : State) : Eff :=
  match i.hurdleSpot s true with
  | .error t => .trap s t
  | .ok p =>
    if s.usingScratch i.k then .stall s
    else
      let bytes := i.sh.read32 i.f i.f.c 0
      if i.f.d = 1#7 then
        if s.acquiring i.k ∨ s.syncing i.k then .stall s else
        match s.arrive p.home p.off bytes with
        | .ok s => .done s
        | .error c => .trap s (i.hurdleTrap c)
      else .hold (s.startRelease i.k (.arrive p.home p.off bytes (i.hurdleAddr.zeroExtend 64))) .release

def execHarv (f : Fields) (s : State) := issue rowHarv f harvBody s

/-- R217. -/
def hdropBody (i : Iss) (s : State) : Eff :=
  match i.hurdleSpot s true with
  | .error t => .trap s t
  | .ok p =>
    if s.usingScratch i.k ∨ s.acquiring i.k ∨ s.syncing i.k then .stall s
    else
      match s.hdropAt p.home p.off with
      | .ok s => .done s
      | .error c => .trap s (i.hurdleTrap c)

def execHdrop (f : Fields) (s : State) := issue rowHdrop f hdropBody s

/-- R218: complete as an acquire, trap, or wait for the phase. -/
def hwaitBody (i : Iss) (s : State) : Eff :=
  let c := i.c32 0
  if 1 < c then i.illop s
  else
    match i.hurdleSpot s false with
    | .error t => .trap s t
    | .ok p =>
      if s.usingScratch i.k ∨ s.acquiring i.k ∨ s.syncing i.k then .stall s
      else
        let x := s.hurdle p.home p.off
        if x.phase ≠ (c = 1 : Bool) then .done ((s.putHurdle p.home p.off x).acquire i.k)
        else if x.dead then .trap s (i.hurdleTrap .hdead)
        else .wait (s.putHurdle p.home p.off x) (.hwait p.off (c = 1))

def execHwait (f : Fields) (s : State) := issue rowHwait f hwaitBody s

/-- R218. -/
def htestBody (i : Iss) (s : State) : Eff :=
  match i.hurdleSpot s false with
  | .error t => .trap s t
  | .ok p =>
    if s.usingScratch i.k ∨ s.acquiring i.k then .stall s
    else
      let x := s.hurdle p.home p.off
      .done ((s.putHurdle p.home p.off x).onSheaf i.k fun t => t.write true 1 i.f.a 0 (if x.phase then 1 else 0))

def execHtest (f : Fields) (s : State) := issue rowHtest f htestBody s

/-! ### CWAIT (R222) -/

/-- The path of I16[2:0]. -/
def pathOf (n : Nat) : Path :=
  match n with
  | 0 => .ld | 1 => .st | 2 => .ac0 | 3 => .ac1 | 4 => .ac2 | 5 => .mx | _ => .en

def cwaitBody (i : Iss) (s : State) : Eff :=
  let p := pathOf (i.f.imm &&& 7#16).toNat
  let n := i.b32 0
  if p.acquires ∧ (s.acquiring i.k ∨ s.syncing i.k) then .stall s
  else if i.sh.counter p ≤ n then .done (if p.acquires then s.acquire i.k else s)
  else .wait s (.cwait p n)

def execCwait (f : Fields) (s : State) := issue rowCwait f cwaitBody s

end Sys2Proof.Machine
end

