-- ==== Sys2Proof/Machine/MemEvents.lean ====
section
/-! DEFINITION. The events of memory and of trap entry: loads return, stores are performed, releases and walks complete,
accesses fail (spec/13 R176 to R196, spec/25 R312 to R318).  An event that is not enabled changes nothing (log 2). -/

namespace Sys2Proof.Machine

/-! ### TRAP_ENTRY (R312, R316) -/

/-- The trap that waits enters; or the oldest held fault does, after MX reaches 0. -/
def State.trapEntry (s : State) (k : Nat) : State :=
  match s.sheaf? k with
  | none => s
  | some sh =>
    if sh.mayEnter then
      match sh.pend, sh.held with
      | some p, _ =>
        if s.routeHeld sh p.cause then s else (s.onSheaf k fun t => { t with status := .issuing }).enterTrap k p
      | none, p :: rest => (s.onSheaf k fun t => { t with held := rest }).raise k p false
      | none, [] => s
    else s

def execTrapEntry (k : Nat) (s : State) : Host.Outcome State Fault Refusal := .next (s.trapEntry k)

/-! ### LOAD_RETURN (R221) -/

/-- R353: whether an operation was issued too long ago for another device to answer it. -/
def State.tooLate (s : State) (o : Op) : Bool := 2 ^ 22 < (s.core o.core).clk - o.clk

/-- R353: whether an answer or acknowledgement of another device comes too late for an operation. -/
def State.refusesLate (s : State) (o : Op) : Bool := s.tooLate o && o.accs.any fun a => a.loc.tier = 2 && !a.done

/-- Whether a counted instruction may return with this remote data. -/
def State.loadReady (s : State) (n : Nat) (o : Op) (data : List Val) : Bool :=
  match o.kind with
  | .load | .ldx | .lds =>
    s.mayReturn n o && !s.opFails o && !s.refusesLate o && (o.accs.filter Access.remote).length = data.length
  | .atom | .atoms => s.mayPerform n o && !s.opFails o && o.accs.all fun a => !a.remote || a.done
  | .kvtr =>
    (data = [] || !s.tooLate o) && (s.earlier n o).all fun p => !(p.kind.onLd && o.dest.covers o.words p.dest p.words)
  | .fqry | .lmst =>
    o.res ≠ [] && (s.earlier n o).all fun p => !(p.kind.onLd && o.dest.covers o.words p.dest p.words)
  | _ => false

/-- The registers of KVTR, FQRY and LMST, fixed before they return: thread by thread, `words` each. -/
def State.returnRes (s : State) (n : Nat) (o : Op) : State :=
  (o.accs.foldl (fun s a =>
    s.onSheaf o.sheaf fun sh =>
      if sh.status = .exited then sh
      else (List.range o.words).foldl (fun sh j =>
        match o.dest with
        | .v i => sh.writeV (i + j) a.thread ((o.res[a.thread * o.words + j]?).getD 0)
        | .s i => { sh with s := sh.s.set (i + j) ((o.res[j]?).getD 0) }
        | _ => sh) sh) s).opDone n o

/-- R164: a load that cannot return yet, whose staging block has been dropped since it issued, misses again. -/
def execLoadReturn (op : Nat) (data : List Val) (s : State) : Host.Outcome State Fault Refusal :=
  match s.ops.get? op with
  | none => .next s
  | some o =>
    if s.loadReady op o data then
      .next (match o.kind with
        | .kvtr =>
          match s.kvtrResult o (data.flatMap fun v => bytesLe 4 v.toNat) with
          | (s, .ok ws) => s.returnRes op { o with res := ws }
          | (s, .error ws) => s.onOp op fun p => { p with waits := ws }
        | .fqry | .lmst => s.returnRes op o
        | _ => s.returnAll op o (fun _ => true) data)
    else .next (match o.kind with | .load | .ldx => s.requestFills (s.missing o) | _ => s)

/-! ### STORE_PERFORMED (R182) -/

/-- Whether the local part of a store, STS or RED may be performed. -/
def State.storeReady (s : State) (n : Nat) (o : Op) : Bool :=
  (o.kind = .store || o.kind = .sts || o.kind = .red) && s.mayPerform n o && !s.opFails o && o.accs.any fun a => s.direct o a

def execStorePerformed (op : Nat) (s : State) : Host.Outcome State Fault Refusal :=
  match s.ops.get? op with
  | none => .next s
  | some o => .next (if s.storeReady op o then s.performStores op o else s)

/-- R184: FIFO_WRITEBACK. -/
def execFifoWriteback (core : Nat) (s : State) : Host.Outcome State Fault Refusal := .next (s.fifoWriteback core)

/-! ### RELEASE_COMPLETE (R178) -/

/-- What follows a sheaf's completed release. -/
def State.afterRelease (s : State) (k : Nat) (sh : Sheaf) (r : Release) : State :=
  let clear (s : State) : State := s.onSheaf k fun t => { t with rel := none }
  match r.after with
  | .fence acq =>
    let s := clear s
    ((if acq then s.acquire k else s).onSheaf k Sheaf.advance).wake k
  | .arrive h off bytes ta =>
    let s := clear s
    match s.arrive h off bytes with
    | .ok s => (s.onSheaf k Sheaf.advance).wake k
    | .error c =>
      (s.wake k).raise k
        { cause := c, det := 0, acc := 0, mask := sh.em, ta := ta, dest := 0, dv := false, imp := false, lead := false
          len := sh.len, ucls := true, w64 := false, rgnpc := 0, rgncnt := 0, seq := 0 } false
  | .exit => clear s
  | .launch => s.wake k
  | .tlbi _ => s

/-- R178: whether a queued call's release is complete. -/
def State.callReleased (s : State) (c : Call) : Bool := s.released c.sheaf c.rel

def execReleaseComplete (r : ReleaseRef) (s : State) : Host.Outcome State Fault Refusal :=
  match r with
  | .sheaf k =>
    match s.sheaf? k with
    | none => .next s
    | some sh =>
      match sh.rel with
      | none => .next s
      | some x =>
        let waits := sh.status = .stalled .release || sh.status = .exited
        .next (if waits && s.released k x then s.afterRelease k sh x else s)
  | .call c =>
    match s.calls.get? c with
    | none => .next s
    | some x =>
      .next (if x.state = .release && s.callReleased x && !s.callHeld x then
          (s.flushCall x).onCall c fun y => { y with state := .queued }
        else s)

/-- R156: WALK_COMPLETE: the sheaf issues again and the walk's result is checked there. -/
def execWalkComplete (k : Nat) (s : State) : Host.Outcome State Fault Refusal :=
  match s.sheaf? k with
  | none => .next s
  | some sh =>
    match sh.status with
    | .stalled (.walk _) =>
      .next { (s.onSheaf k fun t => { t with status := .issuing }) with cur := some k }
    | _ => .next s

/-! ### ACCESS_FAULT (R316, R318) -/

/-- The access type an operation reports. -/
def OpKind.acc : OpKind → Nat
  | .load | .ldx | .lds => 1
  | .atom | .atoms => 4
  | _ => 2

/-- The failing accesses of an operation, each with its cause: at its site, or, of the remote ones named, on the link. -/
def State.failing (s : State) (o : Op) (remote : Mask) (ecc : Bool) : List (Access × Cause × Nat) :=
  o.accs.filterMap fun a =>
    if a.remote && remote.getLsbD a.thread && !a.done then some (a, if ecc then (.ecc, 1) else (.xlate, 4))
    else (s.failsAt o a).map fun c => (a, c)

/-- The fault of an operation, precise in a handler (R313), else imprecise (R316), else after the sheaf's end (R318).  Of a
precise one the whole operation goes, with what other threads' parts have still to do (log 118).  What a heath block that has
ended had issued is settled when its call returns (R295). -/
def State.failOp (s : State) (n : Nat) (o : Op) (fs : List (Access × Cause × Nat)) : State :=
  match fs with
  | [] => s
  | (a, c, d) :: _ =>
    let hit (x : Access) : Bool := fs.any fun p => p.1.thread = x.thread && p.2.1 = c
    let p : Pending :=
      { cause := c, det := d, acc := o.kind.acc
        mask := if o.ucls then o.mask else maskOf fun t => fs.any fun p => p.1.thread = t && p.2.1 = c
        ta := BitVec.ofNat 64 a.va, dest := o.destField, dv := false, imp := true, lead := false, len := 0
        ucls := o.ucls, w64 := o.kind.onLd && o.words = 2, rgnpc := o.rgnpc, rgncnt := o.rgncnt, seq := n }
    match s.sheaf? o.sheaf with
    | none => s
    | some sh =>
      let s := if c = .ecc then
          s.uncorrectable (some o.ctx) { s.sheafRec sh 4 .ecc with addr := a.va } a.loc.addr
        else s
      if o.heath then
        (s.onOp n fun q => { q with accs := o.accs.filter fun x => !fs.any fun p => p.1.thread = x.thread }).raise o.sheaf
          { p with imp := false } false
      else if sh.status = .stalled (.access n) then
        let s := { s with ops := s.ops.del n }
        let s := if o.kind.onLd then s.doneLd o.sheaf n else s.decr o.sheaf .st
        let dv := o.kind.onLd && o.words ≤ 2
        (s.wake o.sheaf).raise o.sheaf { p with imp := false, dv := dv, len := sh.len } false
      else
        let rest := o.accs.filter fun x => !hit x
        let s := s.onOp n fun q => { q with accs := rest }
        let s := if sh.status = .exited then s.lateFault sh p else s.holdFault o.sheaf p
        if rest.all fun x => x.done && !o.kind.onLd then s.opDone n { o with accs := rest }
        else s

/-- R272: a KVTR whose read another device, or, unless `timed`, the host does not answer: its result is a failed translation's. -/
def State.failKvtr (s : State) (n : Nat) (o : Op) (timed : Bool) : State :=
  if o.res = [] ∧ o.waits.any fun w => match w with | .peer t _ => !timed || t = 2 | _ => false then
    s.onOp n fun p => { p with res := kvtrFail 4, waits := [] }
  else s

/-- R316, R318: accesses fail: where they stand, or, the remote ones named, on the link. -/
def execAccessFault (op : Nat) (remote : Mask) (ecc : Bool) (s : State) : Host.Outcome State Fault Refusal :=
  match s.ops.get? op with
  | none => .next s
  | some o =>
    let ready := if o.kind = .load ∨ o.kind = .ldx then s.mayReturn op o else s.mayPerform op o
    .next (if o.kind = .kvtr then (if remote = 0 then s else s.failKvtr op o false)
      else if ready then s.failOp op o (s.failing o remote ecc) else s)

/-- R353: TIER2_TIMEOUT. -/
def execTier2Timeout (op : Nat) (s : State) : Host.Outcome State Fault Refusal :=
  match s.ops.get? op with
  | none => .next s
  | some o =>
    let fs := (s.failing o 0xFFFF false).filter fun p => p.1.loc.tier = 2
    .next (if !s.tooLate o then s else if o.kind = .kvtr then s.failKvtr op o true else s.failOp op o fs)

/-! ### REMOTE_ACKNOWLEDGEMENT (R194, R195) -/

/-- The remote accesses of an operation are performed; an atomic's old values are kept. -/
def ackAll : List Access → List Val → List Access
  | [], _ => []
  | a :: rest, data =>
    if a.remote && !a.done then { a with done := true, e := data.headD 0 } :: ackAll rest (data.drop 1)
    else a :: ackAll rest data

def execRemoteAcknowledgement (op : Nat) (data : List Val) (s : State) : Host.Outcome State Fault Refusal :=
  match s.ops.get? op with
  | none => .next s
  | some o =>
    let waits := (o.kind = .store || o.kind = .red || o.kind = .atom) && o.accs.any fun a => a.remote && !a.done
    let enough := o.kind ≠ .atom || data.length = (o.accs.filter fun a => a.remote && !a.done).length
    if waits && enough && s.mayPerform op o && !s.opFails o && !s.refusesLate o then
      let accs := ackAll o.accs data
      let s := o.accs.foldl (fun s a => if a.remote then s.farWritten a.loc else s) (s.onOp op fun p => { p with accs := accs })
      .next (if o.kind ≠ .atom && accs.all fun a => a.done then s.opDone op o else s)
    else .next s

/-! ### Maintenance (R204, R224) -/

/-- Whether every earlier access of the sheaf to be maintained is performed. -/
def State.maintainReady (s : State) (n : Nat) (o : Op) : Bool := (s.earlier n o).all fun p => !p.kind.writes

def execRangeMaintenanceComplete (op : Nat) (s : State) : Host.Outcome State Fault Refusal :=
  match s.ops.get? op with
  | none => .next s
  | some o =>
    let held : Bool := (o.accs.flatMap Access.lines).any s.flushHeld
    .next (if (o.kind = .cflush || o.kind = .cinv) && s.maintainReady op o && !held then (s.maintain o).opDone op o else s)

def execHandleEvictionComplete (op : Nat) (s : State) : Host.Outcome State Fault Refusal :=
  match s.ops.get? op with
  | none => .next s
  | some o =>
    .next (if o.kind = .rhevict && !(o.accs.any fun a => s.flushHeld (lineOf a.loc.addr)) then
        (o.accs.foldl (fun s a => s.evictLine (lineOf a.loc.addr)) s).opDone op o
      else s)

/-! ### STAGING_FILL_DONE (R164), self-refresh (R304) -/

/-- R164, R366, R367: how many blocks the share of a stack of a die holds: half of STGGIB, split over the die's stacks. -/
def State.stagingBlocks (s : State) (die : Nat) : Nat :=
  let n := (s.stagingStacks die).length
  if n = 0 then 0 else leNat (s.descr.slice 16 4) * 8192 / n

/-- R159: the block that a full share gives up for a block: the least recent whose hint is not keep, else the least recent. -/
def State.stagingVictim (s : State) (block : Nat) : Option Nat :=
  let own := s.staging.filter fun b => dieOf (65536 * b.1) = dieOf (65536 * block) && s.stagingStack b.1 = s.stagingStack block
  if own.length < s.stagingBlocks (dieOf (65536 * block)) then none
  else
    match (own.filter fun b => b.2 ≠ 1).getLast? with
    | some b => some b.1
    | none => own.getLast?.map fun b => b.1

/-- R159, R164: a block enters its stack's share of the staging cache at the place its leaf's hint gives. -/
def State.stage (s : State) (block hint : Nat) : State :=
  let rest := match s.stagingVictim block with
    | some v => s.staging.filter fun b => b.1 ≠ v
    | none => s.staging
  if s.stagingBlocks (dieOf (65536 * block)) = 0 then s
  else { s with staging := if hint = 2 then rest ++ [(block, hint)] else (block, hint) :: rest }

/-- R164, R203: a fill ends, unless its stack holds it (R304); the prefetches that waited for it are made. -/
def execStagingFillDone (block : Nat) (s : State) : Host.Outcome State Fault Refusal :=
  match s.stagingFills.find? fun b => b.1 = block with
  | none => .next s
  | some b =>
    if ((s.stagingStack block).bind fun st => s.refresh.get? st).isSome then .next s
    else
      let t := { s with stagingFills := s.stagingFills.filter fun b => b.1 ≠ block }.stage block b.2
      .next t.runPrefetches

/-- R304: the stack's requests are held, and the host is told. -/
def execSelfRefreshEntry (stack : Nat) (s : State) : Host.Outcome State Fault Refusal :=
  if stack < 8 ∧ (s.refresh.get? stack).isNone then
    .next (({ s with refresh := s.refresh.put stack s.dispClk }.report (.selfRefresh stack true)).raiseIrq 3)
  else .next s

/-- R304: what a stack has held goes on: the calls whose blocks have ended return, prefetches are made, and fault-log records
written, and peers' block requests answered; every other request is made by its own event. -/
def State.resume (s : State) : State := s.resumeCalls.runPrefetches.runLog.serveBlocks

def execSelfRefreshExit (stack : Nat) (s : State) : Host.Outcome State Fault Refusal :=
  if (s.refresh.get? stack).isSome then
    .next (({ s with refresh := s.refresh.del stack }.report (.selfRefresh stack false)).raiseIrq 3).resume
  else .next s

end Sys2Proof.Machine
end

