-- ==== Sys2Proof/Machine/Platform.lean ====
section
/-! DEFINITION. Bring-up, retirement, commits, power and attestation (spec/31 R357 to R371).  An event that is not enabled
changes nothing (log 2). -/

namespace Sys2Proof.Machine

/-! ### Retirement tables (R363) -/

/-- A unit by its kind and number. -/
abbrev UnitRef := Nat × Nat

/-- The unit of a retirement entry. -/
def entryUnit (e : DWord) : UnitRef := ((e.extractLsb' 56 8).toNat, (e.extractLsb' 0 32).toNat)

/-- Whether the tables in force retire a unit. -/
def Flash.retired (f : Flash) (u : UnitRef) : Bool := f.entries.any fun e => entryUnit e = u

/-- R363: whether a kind and a number name a unit. -/
def unitOk (u : UnitRef) : Bool :=
  match u.1 with
  | 1 => u.2 < 256 && u.2 % 128 < 104
  | 2 => u.2 < 128
  | 3 => u.2 < 256
  | 4 => u.2 < 131072
  | 5 => u.2 < 96
  | _ => false

/-- R363: the enabled physical cores of a die: the 96 lowest that are not retired. -/
def Flash.enabled (f : Flash) (die : Nat) : List Nat :=
  ((List.range 104).filter fun c => !f.retired (1, die * 128 + c)).take 96

/-- The channels in service of a stack; the segments of a fallow stack; the lanes of a station; the heath cores. -/
def Flash.channels (f : Flash) (s : Nat) : List Nat := (List.range 32).filter fun c => !f.retired (3, s * 32 + c)
def Flash.segments (f : Flash) (s : Nat) : Nat :=
  32768 - ((f.entries.map entryUnit).filter fun u => u.1 = 4 && u.2 / 32768 = s).eraseDups.length
def Flash.heaths (f : Flash) : List Nat :=
  (List.range 128).filter fun h => !f.retired (2, h) && f.channels (h / 16) ≠ []

/-- The lanes a station runs: as many as its width of 4, 2, 1 or 0, the lowest in service (R352). -/
def Flash.lanes (f : Flash) (t : Nat) : List Nat :=
  let l := (List.range 4).filter fun i => !f.retired (5, t * 4 + i)
  l.take (if l.length = 3 then 2 else l.length)

/-! ### The configuration descriptor (R366 to R368) -/

/-- R367: a stack's bytes: capacity less its Reed–Solomon region; its share of the staging cache; its usable limit. -/
def Flash.room (f : Flash) (s : Nat) : Nat :=
  let cap := (f.channels s).length * 2 ^ 31
  cap - cap / 32
def Flash.share (f : Flash) (s : Nat) : Nat :=
  let k := ((List.range 4).filter fun j => f.channels (s / 4 * 4 + j) ≠ []).length
  if f.channels s = [] then 0 else f.stg * 2 ^ 29 / k
def Flash.limit (f : Flash) (s : Nat) : Nat := f.room s - f.share s

/-- R363: the physical clusters of a die whose four cores are enabled; those that hold any enabled core. -/
def Flash.wholeClusters (f : Flash) (die : Nat) : List Nat :=
  (List.range 26).filter fun k => (List.range 4).all fun j => (f.enabled die).contains (4 * k + j)
def Flash.heldClusters (f : Flash) (die : Nat) : List Nat :=
  (List.range 26).filter fun k => (List.range 4).any fun j => (f.enabled die).contains (4 * k + j)

/-- Bits set in a number. -/
def bitsOf (l : List Nat) : Nat := l.foldl (fun x i => x + 2 ^ i) 0

/-- R368: CLASS. -/
def Flash.class (f : Flash) : Nat :=
  let n := (f.enabled 0).length + (f.enabled 1).length
  let ch := (List.range 8).map fun s => (f.channels s).length
  let sg := (List.range 4).map f.segments
  let ln := (List.range 24).map fun t => (f.lanes t).length
  bitsOf ([(0, decide (n < 192)), (1, f.wholeClusters 0 ≠ f.heldClusters 0 || f.wholeClusters 1 ≠ f.heldClusters 1),
    (2, decide (f.heaths.length < 128)), (3, ch.any fun c => 0 < c && c < 32), (4, ch.any (· = 0)),
    (5, sg.any (· < 32768)), (6, sg.any (· = 0)), (7, ln.any fun c => 0 < c && c < 4), (8, ln.any (· = 0))].filterMap
    fun p => if p.2 then some p.1 else none)

/-- R366, R367: the descriptor, by offset: (offset, bytes, value). -/
def Flash.fields (f : Flash) : List (Nat × Nat × Nat) :=
  let e0 := f.enabled 0
  let e1 := f.enabled 1
  let n := e0.length + e1.length
  let pbf := n * 557056 / 10
  let chans := (List.range 8).foldl (fun x s => x + (f.channels s).length) 0
  let fst := ((List.range 4).filter fun s => f.segments s ≠ 0).length
  let lanes := (List.range 24).foldl (fun x t => x + (f.lanes t).length) 0
  [(0, 4, 1), (4, 4, f.class), (8, 4, n), (12, 4, e0.length + e1.length * 65536), (16, 4, f.stg), (20, 4, f.heaths.length),
   (24, 4, (List.range 4).foldl (fun x s => x + f.segments s) 0), (28, 4, lanes),
   (32, 4, n * 2176 / 10), (36, 4, n * 272 / 10), (40, 4, pbf), (44, 4, 2 * pbf), (48, 4, 4 * pbf),
   (52, 4, 100 * chans), (56, 4, 1600 * fst), (60, 4, 25 * lanes),
   (64, 8, (List.range 8).foldl (fun x s => x + f.limit s) 0),
   (72, 8, bitsOf (f.wholeClusters 0) + bitsOf (f.wholeClusters 1) * 2 ^ 32), (80, 16, bitsOf f.heaths)]
  ++ ((List.range 8).map fun s => (96 + 4 * s, 4, bitsOf (f.channels s)))
  ++ ((List.range 8).map fun s => (128 + 8 * s, 8, f.limit s))
  ++ ((List.range 4).map fun s => (192 + 4 * s, 4, f.segments s))
  ++ ((List.range 24).map fun t =>
    let l := f.lanes t
    (208 + t, 1, bitsOf l + 16 * l.length + if l = [] then 0 else 128))
  ++ ((List.range 208).map fun k =>
    (256 + k, 1, if k < e0.length then (e0[k]?).getD 0 else if k < n then 128 + (e1[k - e0.length]?).getD 0 else 255))
  ++ ((List.range 48).map fun k => (464 + k, 1, 255))

/-- The descriptor as bytes. -/
def Flash.descriptor (f : Flash) : Store 8 := f.fields.foldl (fun m x => Store.blit m x.1 (bytesLe x.2.1 x.2.2)) []

/-- The descriptor of a device in HOLD: bit 31 of CLASS (R360). -/
def holdDescriptor : Store 8 := [(7, 0x80)]

/-- R369: whether stage 6 finds the configuration unfit. -/
def Flash.unfit (f : Flash) : Bool :=
  [0, 1].any (fun d => (f.enabled d).length < 4 || (List.range 4).all fun j => f.channels (4 * d + j) = [])
    || (List.range 8).any fun s => f.room s < f.share s

/-! ### Bring-up (R358, R362) -/

/-- Everything volatile is as at power-on; the fallow tier and the configuration flash stay (R360).  An install that runs
ends INVALID (R365).  The wiring of its stations stays (R356).  What the outside world has still to do, and what it has been told, are its own. -/
def State.cold (s : State) (dev : DevState) : State :=
  let seg (g : Seg) : Seg := if g.state = .install then { g with state := .invalid } else g
  { State.reset with
    mem := s.mem.filter fun c => isFallow c.1
    badSectors := s.badSectors.filter fun b => isFallow (64 * b)
    segs := s.segs.mapv seg
    flash := s.flash, agenda := s.agenda, reports := s.reports, msix := s.msix, corrected := s.corrected
    fresh := s.fresh, stnPort := s.stnPort, dev := dev }

def execPowerOn (s : State) : Host.Outcome State Fault Refusal :=
  .next (if s.dev = .off then s.cold .bringup else s)

/-- The stage that tests a kind of unit, for the record of one that is skipped. -/
def stageOf (kind : Nat) : Nat := match kind with | 1 => 2 | 5 => 5 | _ => 4

/-- R362: a stage's summary. -/
def stageSummary (k : Nat) (failed : Bool) : UnitResult :=
  { stage := k, result := if failed then 1 else 0, kind := 0, unit := 0, detail := 0 }

/-- R358, R362: the records of one stage, its summary last, and whether it fails. -/
def Flash.stage (f : Flash) (results : List UnitResult) (k : Nat) : List UnitResult × Bool :=
  let mine := results.filter fun r => r.stage = k && (r.result = 1 || (r.result = 3 && k = 5))
    && !f.retired (r.kind, r.unit)
  let skipped := ((f.entries.map entryUnit).filter fun u => stageOf u.1 = k).map fun u =>
    { stage := k, result := 2, kind := u.1, unit := u.2, detail := 0 : UnitResult }
  let failed := mine.any fun r => r.result = 1
  (mine ++ skipped ++ [stageSummary k failed], failed)

/-- R358: stages 1 to 5 in order, up to the first that fails: the log, and that stage (0 when none does). -/
def Flash.stages (f : Flash) (results : List UnitResult) : List UnitResult × Nat :=
  [1, 2, 3, 4, 5].foldl (fun (p : List UnitResult × Nat) k =>
    if p.2 ≠ 0 then p
    else
      let r := f.stage results k
      (p.1 ++ r.1, if r.2 then k else 0)) ([], 0)

/-- R363: the segments a table retires are OUT. -/
def Flash.outSegs (f : Flash) (t : Table Seg) : Table Seg :=
  f.entries.foldl (fun t e =>
    let u := entryUnit e
    if u.1 = 4 then t.put u.2 { (t.get? u.2).getD {} with state := .out } else t) t

/-- R359: how many records the self-test log holds; later ones find no place (log 110). -/
def logSize : Nat := 4096

/-- R358, R361: stage 1 has passed. -/
def State.passStage1 (s : State) : State :=
  if s.dev = .bringup then { s with stage1 := true, log := (s.flash.stage [] 1).1 } else s

/-- R358, R363, R366: bring-up ends, with the results of the units' tests; a failure of stage 1 after it has passed is no
result. -/
def execBringupComplete (results : List UnitResult) (s : State) : Host.Outcome State Fault Refusal :=
  let r := s.flash.stages results
  if s.dev ≠ .bringup ∨ (s.stage1 ∧ r.2 = 1) then .next s
  else
    let hold (log : List UnitResult) (k : Nat) : State :=
      { s with log := log.take logSize, fstage := k, stage1 := k ≠ 1, dev := .hold, descr := holdDescriptor }
    if r.2 ≠ 0 then .next (hold r.1 r.2)
    else if s.flash.unfit then .next (hold (r.1 ++ [stageSummary 6 true]) 6)
    else
      .next { s with
        log := (r.1 ++ [stageSummary 6 false]).take logSize
        fstage := 0, stage1 := true, dev := .ready, descr := s.flash.descriptor, segs := s.flash.outSegs s.segs }

/-- R360: accepted in HOLD, and in READY while no context exists. -/
def execReboot (s : State) : Host.Outcome State Fault Refusal :=
  match s.dev with
  | .hold => .next { s.cold .bringup with cmt := s.cmt, flashNext := s.flashNext }
  | .ready =>
    .next (if s.ctxs.all fun e => e.2.state = 0 then { s.cold .bringup with cmt := s.cmt, flashNext := s.flashNext } else s)
  | .bringup | .off => .next s

/-- R365, R371: power goes: a commit being written leaves the copy in force. -/
def execPowerLoss (s : State) : Host.Outcome State Fault Refusal := .next (s.cold .off)

/-- R371: the controller reports the event and removes power. -/
def execThermalTrip (zone : Nat) (s : State) : Host.Outcome State Fault Refusal :=
  .next ((s.report (.trip zone)).cold .off)

/-! ### Commits (R364, R365) -/

/-- The commit key in force. -/
def Flash.commitKey (f : Flash) : List Byte := f.key.getD Config.factoryKey

/-- R364: the host writes the commit buffer. -/
def State.writeBuffer (s : State) (off : Nat) (bs : List Byte) : State :=
  { s with buffer := Store.blit s.buffer (off % 65536) (bs.take (65536 - off % 65536)) }

/-- Bytes of the commit buffer, and a field of it. -/
def State.cmtBytes (s : State) (a n : Nat) : List Byte := s.buffer.slice a n
def State.cmtField (s : State) (a n : Nat) : Nat := leNat (s.cmtBytes a n)

/-- The bytes ahead of SIGLEN; none when FMT, NENT or KEYLEN does not give them. -/
def State.cmtBody (s : State) : Option Nat :=
  let n := s.cmtField 4 4
  if s.cmtField 0 4 = 1 then if n ≤ 4096 then some (24 + 8 * n) else none
  else if s.cmtField 0 4 = 2 then if n = 0 ∧ s.cmtField 24 2 = 1793 then some (26 + 1793) else none
  else none

/-- The entries of an FMT 1 object. -/
def State.cmtEntries (s : State) : List DWord :=
  if s.cmtField 0 4 = 1 then (List.range (s.cmtField 4 4)).map fun e => BitVec.ofNat 64 (s.cmtField (24 + 8 * e) 8) else []

/-- The other rules of BADFORMAT. -/
def State.cmtOk (s : State) : Bool :=
  let stg := s.cmtField 20 4
  s.cmtField 8 8 = Config.serial.toNat
    && (stg = 0 || (s.cmtField 0 4 = 1 && 16 ≤ stg && stg ≤ 128 && stg % 8 = 0))
    && s.cmtEntries.all fun e => unitOk (entryUnit e)

/-- R364: the tables with the entries they lack, CSEQ filled in. -/
def Flash.adding (f : Flash) (seq : Word) (es : List DWord) : List DWord :=
  es.foldl (fun (l : List DWord) e =>
    if l.any fun x => entryUnit x = entryUnit e then l
    else l ++ [(e &&& 0xFF000000FFFFFFFF#64) ||| ((seq.zeroExtend 64 &&& 0xFFFFFF#64) <<< 32)]) f.entries

/-- R364: the flash an object asks for, or why it is refused. -/
def State.commitOf (s : State) : Except CmtStat Flash :=
  match s.cmtBody with
  | none => .error .badformat
  | some n =>
    let sig := s.cmtBytes (n + 2) (s.cmtField n 2)
    if !Config.falconVerifies s.flash.commitKey (s.cmtBytes 0 (n + 2)) sig then .error .badsig
    else
      let seq := s.flash.seq + 1
      if s.cmtField 16 4 ≠ seq.toNat then .error .badseq
      else if !s.cmtOk then .error .badformat
      else if s.cmtField 0 4 = 2 then .ok { s.flash with seq := seq, key := some (s.cmtBytes 26 1793) }
      else
        let es := s.flash.adding seq s.cmtEntries
        if 4096 < es.length then .error .full
        else .ok { s.flash with entries := es, seq := seq, stg := if s.cmtField 20 4 = 0 then s.flash.stg else s.cmtField 20 4 }

/-- R359, R360, R365: COMMIT in READY or HOLD, ignored while one is being written. -/
def execCommit (s : State) : Host.Outcome State Fault Refusal :=
  if (s.dev = .ready ∨ s.dev = .hold) ∧ s.cmt ≠ .busy then
    match s.commitOf with
    | .error e => .next { s with cmt := e }
    | .ok f => .next { s with cmt := .busy, flashNext := some f }
  else .next s

/-- R365: the copy not in force is written, and comes into force; or the flash fails. -/
def execCommitComplete (ok : Bool) (s : State) : Host.Outcome State Fault Refusal :=
  match s.flashNext with
  | none => .next s
  | some f =>
    .next (if ok then { s with flash := f, flashNext := none, cmt := .ok }
      else { s with flashNext := none, cmt := .flashfail })

/-! ### Attestation (R361, R370) -/

/-- R361: whether stage 1 has passed. -/
def State.attests (s : State) : Bool := s.dev ≠ .off && s.stage1

/-- SPDM 1.2's codes of the answers, and of the errors Unspecified, UnsupportedRequest and InvalidRequest (log 13). -/
def spdmError : Nat := 0x7F

/-- R361: before stage 1 passes, every request is answered with ERROR, Unspecified; after it, with the body given. -/
def State.spdmAnswer (s : State) (code : Nat) (body : List Byte) : State :=
  if s.dev = .off then s
  else if s.attests then s.report (.spdm code body) else s.report (.spdm spdmError [5, 0])

/-- Bytes of an answer that nothing but SPDM 1.2 gives: `n` from place `i` (log 13). -/
def openBytes (code : Nat) (req : List Byte) (i n : Nat) : List Byte :=
  (List.range n).map fun j => ((Config.spdmBody code req)[i + j]?).getD 0

/-- R370: VERSION in SPDM 1.2's layout (log 13): one entry, version 1.2. -/
def execGetVersion (_req : List Byte) (s : State) : Host.Outcome State Fault Refusal :=
  .next (s.spdmAnswer 0x04 [0, 0, 0, 1, 0x00, 0x12])

/-- R370: the flags of CAPABILITIES in SPDM 1.2's layout (log 13): certificates, CHALLENGE and signed measurements; of the others only
CACHE_CAP, MEAS_FRESH_CAP and ALIAS_CERT_CAP, which need no other message, are open, and no session is established. -/
def capabilityFlags (req : List Byte) : Word :=
  0x16#32 ||| (BitVec.ofNat 32 (leNat (openBytes 0xE1 req 0 4)) &&& 0x40021#32)

/-- R370: CAPABILITIES in SPDM 1.2's layout (log 13): the time exponent and the two sizes are open. -/
def execGetCapabilities (req : List Byte) (s : State) : Host.Outcome State Fault Refusal :=
  .next (s.spdmAnswer 0x61
    ([0, 0, 0] ++ openBytes 0xE1 req 4 1 ++ [0, 0] ++ bytesOf (capabilityFlags req) ++ openBytes 0xE1 req 5 8))

/-- R370: whether the list of extended algorithms of a request, at an offset, offers one. -/
def offers (req : List Byte) (off n : Nat) (alg : Word) : Bool :=
  (List.range n).any fun i => (req.drop (off + 4 * i)).take 4 = bytesOf alg

/-- R370: the algorithms selected, in SPDM 1.2's layout (log 13): no base algorithm; of the extended ones offered, Falcon-1024
and SHAKE256. -/
def algorithms (req : List Byte) : List Byte :=
  let na := ((req[28]?).getD 0).toNat
  let nh := ((req[29]?).getD 0).toNat
  let asym := if offers req 32 na Config.spdmFalcon then bytesOf Config.spdmFalcon else []
  let hash := if offers req (32 + 4 * na) nh Config.spdmShake then bytesOf Config.spdmShake else []
  [0, 0] ++ bytesLe 2 (36 + asym.length + hash.length)
    ++ openBytes 0xE3 req 0 6
    ++ List.replicate 20 0 ++ bytesLe 1 (asym.length / 4) ++ bytesLe 1 (hash.length / 4) ++ [0, 0] ++ asym ++ hash

def execNegotiateAlgorithms (req : List Byte) (s : State) : Host.Outcome State Fault Refusal :=
  .next (s.spdmAnswer 0x63 (algorithms req))

/-- R370: a digest of 64 bytes. -/
def digest (msg : List Byte) : List Byte := bytesLe 64 (Config.shake256 msg).toNat

/-- R370: DIGESTS in SPDM 1.2's layout (log 13): the mask of the one slot, and the digest of its chain. -/
def execGetDigests (_req : List Byte) (s : State) : Host.Outcome State Fault Refusal :=
  .next (s.spdmAnswer 0x01 ([0, 1] ++ digest Config.certificateChain))

/-- R370: CERTIFICATE in SPDM 1.2's layout (log 13): the slot, the lengths of the portion of the chain that the request names by its
offset and length and of what follows it, and the portion; InvalidRequest of any slot but 0. -/
def execGetCertificate (req : List Byte) (s : State) : Host.Outcome State Fault Refusal :=
  let rest := Config.certificateChain.drop (leNat ((req.drop 4).take 2))
  let part := rest.take (leNat ((req.drop 6).take 2))
  .next (if ((req[2]?).getD 0) &&& 0xF#8 = 0 then
      s.spdmAnswer 0x02 ([0, 0] ++ bytesLe 2 part.length ++ bytesLe 2 (rest.length - part.length) ++ part)
    else s.spdmAnswer spdmError [1, 0])

/-- R362, R363: the bytes of the self-test log and of the retirement tables. -/
def UnitResult.bytes (r : UnitResult) : List Byte :=
  bytesLe 4 (r.stage + 256 * r.result + 65536 * r.kind) ++ bytesLe 4 r.unit ++ bytesLe 8 r.detail.toNat
def Flash.tableBytes (f : Flash) : List Byte :=
  f.entries.flatMap (fun e => bytesLe 8 e.toNat) ++ List.replicate (8 * (4096 - f.entries.length)) 0

/-- R370: what each measurement covers. -/
def State.measured (s : State) (i : Nat) : List Byte :=
  match i with
  | 1 => Config.firmware
  | 2 => s.flash.commitKey
  | 3 => s.flash.tableBytes ++ bytesOf s.flash.seq
  | 4 => s.descr.slice 0 512
  | _ => s.log.flatMap UnitResult.bytes

/-- R370: a measurement as SPDM 1.2 lays out its block (log 13): the index, the DMTF specification, the size; the value's type,
its size, and the digest. -/
def State.measureBlock (s : State) (i : Nat) : List Byte :=
  bytesLe 1 i ++ [1] ++ bytesLe 2 67 ++ [Config.spdmValueType i] ++ bytesLe 2 64 ++ digest (s.measured i)

/-- The nonce and the opaque data of an answer. -/
def State.spdmTail (s : State) (req : List Byte) : List Byte :=
  let o := (Config.spdmOpaque req).take 65535
  bytesLe 32 (Config.spdmNonce s.fresh).toNat ++ bytesLe 2 o.length ++ o

/-- An answer that has taken a nonce. -/
def State.spdmFresh (s : State) (code : Nat) (body : List Byte) : State :=
  if s.attests then { s.spdmAnswer code body with fresh := s.fresh + 1 } else s.spdmAnswer code body

/-- R370: the indices a summary hash covers: none, the trusted computing base, or all. -/
def summaryOf (req : List Byte) : List Nat :=
  let k := ((req[3]?).getD 0).toNat
  if k = 0xFF then [1, 2, 3, 4, 5] else if k = 1 then Config.spdmTcb else []

/-- R370: CHALLENGE_AUTH: the digest of the chain, a nonce, the digest of the measurements asked for as they are now, and the
signature with the identity key. -/
def State.challengeBody (s : State) (req : List Byte) : List Byte :=
  let sum := if (req[3]?).getD 0 = 0 then [] else digest ((summaryOf req).flatMap s.measureBlock)
  openBytes 0x83 req 0 2 ++ digest Config.certificateChain
    ++ bytesLe 32 (Config.spdmNonce s.fresh).toNat ++ sum ++ (s.spdmTail req).drop 32

def execChallenge (req : List Byte) (s : State) : Host.Outcome State Fault Refusal :=
  .next (s.spdmFresh 0x03 (s.challengeBody req ++ Config.falconSign (req ++ s.challengeBody req)))

/-- R370: the measurements asked for: one index, all (0xFF), or none. -/
def measuresOf (req : List Byte) : List Nat :=
  let i := ((req[3]?).getD 0).toNat
  if i = 0xFF then [1, 2, 3, 4, 5] else if 1 ≤ i ∧ i ≤ 5 then [i] else []

/-- R370: MEASUREMENTS in SPDM 1.2's layout (log 13): for index 0 how many there are; the blocks asked for, a nonce and the opaque
data; signed where the request asks for it. -/
def State.measureBody (s : State) (req : List Byte) : List Byte :=
  let blocks := (measuresOf req).flatMap s.measureBlock
  [if (req[3]?).getD 0 = 0 then 5 else 0, ((Config.spdmBody 0xE0 req)[1]?).getD 0] ++ bytesLe 1 (measuresOf req).length
    ++ bytesLe 3 blocks.length ++ blocks ++ s.spdmTail req

def execGetMeasurements (req : List Byte) (s : State) : Host.Outcome State Fault Refusal :=
  let sign := if ((req[2]?).getD 0).getLsbD 0 then Config.falconSign (req ++ s.measureBody req) else []
  .next (s.spdmFresh 0x60 (s.measureBody req ++ sign))

/-- R361: ERROR: UnsupportedRequest, or Unspecified before stage 1 passes. -/
def execSpdmUnsupported (req : List Byte) (s : State) : Host.Outcome State Fault Refusal :=
  .next (s.spdmAnswer spdmError [7, (req[1]?).getD 0])

end Sys2Proof.Machine
end

