-- ==== Sys2Proof/Machine/Link.lean ====
section
/-! DEFINITION. Host link and UALink (spec/29): the management registers, doorbells, host translations, completions of host
faults, and the requests of peers and the host.  An event that is not enabled changes nothing (log 2). -/

namespace Sys2Proof.Machine

/-! ### Queue slots (R332, R347 to R349, R360) -/

/-- A slot; one that nothing has written is as at reset. -/
def State.slot (s : State) (n : Nat) : Slot := (s.slots.get? n).getD {}

/-- Change a slot. -/
def State.onSlot (s : State) (n : Nat) (g : Slot → Slot) : State := { s with slots := s.slots.put n (g (s.slot n)) }

/-- R348, R360: whether a slot's registers may be written. -/
def State.slotOpen (s : State) (n : Nat) : Bool := s.dev = .ready && n < 128 && (s.slot n).state ≠ 1

/-- R347: a write of CTL: the owner and the priority; a priority of 12 or more is an error; `go` restarts. -/
def State.writeSlotCtl (s : State) (n : Nat) (v : DWord) (go : Bool) : State :=
  let prio := (v.extractLsb' 16 4).toNat
  let s := s.onSlot n fun x => { x with ctxn := (v.extractLsb' 0 12).toNat, prio := prio }
  if 12 ≤ prio then s.slotError n
  else if go then s.onSlot n fun x => { x with state := 1, waits := [], lost := false, askClk := none } else s

def execSlotCtlWrite (slot : Nat) (reg : SlotReg) (v : DWord) (s : State) : Host.Outcome State Fault Refusal :=
  if s.slotOpen slot then
    .next (match reg with
      | .ctl => s.writeSlotCtl slot v (v.getLsbD 31)
      | .rbase => s.onSlot slot fun x => { x with rbase := v }
      | .rsize => s.onSlot slot fun x => { x with rsize := (v.extractLsb' 0 5).toNat })
  else .next s

/-- R347: a write of CTL with RESTART. -/
def execSlotRestart (slot : Nat) (v : DWord) (s : State) : Host.Outcome State Fault Refusal :=
  .next (if s.slotOpen slot then s.writeSlotCtl slot v true else s)

/-- R349: the records a doorbell names are announced, unless they are fewer than before; R360: outside READY it is
refused and counted. -/
def execDoorbell (slot : Nat) (t : Word) (s : State) : Host.Outcome State Fault Refusal :=
  match s.dev with
  | .ready =>
    if 128 ≤ slot then .next s
    else
      let x := s.slot slot
      let k := (t.toNat + 2 ^ x.rsize - x.rhead % 2 ^ x.rsize) % 2 ^ x.rsize
      .next (if x.ann < k then s.onSlot slot fun x => { x with ann := k } else s)
  | .hold => .next { s with lastDb := 1, dbRef := min 255 (s.dbRef + 1) }
  | .bringup => .next { s with lastDb := 2, dbRef := min 255 (s.dbRef + 1) }
  | .off => .next s

/-! ### Contexts (R344, R347, R348, R360) -/

/-- R347: the registers of a context that has not been created: state 0. -/
def unusedCtx : Ctx := { state := 0 }
def State.ctxRegs (s : State) (c : Nat) : Ctx := (s.ctx? c).getD unusedCtx

/-- R347: create a context: its block is read; AXF and the log indices start at 0 (R70, R325, R170). -/
def State.createCtx (s : State) (c : Nat) : State :=
  let x := s.ctxRegs c
  let b := s.blockAt x.csb.toNat
  let y : Ctx :=
    { csb := x.csb, state := 1, migb := x.migb, instb := x.instb, flogovf := x.flogovf
      blk := b.map fun p => p.1, tsb := (b.map fun p => p.2).getD 0 }
  let s := { s with ctxs := s.ctxs.put c y }
  if b.isSome then s
  else if s.slots.any fun e => e.2.ctxn = c && e.2.state = 1 then s.failSlots c
  else s.blockReport c

def execCtxCreate (ctx : Nat) (s : State) : Host.Outcome State Fault Refusal :=
  .next (if s.dev = .ready ∧ ctx < 4096 ∧ (s.ctxRegs ctx).state = 0 ∧ !s.blockHeld (s.ctxRegs ctx).csb.toNat then
      s.createCtx ctx
    else s)

/-- R326: a drain the host requests. -/
def execCtxDrain (ctx : Nat) (s : State) : Host.Outcome State Fault Refusal :=
  .next (if s.dev = .ready then s.requestDrain ctx else s)

/-- R347: a resident context is killed, and its number is free when nothing of it is outstanding (log 111); its queues stop. -/
def execCtxDestroy (ctx : Nat) (s : State) : Host.Outcome State Fault Refusal :=
  if s.dev ≠ .ready ∨ (s.ctxRegs ctx).state = 0 then .next s
  else
    let s := if s.residentCtx ctx then s.kill ctx (resetRec 1) else s
    let stop (x : Slot) : Slot := if x.ctxn = ctx && x.state = 1 then { x with state := 0, ann := 0, cur := none } else x
    let s := { s with slots := s.slots.mapv stop }
    .next ((s.onCtx ctx fun c => { c with dying := true }).reapCtx ctx)

/-- Write a context register (R347), ignored outside READY (R360). -/
def State.writeCtx (s : State) (c : Nat) (g : Ctx → Ctx) : State :=
  if s.dev = .ready ∧ c < 4096 then { s with ctxs := s.ctxs.put c (g (s.ctxRegs c)) } else s

/-- R348: a budget rises by a value, saturating. -/
def addBudget (b v : DWord) : DWord := if 2 ^ 64 ≤ b.toNat + v.toNat then BitVec.allOnes 64 else b + v

def execMigbWrite (ctx : Nat) (v : DWord) (s : State) : Host.Outcome State Fault Refusal :=
  .next (s.writeCtx ctx fun c => { c with migb := addBudget c.migb v })

def execInstbWrite (ctx : Nat) (v : DWord) (s : State) : Host.Outcome State Fault Refusal :=
  .next (s.writeCtx ctx fun c => { c with instb := addBudget c.instb v })

/-- R70: ones clear; reserved bits are ignored. -/
def execCtxAxfClear (ctx : Nat) (v : DWord) (s : State) : Host.Outcome State Fault Refusal :=
  .next (s.writeCtx ctx fun c => { c with axf := c.axf &&& ~~~(v.truncate 3) })

/-- R325: HEAD advances to a value of bits 63:32, not beyond TAIL. -/
def advanceHead (head tail : Word) (v : DWord) : Word :=
  let h := v.extractLsb' 32 32
  if (h - head).toNat ≤ (tail - head).toNat then h else head

def execFlogptrWrite (ctx : Nat) (v : DWord) (s : State) : Host.Outcome State Fault Refusal :=
  .next (s.writeCtx ctx fun c => { c with flogHead := advanceHead c.flogHead c.flogTail v })

def execMlogptrWrite (ctx : Nat) (v : DWord) (s : State) : Host.Outcome State Fault Refusal :=
  .next (s.writeCtx ctx fun c => { c with mlogHead := advanceHead c.mlogHead c.mlogTail v })

/-! ### Other management registers (R347, R354, R356) -/

/-- R321, R347: HEAD of the host fault queue, modulo 4,096, not beyond TAIL. -/
def execFqptrWrite (v : DWord) (s : State) : Host.Outcome State Fault Refusal :=
  let step := ((v.extractLsb' 32 12).toNat + 4096 - s.fqHead % 4096) % 4096
  .next (if step ≤ s.fqTail - s.fqHead then { s with fqHead := s.fqHead + step } else s)

def execIrqClear (bits : DWord) (s : State) : Host.Outcome State Fault Refusal :=
  .next { s with irq := s.irq &&& ~~~(bits.truncate 6) }

/-- R354, R356: the writable bits of a group entry, and of the halves of an export window. -/
def xgrpMask : DWord := 0x8000FF00FFFF03FF#64
def xwinMask (high : Bool) : DWord := if high then 0x000FFFFFFFFF0003#64 else 0x000FFFFFFFFF0000#64

/-- R347, R359: a write to a register without an event of its own: ACCID, BMBASE, BMCOUNT, FQBASE, CSB, XWIN, XGRP (the
ports of whose other members are found anew where another group is bound), DEVCTL, and the commit buffer.  Every other offset is ignored here.  An address that is not a multiple of what R347 and R344 say is
held as it is written (log 78). -/
def execRegisterWrite (offset : Nat) (v : DWord) (s : State) : Host.Outcome State Fault Refusal :=
  if offset = 0 then
    .next (if s.ctxs.all fun e => e.2.state = 0 then { s with accid := v &&& 0x9FFF#64 } else s)
  else if offset = 8 then .next { s with bmbase := v }
  else if offset = 0x10 then .next { s with bmcount := v }
  else if offset = 0x18 then .next { s with fqbase := v }
  else if 0x20000 ≤ offset ∧ offset < 0x60000 ∧ offset % 64 = 0 then
    .next (s.writeCtx ((offset - 0x20000) / 64) fun c => { c with csb := v })
  else if 0x60000 ≤ offset ∧ offset < 0x60100 ∧ offset % 8 = 0 then
    let k := (offset - 0x60000) / 16
    let old := s.xwin.get k
    let x := if offset % 16 = 0 then old.extractLsb' 64 64 ++ (v &&& xwinMask false)
      else (v &&& xwinMask true) ++ old.extractLsb' 0 64
    .next { s with xwin := s.xwin.set k x }
  else if 0x61000 ≤ offset ∧ offset < 0x61200 ∧ offset % 8 = 0 then
    let g := (offset - 0x61000) / 8
    let bound (x : DWord) : DWord := x &&& 0x80000000FFFF03FF#64
    let t := { s with xgrp := s.xgrp.set g (v &&& xgrpMask) }
    .next (if bound (s.xgrp.get g) = bound v then t else t.rebound g)
  else if offset = 0x100008 then
    if v.truncate 2 = 1#2 then execReboot s else if v.truncate 2 = 2#2 then execCommit s else .next s
  else if 0x180000 ≤ offset ∧ offset < 0x190000 ∧ offset % 8 = 0 then
    .next (s.writeBuffer (offset - 0x180000) (bytesLe 8 v.toNat))
  else .next s

/-! ### Reads of BAR0 (R346, R347, R354, R356, R359) -/

/-- A register of a slot. -/
def Slot.read (x : Slot) (off : Nat) : Nat :=
  if off = 0 then x.state * 2 ^ 24 + x.prio * 2 ^ 16 + x.ctxn
  else if off = 8 then x.rbase.toNat
  else if off = 0x10 then x.rsize
  else if off = 0x18 then x.rhead
  else 0

/-- A register of a context. -/
def Ctx.read (c : Ctx) (off : Nat) : Nat :=
  if off = 0 then c.csb.toNat
  else if off = 8 then c.state * 2 ^ 8
  else if off = 0x10 then c.migb.toNat
  else if off = 0x18 then c.instb.toNat
  else if off = 0x20 then c.flogovf.toNat
  else if off = 0x28 then c.axf.toNat
  else if off = 0x30 then c.flogHead.toNat * 2 ^ 32 + c.flogTail.toNat
  else if off = 0x38 then c.mlogHead.toNat * 2 ^ 32 + c.mlogTail.toNat
  else 0

/-- The codes of DEVSTAT.STATE and CMTSTAT.STAT. -/
def DevState.code : DevState → Nat
  | .bringup | .off => 0
  | .ready => 1
  | .hold => 2
def CmtStat.code : CmtStat → Nat
  | .idle => 0 | .busy => 1 | .ok => 2 | .badsig => 3 | .badseq => 4 | .badformat => 5 | .full => 6 | .flashfail => 7

/-- DEVSTAT and CMTSTAT. -/
def State.devstat (s : State) : Nat :=
  s.log.length * 2 ^ 32 + s.dbRef * 2 ^ 16 + s.lastDb * 2 ^ 12 + s.fstage * 2 ^ 8 + s.dev.code
def State.cmtstat (s : State) : Nat := s.flash.seq.toNat * 2 ^ 32 + s.cmt.code

/-- A register of the bring-up window. -/
def State.platformRead (s : State) (off : Nat) : Nat :=
  let eight (l : List Byte) (a : Nat) : Nat := leNat ((l.drop a).take 8)
  if off = 0x100000 then s.devstat
  else if off = 0x100010 then s.cmtstat
  else if off = 0x100018 then leNat (s.tzone.slice 0 8)
  else if 0x110000 ≤ off ∧ off < 0x110200 then leNat (s.descr.slice (off - 0x110000) 8)
  else if 0x120000 ≤ off ∧ off < 0x130000 then eight (s.log.flatMap UnitResult.bytes) (off - 0x120000)
  else if 0x140000 ≤ off ∧ off < 0x148000 then eight s.flash.tableBytes (off - 0x140000)
  else if 0x180000 ≤ off ∧ off < 0x190000 then leNat (s.cmtBytes (off - 0x180000) 8)
  else 0

/-- What a read of an 8-byte register of BAR0 returns: 0 at a reserved offset, and where a register is only written. -/
def State.barRead (s : State) (off : Nat) : DWord :=
  BitVec.ofNat 64 <|
    if off % 8 ≠ 0 then 0
    else if off = 0 then s.accid.toNat
    else if off = 8 then s.bmbase.toNat
    else if off = 0x10 then s.bmcount.toNat
    else if off = 0x18 then s.fqbase.toNat
    else if off = 0x20 then s.fqHead % 4096 * 2 ^ 32 + s.fqTail % 4096
    else if off = 0x30 then s.irq.toNat
    else if 0x10000 ≤ off ∧ off < 0x12000 then (s.slot ((off - 0x10000) / 64)).read (off % 64)
    else if 0x20000 ≤ off ∧ off < 0x60000 then (s.ctxRegs ((off - 0x20000) / 64)).read (off % 64)
    else if 0x60000 ≤ off ∧ off < 0x60100 then
      (s.xwin.get ((off - 0x60000) / 16)).toNat / 2 ^ (8 * (off % 16)) % 2 ^ 64
    else if 0x61000 ≤ off ∧ off < 0x61200 then (s.xgrp.get ((off - 0x61000) / 8)).toNat
    else s.platformRead off

/-- The host reads a register. -/
def State.hostRead (s : State) (off : Nat) : State := s.report (.read off (s.barRead off))

/-! ### Host faults (R319, R351) -/

/-- R319: each waiter of an entry traps with XLATE and DET = HOSTFAIL; the entry goes. -/
def State.failFilter (s : State) (e : Filter) : State :=
  let waits (sh : Sheaf) : Bool := sh.status = .stalled (.filter e.page) && sh.ctx = e.ctx && s.cluster sh.core = e.cluster
  let ks := (s.sheafs.filter fun x => waits x.2).map fun x => x.1
  let s := { s with filters := s.filters.filter fun x => !(x.ctx = e.ctx && x.page = e.page && x.cluster = e.cluster) }
  ks.foldl (fun s k =>
    match (s.sheaf? k).bind fun sh => sh.pend with
    | none => s
    | some p => (s.onSheaf k fun t => { t with status := .issuing, pend := none }).raise k { p with det := 3, lead := false } false) s

/-- R351: the entry of a record, if it is not resolved. -/
def State.recordOf (s : State) (seq : Nat) : Option Filter := s.filters.find? fun e => e.record = some seq

def execPfcOk (seq : Nat) (s : State) : Host.Outcome State Fault Refusal :=
  if !s.fqOut.contains seq then .next s
  else
    let s := { s with fqOut := s.fqOut.filter (· ≠ seq) }
    .next (match s.recordOf seq with
      | none => s
      | some e => s.dropFilters fun x => x.ctx = e.ctx && x.page = e.page && x.cluster = e.cluster)

def execPfcFail (seq : Nat) (s : State) : Host.Outcome State Fault Refusal :=
  if !s.fqOut.contains seq then .next s
  else
    let s := { s with fqOut := s.fqOut.filter (· ≠ seq) }
    .next (match s.recordOf seq with | none => s | some e => s.failFilter e)

/-! ### Host translations (R350) -/

/-- The threads of an operation that wait on a host page. -/
def Op.onPage (o : Op) (page : Nat) : Bool := o.accs.any fun a => !a.done && a.loc.tier = 3 && a.loc.addr / 65536 = page

/-- The address of a byte of an ACPY still to be copied that lies on a host page. -/
def Eng.byteOnPage (g : Eng) (page : Nat) : Option Nat :=
  (List.range g.total).findSome? fun p => (g.acpys[p / 32]?).bind fun c =>
    let l := (c.place (c.va + p % 32)).1
    if p % 32 < c.n ∧ !g.has p ∧ l.tier = 3 ∧ l.addr / 65536 = page then some (c.va + p % 32) else none

/-- The address for which something waits on a host page. -/
def pageOf (ws : List WaitOn) (page : Nat) : Option Nat :=
  ws.findSome? fun w => match w with | .page p va => if p = page then some va else none | _ => none

/-- R350: a page fails for one operation: a sheaf's access with XLATE and REMOTE; a KVTR answers as a failed translation. -/
def State.failPageOp (s : State) (page : Nat) (n : Nat) : State :=
  match s.ops.get? n with
  | none => s
  | some o =>
    if o.kind = .kvtr then
      if (pageOf o.waits page).isSome then s.onOp n fun p => { p with res := kvtrFail 4, waits := [] } else s
    else
      s.failOp n o ((o.accs.filter fun a => !a.done && a.loc.tier = 3 && a.loc.addr / 65536 = page).map fun a => (a, .xlate, 4))

/-- R350: a page fails for an engine operation: an engine fault. -/
def Eng.failPage (g : Eng) (page : Nat) : Eng :=
  match (pageOf (g.waits.map fun w => w.2) page).or (g.byteOnPage page) with
  | some va => { g with fault := g.fault.or (some (.xlate, va)) }
  | none => g

/-- R350: a page fails for a sheaf whose LAUNCH reads it, or that fetches from it. -/
def Sheaf.failPage (sh : Sheaf) (page : Nat) : Sheaf :=
  match pageOf sh.waitsOn page, sh.status with
  | some va, .stalled (.held _) => { sh with rel := sh.rel.map fun r => { r with lost := some va } }
  | some va, .stalled (.fetch _) | some va, .stalled (.lost ..) => { sh with status := .stalled (.lost va []) }
  | _, _ => sh

/-- R350: every access that waits on a page fails: of sheafs, access by access (log 129), of engines, of installs and of launch
queues. -/
def State.failPage (s : State) (page : Nat) : State :=
  let s := ((s.ops.filter fun e => e.2.onPage page || (pageOf e.2.waits page).isSome).map fun e => e.1).foldl
    (fun s n => s.failPageOp page n) s
  { s with
    engs := s.engs.mapv fun g => g.failPage page
    sheafs := s.sheafs.mapv fun sh => sh.failPage page
    installs := s.installs.mapv fun i => if (pageOf i.waits page).isSome then { i with lost := true } else i
    slots := s.slots.mapv fun x => if (pageOf x.waits page).isSome then { x with lost := true } else x }

def execAtsCompletion (page : Nat) (answer : AtsAnswer) (s : State) : Host.Outcome State Fault Refusal :=
  if !s.atsReq.contains page then .next s
  else
    let s := { s with atsReq := s.atsReq.filter (· ≠ page) }
    match answer with
    | .page target w => .next { s with atc := s.atc.put page (target, w) }
    | .none => .next { s with priReq := s.priReq ++ [page] }

def execPriResponse (page : Nat) (answer : AtsAnswer) (s : State) : Host.Outcome State Fault Refusal :=
  if !s.priReq.contains page then .next s
  else
    let s := { s with priReq := s.priReq.filter (· ≠ page) }
    match answer with
    | .page target w => .next { s with atc := s.atc.put page (target, w) }
    | .none => .next (s.failPage page)

/-- R350: whether an access already translated through a page's entry is outstanding: one that waited for the answer is retried
with it. -/
def State.onAts (s : State) (page : Nat) : Bool :=
  let waits (ws : List WaitOn) : Bool := (pageOf ws page).isSome
  s.ops.any (fun e => e.2.onPage page || waits e.2.waits)
    || s.engs.any (fun e => (e.2.byteOnPage page).isSome || waits (e.2.waits.map fun w => w.2))
    || s.sheafs.any (fun e => waits e.2.waitsOn) || s.installs.any (fun e => waits e.2.waits)
    || s.slots.any fun e => waits e.2.waits

def execAtsInvalidate (page : Nat) (s : State) : Host.Outcome State Fault Refusal :=
  .next (if s.onAts page then s else { s with atc := s.atc.del page })

/-! ### Requests of peers and the host (R194, R195, R354) -/

/-- Whether a request is a reduction. -/
def remoteReduces : RemoteKind → Bool
  | .reduce .. => true
  | _ => false

/-- The bytes of a request, and the permissions it needs. -/
def remoteSpan : RemoteKind → Nat
  | .load n => n
  | .store bs => bs.length
  | .atomic _ ty _ _ | .reduce _ ty _ => Forms.tyBytes (BitVec.ofNat 5 ty)
  | .arrive .. => 0
def remoteReads : RemoteKind → Bool
  | .load _ | .atomic .. => true
  | _ => false
def remoteWrites : RemoteKind → Bool
  | .store _ | .atomic .. | .reduce .. => true
  | _ => false

/-- R194, R354: refused outside the windows; a reduction goes to its base die; a request that is held, or comes behind one
that is, waits in arrival order (R196); every other is served. -/
def execRemoteAccess (r : RemoteRequest) (s : State) : Host.Outcome State Fault Refusal :=
  let n := remoteSpan r.kind
  let wait : State := let (id, s) := s.newId; { s with packets := s.packets ++ [(id, r)] }
  match r.kind with
  | .arrive .. => .next (s.serve r)
  | _ =>
    if !(r.host || exported s.xwin r.addr n (remoteReads r.kind) (remoteWrites r.kind)) || !s.usableHbm r.addr n then
      .next (s.report (.ack false []))
    else if remoteReduces r.kind || s.requestHeld r || s.behind s.fresh r then .next wait
    else .next (s.serve r)

end Sys2Proof.Machine
end

