-- ==== Sys2Proof/Machine/Logic.lean ====
section
/-! DEFINITION. Group 0x1: logic and bit operations (spec/07 R107 to R109). -/

namespace Sys2Proof.Machine
open Sys2Proof.Forms

/-- The low `w` bits. -/
def lowBits (w : Nat) (x : Val) : Val := BitVec.ofNat 128 (x.toNat % 2 ^ w)

/-- R107: a result of the type's width. -/
def logicBody (g : Val → Val → Val) (i : Iss) (s : State) : Eff :=
  let n := tyWords i.f.ty
  i.pure s n fun t => lowBits (tyBits i.f.ty) (g (i.b n t) (i.c n t))

def execAnd (f : Fields) (s : State) := issue rowAnd f (logicBody fun a b => a &&& b) s
def execOr (f : Fields) (s : State) := issue rowOr f (logicBody fun a b => a ||| b) s
def execXor (f : Fields) (s : State) := issue rowXor f (logicBody fun a b => a ^^^ b) s
def execAndn (f : Fields) (s : State) := issue rowAndn f (logicBody fun a b => a &&& ~~~b) s
def execNot (f : Fields) (s : State) := issue rowNot f (logicBody fun a _ => ~~~a) s

/-- R108: a result from the operand, the width and the 32-bit C. -/
def shiftBody (g : Nat → Nat → Nat → Nat) (i : Iss) (s : State) : Eff :=
  let n := tyWords i.f.ty
  let w := tyBits i.f.ty
  i.pure s n fun t => BitVec.ofNat 128 (g w (i.b n t).toNat (i.c32 t) % 2 ^ w)

def shlNum (w a c : Nat) : Nat := if w ≤ c then 0 else a * 2 ^ c
def shrNum (w a c : Nat) : Nat := if w ≤ c then 0 else a / 2 ^ c
/-- The sign enters: the ones above the shifted operand are 2^w − 2^(w−c). -/
def sarNum (w a c : Nat) : Nat :=
  let neg := a.testBit (w - 1)
  if w ≤ c then (if neg then 2 ^ w - 1 else 0)
  else a / 2 ^ c + (if neg then 2 ^ w - 2 ^ (w - c) else 0)
def rotNum (w a c : Nat) : Nat := let k := c % w; a * 2 ^ k % 2 ^ w + a / 2 ^ (w - k)

def execShl (f : Fields) (s : State) := issue rowShl f (shiftBody shlNum) s
def execShr (f : Fields) (s : State) := issue rowShr f (shiftBody shrNum) s
def execSar (f : Fields) (s : State) := issue rowSar f (shiftBody sarNum) s
def execRot (f : Fields) (s : State) := issue rowRot f (shiftBody rotNum) s

/-- The number of one bits among the low `w`. -/
def popNum (a : Nat) : Nat → Nat
  | 0 => 0
  | w + 1 => popNum a w + (if a.testBit w then 1 else 0)

/-- The number of zero bits above the highest one of `w` bits. -/
def clzNum (w a : Nat) : Nat := if a = 0 then w else w - 1 - Nat.log2 a

/-- The low `w` bits in reverse order. -/
def revNum (w a : Nat) : Nat → Nat
  | 0 => 0
  | k + 1 => revNum w a k + (if a.testBit k then 2 ^ (w - 1 - k) else 0)

/-- R107: a 32-bit count of the operand's bits. -/
def countBody (g : Nat → Nat → Nat) (i : Iss) (s : State) : Eff :=
  let w := tyBits i.f.ty
  i.pure s 1 fun t => BitVec.ofNat 128 (g w ((i.b (tyWords i.f.ty) t).toNat % 2 ^ w))

def execClz (f : Fields) (s : State) := issue rowClz f (countBody clzNum) s
def execPopc (f : Fields) (s : State) := issue rowPopc f (countBody fun w a => popNum a w) s
def execBrev (f : Fields) (s : State) := issue rowBrev f (shiftBody fun w a _ => revNum w a w) s

/-- R108: the field of length `len` at `pos`. -/
def fieldPos (c : Nat) : Nat := c % 256
def fieldLen (w c : Nat) : Nat := min (c / 256 % 256) (w - fieldPos c)

/-- R108: extract, sign-extended for s32 and s64. -/
def bfxNum (signed : Bool) (w a c : Nat) : Nat :=
  let pos := fieldPos c
  let len := fieldLen w c
  if w ≤ pos ∨ len = 0 then 0
  else
    let x := a / 2 ^ pos % 2 ^ len
    if signed && x.testBit (len - 1) then x + 2 ^ w - 2 ^ len else x

/-- R108: insert into the base `d`. -/
def bfiNum (w a c d : Nat) : Nat :=
  let pos := fieldPos c
  let len := fieldLen w c
  if w ≤ pos ∨ len = 0 then d
  else d % 2 ^ pos + a % 2 ^ len * 2 ^ pos + d / 2 ^ (pos + len) * 2 ^ (pos + len)

def execBfx (f : Fields) (s : State) := issue rowBfx f (shiftBody (bfxNum (tySigned f.ty))) s

def bfiBody (i : Iss) (s : State) : Eff :=
  let n := tyWords i.f.ty
  let w := tyBits i.f.ty
  i.pure s n fun t => BitVec.ofNat 128 (bfiNum w (i.b n t).toNat (i.c32 t) (i.d n t).toNat % 2 ^ w)

def execBfi (f : Fields) (s : State) := issue rowBfi f bfiBody s

/-- R109: one result byte from the eight source bytes and a control nibble. -/
def permByte (src nib : Nat) : Nat :=
  let b := src / 256 ^ (nib % 8) % 256
  if nib / 8 % 2 = 1 then (if 128 ≤ b then 255 else 0) else b

/-- R109: all four bytes; B holds source bytes 0 to 3 and D bytes 4 to 7. -/
def permNum (b d c : Nat) : Nat :=
  let src := b + d * 2 ^ 32
  permByte src (c % 16) + permByte src (c / 16 % 16) * 256 + permByte src (c / 256 % 16) * 65536
    + permByte src (c / 4096 % 16) * 16777216

def permBody (i : Iss) (s : State) : Eff :=
  i.pure s 1 fun t => BitVec.ofNat 128 (permNum (i.b 1 t).toNat (i.d 1 t).toNat (i.c32 t))

def execPerm (f : Fields) (s : State) := issue rowPerm f permBody s

end Sys2Proof.Machine
end

