-- ==== Sys2Proof/Machine/Migration.lean ====
section
/-! DEFINITION. The tier engine (spec/11 R169, R170): the events that move a page.  An event that is not enabled changes
nothing (log 2). -/

namespace Sys2Proof.Machine

/-- The migration of a page of a context, and changing it. -/
def State.migration? (s : State) (ctx page : Nat) : Option Migration :=
  s.migrations.find? fun m => m.ctx = ctx && m.page = page
def State.onMigration (s : State) (ctx page : Nat) (g : Migration → Migration) : State :=
  { s with migrations := s.migrations.map fun m => if m.ctx = ctx && m.page = page then g m else m }

/-- R169, R304: a hold ends: what issued before this is what was held. -/
def State.unhold (s : State) (ctx page : Nat) (g : Migration → Migration) : State :=
  let (n, s) := s.newId
  s.onMigration ctx page fun m => { g m with seq := n }

/-- R170: whether a context's migration log has room for one more record than the moves in flight will append. -/
def Ctx.mlogRoom (c : Ctx) (moves : Nat) : Bool :=
  match c.blk with
  | none => false
  | some b => (c.mlogTail - c.mlogHead).toNat + moves < b.mlogn

/-- The moves of a context that are in flight. -/
def State.moves (s : State) (ctx : Nat) : Nat := (s.migrations.filter fun m => m.ctx = ctx).length

/-- R169: what is moved where. -/
def movable (old new : Nat) : Bool := (old = 0 && (new = 2 || new = 3)) || ((old = 2 || old = 3) && new = 0)

/-- R169: MIGRATION_SELECT; the driver's pool offers the frame named. -/
def execMigrationSelect (ctx page : Nat) (dest : FrameRef) (s : State) : Host.Outcome State Fault Refusal :=
  match s.ctx? ctx with
  | none => .next s
  | some c =>
    match s.ttb ctx with
    | none => .next s
    | some ttb =>
      match s.walk ttb (page * 65536) with
      | .fail _ _ => .next s
      | .leaf leaf pte block =>
        let old := s.place leaf block (page * 65536)
        let new : Loc := { tier := dest.tier, peer := dest.peer, addr := dest.addr / 65536 * 65536 }
        if (s.walkHeld ttb (page * 65536)).isSome ∨ 2 ^ 33 ≤ page ∨ block ∨ !leaf.getLsbD 9 ∨ c.migb = 0 ∨ c.dying ∨ !c.mlogRoom (s.moves ctx) ∨ (s.migration? ctx page).isSome
            ∨ !movable old.tier new.tier ∨ (new.tier = 0 ∧ !s.usableHbm new.addr 65536) then .next s
        else
          let (n, s) := s.newId
          let m : Migration :=
            { ctx := ctx, page := page, pte := pte, leaf := leaf, old := old, new := new, state := .drain, seq := n }
          .next ({ s with migrations := s.migrations ++ [m] }.onCtx ctx fun c => { c with migb := c.migb - 1 })

/-- Whether two places lie in one frame. -/
def Loc.sameFrame (a b : Loc) : Bool := a.tier = b.tier && a.peer = b.peer && a.addr / 65536 = b.addr / 65536

/-- R169: whether something is outstanding past the hold point of a move: a write to another device or the host that issued
before the selection, or a reduction that has left for its base die (R297). -/
def State.past (s : State) (m : Migration) : Bool :=
  s.ops.any fun e => e.2.kind.writes && !e.2.kind.scratch
    && e.2.accs.any fun a => !a.done && a.loc.sameFrame m.old && (a.fwd || (a.remote && e.1 < m.seq))

/-- R169: nothing is outstanding past the hold point. -/
def execMigrationDrained (ctx page : Nat) (s : State) : Host.Outcome State Fault Refusal :=
  match s.migration? ctx page with
  | some m =>
    .next (if m.state = .drain ∧ !s.past m then s.onMigration ctx page fun m => { m with state := .copy } else s)
  | none => .next s

/-- The lines of a local frame leave the caches, their dirty words written back; monitors on them fire (R212). -/
def State.settleFrame (s : State) (pa : Nat) : State :=
  ((List.range 512).foldl (fun s j => (s.recallLine (lineOf pa + j) true).evictLine (lineOf pa + j)) s).fireWhere
    fun line => line / 512 = pa / 65536

/-- R166: a copy that met an uncorrectable sector is reported, with the sector's address where it is local. -/
def State.copyLost (s : State) (m : Migration) : State :=
  let a := ((s.badSectors.find? fun b => m.old.tier = 0 && b / 1024 = m.old.addr / 65536).map fun b => 64 * b).getD m.old.addr
  s.uncorrectable (some m.ctx) { kind := 4, addr := m.page * 65536 } a

/-- R166: whether a sector of a local frame is uncorrectable. -/
def State.badFrame (s : State) (pa : Nat) : Bool := s.badSectors.any fun b => b / 1024 = pa / 65536

/-- A leaf without A and D, which walks set during a move. -/
def leafCore (e : DWord) : DWord := e &&& ~~~(0xC00#64)

/-- R161, R292: what frozen dirty words have held goes on: clusters unfuse, calls return. -/
def State.thaw (s : State) : State := (s.fused.foldl (fun s e => s.unfuse e.1) s).resumeCalls

/-- R169: the copy ends, or is abandoned on an uncorrectable error (`ok` false, or met here) or a changed leaf. -/
def State.copyDone (s : State) (m : Migration) (ok : Bool) (data : List Byte) : State :=
  let abandon (s : State) (stat : Nat) : State :=
    s.unhold m.ctx m.page fun m => { m with state := .releaseOld, stat := stat }
  let s := if m.old.tier = 0 then s.settleFrame m.old.addr else s
  if !ok || (m.old.tier = 0 && s.badFrame m.old.addr) then abandon (s.copyLost m) 1
  else if leafCore (s.peek64 m.pte) ≠ leafCore m.leaf then abandon s 2
  else
    let s :=
      if m.new.tier = 0 then
        let s := s.zeroFrame m.new.addr
        { s with mem := Store.blit s.mem m.new.addr (data.take 65536) }
      else s
    s.onMigration m.ctx m.page fun m => { m with state := .remap }

def execMigrationCopyDone (ctx page : Nat) (ok : Bool) (data : List Byte) (s : State) :
    Host.Outcome State Fault Refusal :=
  match s.migration? ctx page with
  | some m =>
    let held := (m.old.tier = 0 && s.heldAt true m.old.addr) || (m.new.tier = 0 && s.heldAt true m.new.addr)
      || s.heldAt false m.pte
    let enough := !ok || m.new.tier ≠ 0 || data.length = 65536
    .next (if m.state = .copy ∧ enough ∧ !held then (s.copyDone m ok data).thaw else s)
  | none => .next s

/-- R156: a leaf moved to a new place. -/
def movedLeaf (e : DWord) (l : Loc) : DWord :=
  let keep : DWord := e &&& 0xF9F#64
  let peer : Nat := if l.tier = 2 then l.peer else 0
  keep ||| (BitVec.ofNat 64 l.tier <<< 5) ||| (BitVec.ofNat 64 (l.addr / 65536 % 2 ^ 36) <<< 15)
    ||| (BitVec.ofNat 64 (peer % 8192) <<< 51)

/-- The parts of an operation in a frame, still to be performed. -/
def Op.within (o : Op) (f : Loc) : Op := { o with accs := o.accs.filter fun a => !a.done && a.loc.sameFrame f }

/-- R169, R176: whether an operation on a frame that moves goes to the new frame: a held write; a load that has to see one of its own
sheaf's; a load of a word of an earlier load of its sheaf that goes there (`reads`: those). -/
def State.follows (s : State) (n : Nat) (o : Op) (old : Loc) (reads : List Op) : Bool :=
  let p := o.within old
  !o.kind.scratch && p.accs ≠ []
    && (o.kind.writes || (o.kind.reads && ((s.earlier n o).any (fun q => q.kind.writes && q.meets p)
      || reads.any fun q => q.sheaf = o.sheaf && q.meets p)))

/-- An operation's parts of a frame are sent to another. -/
def Op.redirect (o : Op) (old new : Loc) : Op :=
  { o with accs := o.accs.map fun a =>
      if !a.done && a.loc.sameFrame old then { a with loc := { new with addr := new.addr + a.loc.addr % 65536 } } else a }

/-- R169, R176: the operations on a frame that go to the new one are sent there, in the order of issue. -/
def State.redirect (s : State) (old new : Loc) : State :=
  let x := s.ops.foldl (fun (x : Table Op × List Op) e =>
    if s.follows e.1 e.2 old x.2 then
      (x.1 ++ [(e.1, e.2.redirect old new)], if e.2.kind.reads then x.2 ++ [e.2.within old] else x.2)
    else (x.1 ++ [e], x.2)) ([], [])
  { s with ops := x.1 }

/-- R169, R194: a request of the host or a peer to a frame that has moved away is sent to the new one; there a store or a
reduction is acknowledged, and an atomic answered with what that device holds (log 12). -/
def State.sendOn (s : State) (n : Nat) (r : RemoteRequest) : State :=
  let t := { s with packets := s.packets.del n }
  match r.kind with
  | .atomic _ ty _ _ =>
    { t with fresh := t.fresh + 1 }.report
      (.ack true ((List.range (Forms.tyBytes (BitVec.ofNat 5 ty))).map (Config.remoteByte t.fresh)))
  | .store _ | .reduce .. => t.report (.ack true [])
  | .load _ | .arrive .. => s

/-- R169: the held requests of others to an old frame, sent on in arrival order. -/
def State.sendAll (s : State) (old : Loc) : State :=
  (s.packets.filter fun e => old.sameFrame { tier := 0, peer := 0, addr := e.2.addr }).foldl (fun s e => s.sendOn e.1 e.2) s

/-- R169: the new leaf is written and every translation of the page removed. -/
def execMigrationRemapDone (ctx page : Nat) (s : State) : Host.Outcome State Fault Refusal :=
  match s.migration? ctx page with
  | none => .next s
  | some m =>
    if m.state ≠ .remap ∨ s.heldAt false m.pte then .next s
    else
      let e := movedLeaf (s.peek64 m.pte) m.new
      let s := (s.homeWriteWord {} m.pte (e.truncate 32) 15).homeWriteWord {} (m.pte + 4) ((e >>> 32).truncate 32) 15
      let s := s.shootdown ctx (some (page, 1))
      let s := (s.redirect m.old m.new).sendAll m.old
      .next (s.unhold ctx page fun m => { m with state := .release })

/-- The frame a location of a tier-0 page of this device's own HBM or of another tier lies in is read by something
issued with the old translation. -/
def State.reading (s : State) (l : Loc) : Bool :=
  (s.ops.any fun e => !e.2.kind.scratch && e.2.accs.any fun a => !a.done && a.loc.sameFrame l)
    || (s.engs.any fun e => e.2.acpys.any fun c => c.n ≠ 0 && (c.first.sameFrame l || c.last.sameFrame l))
    || s.packets.any fun e => l.sameFrame { tier := 0, peer := 0, addr := e.2.addr }

/-- R169: requests that a move held and that are not yet sent: writes of sheafs issued before the hold ended, and those of
others. -/
def State.unsent (s : State) (m : Migration) (l : Loc) : Bool :=
  (s.ops.any fun e => e.1 < m.seq && e.2.kind.writes && !e.2.kind.scratch
    && e.2.accs.any fun a => !a.done && a.loc.sameFrame l)
    || s.packets.any fun e => l.sameFrame { tier := 0, peer := 0, addr := e.2.addr }

/-- R170: the record of a move. -/
def Migration.record (m : Migration) : List Byte :=
  bytesLe 4 m.ctx ++ bytesLe 4 (m.stat + 4 * m.old.tier + 16 * m.new.tier) ++ bytesLe 8 (m.page * 65536)
    ++ bytesLe 8 m.old.addr ++ bytesLe 8 m.new.addr

/-- R304: whether the place of a context's next record is held. -/
def State.mlogHeld (s : State) (ctx : Nat) : Bool :=
  ((s.ctx? ctx).bind fun c => c.blk.map fun b => s.heldAt false (b.mlog + 32 * (c.mlogTail.toNat % b.mlogn))).getD false

/-- R170: append it to the context's log. -/
def State.migrationLog (s : State) (m : Migration) : State :=
  match s.ctx? m.ctx with
  | none => s
  | some c =>
    match c.blk with
    | none => s
    | some b =>
      let s := s.homeWrite {} (b.mlog + 32 * (c.mlogTail.toNat % b.mlogn)) m.record
      (s.onCtx m.ctx fun c => { c with mlogTail := c.mlogTail + 1 }).raiseIrq 5

/-- R170: whether a move must wait for the host to take a record. -/
def State.mlogFull (s : State) (ctx : Nat) : Bool := ((s.ctx? ctx).map fun c => c.blk.isSome && !c.mlogRoom 0).getD false

/-- R169: once the held requests are sent, and, of a page that moved, the reads of the old frame have returned, the page is
resident again, at the new frame or the old one, and the other returns to the pool. -/
def execMigrationReleaseDone (ctx page : Nat) (s : State) : Host.Outcome State Fault Refusal :=
  match s.migration? ctx page with
  | none => .next s
  | some m =>
    let finish (free : Loc) : State :=
      let s := { s with migrations := s.migrations.filter fun x => !(x.ctx = ctx && x.page = page) }
      ((s.migrationLog m).report (.frameFree free)).reapCtx ctx
    if s.mlogFull ctx || s.mlogHeld ctx then .next s else
    match m.state with
    | .release => .next (if s.reading m.old || s.unsent m m.new then s else finish m.old)
    | .releaseOld => .next (if s.unsent m m.old then s else finish m.new)
    | _ => .next s

end Sys2Proof.Machine
end

