-- ==== Sys2Proof/Machine/SpecialRegs.lean ====
section
/-! DEFINITION. The special registers: MOVS and SMOV (spec/01 R36 to R41, spec/07 R132, spec/23 R289, R296, spec/25
R307, R310, R314, R315). -/

namespace Sys2Proof.Machine
open Sys2Proof.Forms

/-- R40: FPSR reads as the OR of the threads' sticky bits. -/
def Sticky.word (k : Sticky) : Word :=
  let bit (m : Mask) (i : Nat) : Word := if m = 0 then 0 else 1#32 <<< i
  bit k.inv 0 ||| bit k.dz 1 ||| bit k.ovf 2 ||| bit k.unf 3 ||| bit k.inx 4

/-- R40: SMOV writes every thread's sticky bits. -/
def Sticky.ofWord (x : Word) : Sticky :=
  let all (i : Nat) : Mask := if x.getLsbD i then 0xFFFF else 0
  { inv := all 0, dz := all 1, ovf := all 2, unf := all 3, inx := all 4 }

/-- R314: the save area of the current level; 0 at TLVL 0. -/
def State.tsa (s : State) (sh : Sheaf) : DWord :=
  if sh.tlvl = 0 then 0
  else
    let g := 256 * sh.core + 64 * sh.part + sh.slot
    ((s.ctx? sh.ctx).map fun c => c.tsb).getD 0 + BitVec.ofNat 64 (1024 * g + 512 * (sh.tlvl - 1))

/-- The sheafs of a sheaf's workgroup or block, NSHF. -/
def State.nshf (s : State) (h : Home) : Nat :=
  match h with
  | .wg w => ((s.wg? w).map fun g => g.nshf).getD 0
  | .block c => ((s.blocks.get? c).map fun b => b.nshf).getD 0

/-- The registers a workgroup or grid gives (R36); all 0 on a heath core (R289). -/
def State.launchReg (s : State) (sh : Sheaf) (idx : Nat) : Nat :=
  match sh.home with
  | .block _ => 0
  | .wg w =>
    match s.wg? w with
    | none => 0
    | some g =>
      match s.grid? g.grid with
      | none => 0
      | some r =>
        match idx with
        | 0x01 => g.x | 0x02 => g.y | 0x03 => g.z | 0x04 => r.gid.toNat | 0x1A => r.depth
        | 0x1B => if g.peers = [] then 0 else 4 * (g.peers.length - 1) + g.rank
        | 0x1D => r.gx | 0x1E => r.gy | 0x1F => r.gz
        | _ => 0

/-- A heath block's register (R289). -/
def State.heathReg (s : State) (sh : Sheaf) (idx : Nat) : Nat :=
  match s.blocks.get? sh.core with
  | none => 0
  | some b => match idx with | 0x23 => b.winb.toNat | 0x24 => b.winl.toNat | _ => b.winh.toNat

/-- The value of a special register at issue (R36, R37, R132, R289, R315). -/
def State.sreg (s : State) (sh : Sheaf) (idx : Nat) : Nat :=
  match idx with
  | 0x00 => sh.shid
  | 0x05 => sh.ctx % 4096
  | 0x06 => sh.core
  | 0x07 => sh.part
  | 0x08 => sh.lane.getD 0
  | 0x09 => sh.role.toNat
  | 0x0A => sh.em.toNat
  | 0x0B => sh.wb.toNat
  | 0x0C => sh.fpcr.toNat
  | 0x0D => sh.sticky.word.toNat
  | 0x0E => if sh.heath then 0 else sh.rgnpc.toNat
  | 0x0F => if sh.heath then 0 else sh.rgncnt.toNat
  | 0x10 => sh.tlvl
  | 0x11 => sh.trapRegs.tc.toNat
  | 0x12 => sh.trapRegs.tr.toNat
  | 0x13 => sh.trapRegs.tm.toNat
  | 0x14 => sh.trapRegs.ta.toNat
  | 0x15 => if sh.tlvl = 2 then sh.t1.tc.toNat else 0
  | 0x16 => if sh.tlvl = 2 then sh.t1.tr.toNat else 0
  | 0x17 => if sh.tlvl = 2 then sh.t1.tm.toNat else 0
  | 0x18 => if sh.tlvl = 2 then sh.t1.ta.toNat else 0
  | 0x19 => s.clkOf sh
  | 0x1C => s.nshf sh.home
  | 0x20 => s.nreg sh.home
  | 0x21 => s.spsz sh.home
  | 0x22 => if sh.heath then 0 else ((s.ctx? sh.ctx).map fun c => c.tsb.toNat).getD 0
  | 0x23 | 0x24 | 0x25 => s.heathReg sh idx
  | 0x26 => ((s.ctx? sh.ctx).map fun c => c.axf.toNat).getD 0
  | 0x27 => (s.tsa sh).toNat
  | _ => s.launchReg sh idx

/-- R132. -/
def movsBody (i : Iss) (s : State) : Eff :=
  let idx := sregIdx i.f
  .done (s.onSheaf i.k fun t =>
    t.write true (if sregWide idx then 2 else 1) i.f.a 0 (BitVec.ofNat 128 (s.sreg i.sh idx)))

def execMovs (f : Fields) (s : State) := issue rowMovs f movsBody s

/-- R37: change the trap registers of a level. -/
def Sheaf.onTrap (sh : Sheaf) (lvl : Nat) (g : TrapRegs → TrapRegs) : Sheaf :=
  if lvl = 1 then { sh with t1 := g sh.t1 } else if lvl = 2 then { sh with t2 := g sh.t2 } else sh

/-- R307: SUP is read-only. -/
def tcWrite (old x : Word) : Word := (x &&& ~~~(1#32 <<< 21)) ||| (old &&& (1#32 <<< 21))

/-- The writable bits of a 32-bit special register other than the trap registers (R39, R70). -/
def sregMask (idx : Nat) : Word :=
  match idx with
  | 0x09 => 0x7 | 0x0A => 0xFFFF | 0x0B => 0x3F | 0x0C => 0xFF3 | 0x0D => 0x1F | 0x25 => 0x8003FFFF | 0x26 => 0x5
  | _ => 0xFFFFFFFF

/-- R296: the pages of a window, each checked with W required. -/
def State.windowPages (s : State) (sh : Sheaf) (base len : Nat) : List (Nat × Except (Cause × Nat) Hit) :=
  (List.range ((base % 65536 + len + 65535) / 65536)).map fun p =>
    let va := if p = 0 then base else base / 65536 * 65536 + 65536 * p
    (va, s.checkAddr sh .store 1 0 (BitVec.ofNat 64 va))

/-- R296: SMOV to WINH with EN = 1 checks and opens the window, once no write-back of its lines is held (R169, R304); with EN = 0
it closes it. -/
def winhBody (i : Iss) (s : State) (x : Word) : Eff :=
  match s.blocks.get? i.sh.core with
  | none => .done s
  | some b =>
    if x.getLsbD 31 = false then .done (s.onBlock i.sh.core fun b => { b with winh := x, window := [] })
    else
      let base := b.winb.toNat
      let len := b.winl.toNat
      let hoff := x.toNat % 262144
      if base % 128 ≠ 0 ∨ len % 128 ≠ 0 ∨ len < 128 ∨ 1048576 < len ∨ hoff % 16 ≠ 0 ∨ 262128 < hoff then i.illop s
      else
        let ps := s.windowPages i.sh base len
        i.walking s .store (ps.map fun p => p.1) <|
        match failures ps with
        | (va, c, d) :: _ => .trap s { cause := c, det := d, acc := accStore, mask := i.sh.em, ta := BitVec.ofNat 64 va }
        | [] =>
          let hits := passed ps
          let lines := (List.range (len / 128)).filterMap fun j =>
            let va := base + 128 * j
            (hits.find? fun h => h.va.toNat / 65536 = va / 65536).map fun h =>
              lineOf (h.loc.addr / 65536 * 65536 + va % 65536)
          match (lines.filter s.flushStalls).findSome? fun l => s.heldStack true (128 * l) with
          | some st => .held s [.refresh st]
          | none =>
          if lines.any s.flushHeld then .stall s
          else
            let s := s.cacheHits i.sh .store hits
            let s := lines.foldl (fun s l => (s.recallLine l true).evictLine l) s
            .done (s.onBlock i.sh.core fun b => { b with winh := x, window := lines })

/-- R36, R37, R39, R132, R314, R315: SMOV; a literal for a 64-bit register is extended with zeros (log 98). -/
def smovBody (i : Iss) (s : State) : Eff :=
  let idx := sregIdx i.f
  let x := i.sh.read32 i.f i.f.b 0
  let y := i.sh.read64 i.f i.f.b 0
  let on (g : Sheaf → Sheaf) : Eff := .done (s.onSheaf i.k g)
  if !sregWide idx && x &&& ~~~sregMask idx ≠ 0 then i.illop s
  else
    match idx with
    | 0x09 => if 5#32 ≤ x then i.illop s else on fun t => { t with role := x.truncate 3 }
    | 0x0A => on fun t => { t with em := x.truncate 16 &&& t.live }
    | 0x0B => on fun t => { t with wb := x.truncate 6 }
    | 0x0C => on fun t => { t with fpcr := x.truncate 12 }
    | 0x0D => on fun t => { t with sticky := .ofWord x }
    | 0x11 | 0x12 | 0x13 | 0x14 =>
      if i.sh.tlvl = 0 then i.illop s
      else on fun t => t.onTrap t.tlvl fun r =>
        if idx = 0x11 then { r with tc := tcWrite r.tc x } else if idx = 0x12 then { r with tr := y }
        else if idx = 0x13 then { r with tm := x } else { r with ta := y }
    | 0x15 | 0x16 | 0x17 | 0x18 =>
      if i.sh.tlvl ≠ 2 then i.illop s
      else on fun t => t.onTrap 1 fun r =>
        if idx = 0x15 then { r with tc := tcWrite r.tc x } else if idx = 0x16 then { r with tr := y }
        else if idx = 0x17 then { r with tm := x } else { r with ta := y }
    | 0x22 =>
      if y.toNat % 1024 ≠ 0 then i.illop s
      else .done (s.onCtx i.sh.ctx fun c => { c with tsb := y })
    | 0x26 => .done (s.onCtx i.sh.ctx fun c => { c with axf := c.axf &&& ~~~(x.truncate 3) })
    | 0x23 | 0x24 =>
      match s.blocks.get? i.sh.core with
      | none => .done s
      | some b =>
        if b.winh.getLsbD 31 then i.illop s
        else .done (s.onBlock i.sh.core fun b => if idx = 0x23 then { b with winb := y } else { b with winl := x })
    | _ => winhBody i s x

def execSmov (f : Fields) (s : State) := issue rowSmov f smovBody s

end Sys2Proof.Machine
end

