-- ==== Sys2Proof/Machine/Stack.lean ====
section
/-! DEFINITION. Near-memory calls and the fallow tier (spec/23 R290 to R303): NCALL, NRET, FINST, FQRY, and the events
that run calls and installs. -/

namespace Sys2Proof.Machine
open Sys2Proof.Forms

/-! ### Calls (R290 to R292) -/

/-- R366: whether a heath core is in service. -/
def State.heathInService (s : State) (h : Nat) : Bool := h < 128 && (s.descr.get (80 + h / 8)).getLsbD (h % 8)

/-- R292: the calls that hold an entry of a stack's queue. -/
def State.callsQueued (s : State) (stack : Nat) : Nat :=
  (s.calls.filter fun e => e.2.stack = stack && (e.2.state = .release || e.2.state = .queued)).length

/-- R291: a 64-bit value of a register pair of a request block. -/
def Iss.reqPair (i : Iss) (j : Nat) : DWord := i.sh.pairS (i.f.a.toNat + j)
def Iss.reqWord (i : Iss) (j : Nat) : Word := i.sh.readS (i.f.a.toNat + j)

/-- R205 for an offset a request block names. -/
def Iss.offCheck (i : Iss) (s : State) (a len : Nat) : Option Trap :=
  if 2 ^ 31 ≤ a ∨ s.spsz i.sh.home < a + len then
    some { cause := .xlate, det := 2, mask := i.sh.em, ta := BitVec.ofNat 64 a, scratch := true }
  else none

/-- An ALIGN trap when an offset is not a multiple of 16. -/
def Iss.off16 (i : Iss) (a : Nat) : Option Trap :=
  if a % 16 ≠ 0 then some { cause := .align, mask := i.sh.em, ta := BitVec.ofNat 64 a, scratch := true } else none

/-- The ILLOP of check 8. -/
def Iss.illopTrap (i : Iss) : Trap := { cause := .illop, mask := i.sh.em, ta := (baseWord i.row.op i.f).zeroExtend 64 }

/-- R291: the alignment and range checks of NCALL. -/
def Iss.ncallOffsets (i : Iss) (s : State) : Option Trap :=
  let nr := ncNr i.f
  let h := (i.reqWord 5).toNat
  let st := (i.reqWord 6).toNat
  let tab := (i.reqWord 7).toNat
  let entry := i.reqPair 0
  let e : Option Trap :=
    if entry.toNat % 4 ≠ 0 then some { cause := .align, mask := i.sh.em, ta := entry } else none
  [e, i.off16 h, i.off16 st, (if nr = 0 then none else i.off16 tab), i.offCheck s h 16, i.offCheck s st 16,
   (if nr = 0 then none else i.offCheck s tab (16 * nr))].findSome? id

/-- R291: the ILLOP rules of NCALL. -/
def Iss.ncallBad (i : Iss) : Bool :=
  let w := i.reqWord 4
  let nsh := (w &&& 0x3F).toNat
  let rg := ((w >>> 16) &&& 0x7F).toNat
  nsh = 0 || 32 < nsh || rg < 2 || 64 < rg || 1024 < nsh * rg * 8 || w &&& ~~~(0x007F003F#32) ≠ 0
    || (!ncTsel i.f && 8 ≤ (i.reqWord 3).toNat)

/-- R291: the parts of the flush table's ranges, page by page. -/
def Iss.ncallPages (i : Iss) (s : State) : List (Nat × Nat × Nat) :=
  (List.range (ncNr i.f)).flatMap fun j =>
    let ws := toWords 4 (s.spRead i.sh.home ((i.reqWord 7).toNat + 16 * j) 16)
    pagesOf (wd ws 0 + wd ws 1 % 2 ^ 17 * 2 ^ 32) (wd ws 2)

/-- R291: the flush ranges: the tier-0 parts of each entry, by virtual address, physical address and length. -/
def Iss.ncallRanges (i : Iss) (s : State) : List (Nat × Nat × Nat) :=
  (i.ncallPages s).filterMap fun p =>
    match s.xlate false i.sh.core i.sh.ctx p.2.1 .look with
    | .fail _ _ => none
    | .ok leaf _ b _ =>
      let l := s.place leaf b p.2.1
      if l.tier = 0 then some (p.2.1, l.addr, p.2.2 - p.2.1 + 1) else none

/-- R166: the trap of a flush table's page whose walk meets an uncorrectable page-table read, the first in the table's order; such a
page is not skipped (log 136). -/
def Iss.ncallLost (i : Iss) (s : State) : Option Trap :=
  ((i.ncallPages s).find? fun p => s.walkLost false i.sh.core i.sh.ctx p.2.1).map fun p =>
    { cause := .ecc, det := 2, mask := i.sh.em, ta := BitVec.ofNat 64 p.2.1 }

/-- R292: why a call is refused: STAT and ADDR. -/
def State.callRefused (s : State) (ctx : Nat) (tier stack : Nat) (addr : DWord) : Option (Nat × DWord) :=
  if !((((s.ctx? ctx).bind fun c => c.blk).map fun b => b.heath).getD false) then some (5, 0)
  else if tier ≠ 0 then some (1, addr)
  else if !((List.range 16).any fun c => s.heathInService (16 * stack + c)) then some (5, 0)
  else none

/-- R290 to R292.  A call `.at` an address outside tier 0, which is refused, waits for the queue of the stack that the address
bits would name (log 124). -/
def ncallBody (i : Iss) (s : State) : Eff :=
  match i.ncallOffsets s with
  | some t => .trap s t
  | none =>
    let ta := i.reqPair 2
    i.walking s .look ((if ncTsel i.f then [ta.toNat] else []) ++ (i.ncallPages s).map fun p => p.2.1) <|
    let x : Xl := if ncTsel i.f then s.xlate false i.sh.core i.sh.ctx ta.toNat .look else .ok 0 0 false true
    match x with
    | .fail c d =>
      let t : Trap := { cause := c, det := d, mask := i.sh.em, ta := ta }
      .trap (i.walkReport s t) t
    | .ok leaf _ b _ =>
      match i.ncallLost s with
      | some t => .trap (i.walkReport s t) t
      | none =>
      if i.ncallBad then .trap s i.illopTrap
      else
        let l : Loc := if ncTsel i.f then s.place leaf b ta.toNat else { tier := 0, peer := 0, addr := 0 }
        let stack := if ncTsel i.f then stackOf l.addr else (i.reqWord 3).toNat % 8
        if 64 ≤ s.callsQueued stack ∨ s.usingScratch i.k ∨ s.acquiring i.k then .stall s
        else
          let w := i.reqWord 4
          let ranges := i.ncallRanges s
          let (n, s) := s.newId
          let (s, ms) := s.mark i.sh.core
          let refused := s.callRefused i.sh.ctx l.tier stack ta
          let c : Call :=
            { ctx := i.sh.ctx, wg := i.sh.home.wgId, sheaf := i.k, core := i.sh.core, stack := stack, entry := i.reqPair 0
              nsh := (w &&& 0x3F).toNat, nreg := 8 * ((w >>> 16) &&& 0x7F).toNat
              msg := (List.range (ncMlen i.f)).map fun j => i.sh.readS (i.f.b.toNat + j)
              fpcr := i.sh.fpcr, hurdle := (i.reqWord 5).toNat, status := (i.reqWord 6).toNat, ranges := ranges.map fun r => r.2
              pages := ranges.map fun r => r.1
              lim := ncLim i.f, prio := ((s.wg? i.sh.home.wgId).map fun g => g.prio).getD 0
              rel := { seq := n, markers := ms, after := .exit }, pc := i.sh.pc
              state := match refused with | some _ => .returning | none => .release
              stat := (refused.map fun r => r.1).getD 0, addr := (refused.map fun r => r.2).getD 0 }
          let s := { s with calls := s.calls ++ [(n, c)] }
          let s := s.onSheaf i.k Sheaf.advance
          .to (if refused.isSome then (s.callReturn n).stopCalls else s)

def execNcall (f : Fields) (s : State) := issue rowNcall f ncallBody s

/-! ### NCALL_START (R293) -/

/-- R292: the call a stack starts next: the caller's highest launch priority, the earliest among equals. -/
def State.nextCall (s : State) (stack : Nat) : Option (Nat × Call) :=
  s.calls.foldl (fun best e =>
    if e.2.state = .queued ∧ e.2.stack = stack ∧ !e.2.dead then
      match best with
      | none => some e
      | some b => if b.2.prio < e.2.prio then some e else best
    else best) none

/-- Make sheafs resident: each gets a number and, while there are idle lanes, a lane (R27, R30). -/
def State.addSheafs (s : State) (mk : Nat → Sheaf) : Nat → State
  | 0 => s
  | k + 1 =>
    let s := State.addSheafs s mk k
    let (n, s) := s.newId
    { s with sheafs := s.sheafs ++ [(n, mk k)] }.grantLanes (mk k) 1

/-- R292, R295: whether a heath core is free: no block runs there, and none that has ended there still has its call to return. -/
def State.heathFree (s : State) (h : Nat) : Bool := (s.blocks.get? h).isNone && s.calls.all fun e => e.2.ranOn ≠ some h

/-- R293: the sheaf `k` of a block as it starts. -/
def Call.newSheaf (c : Call) (h clk k : Nat) : Sheaf :=
  { home := .block h, ctx := c.ctx, core := h, heath := true, part := 0, shid := k, slot := k, readyClk := clk
    pc := c.entry, live := 0xFFFF, em := 0xFFFF, fpcr := c.fpcr
    s := c.msg.zipIdx.foldl (fun (st : Store 32) p => st.set p.2 p.1) [] }

def execNcallStart (call hcore : Nat) (s : State) : Host.Outcome State Fault Refusal :=
  match s.calls.get? call with
  | none => .next s
  | some c =>
    let first := (s.nextCall c.stack).map fun e => e.1
    if c.state = .queued ∧ hcore / 16 = c.stack ∧ s.heathInService hcore ∧ s.heathFree hcore
        ∧ (s.refresh.get? c.stack).isNone ∧ first = some call then
      let clk := (s.heathClk.get? hcore).getD 0
      let b : Block := { call := call, ctx := c.ctx, nshf := c.nsh, nreg := c.nreg }
      let s := { s with blocks := s.blocks.put hcore b }.onCall call fun x => { x with state := .running hcore }
      .next (s.addSheafs (c.newSheaf hcore clk) c.nsh)
    else .next s

/-- R292: BUSY after more than 2^(LIM+9) clocks of self-refresh. -/
def execNcallBusyTimeout (call : Nat) (s : State) : Host.Outcome State Fault Refusal :=
  match s.calls.get? call with
  | none => .next s
  | some c =>
    match s.refresh.get? c.stack with
    | none => .next s
    | some t =>
      if c.state = .queued ∧ c.lim ≠ 0 ∧ 2 ^ (c.lim + 9) < s.dispClk - t then
        .next (((s.onCall call fun x => { x with stat := 4, state := .returning }).callReturn call).stopCalls)
      else .next s

/-! ### NRET (R294) -/

/-- The sheaf stalls until its accesses are performed, and leaves; the last one ends its block with status OK. -/
def nretBody (i : Iss) (s : State) : Eff :=
  if s.ops.any fun e => e.2.sheaf = i.k then .stall s
  else
    let s := s.endSheaf i.k
    let left := s.sheafs.any fun e => e.2.home = i.sh.home && e.2.status ≠ .exited
    .to (if left then s else (s.endBlock i.sh.core 0 0 0 0).stopCalls)

def execNret (f : Fields) (s : State) := issue rowNret f nretBody s

/-! ### FINST (R300 to R302) -/

/-- The physical address of a segment, and its fallow stack. -/
def segBase (n : Nat) : Nat := 0x100000000000 + n / 32768 * 2 ^ 40 + n % 32768 * 2 ^ 25
def segStack (n : Nat) : Nat := n / 32768

/-- The rated limit of R299. -/
def wearLimit : Nat := 3000

/-- R302: the segments of a request, or the address of the first that fails the checks. -/
def State.finstSegs (s : State) (core ctx dest : Nat) : Nat → List Nat → Except Nat (List Nat)
  | 0, acc => .ok acc
  | k + 1, acc =>
    let va := dest + acc.length * 2 ^ 25
    match s.xlate false core ctx va .look with
    | .fail _ _ => .error va
    | .ok leaf _ b _ =>
      let l := s.place leaf b va
      let n := segOf l.addr
      let st := (s.seg n).state
      if l.tier ≠ 1 ∨ !leaf.getLsbD 3 ∨ l.addr % 2 ^ 25 ≠ 0 ∨ st = .failed ∨ st = .out then .error va
      else State.finstSegs s core ctx dest k (acc ++ [n])

/-- R302: the status record of a request. -/
def Install.record (x : Install) (stat addr : Nat) : List Byte :=
  bytesLe 4 (stat + 256 * x.done) ++ bytesLe 4 x.chg ++ bytesLe 8 addr

/-- R302: a request ends: the record and the arrival, unless its context was killed (R324). -/
def State.endInstall (s : State) (n : Nat) (x : Install) (stat addr : Nat) : State :=
  let s := { s with installs := s.installs.del n }
  if x.dead then s.reapCtx x.ctx
  else ((s.spWrite (.wg x.wg) x.status (x.record stat addr)).agentArrive x.wg x.hurdle 0 x.pc.toNat).stopCalls

/-- R302: erase a segment: a unit of budget and of wear, state INSTALL, its lines dropped (R165), monitors on them fired
(R212).  One that has become FAILED or WORN since the request's check is erased all the same (log 125). -/
def State.startSegment (s : State) (n : Nat) (x : Install) (seg : Nat) : State :=
  let s := s.onCtx x.ctx fun c => { c with instb := if c.instb = 0 then 0 else c.instb - 1 }
  let s := { s with segs := s.segs.put seg { state := .install, wear := (s.seg seg).wear + 1 } }
  let s := (s.l2.filter fun l => isFallow (128 * l.line) && segOf (128 * l.line) = seg).foldl (fun s l => s.evictLine l.line) s
  let mine (line : Nat) : Bool := isFallow (128 * line) && segOf (128 * line) = seg
  let s := (s.icDrop mine).fireWhere mine
  { s with installs := s.installs.upd n fun y => { y with started := true, chg := y.chg + 1 } }

/-- R302: whether a request's next segment may start: no earlier request has a segment on its fallow stack left. -/
def State.mayInstall (s : State) (n : Nat) (x : Install) : Option Nat :=
  if x.started then none
  else
    match x.segs[x.done]? with
    | none => none
    | some seg =>
      if s.installs.any fun e => e.1 < n && (e.2.segs.drop e.2.done).any fun q => segStack q = segStack seg then none
      else some seg

/-- Start every segment that may. -/
def State.pumpInstalls (s : State) : State :=
  s.installs.foldl (fun s e =>
    match s.installs.get? e.1 with
    | none => s
    | some x => match s.mayInstall e.1 x with | some seg => s.startSegment e.1 x seg | none => s) s

/-- R301: the checks at issue. -/
def Iss.finstCheck (i : Iss) (s : State) : Option Trap :=
  let src := i.reqPair 0
  let dst := i.reqPair 2
  let len := (i.reqWord 4).toNat
  let h := (i.reqWord 5).toNat
  let st := (i.reqWord 6).toNat
  let al (a : DWord) (n : Nat) : Option Trap :=
    if a.toNat % n ≠ 0 then some { cause := .align, mask := i.sh.em, ta := a } else none
  let hi (a : DWord) : Option Trap :=
    if 2 ^ 49 ≤ a.toNat then some { cause := .xlate, det := 2, mask := i.sh.em, ta := a } else none
  [(if len = 0 ∨ len % 64 ≠ 0 then some i.illopTrap else none), al src 64, al dst (2 ^ 25), i.off16 h, i.off16 st,
   i.offCheck s h 16, i.offCheck s st 16, hi src, hi dst].findSome? id

/-- R301, R302: accepted and checked whole at issue. -/
def finstBody (i : Iss) (s : State) : Eff :=
  match i.finstCheck s with
  | some t => .trap s t
  | none =>
    if s.acquiring i.k then .stall s
    else
      let dst := (i.reqPair 2).toNat
      let len := (i.reqWord 4).toNat
      let count := (len + 2 ^ 25 - 1) / 2 ^ 25
      i.walking s .look ((List.range count).map fun j => dst + j * 2 ^ 25) <|
      let (n, s) := s.newId
      let x : Install :=
        { ctx := i.sh.ctx, wg := i.sh.home.wgId, core := i.sh.core, src := (i.reqPair 0).toNat, dest := dst, len := len
          hurdle := (i.reqWord 5).toNat, status := (i.reqWord 6).toNat, segs := [], pc := i.sh.pc
          grid := ((s.wg? i.sh.home.wgId).map fun g => g.grid).getD 0 }
      let s := s.onSheaf i.k Sheaf.advance
      match s.finstSegs i.sh.core i.sh.ctx dst count [] with
      | .error va => .to ((i.reportWalks s [va] s).endInstall n x 4 va)
      | .ok segs =>
        match segs.zipIdx.find? fun p => wearLimit ≤ (s.seg p.1).wear with
        | some p => .to (s.endInstall n x 1 (dst + p.2 * 2 ^ 25))
        | none =>
          let budget := ((s.ctx? i.sh.ctx).map fun c => c.instb.toNat).getD 0
          if budget < count then .to (s.endInstall n x 6 dst)
          else .to { s with installs := s.installs ++ [(n, { x with segs := segs })] }.pumpInstalls

def execFinst (f : Fields) (s : State) := issue rowFinst f finstBody s

/-! ### SEGMENT_INSTALL_DONE (R299, R302) -/

/-- R302: the source of a segment, tier 0 or tier 3. -/
def State.installSource (s : State) (x : Install) (data : List Byte) : Met (List Byte) :=
  let va := x.src + x.done * 2 ^ 25
  let n := min (x.len - x.done * 2 ^ 25) (2 ^ 25)
  let g : Agent := { ctx := x.ctx, core := x.core, wg := x.wg, pc := x.pc.toNat, hint := 0 }
  (Met.each s () (fun s _ (p : Nat × Nat × Nat) =>
    (s.engLook g .load p.2.1).andThen fun s q =>
      if q.1.tier = 1 ∨ q.1.tier = 2 then .fault s .xlate p.2.1 else .ok s ()) (pagesOf va n)).andThen fun s _ =>
    (s.engBytes g va n data).andThen fun s p => .ok s p.1

/-- The state of a segment after an install (R299), its staging blocks invalidated (R165). -/
def State.endSegment (s : State) (seg : Nat) (st : SegState) : State :=
  { s with
    segs := s.segs.put seg { s.seg seg with state := st }
    staging := s.staging.filter fun b => segOf (b.1 * 65536) ≠ seg }

/-- R302: a request stops with SRCFAULT; the address is that of the first source byte of its segment (log 126). -/
def State.sourceFault (s : State) (n : Nat) (x : Install) (seg : Nat) : State :=
  ((s.endSegment seg .invalid).endInstall n x 5 (x.src + x.done * 2 ^ 25)).pumpInstalls

/-- R302: one segment of a started request ends; a source page the host does not give fails it (R350). -/
def State.installDone (s : State) (n : Nat) (x : Install) (seg : Nat) (r : InstallResult) (data : List Byte) : State :=
  let here := x.dest + x.done * 2 ^ 25
  if x.lost then s.sourceFault n x seg else
  match s.installSource x data with
  | .held ws => { s.fillBlocks ws with installs := s.installs.upd n fun y => { y with waits := ws } }
  | .fault s _ _ => s.sourceFault n x seg
  | .ok s bs =>
    match r with
    | .sourceFault => s.sourceFault n x seg
    | .programFailure => ((s.endSegment seg .failed).endInstall n x 2 here).pumpInstalls
    | .mismatch => ((s.endSegment seg .invalid).endInstall n x 3 here).pumpInstalls
    | .verified =>
      let base := segBase seg
      let s := { s with mem := Store.blit (Store.clear s.mem base (base + 2 ^ 25)) base bs }
      let s := s.endSegment seg (if wearLimit ≤ (s.seg seg).wear then .worn else .service)
      let y := { x with done := x.done + 1, started := false, waits := [] }
      if y.done = y.segs.length then (s.endInstall n y 0 0).pumpInstalls
      else { s with installs := s.installs.upd n fun _ => y }.pumpInstalls

def execSegmentInstallDone (req : Nat) (r : InstallResult) (data : List Byte) (s : State) :
    Host.Outcome State Fault Refusal :=
  match s.installs.get? req with
  | none => .next s
  | some x =>
    match x.started, x.segs[x.done]? with
    | true, some seg => .next (s.installDone req x seg r data)
    | _, _ => .next s

/-! ### FQRY (R303) -/

/-- The state code FQRY reports. -/
def SegState.code : SegState → Nat
  | .service => 0 | .install => 1 | .worn => 2 | .invalid => 3 | .failed => 4 | .out => 7

/-- R303: the result group. -/
def State.fqry (s : State) (sh : Sheaf) (va : Nat) : List Word :=
  match s.xlate false sh.core sh.ctx va .look with
  | .fail _ _ => [7, 0, 0, 0]
  | .ok leaf _ b _ =>
    let l := s.place leaf b va
    if l.tier ≠ 1 then [7, 0, 0, 0]
    else
      let n := segOf l.addr
      [BitVec.ofNat 32 (s.seg n).state.code, BitVec.ofNat 32 (s.seg n).wear, BitVec.ofNat 32 wearLimit,
       BitVec.ofNat 32 (segStack n * 65536 + n % 32768)]

def fqryBody (i : Iss) (s : State) : Eff :=
  let a : Access := { thread := 0, va := 0, loc := { tier := 0, peer := 0, addr := 0 }, lh := 0, x := 0, e := 0 }
  let va := (i.sh.read64 i.f i.f.b 0).toNat
  if i.sh.full .fqry then .stall s
  else
    i.walking s .look [va] <|
    i.startOp (i.reportWalks s [va] s) { i.newOp s .fqry 0 0 0 false [a] with words := 4, res := s.fqry i.sh va }

def execFqry (f : Fields) (s : State) := issue rowFqry f fqryBody s

end Sys2Proof.Machine
end

