-- ==== Sys2Proof/Machine/Dispatch.lean ====
section
/-! DEFINITION. The dispatch of every instruction and event to its meaning. -/

namespace Sys2Proof.Machine

/-- What an instruction or event does. -/
def exec (i : Instr) (s : State) : Host.Outcome State Fault Refusal :=
  match i with
  | .iadd f => Sys2Proof.Machine.execIadd f s
  | .isub f => Sys2Proof.Machine.execIsub f s
  | .imul f => Sys2Proof.Machine.execImul f s
  | .imulh f => Sys2Proof.Machine.execImulh f s
  | .imad f => Sys2Proof.Machine.execImad f s
  | .idiv f => Sys2Proof.Machine.execIdiv f s
  | .irem f => Sys2Proof.Machine.execIrem f s
  | .imin f => Sys2Proof.Machine.execImin f s
  | .imax f => Sys2Proof.Machine.execImax f s
  | .iabs f => Sys2Proof.Machine.execIabs f s
  | .ineg f => Sys2Proof.Machine.execIneg f s
  | .isad f => Sys2Proof.Machine.execIsad f s
  | .lea f => Sys2Proof.Machine.execLea f s
  | .iaddc f => Sys2Proof.Machine.execIaddc f s
  | .mov f => Sys2Proof.Machine.execMov f s
  | .nop f => Sys2Proof.Machine.execNop f s
  | .andI f => Sys2Proof.Machine.execAnd f s
  | .orI f => Sys2Proof.Machine.execOr f s
  | .xorI f => Sys2Proof.Machine.execXor f s
  | .andn f => Sys2Proof.Machine.execAndn f s
  | .notI f => Sys2Proof.Machine.execNot f s
  | .shl f => Sys2Proof.Machine.execShl f s
  | .shr f => Sys2Proof.Machine.execShr f s
  | .sar f => Sys2Proof.Machine.execSar f s
  | .rot f => Sys2Proof.Machine.execRot f s
  | .clz f => Sys2Proof.Machine.execClz f s
  | .popc f => Sys2Proof.Machine.execPopc f s
  | .brev f => Sys2Proof.Machine.execBrev f s
  | .bfx f => Sys2Proof.Machine.execBfx f s
  | .bfi f => Sys2Proof.Machine.execBfi f s
  | .perm f => Sys2Proof.Machine.execPerm f s
  | .iset f => Sys2Proof.Machine.execIset f s
  | .fset f => Sys2Proof.Machine.execFset f s
  | .sel f => Sys2Proof.Machine.execSel f s
  | .plop f => Sys2Proof.Machine.execPlop f s
  | .pmov f => Sys2Proof.Machine.execPmov f s
  | .vote f => Sys2Proof.Machine.execVote f s
  | .shfl f => Sys2Proof.Machine.execShfl f s
  | .bcast f => Sys2Proof.Machine.execBcast f s
  | .brk f => Sys2Proof.Machine.execBrk f s
  | .bra f => Sys2Proof.Machine.execBra f s
  | .braEz f => Sys2Proof.Machine.execBraEz f s
  | .brx f => Sys2Proof.Machine.execBrx f s
  | .call f => Sys2Proof.Machine.execCall f s
  | .callReg f => Sys2Proof.Machine.execCallReg f s
  | .ret f => Sys2Proof.Machine.execRet f s
  | .emsav f => Sys2Proof.Machine.execEmsav f s
  | .emld f => Sys2Proof.Machine.execEmld f s
  | .emand f => Sys2Proof.Machine.execEmand f s
  | .wbase f => Sys2Proof.Machine.execWbase f s
  | .rgn f => Sys2Proof.Machine.execRgn f s
  | .exit f => Sys2Proof.Machine.execExit f s
  | .launch f => Sys2Proof.Machine.execLaunch f s
  | .yield f => Sys2Proof.Machine.execYield f s
  | .movs f => Sys2Proof.Machine.execMovs f s
  | .smov f => Sys2Proof.Machine.execSmov f s
  | .trap f => Sys2Proof.Machine.execTrap f s
  | .tret f => Sys2Proof.Machine.execTret f s
  | .fadd f => Sys2Proof.Machine.execFadd f s
  | .fsub f => Sys2Proof.Machine.execFsub f s
  | .fmul f => Sys2Proof.Machine.execFmul f s
  | .ffma f => Sys2Proof.Machine.execFfma f s
  | .fmin f => Sys2Proof.Machine.execFmin f s
  | .fmax f => Sys2Proof.Machine.execFmax f s
  | .fclass f => Sys2Proof.Machine.execFclass f s
  | .fscl f => Sys2Proof.Machine.execFscl f s
  | .ffrx f => Sys2Proof.Machine.execFfrx f s
  | .frnd f => Sys2Proof.Machine.execFrnd f s
  | .fdiv f => Sys2Proof.Machine.execFdiv f s
  | .frcp f => Sys2Proof.Machine.execFrcp f s
  | .frsq f => Sys2Proof.Machine.execFrsq f s
  | .fsqrt f => Sys2Proof.Machine.execFsqrt f s
  | .fexp2 f => Sys2Proof.Machine.execFexp2 f s
  | .flog2 f => Sys2Proof.Machine.execFlog2 f s
  | .fsin f => Sys2Proof.Machine.execFsin f s
  | .fcos f => Sys2Proof.Machine.execFcos f s
  | .hadd2 f => Sys2Proof.Machine.execHadd2 f s
  | .hmul2 f => Sys2Proof.Machine.execHmul2 f s
  | .hfma2 f => Sys2Proof.Machine.execHfma2 f s
  | .hmin2 f => Sys2Proof.Machine.execHmin2 f s
  | .hmax2 f => Sys2Proof.Machine.execHmax2 f s
  | .fcvt f => Sys2Proof.Machine.execFcvt f s
  | .f2i f => Sys2Proof.Machine.execF2i f s
  | .i2f f => Sys2Proof.Machine.execI2f f s
  | .pack f => Sys2Proof.Machine.execPack f s
  | .unpk f => Sys2Proof.Machine.execUnpk f s
  | .mxcvt f => Sys2Proof.Machine.execMxcvt f s
  | .ld f => Sys2Proof.Machine.execLd f s
  | .st f => Sys2Proof.Machine.execSt f s
  | .ldx f => Sys2Proof.Machine.execLdx f s
  | .pfm f => Sys2Proof.Machine.execPfm f s
  | .cflush f => Sys2Proof.Machine.execCflush f s
  | .cinv f => Sys2Proof.Machine.execCinv f s
  | .lds f => Sys2Proof.Machine.execLds f s
  | .sts f => Sys2Proof.Machine.execSts f s
  | .atoms f => Sys2Proof.Machine.execAtoms f s
  | .atom f => Sys2Proof.Machine.execAtom f s
  | .red f => Sys2Proof.Machine.execRed f s
  | .xred f => Sys2Proof.Machine.execXred f s
  | .fence f => Sys2Proof.Machine.execFence f s
  | .mon f => Sys2Proof.Machine.execMon f s
  | .mwait f => Sys2Proof.Machine.execMwait f s
  | .hinit f => Sys2Proof.Machine.execHinit f s
  | .harv f => Sys2Proof.Machine.execHarv f s
  | .hdrop f => Sys2Proof.Machine.execHdrop f s
  | .hwait f => Sys2Proof.Machine.execHwait f s
  | .htest f => Sys2Proof.Machine.execHtest f s
  | .cwait f => Sys2Proof.Machine.execCwait f s
  | .acpy f => Sys2Proof.Machine.execAcpy f s
  | .bcpy f => Sys2Proof.Machine.execBcpy f s
  | .gath f => Sys2Proof.Machine.execGath f s
  | .scat f => Sys2Proof.Machine.execScat f s
  | .ncall f => Sys2Proof.Machine.execNcall f s
  | .nret f => Sys2Proof.Machine.execNret f s
  | .finst f => Sys2Proof.Machine.execFinst f s
  | .fqry f => Sys2Proof.Machine.execFqry f s
  | .mxacq f => Sys2Proof.Machine.execMxacq f s
  | .mxrel f => Sys2Proof.Machine.execMxrel f s
  | .lmma f => Sys2Proof.Machine.execLmma f s
  | .lmz f => Sys2Proof.Machine.execLmz f s
  | .lmld f => Sys2Proof.Machine.execLmld f s
  | .lmst f => Sys2Proof.Machine.execLmst f s
  | .lmscl f => Sys2Proof.Machine.execLmscl f s
  | .lmsav f => Sys2Proof.Machine.execLmsav f s
  | .lmrst f => Sys2Proof.Machine.execLmrst f s
  | .kvtr f => Sys2Proof.Machine.execKvtr f s
  | .kvld f => Sys2Proof.Machine.execKvld f s
  | .kvinv f => Sys2Proof.Machine.execKvinv f s
  | .smxi f => Sys2Proof.Machine.execSmxi f s
  | .smxu f => Sys2Proof.Machine.execSmxu f s
  | .smxn f => Sys2Proof.Machine.execSmxn f s
  | .rhdef f => Sys2Proof.Machine.execRhdef f s
  | .rhpri f => Sys2Proof.Machine.execRhpri f s
  | .rhevict f => Sys2Proof.Machine.execRhevict f s
  | .ipf f => Sys2Proof.Machine.execIpf f s
  | .ipin f => Sys2Proof.Machine.execIpin f s
  | .iunpin f => Sys2Proof.Machine.execIunpin f s
  | .pmap f => Sys2Proof.Machine.execPmap f s
  | .pfwait f => Sys2Proof.Machine.execPfwait f s
  | .tlbi f => Sys2Proof.Machine.execTlbi f s
  | .trapEntry k => Sys2Proof.Machine.execTrapEntry k s
  | .loadReturn op data => Sys2Proof.Machine.execLoadReturn op data s
  | .storePerformed op => Sys2Proof.Machine.execStorePerformed op s
  | .fifoWriteback core => Sys2Proof.Machine.execFifoWriteback core s
  | .releaseComplete r => Sys2Proof.Machine.execReleaseComplete r s
  | .walkComplete k => Sys2Proof.Machine.execWalkComplete k s
  | .accessFault op remote ecc => Sys2Proof.Machine.execAccessFault op remote ecc s
  | .lmmaFragmentRead core member stale => Sys2Proof.Machine.execLmmaFragmentRead core member stale s
  | .latticeProduct core => Sys2Proof.Machine.execLatticeProduct core s
  | .latticeGrant core carry => Sys2Proof.Machine.execLatticeGrant core carry s
  | .engineAccept core stale data => Sys2Proof.Machine.execEngineAccept core stale data s
  | .engineCredit op lo n data => Sys2Proof.Machine.execEngineCredit op lo n data s
  | .acpyComplete op => Sys2Proof.Machine.execAcpyComplete op s
  | .engineFault op link ecc => Sys2Proof.Machine.execEngineFault op link ecc s
  | .memsideReduction r => Sys2Proof.Machine.execMemsideReduction r s
  | .xredResult op port others => Sys2Proof.Machine.execXredResult op port others s
  | .stagingFillDone block => Sys2Proof.Machine.execStagingFillDone block s
  | .segmentInstallDone req result data => Sys2Proof.Machine.execSegmentInstallDone req result data s
  | .ncallStart call hcore => Sys2Proof.Machine.execNcallStart call hcore s
  | .ncallBusyTimeout call => Sys2Proof.Machine.execNcallBusyTimeout call s
  | .migrationSelect ctx page dest => Sys2Proof.Machine.execMigrationSelect ctx page dest s
  | .migrationDrained ctx page => Sys2Proof.Machine.execMigrationDrained ctx page s
  | .migrationCopyDone ctx page ok data => Sys2Proof.Machine.execMigrationCopyDone ctx page ok data s
  | .migrationRemapDone ctx page => Sys2Proof.Machine.execMigrationRemapDone ctx page s
  | .migrationReleaseDone ctx page => Sys2Proof.Machine.execMigrationReleaseDone ctx page s
  | .selfRefreshEntry stack => Sys2Proof.Machine.execSelfRefreshEntry stack s
  | .selfRefreshExit stack => Sys2Proof.Machine.execSelfRefreshExit stack s
  | .recordHead q data => Sys2Proof.Machine.execRecordHead q data s
  | .eventWordRead grid => Sys2Proof.Machine.execEventWordRead grid s
  | .dispatchDecision => Sys2Proof.Machine.execDispatchDecision s
  | .workgroupDone wg => Sys2Proof.Machine.execWorkgroupDone wg s
  | .gridRetire grid => Sys2Proof.Machine.execGridRetire grid s
  | .drainDeadline ctx core => Sys2Proof.Machine.execDrainDeadline ctx core s
  | .timeSliceExpiry ctx => Sys2Proof.Machine.execTimeSliceExpiry ctx s
  | .tier2Timeout op => Sys2Proof.Machine.execTier2Timeout op s
  | .atsCompletion page answer => Sys2Proof.Machine.execAtsCompletion page answer s
  | .priResponse page answer => Sys2Proof.Machine.execPriResponse page answer s
  | .atsInvalidate page => Sys2Proof.Machine.execAtsInvalidate page s
  | .remoteAccess r => Sys2Proof.Machine.execRemoteAccess r s
  | .peerBlockRead r => Sys2Proof.Machine.execPeerBlockRead r s
  | .doorbell slot t => Sys2Proof.Machine.execDoorbell slot t s
  | .pfcOk seq => Sys2Proof.Machine.execPfcOk seq s
  | .pfcFail seq => Sys2Proof.Machine.execPfcFail seq s
  | .irqClear bits => Sys2Proof.Machine.execIrqClear bits s
  | .slotCtlWrite slot reg v => Sys2Proof.Machine.execSlotCtlWrite slot reg v s
  | .slotRestart slot v => Sys2Proof.Machine.execSlotRestart slot v s
  | .ctxCreate ctx => Sys2Proof.Machine.execCtxCreate ctx s
  | .ctxDrain ctx => Sys2Proof.Machine.execCtxDrain ctx s
  | .ctxDestroy ctx => Sys2Proof.Machine.execCtxDestroy ctx s
  | .migbWrite ctx v => Sys2Proof.Machine.execMigbWrite ctx v s
  | .instbWrite ctx v => Sys2Proof.Machine.execInstbWrite ctx v s
  | .ctxAxfClear ctx v => Sys2Proof.Machine.execCtxAxfClear ctx v s
  | .flogptrWrite ctx v => Sys2Proof.Machine.execFlogptrWrite ctx v s
  | .mlogptrWrite ctx v => Sys2Proof.Machine.execMlogptrWrite ctx v s
  | .registerWrite offset v => Sys2Proof.Machine.execRegisterWrite offset v s
  | .powerOn => Sys2Proof.Machine.execPowerOn s
  | .bringupComplete results => Sys2Proof.Machine.execBringupComplete results s
  | .reboot => Sys2Proof.Machine.execReboot s
  | .commit => Sys2Proof.Machine.execCommit s
  | .commitComplete ok => Sys2Proof.Machine.execCommitComplete ok s
  | .powerLoss => Sys2Proof.Machine.execPowerLoss s
  | .thermalTrip zone => Sys2Proof.Machine.execThermalTrip zone s
  | .getVersion req => Sys2Proof.Machine.execGetVersion req s
  | .getCapabilities req => Sys2Proof.Machine.execGetCapabilities req s
  | .negotiateAlgorithms req => Sys2Proof.Machine.execNegotiateAlgorithms req s
  | .getDigests req => Sys2Proof.Machine.execGetDigests req s
  | .getCertificate req => Sys2Proof.Machine.execGetCertificate req s
  | .challenge req => Sys2Proof.Machine.execChallenge req s
  | .getMeasurements req => Sys2Proof.Machine.execGetMeasurements req s
  | .spdmUnsupported req => Sys2Proof.Machine.execSpdmUnsupported req s
  | .reservedOpcode base mod => Sys2Proof.Machine.execReservedOpcode base mod s
  | .fqptrWrite v => Sys2Proof.Machine.execFqptrWrite v s
  | .rangeMaintenanceComplete op => Sys2Proof.Machine.execRangeMaintenanceComplete op s
  | .handleEvictionComplete op => Sys2Proof.Machine.execHandleEvictionComplete op s
  | .remoteAcknowledgement op data => Sys2Proof.Machine.execRemoteAcknowledgement op data s
  | .tileOperationPerformed core op => Sys2Proof.Machine.execTileOperationPerformed core op s

end Sys2Proof.Machine
end

