-- ==== Sys2Proof/Machine/Schedule.lean ====
section
/-! DEFINITION. What a step does (log 2): the act at the head of the agenda, or, with nothing there, the first event that
is due, else the next sheaf that can issue. -/

namespace Sys2Proof.Machine

/-! ### One sheaf issues -/

/-- R33: a sheaf that can issue: ISSUING, or STALLED on a condition it finds again at issue. -/
def Sheaf.canIssue (sh : Sheaf) : Bool :=
  match sh.status with
  | .issuing | .stalled .retry | .stalled (.held _) | .stalled (.fetch _) | .stalled (.lost ..) => true
  | _ => false

/-- R304: a sheaf that can issue, and does not wait for a stack still in self-refresh. -/
def State.mayIssue (s : State) (sh : Sheaf) : Bool := sh.canIssue && !s.onRefresh sh.waitsOn

/-- R72, R304, R350: a fetch waits; of one whose host page has failed that stands. -/
def State.fetchWaits (s : State) (k : Nat) (sh : Sheaf) (ws : List WaitOn) : State :=
  s.onSheaf k fun t => { t with status := .stalled (match sh.status with | .stalled (.lost va _) => .lost va ws | _ => .fetch ws) }

/-- The words of an instruction are decoded and it executes (R71, R94).  A fetch gives every word, so none is short. -/
def State.runWords (s : State) (w : Words) : Host.Outcome State Fault Refusal :=
  match decodeWords w.list with
  | .ok (i, _) => exec i s
  | .error .short => .next s

/-- A sheaf issues: a trap that waits is taken first (R316); else the words at its PC are fetched and run. -/
def State.issueStep (s : State) (k : Nat) : Host.Outcome State Fault Refusal :=
  match s.sheaf? k with
  | none => .next s
  | some sh0 =>
    if !s.mayIssue sh0 then .next s
    else
      let sh := { sh0.nearAhead with status := .issuing }
      let s := { s.onSheaf k fun _ => sh with cur := some k }
      if sh.mayEnter then .next (s.trapEntry k)
      else
        match s.fetchInstr sh0.nearAhead with
        | (.got s w, _) => s.runWords w
        | (.trap s t, w) => .next (s.wordTrap k w t)
        | (.wait s ws, _) => .next (s.fetchWaits k sh0 ws)

/-! ### Other acts -/

/-- R225: fetch words ahead of a sheaf's PC, as far as they can be fetched without a fault. -/
def State.fetchAhead (s : State) (k : Nat) : Nat → State
  | 0 => s
  | n + 1 =>
    let s := State.fetchAhead s k n
    match s.sheaf? k with
    | none => s
    | some sh =>
      let va := sh.pc + BitVec.ofNat 64 (4 * n)
      if 16 ≤ n ∨ (sh.ahead.get? va.toNat).isSome then s
      else
        match s.fetchWord sh va with
        | .got s w => s.onSheaf k fun t => { t with ahead := t.ahead.put va.toNat w }
        | .trap .. | .wait .. => s

/-- R163, R169, R304: an L2 line leaves, unless its write-back is held: an unhandled one alone, a handled one with its whole
handle. -/
def State.evictAny (s : State) (line : Nat) : State :=
  match (s.l2? line).bind fun l => l.handle with
  | some h => if s.handleHeld h then s else s.evictHandle h
  | none => if s.flushHeld line then s else s.evictLine line

/-- R160, R169: an L1 line leaves, unless its write-back is held. -/
def State.evictL1 (s : State) (core line : Nat) : State :=
  match s.l1? core line with
  | some l => if s.stuck l then s else s.l1Evict core line
  | none => s

/-- R225, R226: a line that is not pinned leaves an instruction cache; a pinned one of another device or the host, which may be written
there, loses its words. -/
def State.dropIc (s : State) (core line : Nat) : State :=
  let drop (l : IcLine) : Option IcLine :=
    if l.line ≠ line then some l else if l.pins = [] then none
    else some (if 2 ^ 45 ≤ line then { l with words := [] } else l)
  s.onCore core fun c => { c with ic := c.ic.filterMap drop }

/-- R166: a corrected error is counted in a report to the host. -/
def State.countCorrected (s : State) : State :=
  { s with corrected := s.corrected + 1 }.report (.corrected (s.corrected + 1))

/-- R166: an uncorrectable error in a workgroup's register files, scratchpad or LAM. -/
def State.unitError (s : State) (w : Nat) : State :=
  match s.wg? w with
  | none => s
  | some g =>
    if g.freed then s else
    let s := s.faultLog g.ctx { s.wgRec w 4 with causes := Cause.ecc.code }
    ((s.report (.uncorrectable 0)).raiseIrq 4).terminate w .ecc 0 0

/-- Whether a row is an event, which happens by itself, and not an instruction, which a sheaf issues. -/
def Instr.isEvent (i : Instr) : Bool :=
  match i with
  | .reservedOpcode _ _ => false
  | _ => i.coded.isNone

/-- Carry out one act. -/
def State.act (s : State) (a : Act) : Host.Outcome State Fault Refusal :=
  match a with
  | .issue k => s.issueStep k
  | .event i => if Instr.isEvent i then exec i s else .next s
  | .tick core n => .next (s.passClocks core n)
  | .tickHeath h n => .next { s with heathClk := s.heathClk.put h ((s.heathClk.get? h).getD 0 + n) }
  | .tickDispatch n => .next { s with dispClk := s.dispClk + n }
  | .evictL1 core line => .next (s.evictL1 core line)
  | .evictL2 line => .next (s.evictAny line)
  | .dropTlb agent n => .next { s with tlbs := s.tlbs.upd agent fun l => l.eraseIdx n }
  | .dropStaging b => .next { s with staging := s.staging.filter fun x => x.1 ≠ b }
  | .dropIc core line => .next (s.dropIc core line)
  | .dropKv core n => .next (s.onCore core fun c => { c with kv := c.kv.del n })
  | .dropBlk n => .next { s with bmCache := s.bmCache.del n }
  | .fetchAhead k n => .next (s.fetchAhead k n)
  | .sector a bad =>
    let rest := s.badSectors.filter (· ≠ a / 64)
    .next { s with badSectors := if bad then a / 64 :: rest else rest }
  | .unitError w => .next (s.unitError w)
  | .temperature z c => .next { s with tzone := s.tzone.set (z % 8) c }
  | .commitBuffer off bs => .next (s.writeBuffer off bs)
  | .hostRead off => .next (s.hostRead off)
  | .corrected => .next s.countCorrected
  | .stage1 => .next s.passStage1
  | .readReg op j => .next (s.readReg op j)
  | .forward op t => .next (s.forward op t)
  | .eccLogged => .next s.logEcc
  | .readFails tier peer ecc => .next { s with farFails := s.farFails ++ [(tier, peer, ecc)] }
  | .wordAhead op p w data => .next (s.wordAhead op p w data)
  | .byteAhead op p j data => .next (s.byteAhead op p j data)
  | .softBytes core op at_ => .next (s.softBytes core op at_)
  | .scratchLost op a => .next (s.scratchLost op a)
  | .rebound g => .next (s.rebound g)

/-! ### What is due when the agenda is empty -/

/-- Events of outstanding accesses. -/
def State.opEvents (s : State) : List Instr :=
  s.ops.flatMap fun e =>
    match e.2.kind with
    | .load | .ldx | .lds | .kvtr | .fqry | .lmst => [.accessFault e.1 0 false, .loadReturn e.1 []]
    | .atom | .atoms => [.accessFault e.1 0 false, .loadReturn e.1 []]
    | .store | .sts => [.accessFault e.1 0 false, .storePerformed e.1]
    | .red => .accessFault e.1 0 false :: .storePerformed e.1 :: e.2.accs.map fun a => .memsideReduction (.red e.1 a.thread)
    | .cflush | .cinv => [.rangeMaintenanceComplete e.1]
    | .rhevict => [.handleEvictionComplete e.1]

/-- The first run of pieces of an engine operation that is not done. -/
def Eng.nextRun (g : Eng) : Nat × Nat :=
  let lo := g.pieces.foldl (fun lo _ =>
    match g.pieces.find? fun r => r.1 ≤ lo && lo < r.1 + r.2 with
    | some r => r.1 + r.2
    | none => lo) 0
  (lo, g.pieces.foldl (fun hi r => if lo ≤ r.1 then min hi r.1 else hi) g.total - lo)

/-- Events of engine operations. -/
def State.engEvents (s : State) : List Instr :=
  s.engs.flatMap fun e =>
    let run := e.2.nextRun
    let faults : List Instr := if e.2.fault.isSome then [.engineFault e.1 false false] else []
    match e.2.kind with
    | .acpy _ => faults ++ [.acpyComplete e.1, .engineCredit e.1 run.1 run.2 []]
    | .scat =>
      faults ++ ((List.range e.2.total).flatMap fun r =>
        ((List.range e.2.desc.width).filter fun w => e.2.mayApply r w).map fun w => .memsideReduction (.scat e.1 r w))
        ++ [.engineCredit e.1 run.1 run.2 []]
    | .lmrst _ => faults ++ [.engineCredit e.1 (if e.2.tiled then run.1 else 0) (if e.2.tiled then run.2 else 64) []]
    | _ => faults ++ [.engineCredit e.1 run.1 run.2 []]

/-- Events of cores: FIFOs, requests, the lattice. -/
def State.coreEvents (s : State) : List Instr :=
  s.cores.flatMap fun e =>
    let c := e.1
    let l := e.2.lattice
    (if e.2.fifo = [] then [] else [.fifoWriteback c])
      ++ [.latticeGrant c .zeroAll] ++ ((List.range 4).map fun m => .lmmaFragmentRead c m [])
      ++ [.latticeProduct c] ++ (l.ops.map fun t => .tileOperationPerformed c t.id)

/-- Events of sheafs, calls, and the rest that happens by itself. -/
def State.otherEvents (s : State) : List Instr :=
  (s.sheafs.flatMap fun e =>
    (if e.2.mayEnter then [.trapEntry e.1] else []) ++ (if e.2.rel.isSome then [.releaseComplete (.sheaf e.1)] else [])
      ++ (match e.2.status with | .stalled (.walk _) => [.walkComplete e.1] | _ => []))
  ++ (s.engs.map fun e => .engineAccept e.2.core 0 [])
  ++ (s.calls.flatMap fun e =>
    [.releaseComplete (.call e.1), .ncallBusyTimeout e.1]
      ++ (List.range 16).map fun h => .ncallStart e.1 (16 * e.2.stack + h))
  ++ (s.packets.map fun e => .memsideReduction (.packet e.1))
  ++ (s.stagingFills.map fun b => .stagingFillDone b.1)
  ++ (s.migrations.flatMap fun m =>
    [.migrationDrained m.ctx m.page, .migrationRemapDone m.ctx m.page, .migrationReleaseDone m.ctx m.page]
      ++ (if m.new.tier = 0 then [] else [.migrationCopyDone m.ctx m.page true []]))

/-- Events of the dispatcher; a reading of event words that tells a grid nothing new is not due. -/
def State.dispatchEvents (s : State) : List Instr :=
  (s.wgs.map fun e => .workgroupDone e.1) ++ (s.grids.map fun e => .gridRetire e.1)
    ++ (s.ctxs.flatMap fun e =>
      .timeSliceExpiry e.1 :: ((e.2.drain.getD []).map fun c => .drainDeadline e.1 c.1) ++ [.recordHead (.device e.1) []])
    ++ (s.slots.map fun e => .recordHead (.slot e.1) []) 
    ++ ((s.grids.filter fun e => (s.readWaits e.1).grid? e.1 ≠ some e.2).map fun e => .eventWordRead e.1) ++ [.dispatchDecision]

/-- Every event that might be due, in the order they are tried. -/
def State.dueEvents (s : State) : List Instr :=
  s.opEvents ++ s.engEvents ++ s.coreEvents ++ s.otherEvents ++ s.dispatchEvents

/-- What the first event that changes anything leaves. -/
def State.firstDue (s : State) : Option State :=
  s.dueEvents.findSome? fun i =>
    match exec i s with
    | .next t => if t = s then none else some t
    | .fault _ | .refused _ => none

/-- The sheaf that issues next: the first that can, from the one after the last. -/
def State.nextSheaf (s : State) : Option Nat :=
  let can := (s.sheafs.filter fun e => s.mayIssue e.2).map fun e => e.1
  match s.cur with
  | none => can.head?
  | some k => (can.find? fun j => k < j).or can.head?

/-- A step with nothing on the agenda: what waits to be logged is, else what is due happens, else a sheaf issues. -/
def State.byDefault (s : State) : Host.Outcome State Fault Refusal :=
  if s.eccLog ≠ [] then .next s.logEcc
  else
    match s.firstDue with
    | some t => .next t
    | none =>
      match s.nextSheaf with
      | some k => s.issueStep k
      | none => .next s

end Sys2Proof.Machine
end

