-- ==== Sys2Proof/Machine/Step.lean ====
section
/-! DEFINITION. One step of the machine, and placing an instruction where the next step fetches. -/

namespace Sys2Proof.Machine

/-- One step: the act at the head of the agenda, or what is due by itself (log 2). -/
def step (s : State) : Host.Outcome State Fault Refusal :=
  match s.agenda with
  | a :: rest => { s with agenda := rest }.act a
  | [] => s.byDefault

/-- The state with an instruction stored where the next step fetches it, and all that this takes (log 3): the bits of its
words are `w`, bit 0 the least significant of the first word, and every bit above `nbits` is 0. -/
def State.withFetchWord (s : State) (nbits w : Nat) : State := s.placed (w % 2 ^ nbits)

end Sys2Proof.Machine
end

