-- ==== Sys2Proof/Safety.lean ====
section
/-! DEFINITION. The terms the statements use: when an instruction executes (R94), what a result leaves (R46, R82), and the
invariant of memory. -/

namespace Sys2Proof.Machine
open Sys2Proof.Forms

/-- Memory has its canonical form: equal memories are equal data. -/
def State.Inv (s : State) : Prop := Memory.wf s.mem = true

/-- The sheaf that issues, selected; its number is not that of a READY one, for a sheaf that issues is ISSUING (R33). -/
structure Selected (s : State) (k : Nat) (sh : Sheaf) : Prop where
  cur : s.cur = some k
  sheaf : s.sheaf? k = some sh
  issuing : ∀ e ∈ s.sheafs, e.1 = k → e.2.status ≠ .ready

/-- R94: the sheaf issues this instruction, its checks 2 to 7 pass, and it acts: it is not nullified, and its mask is not
empty or its guard is true (R81); it does not go on past the last address (R71); and no access of an earlier region holds it
back (R317). -/
structure Executes (r : Row) (f : Fields) (s : State) (k : Nat) (sh : Sheaf) : Prop extends Selected s k sh where
  check : (issOf r f k sh).check s = none
  counts : (issOf r f k sh).nullified = false
  acts : (issOf r f k sh).acts = true
  goes : (issOf r f k sh).goTrap = none
  region : regionFirst r.op = true → sh.heath = true ∨ s.regionReady k (sh.issuing f) = true

/-- The threads an instruction acts for: thread 0 stands for a uniform one (R81). -/
def acting (f : Fields) (sh : Sheaf) : List Nat := if f.u then [0] else active (sh.maskFor f)

/-- The state in which the issuing sheaf has become `sh'`, one clock has passed on its core (R3), and nothing else has
changed. -/
def State.after (s : State) (k : Nat) (sh sh' : Sheaf) : State := (s.tickOne sh).onSheaf k fun _ => sh'

/-- The state an instruction's own operation sees. -/
def State.issued (s : State) (k : Nat) (sh : Sheaf) (f : Fields) : State := s.after k sh (sh.issuing f)

/-- A sheaf past an instruction. -/
def Sheaf.past (sh : Sheaf) (f : Fields) : Sheaf := (sh.issuing f).advance

/-! ### What a result of `n` registers for some threads leaves -/

/-- The cells of the vector, uniform and operand registers a result fills. -/
def Sheaf.destV (sh : Sheaf) (f : Fields) (n : Nat) (ts : List Nat) : List Nat :=
  match dstOf f.u f.a with
  | .v i => ts.flatMap fun t => (List.range n).map fun j => (sh.vslot i + j) * 16 + t
  | _ => []
def Sheaf.destS (sh : Sheaf) (f : Fields) (n : Nat) : List Nat :=
  match dstOf f.u f.a with
  | .s i => (List.range n).map fun j => sKey sh.tlvl (i + j)
  | _ => []
def Sheaf.destO (sh : Sheaf) (f : Fields) (n : Nat) (ts : List Nat) : List Nat :=
  match dstOf f.u f.a with
  | .o i => ts.flatMap fun t => (List.range n).map fun j => oKey sh.tlvl (i + j) t
  | _ => []

/-- Every register outside a result's own cells reads as before. -/
structure KeepsOthers (sh sh' : Sheaf) (f : Fields) (n : Nat) (ts : List Nat) : Prop where
  v : ∀ x, x ∉ sh.destV f n ts → sh'.v.get x = sh.v.get x
  s : ∀ x, x ∉ sh.destS f n → sh'.s.get x = sh.s.get x
  o : ∀ x, x ∉ sh.destO f n ts → sh'.o.get x = sh.o.get x

/-- Register `j` of the destination A names, for one thread (R46). -/
def Sheaf.dest (sh : Sheaf) (f : Fields) (t j : Nat) : Word :=
  match dstOf f.u f.a with
  | .v i => sh.readV (sh.vslot i + j) t
  | .s i => sh.readS (i + j)
  | .o i => sh.readO (i + j) t
  | _ => 0

/-- The registers A names hold the result of each acting thread, its highest bits in the first (R46); the discard name
takes nothing (R77, R78). -/
structure Written (sh sh' : Sheaf) (f : Fields) (n : Nat) (ts : List Nat) (g : Nat → Val) : Prop
    extends KeepsOthers sh sh' f n ts where
  value : dstOf f.u f.a ≠ .discard → ∀ t ∈ ts, ∀ j < n, sh'.dest f t j = splitWord n j (g t)

/-- R82: what a thread outside the mask puts into y0: the register A names, or 0. -/
def Sheaf.untaken (sh : Sheaf) (f : Fields) (n t : Nat) : DWord :=
  if f.w then 0 else (joinWords n (sh.dest f t)).truncate 64

/-- R82: the latches after a result of `n` registers: of a vector instruction shifted by one, the new one in y0; else as
before.  Which 64 bits of a 128-bit result y0 holds is open (log 21). -/
structure Latched (sh sh' : Sheaf) (f : Fields) (n : Nat) (ts : List Nat) (g : Nat → Val) : Prop where
  y1 : sh'.y1 = if f.u then sh.y1 else sh.y0
  y2 : sh'.y2 = if f.u then sh.y2 else sh.y1
  y3 : sh'.y3 = if f.u then sh.y3 else sh.y2
  keep : f.u = true → sh'.y0 = sh.y0
  valid : f.u = false → sh'.y0.valid = true ∧ sh'.y0.wide = decide (n ≠ 1)
  value : f.u = false → n ≠ 4 → ∀ t ∈ ts, sh'.y0.vals.get t = (g t).truncate 64
  outside : f.u = false → n ≠ 4 → ∀ t < 16, t ∉ ts → sh'.y0.vals.get t = sh.untaken f n t
  zeros : f.u = false → n = 4 → f.w = true ∨ dstOf f.u f.a = .discard → ∀ t < 16, t ∉ ts → sh'.y0.vals.get t = 0

/-- Every latch as before. -/
def Unlatched (sh sh' : Sheaf) : Prop := sh'.y0 = sh.y0 ∧ sh'.y1 = sh.y1 ∧ sh'.y2 = sh.y2 ∧ sh'.y3 = sh.y3

/-- What predicate number `d` becomes when predicates are written in order. -/
def predAfter (ps : List (BitVec 7 × Bool)) (d : Nat) (old : Bool) : Bool :=
  ps.foldl (fun b p => if p.1.toNat = d then p.2 else b) old

/-- R79: the predicates the acting threads write, p0 to p6 of each thread or q0 to q6; every other one as before. -/
structure Predicates (sh sh' : Sheaf) (f : Fields) (ts : List Nat) (g : Nat → List (BitVec 7 × Bool)) : Prop where
  vector : f.u = false → sh'.q = sh.q ∧ (∀ d, 7 ≤ d → sh'.p.get d = sh.p.get d) ∧
    ∀ d < 7, ∀ t < 16, (sh'.p.get d).getLsbD t =
      if t ∈ ts then predAfter (g t) d ((sh.p.get d).getLsbD t) else (sh.p.get d).getLsbD t
  uniform : f.u = true → (∀ d, sh'.p.get d = sh.p.get d) ∧
    ∀ d < 7, sh'.q.getLsbD d = predAfter (g 0) d (sh.q.getLsbD d)

/-- R55, R57: the threads that take the flags one computation raises: its own, or, of a uniform one, every live thread. -/
def flagged (f : Fields) (sh : Sheaf) (t : Nat) : List Nat := if f.u then active sh.live else [t]

/-- R39, R55: the sticky flags after those of the acting threads are raised. -/
structure Raised (sh sh' : Sheaf) (f : Fields) (ts : List Nat) (g : Nat → Flags) : Prop where
  inv : ∀ x < 16, sh'.sticky.inv.getLsbD x = (sh.sticky.inv.getLsbD x || ts.any fun t => (flagged f sh t).contains x && (g t).inv)
  dz : ∀ x < 16, sh'.sticky.dz.getLsbD x = (sh.sticky.dz.getLsbD x || ts.any fun t => (flagged f sh t).contains x && (g t).dz)
  ovf : ∀ x < 16, sh'.sticky.ovf.getLsbD x = (sh.sticky.ovf.getLsbD x || ts.any fun t => (flagged f sh t).contains x && (g t).ovf)
  unf : ∀ x < 16, sh'.sticky.unf.getLsbD x = (sh.sticky.unf.getLsbD x || ts.any fun t => (flagged f sh t).contains x && (g t).unf)
  inx : ∀ x < 16, sh'.sticky.inx.getLsbD x = (sh.sticky.inx.getLsbD x || ts.any fun t => (flagged f sh t).contains x && (g t).inx)

/-- The state after a result: a 128-bit vector result also takes one free value for y0 (log 21). -/
def State.afterResult (s : State) (k : Nat) (sh sh' : Sheaf) (f : Fields) (n : Nat) : State :=
  { s.after k sh sh' with fresh := if f.u = false ∧ n = 4 then s.fresh + 1 else s.fresh }

/-- What an instruction that computes leaves of its sheaf: a result of `n` registers for each acting thread (none when
`n` is 0), its latches, predicates and flags; of a sheaf past the instruction, nothing else has changed. -/
structure Computed (sh sh' : Sheaf) (f : Fields) (n : Nat) (g : Nat → Out) : Prop where
  result : n ≠ 0 → Written sh sh' f n (acting f sh) (fun t => (g t).val) ∧ Latched sh sh' f n (acting f sh) fun t => (g t).val
  none : n = 0 → (sh'.v = sh.v ∧ sh'.s = sh.s ∧ sh'.o = sh.o) ∧ Unlatched sh sh'
  preds : Predicates sh sh' f (acting f sh) fun t => (g t).preds
  flags : Raised sh sh' f (acting f sh) fun t => (g t).flags
  only : sh' = { sh.past f with v := sh'.v, s := sh'.s, o := sh'.o, p := sh'.p, q := sh'.q, sticky := sh'.sticky,
                                y0 := sh'.y0, y1 := sh'.y1, y2 := sh'.y2, y3 := sh'.y3 }

/-- The completion of an instruction that computes: a next state in which its sheaf holds what it computes, one clock has
passed, nothing else has changed, and every byte of memory reads as before. -/
def Computes (out : Host.Outcome State Fault Refusal) (s : State) (k : Nat) (sh : Sheaf) (f : Fields) (n : Nat)
    (g : Nat → Out) : Prop :=
  ∃ sh', out = .next (s.afterResult k sh sh' f n) ∧ Computed sh sh' f n g ∧
    ∀ a, (s.afterResult k sh sh' f n).peekByte a = s.peekByte a

/-! ### What the instructions that compute give, each from its own rule -/

/-- An instruction that computes: its row, its constructor, how many registers its result fills (0 when it writes
predicates alone), and what one thread computes. -/
structure Calc where
  row : Row
  instr : Fields → Instr
  n : Fields → Nat
  out : Sheaf → Fields → Nat → Out

/-- Where it executes and no thread raises an enabled exception, it completes with what it computes. -/
def Calc.Holds (c : Calc) : Prop :=
  ∀ f s k sh, Executes c.row f s k sh → (∀ t ∈ acting f sh, enabled sh.fpcr (c.out sh f t) = none) →
    Computes (exec (c.instr f) s) s k sh f (c.n f) (c.out sh f)

/-- R57: the threads that raise an enabled exception, and those that complete. -/
def Calc.trapping (c : Calc) (f : Fields) (sh : Sheaf) : List Nat :=
  (acting f sh).filter fun t => (enabled sh.fpcr (c.out sh f t)).isSome
def Calc.completing (c : Calc) (f : Fields) (sh : Sheaf) : List Nat :=
  (acting f sh).filter fun t => (enabled sh.fpcr (c.out sh f t)).isNone

/-- R57 steps 1 and 2: the completing threads `ts` have their results, predicates and flags; every other register, the
latches and the PC are as before. -/
structure Completed (sh sh' : Sheaf) (f : Fields) (n : Nat) (ts : List Nat) (g : Nat → Out) : Prop where
  result : n ≠ 0 → Written sh sh' f n ts fun t => (g t).val
  none : n = 0 → sh'.v = sh.v ∧ sh'.s = sh.s ∧ sh'.o = sh.o
  preds : Predicates sh sh' f ts fun t => (g t).preds
  flags : Raised sh sh' f ts fun t => (g t).flags
  only : sh' = { sh.issuing f with v := sh'.v, s := sh'.s, o := sh'.o, p := sh'.p, q := sh'.q, sticky := sh'.sticky }

/-- R57: where it executes and some thread raises an enabled exception, the other threads complete and the first cause is
raised, precisely, for the threads that raised one; a uniform instruction does nothing else. -/
def Calc.Traps (c : Calc) : Prop :=
  ∀ f s k sh, Executes c.row f s k sh →
    (f.u = false → c.trapping f sh ≠ [] → ∃ sh' cause,
      firstCause ((c.trapping f sh).filterMap fun t => enabled sh.fpcr (c.out sh f t)) = some cause ∧
      exec (c.instr f) s = .next ((s.after k sh sh').raise k
        ((issOf c.row f k sh).pending { cause := cause, mask := maskOf fun t => (c.trapping f sh).contains t } false) false) ∧
      Completed sh sh' f (c.n f) (c.completing f sh) (c.out sh f)) ∧
    (f.u = true → ∀ cause, enabled sh.fpcr (c.out sh f 0) = some cause →
      exec (c.instr f) s = .next ((s.after k sh (sh.issuing f)).raise k
        ((issOf c.row f k sh).pending { cause := cause, mask := if cause = .divz then sh.em else sh.live } false) false))

/-- The operands B, C and D of one thread, of the type in M. -/
def Sheaf.opB (sh : Sheaf) (f : Fields) (t : Nat) : Val := sh.read f f.ty (tyWords f.ty) f.b t
def Sheaf.opC (sh : Sheaf) (f : Fields) (t : Nat) : Val := sh.read f f.ty (tyWords f.ty) f.c t
def Sheaf.opD (sh : Sheaf) (f : Fields) (t : Nat) : Val := sh.read f f.ty (tyWords f.ty) f.d t

/-- R45, R103: an operand as a number of its type: two's complement, or unsigned. -/
def asNum (ty : BitVec 5) (x : Val) : Int :=
  if tySigned ty then (x.setWidth (tyBits ty)).toInt else (x.setWidth (tyBits ty)).toNat

/-- R103: `x` mod 2^w, read as the type. -/
def wrapTo (ty : BitVec 5) (x : Int) : Val := (BitVec.ofInt (tyBits ty) x).setWidth 128

/-- R45: the minimum and the maximum of a type. -/
def leastOf (ty : BitVec 5) : Int := if tySigned ty then -2 ^ (tyBits ty - 1) else 0
def mostOf (ty : BitVec 5) : Int := if tySigned ty then 2 ^ (tyBits ty - 1) - 1 else 2 ^ tyBits ty - 1

/-- A row of R103's table: the exact result, clamped where the row takes SAT and I16[3] is 1, else modulo 2^w. -/
def intCalc (row : Row) (instr : Fields → Instr) (sat : Bool) (x : Nat → Int → Int → Int → Int) : Calc where
  row := row
  instr := instr
  n f := tyWords f.ty
  out sh f t :=
    let v := x (tyBits f.ty) (asNum f.ty (sh.opB f t)) (asNum f.ty (sh.opC f t)) (asNum f.ty (sh.opD f t))
    { val := wrapTo f.ty (if sat && f.imm.getLsbD 3 then min (max v (leastOf f.ty)) (mostOf f.ty) else v) }

/-- R103: the exact results of the table. -/
def integerCalcs : List Calc :=
  [intCalc rowIadd .iadd true fun _ a b _ => a + b, intCalc rowIsub .isub true fun _ a b _ => a - b,
   intCalc rowImul .imul true fun _ a b _ => a * b, intCalc rowImulh .imulh false fun w a b _ => (a * b).fdiv (2 ^ w),
   intCalc rowImad .imad true fun _ a b d => a * b + d, intCalc rowImin .imin false fun _ a b _ => min a b,
   intCalc rowImax .imax false fun _ a b _ => max a b, intCalc rowIabs .iabs true fun _ a _ _ => a.natAbs,
   intCalc rowIneg .ineg true fun _ a _ _ => -a, intCalc rowIsad .isad true fun _ a b d => (a - b).natAbs + d]

/-- R60: quotient and remainder where the divisor is not 0, truncated toward zero; with divisor 0, 0 and the dividend, and
DIVZ where FPCR.IDZT is 1.  The quotient of the most negative number by −1 wraps to the dividend. -/
def divCalc (row : Row) (instr : Fields → Instr) (rem : Bool) : Calc where
  row := row
  instr := instr
  n f := tyWords f.ty
  out sh f t :=
    let a := asNum f.ty (sh.opB f t)
    let b := asNum f.ty (sh.opC f t)
    let q := if b = 0 then 0 else a.tdiv b
    { val := wrapTo f.ty (if rem then a - q * b else q), divz := decide (b = 0) }
def divideCalcs : List Calc := [divCalc rowIdiv .idiv false, divCalc rowIrem .irem true]

/-- R104: the sum with the carry in, and the carry out in the predicate CO. -/
def carryCalc : Calc where
  row := rowIaddc
  instr := .iaddc
  n f := tyWords f.ty
  out sh f t :=
    let w := tyBits f.ty
    let cin : Bool := sh.pred f.u f.d t ^^ f.imm.getLsbD 3
    let a := (sh.opB f t).setWidth w
    let b := (sh.opC f t).setWidth w
    { val := (a + b + BitVec.setWidth w (BitVec.ofBool cin)).setWidth 128
      preds := [((f.imm.extractLsb' 0 3).setWidth 7, BitVec.carry w a b cin)] }

/-- A result without predicates or flags, from the operands of one thread as `w`-bit values and the 32-bit C. -/
def bitCalc (row : Row) (instr : Fields → Instr) (x : (f : Fields) → (b c d : BitVec (tyBits f.ty)) → Word → Val)
    (n : Fields → Nat := fun f => tyWords f.ty) : Calc where
  row := row
  instr := instr
  n := n
  out sh f t :=
    { val := x f ((sh.opB f t).setWidth _) ((sh.opC f t).setWidth _) ((sh.opD f t).setWidth _) (sh.read32 f f.c t) }

/-- R107: the logic operations, bit by bit. -/
def logicCalcs : List Calc :=
  [bitCalc rowAnd .andI fun _ a b _ _ => (a &&& b).setWidth 128, bitCalc rowOr .orI fun _ a b _ _ => (a ||| b).setWidth 128,
   bitCalc rowXor .xorI fun _ a b _ _ => (a ^^^ b).setWidth 128, bitCalc rowAndn .andn fun _ a b _ _ => (a &&& ~~~b).setWidth 128,
   bitCalc rowNot .notI fun _ a _ _ _ => (~~~a).setWidth 128]

/-- R108: shifts and rotation by the 32-bit C: zeros, or the sign, enter; a count of `w` or more leaves only those. -/
def shiftCalcs : List Calc :=
  [bitCalc rowShl .shl fun _ a _ _ c => (a <<< c.toNat).setWidth 128,
   bitCalc rowShr .shr fun _ a _ _ c => (a >>> c.toNat).setWidth 128,
   bitCalc rowSar .sar fun _ a _ _ c => (a.sshiftRight c.toNat).setWidth 128,
   bitCalc rowRot .rot fun _ a _ _ c => (a.rotateLeft c.toNat).setWidth 128]

/-- R108: the position and length of a bit field, from bits 7:0 and 15:8 of C. -/
def fieldAt (c : Word) : Nat := (c.extractLsb' 0 8).toNat
def fieldLength (w : Nat) (c : Word) : Nat := min (c.extractLsb' 8 8).toNat (w - fieldAt c)

/-- R109: the byte of B then D that a nibble of C selects, or eight copies of its bit 7. -/
def pickByte (b d : BitVec 32) (nib : BitVec 4) : BitVec 8 :=
  let x := (d ++ b).extractLsb' (8 * (nib.extractLsb' 0 3).toNat) 8
  if nib.getLsbD 3 then (if x.getLsbD 7 then 0xFF#8 else 0#8) else x

/-- R107 to R109: counts of bits, the reversal, fields and bytes. -/
def bitsCalcs : List Calc :=
  [bitCalc rowClz .clz (fun _ a _ _ _ => a.clz.setWidth 128) fun _ => 1,
   bitCalc rowPopc .popc
     (fun f a _ _ _ => BitVec.ofNat 128 ((List.range (tyBits f.ty)).filter fun j => a.getLsbD j).length) fun _ => 1,
   bitCalc rowBrev .brev fun _ a _ _ _ => a.reverse.setWidth 128,
   bitCalc rowBfx .bfx fun f a _ _ c =>
     let x := a.extractLsb' (fieldAt c) (fieldLength (tyBits f.ty) c)
     ((if tySigned f.ty then x.signExtend (tyBits f.ty) else x.setWidth (tyBits f.ty))).setWidth 128,
   bitCalc rowBfi .bfi fun f a _ d c =>
     let m := (BitVec.allOnes (fieldLength (tyBits f.ty) c)).setWidth (tyBits f.ty) <<< fieldAt c
     ((d &&& ~~~m) ||| ((a <<< fieldAt c) &&& m)).setWidth 128,
   { row := rowPerm, instr := .perm, n := fun _ => 1
     out := fun sh f t =>
       let b := sh.read32 f f.b t
       let c := sh.read32 f f.c t
       let d := sh.read32 f f.d t
       let byte (j : Nat) := pickByte b d (c.extractLsb' (4 * j) 4)
       { val := (byte 3 ++ byte 2 ++ byte 1 ++ byte 0).setWidth 128 } }]

/-- R105, R106, R112, R116, R117: addresses, copies, selections, exchanges between threads. -/
def moveCalcs : List Calc :=
  [{ row := rowLea, instr := .lea, n := fun _ => 2
     out := fun sh f t =>
       let c := sh.read32 f f.c t
       let index : DWord := if f.ty = 0#5 then c.signExtend 64 else c.setWidth 64
       { val := (sh.read64 f f.b t + index <<< (f.imm.extractLsb' 0 6).toNat).setWidth 128 } },
   { row := rowMov, instr := .mov, n := fun f => tyWords f.ty, out := fun sh f t => { val := sh.opB f t } },
   { row := rowSel, instr := .sel, n := fun f => tyWords f.ty
     out := fun sh f t => { val := if sh.pred f.u f.d t then sh.opB f t else sh.opC f t } },
   { row := rowShfl, instr := .shfl, n := fun f => tyWords f.ty
     out := fun sh f t =>
       let c := (sh.read32 f f.c t).toNat
       let mode := (f.imm.extractLsb' 0 2).toNat
       let src : Int :=
         match mode with
         | 0 => (c % 16 : Nat)
         | 1 => (t : Int) - c
         | 2 => (t : Int) + c
         | _ => (t ^^^ (c % 16) : Nat)
       { val := sh.opB f (if 0 ≤ src ∧ src ≤ 15 then src.toNat else t) } },
   { row := rowBcast, instr := .bcast, n := fun f => tyWords f.ty
     out := fun sh f _ =>
       { val := sh.opB f (if f.imm.getLsbD 0 then (acting f sh).headD 0 else (sh.read32 f f.c 0).toNat % 16) } }]

/-- R110: the comparison alone, or with the predicate D names. -/
def combined (sh : Sheaf) (f : Fields) (t : Nat) (c : Bool) : Bool :=
  match (f.imm.extractLsb' 11 2).toNat with
  | 0 => c
  | 1 => c && sh.pred f.u f.d t
  | _ => c || sh.pred f.u f.d t

/-- R111: the conditions of integers. -/
def holdsFor (cond : Nat) (a b : Int) : Bool :=
  match cond with
  | 0 => decide (a = b) | 1 => decide (a ≠ b) | 2 => decide (a < b) | 3 => decide (a ≤ b) | 4 => decide (a > b)
  | _ => decide (a ≥ b)

/-- R115: the participating threads in which P(B) is true, and whether a predicate form answers true. -/
def voters (sh : Sheaf) (f : Fields) : List Nat := active (if f.u then sh.em else sh.maskFor f)
def voteOf (sh : Sheaf) (f : Fields) : Bool :=
  let yes (t : Nat) : Bool := sh.pred false f.b t
  match (f.imm.extractLsb' 0 2).toNat with
  | 0 => (voters sh f).all yes
  | 1 => (voters sh f).any yes
  | _ => (voters sh f).all yes || (voters sh f).all fun t => !yes t

/-- R111, R113 to R115: predicates computed, moved to and from registers, and counted over threads. -/
def predicateCalcs : List Calc :=
  [{ row := rowIset, instr := .iset, n := fun _ => 0
     out := fun sh f t =>
       { preds := [(f.a, combined sh f t
           (holdsFor (f.imm.extractLsb' 0 4).toNat (asNum f.ty (sh.opB f t)) (asNum f.ty (sh.opC f t))))] } },
   { row := rowPlop, instr := .plop, n := fun _ => 0
     out := fun sh f t =>
       let bit (d : BitVec 7) : Nat := (sh.pred f.u d t).toNat
       { preds := [(f.a, f.imm.getLsbD (4 * bit f.b + 2 * bit f.c + bit f.d))] } },
   { row := rowPmov, instr := .pmov, n := fun f => if f.imm.getLsbD 0 then 0 else 1
     out := fun sh f t =>
       if f.imm.getLsbD 0 then
         { preds := ((List.range 7).filter fun k => f.imm.getLsbD (8 + k)).map fun k =>
             (BitVec.ofNat 7 k, (sh.read32 f f.b t).getLsbD k) }
       else
         { val := BitVec.ofNat 128
             (((List.range 8).map fun k => (sh.pred f.u (BitVec.ofNat 7 k) t).toNat * 2 ^ k).sum) } },
   { row := rowVote, instr := .vote, n := fun f => if f.imm.extractLsb' 0 2 = 2#2 then 1 else 0
     out := fun sh f _ =>
       if f.imm.extractLsb' 0 2 = 2#2 then
         { val := (maskOf fun t => (voters sh f).contains t && sh.pred false f.b t).setWidth 128 }
       else { preds := [(f.a, voteOf sh f)] } }]

/-! ### Floating point -/

/-- R47: the rounding mode I16 selects, 4 the one in FPCR. -/
def roundingMode (sh : Sheaf) (f : Fields) : Rm :=
  let one (x : Nat) : Rm := match x with | 1 => .rz | 2 => .ru | 3 => .rd | _ => .rne
  if f.imm.extractLsb' 0 3 = 4#3 then one (sh.fpcr.extractLsb' 0 2).toNat else one (f.imm.extractLsb' 0 3).toNat

/-- R47, R49, R51, R53: how an instruction rounds to a format. -/
def floatMode (sh : Sheaf) (f : Fields) (fm : Fmt) : Mode :=
  { fm := fm, rm := roundingMode sh f, sat := f.imm.getLsbD 3, ftz := f.imm.getLsbD 9 || sh.fpcr.getLsbD 9
    nanp := sh.fpcr.getLsbD 10 }

/-- R88: an operand with its absolute value taken, then negated: its sign bit alone changes. -/
def signed (fm : Fmt) (abs neg : Bool) (x : Nat) : Nat := fm.withSign ((fm.sign x && !abs) ^^ neg) (fm.mag x)
def signedB (f : Fields) (fm : Fmt) (x : Nat) : Nat := signed fm (f.imm.getLsbD 7) (f.imm.getLsbD 4) (x % 2 ^ fm.width)
def signedC (f : Fields) (fm : Fmt) (x : Nat) : Nat := signed fm (f.imm.getLsbD 8) (f.imm.getLsbD 5) (x % 2 ^ fm.width)
def signedD (f : Fields) (fm : Fmt) (x : Nat) : Nat := signed fm false (f.imm.getLsbD 6) (x % 2 ^ fm.width)

/-- An instruction of R135: its exact result and what it raises by itself, from the values of its operands; rounded once,
or the NaN of its operands. -/
def roundedCalc (row : Row) (instr : Fields → Instr) (used : Nat) (x : Mode → Fl → Fl → Fl → Fl × Bool × Bool) : Calc where
  row := row
  instr := instr
  n f := tyWords f.ty
  out sh f t :=
    let fm := fmtOf f.ty
    let o := floatMode sh f fm
    let a := signedB f fm (sh.opB f t).toNat
    let b := signedC f fm (sh.opC f t).toNat
    let d := signedD f fm (sh.opD f t).toNat
    let r := x o (fm.value o.ftz a) (fm.value o.ftz b) (fm.value o.ftz d)
    outOf (o.finish ([a, b, d].take used) r.1 r.2.1 r.2.2)

/-- R53: the NaN `x` of format `a` delivered in format `fm`: canonical with FPCR.NANP clear; else its own, its high-order
fraction bits kept and quieted, with its sign; +0 in a format that has none. -/
def nanAs (nanp : Bool) (a fm : Fmt) (x : Nat) : Nat :=
  let frac := a.mag x % 2 ^ a.fw * 2 ^ fm.fw / 2 ^ a.fw
  if !fm.hasNan then 0
  else if !nanp then fm.nan
  else fm.withSign (a.sign x) (if fm.hasInf then fm.infMag + (frac ||| 2 ^ (fm.fw - 1)) else fm.nan)

/-- R51: an operand that is delivered as it is, but for a subnormal one where flushing applies. -/
def asRead (ftz : Bool) (fm : Fmt) (x : Nat) : Nat :=
  if ftz ∧ 0 < fm.mag x ∧ fm.mag x < 2 ^ fm.fw then fm.withSign (fm.sign x) 0 else x

/-- R54: whether one of two numbers orders below the other, −0 below +0. -/
def ordersBelow (fm : Fmt) (x y : Nat) : Bool :=
  (fm.value false x).lt (fm.value false y) || (fm.isZero x && fm.isZero y && fm.sign x && !fm.sign y)

/-- R54, R137: the lesser or the greater of two operands after flushing, itself; with one NaN the other one, unless NaN is
preferred; else the NaN of R53, the first in the order B, C.  A signalling NaN raises invalid; nothing else is raised. -/
def extremeOf (o : Mode) (max nanPreferred : Bool) (a b : Nat) : Nat × Flags :=
  let a' := asRead o.ftz o.fm a
  let b' := asRead o.ftz o.fm b
  (match o.fm.isNan a, o.fm.isNan b with
    | true, true => nanAs o.nanp o.fm o.fm a
    | true, false => if nanPreferred then nanAs o.nanp o.fm o.fm a else b'
    | false, true => if nanPreferred then nanAs o.nanp o.fm o.fm b else a'
    | false, false => if (if max then ordersBelow o.fm a' b' else ordersBelow o.fm b' a') then b' else a',
   { inv := o.fm.isSnan a || o.fm.isSnan b })

def extremeCalc (row : Row) (instr : Fields → Instr) (max : Bool) : Calc where
  row := row
  instr := instr
  n f := tyWords f.ty
  out sh f t :=
    let fm := fmtOf f.ty
    outOf (extremeOf (floatMode sh f fm) max (f.imm.getLsbD 10) (signedB f fm (sh.opB f t).toNat)
      (signedC f fm (sh.opC f t).toNat))

/-- R135, R137, R141, R142: the exact results. -/
def floatCalcs : List Calc :=
  [roundedCalc rowFadd .fadd 2 fun o a b _ => let r := Fl.add o.rm a b; (r.1, r.2, false),
   roundedCalc rowFsub .fsub 2 fun o a b _ => let r := Fl.add o.rm a b.neg; (r.1, r.2, false),
   roundedCalc rowFmul .fmul 2 fun _ a b _ => let r := Fl.mul a b; (r.1, r.2, false),
   roundedCalc rowFfma .ffma 3 fun o a b d =>
     let p := Fl.mul a b
     let r := Fl.add o.rm p.1 d
     (r.1, p.2 || r.2, false),
   roundedCalc rowFdiv .fdiv 2 fun _ a b _ => Fl.div a b,
   roundedCalc rowFrcp .frcp 1 fun _ a _ _ => Fl.div (.fin false 1 0 false) a,
   roundedCalc rowFrsq .frsq 1 fun _ a _ _ => a.rsqrt,
   roundedCalc rowFsqrt .fsqrt 1 fun _ a _ _ => (a.sqrt.1, a.sqrt.2, false),
   roundedCalc rowFexp2 .fexp2 1 fun _ a _ _ => (a.exp2, false, false),
   roundedCalc rowFlog2 .flog2 1 fun _ a _ _ => a.log2,
   roundedCalc rowFsin .fsin 1 fun _ a _ _ => (a.sin2pi.1, a.sin2pi.2, false),
   roundedCalc rowFcos .fcos 1 fun _ a _ _ => (a.cos2pi.1, a.cos2pi.2, false),
   extremeCalc rowFmin .fmin false, extremeCalc rowFmax .fmax true]

/-- R138: the class of raw bits. -/
def classOf (fm : Fmt) (x : Nat) : Nat :=
  if fm.isNan x then (if fm.isSnan x then 0 else 1)
  else
    let up := if fm.isInf x then 3 else if fm.isZero x then 0 else if fm.isSub x then 1 else 2
    if fm.sign x then 5 - up else 6 + up

/-- R111: whether a condition holds of two values. -/
def floatHolds (c : Nat) (nan : Bool) (a b : Fl) : Bool :=
  match c with
  | 0 | 8 => (c = 8 && nan) || (!nan && a.eq b)
  | 1 => nan || !a.eq b
  | 2 | 10 => (c = 10 && nan) || (!nan && a.lt b)
  | 3 | 11 => (c = 11 && nan) || (!nan && (a.lt b || a.eq b))
  | 4 | 12 => (c = 12 && nan) || (!nan && b.lt a)
  | 5 | 13 => (c = 13 && nan) || (!nan && (b.lt a || a.eq b))
  | 6 => !nan
  | _ => nan

/-- R135, R138 to R140: scaling, parts, classes, rounding to a whole number; R111: the comparison. -/
def partCalcs : List Calc :=
  [{ row := rowFclass, instr := .fclass, n := fun _ => 1
     out := fun sh f t =>
       { val := BitVec.ofNat 128 (2 ^ classOf (fmtOf f.ty) ((sh.opB f t).toNat % 2 ^ (fmtOf f.ty).width)) } },
   { row := rowFscl, instr := .fscl, n := fun _ => 1
     out := fun sh f t =>
       let fm := fmtOf f.ty
       let o := floatMode sh f fm
       let a := signedB f fm (sh.opB f t).toNat
       -- a count beyond ±1000 leaves every format's range as ±1000 does
       let c := min (max (sh.read32 f f.c t).toInt (-1000)) 1000
       let r : Fl := match fm.value o.ftz a with | .fin neg m e more => .fin neg m (e + c) more | v => v
       outOf (o.finish [a] r false false) },
   { row := rowFrnd, instr := .frnd, n := fun _ => 1
     out := fun sh f t =>
       let fm := fmtOf f.ty
       let o := floatMode sh f fm
       let a := signedB f fm (sh.opB f t).toNat
       let r : Fl :=
         match fm.value o.ftz a with
         | .fin neg m e _ => .fin neg (roundShift o.rm neg m (-e) false).1 0 false
         | v => v
       outOf ({ o with sat := false, ftz := false }.finish [a] r false false) },
   { row := rowFfrx, instr := .ffrx, n := fun _ => 1
     out := fun sh f t =>
       let fm := fmtOf f.ty
       let a := signedB f fm (sh.opB f t).toNat
       let o : Mode := { floatMode sh f fm with rm := .rne, sat := false, ftz := false }
       match fm.value (f.imm.getLsbD 9 || sh.fpcr.getLsbD 9) a, f.d.toNat with
       | .fin _ m e _, 1 =>
         if m = 0 then { val := 0x80000000, flags := { inv := true } } else { val := wrapTo 0#5 ((Nat.log2 m : Int) + e) }
       | _, 1 => { val := 0x7FFFFFFF, flags := { inv := true } }
       | .fin neg m e more, 0 =>
         outOf (o.finish [a] (if m = 0 then .fin neg m e more else .fin neg m (-(Nat.log2 m : Int)) false) false false)
       | .fin neg m e more, _ =>
         outOf (o.finish [a]
           (if m = 0 then .fin neg m e more else .fin neg (if 0 ≤ e then 0 else m % 2 ^ (-e).toNat) e false) false false)
       | .inf neg, 0 => outOf (o.finish [a] (.inf neg) false false)
       | .inf _, _ => outOf (o.finish [a] .nan true false)
       | .nan, _ => outOf (o.finish [a] .nan false false) },
   { row := rowFset, instr := .fset, n := fun _ => 0
     out := fun sh f t =>
       let fm := fmtOf f.ty
       let ftz := f.imm.getLsbD 9 || sh.fpcr.getLsbD 9
       let a := signedB f fm (sh.opB f t).toNat
       let b := signedC f fm (sh.opC f t).toNat
       let nan := fm.isNan a || fm.isNan b
       let c := (f.imm.extractLsb' 0 4).toNat
       { preds := [(f.a, combined sh f t (floatHolds c nan (fm.value ftz a) (fm.value ftz b)))]
         flags := { inv := fm.isSnan a || fm.isSnan b || (nan && decide (2 ≤ c ∧ c ≤ 5)) } } }]

/-- R143: the scalar operation on both halves. -/
def packedCalc (row : Row) (instr : Fields → Instr) (x : Fields → Mode → Nat → Nat → Nat → Nat × Flags) : Calc where
  row := row
  instr := instr
  n _ := 1
  out sh f t :=
    let fm := fmtOf f.ty
    let one (h : Nat) : Nat × Flags :=
      x f (floatMode sh f fm) (signedB f fm (half (sh.read f f.ty 1 f.b t) h)) (signedC f fm (half (sh.read f f.ty 1 f.c t) h))
        (signedD f fm (half (sh.read f f.ty 1 f.d t) h))
    { val := BitVec.ofNat 128 ((one 0).1 + 65536 * (one 1).1), flags := (one 0).2.or (one 1).2 }

def packedCalcs : List Calc :=
  [packedCalc rowHadd2 .hadd2 fun _ o a b _ => o.fadd a b, packedCalc rowHmul2 .hmul2 fun _ o a b _ => o.fmul a b,
   packedCalc rowHfma2 .hfma2 fun _ o a b d => o.ffma a b d,
   packedCalc rowHmin2 .hmin2 fun f o a b _ => extremeOf o false (f.imm.getLsbD 10) a b,
   packedCalc rowHmax2 .hmax2 fun f o a b _ => extremeOf o true (f.imm.getLsbD 10) a b]

/-! ### Conversions -/

/-- The B operand of a conversion, of the type D names (R144). -/
def Sheaf.source (sh : Sheaf) (f : Fields) (t : Nat) : Val := sh.read f (srcTy f) (tyWords (srcTy f)) f.b t

/-- R46: an integer in its register, a narrow one extended. -/
def inRegister (ty : BitVec 5) (x : Int) : Val := widen ty (BitVec.ofInt (tyBits ty) x).toNat

/-- R53, R145: a value of format `a` in the format of `o`: a NaN as R53 says; an infinity, which a format without one
delivers as its largest number, overflowed; any other value rounded once. -/
def converted (o : Mode) (a : Fmt) (x : Nat) : Nat × Flags :=
  if a.isNan x then (nanAs o.nanp a o.fm x, { inv := a.isSnan x || !o.fm.hasNan })
  else if a.isInf x then
    (o.fm.withSign (a.sign x) (if o.fm.hasInf && !o.sat then o.fm.infMag else o.fm.top),
     { ovf := !o.fm.hasInf, inx := !o.fm.hasInf })
  else o.fm.pack o.rm o.sat o.ftz (a.value o.ftz x)

/-- R59: the exponents of the magnitudes of a block that are not zero. -/
def exponents (vs : List Fl) : List Int :=
  vs.filterMap fun v => match v with | .fin _ m e _ => if m = 0 then none else some ((Nat.log2 m : Int) + e) | _ => none

/-- R59: the scale exponent of a block, of the largest magnitude in it; none where all are zero. -/
def blockScale (ty : BitVec 5) (vs : List Fl) : Option Int :=
  let most : Int := if fmtOf ty = e4m3 then 8 else if fmtOf ty = e5m2 then 15 else 2
  (exponents vs).max?.map fun l => min (max (l - most) (-127)) 127

/-- R59: an element, RNE(x · 2^(−e)) saturated, and whether it differs from the quotient. -/
def blockElement (ty : BitVec 5) (e : Int) (v : Fl) : Nat × Bool :=
  match v with
  | .fin neg m x _ => let r := (fmtOf ty).pack .rne true false (.fin neg m (x - e) false); (r.1, r.2.inx)
  | _ => (0, false)

/-- R145 to R150. -/
def convertCalcs : List Calc :=
  [{ row := rowFcvt, instr := .fcvt, n := fun f => tyWords f.ty
     out := fun sh f t =>
       let a := fmtOf (srcTy f)
       outOf (converted (floatMode sh f (fmtOf f.ty)) a (signedB f a (sh.source f t).toNat)) },
   { row := rowF2i, instr := .f2i, n := fun f => tyWords f.ty
     out := fun sh f t =>
       let a := fmtOf (srcTy f)
       let o := floatMode sh f a
       match a.value o.ftz (signedB f a (sh.source f t).toNat) with
       | .nan => { val := 0, flags := { inv := true } }
       | .inf neg => { val := inRegister f.ty (if neg then leastOf f.ty else mostOf f.ty), flags := { inv := true } }
       | .fin neg m e _ =>
         let q := roundShift o.rm neg m (-e) false
         let x : Int := if neg then -(q.1 : Int) else q.1
         let out := decide (x < leastOf f.ty ∨ mostOf f.ty < x)
         { val := inRegister f.ty (min (max x (leastOf f.ty)) (mostOf f.ty)), flags := { inv := out, inx := !out && q.2 } } },
   { row := rowI2f, instr := .i2f, n := fun f => tyWords f.ty
     out := fun sh f t =>
       let x := asNum (srcTy f) (sh.source f t)
       let o := floatMode sh f (fmtOf f.ty)
       let r := o.fm.pack o.rm o.sat false (.fin (decide (x < 0)) x.natAbs 0 false)
       outOf (r.1, { ovf := r.2.ovf, inx := r.2.inx }) },
   { row := rowPack, instr := .pack, n := fun _ => 1
     out := fun sh f t =>
       let b := sh.read f f.ty 1 f.b t
       let c := sh.read f f.ty 1 f.c t
       { val := ((if f.imm.getLsbD 1 then c.extractLsb' 16 16 else c.extractLsb' 0 16)
           ++ (if f.imm.getLsbD 0 then b.extractLsb' 16 16 else b.extractLsb' 0 16)).setWidth 128 } },
   { row := rowUnpk, instr := .unpk, n := fun _ => 1
     out := fun sh f t =>
       let x := ((sh.read f f.ty 1 f.b t).extractLsb' (tyBits f.ty * (f.imm.extractLsb' 0 3).toNat) (tyBits f.ty)).toNat
       if unpkFloat f.ty then outOf (converted { floatMode sh f f32 with rm := .rne, sat := false } (fmtOf f.ty) x)
       else { val := widen f.ty x } },
   { row := rowMxcvt, instr := .mxcvt, n := fun _ => 1
     out := fun sh f t =>
       let vals (t : Nat) : List Fl :=
         let x := sh.read f f.ty 2 f.b t
         let ftz := f.imm.getLsbD 9 || sh.fpcr.getLsbD 9
         [f32.value ftz (x.extractLsb' 32 32).toNat, f32.value ftz (x.extractLsb' 0 32).toNat]
       let all := (acting f sh).flatMap vals
       let e := blockScale f.ty all
       if f.d = 1#7 then
         { val := BitVec.ofNat 128
             (if all.any Fl.special then 0xFF else match e with | none => 0x7F | some e => (e + 127).toNat) }
       else if all.any Fl.special then { val := 0, flags := { inv := (vals t).any Fl.special } }
       else
         let es := (vals t).map (blockElement f.ty (e.getD 0))
         { val := BitVec.ofNat 128 (es.foldr (fun p n => p.1 + 2 ^ tyBits f.ty * n) 0)
           flags := { inx := es.any fun p => p.2 } } }]

/-! ### Instructions that change their sheaf alone -/

/-- The completion of an instruction that changes its sheaf alone: it becomes `sh'`, one clock has passed, nothing else
has changed, and every byte of memory reads as before. -/
def Leaves (out : Host.Outcome State Fault Refusal) (s : State) (k : Nat) (sh sh' : Sheaf) : Prop :=
  out = .next (s.after k sh sh') ∧ ∀ a, (s.after k sh sh').peekByte a = s.peekByte a

/-- R71: an address the PC can hold. -/
def onCode (a : DWord) : Prop := a.toNat % 4 = 0 ∧ a.toNat < 2 ^ 49

/-- What of a sheaf does not depend on who holds the lanes of its partition. -/
def Sheaf.besides (sh : Sheaf) : Sheaf := { sh with status := .ready, lane := none, laneClk := 0, readyClk := 0 }

/-- R28, R29: what a swap point of sheaf `k` does to a state: its latches are invalid, the lanes of its partition may pass
on; nothing else changes. -/
structure Swapped (s t : State) (k : Nat) : Prop where
  others : t = { s with sheafs := t.sheafs }
  same : ∀ j, j ≠ k → (t.sheaf? j).map Sheaf.besides = (s.sheaf? j).map Sheaf.besides
  self : (t.sheaf? k).map Sheaf.besides = (s.sheaf? k).map fun sh => sh.dropLatches.besides

/-- R28: a branch to `target` is no swap point: forwards, or the lane held for fewer than 4,096 clocks, or no sheaf
ready for it. -/
def State.staysOn (s : State) (k : Nat) (sh : Sheaf) (f : Fields) (target : DWord) : Prop :=
  sh.pc.toNat < target.toNat ∨ (s.issued k sh f).clkOf sh - sh.laneClk < 4096 ∨ (s.issued k sh f).nextReady sh = none

/-- R71, R119: a jump to an address the PC cannot hold traps at the instruction, the target in TA; a target that fails both
rules is misaligned (log 100). -/
def JumpTraps (out : Host.Outcome State Fault Refusal) (r : Row) (f : Fields) (s : State) (k : Nat) (sh : Sheaf)
    (target : DWord) : Prop :=
  let enter (t : Trap) : State := (s.issued k sh f).raise k ((issOf r f k sh).pending t false) false
  (target.toNat % 4 ≠ 0 → out = .next (enter { cause := .align, mask := sh.em, ta := target })) ∧
  (target.toNat % 4 = 0 → 2 ^ 49 ≤ target.toNat → out = .next (enter { cause := .xlate, det := 2, mask := sh.em, ta := target }))

/-! ### Traps (R307, R312) -/

/-- R307: TC as its fields: DEST, DV, IMP, LEAD, SUP, DET, ACC, LEN, UCLS, W64, CAUSE. -/
def Pending.word (p : Pending) (sup : Bool) : Word :=
  p.dest ++ BitVec.ofBool (p.dv && !p.imp) ++ BitVec.ofBool p.imp ++ BitVec.ofBool p.lead ++ BitVec.ofBool sup
    ++ BitVec.ofNat 5 p.det ++ BitVec.ofNat 4 p.acc ++ BitVec.ofNat 2 (if p.imp then 0 else p.len) ++ BitVec.ofBool p.ucls
    ++ BitVec.ofBool p.w64 ++ BitVec.ofNat 8 p.cause.code

/-- The fields fit theirs. -/
def Pending.fits (p : Pending) : Prop := p.det < 32 ∧ p.acc < 16 ∧ p.len < 4

/-- R312: the trap registers at entry: TC, the PC, EM over the trapping threads, TA. -/
def Sheaf.trapRegsFor (sh : Sheaf) (p : Pending) (sup : Bool) : TrapRegs :=
  { tc := p.word sup, tr := sh.pc, tm := sh.em ++ p.mask, ta := p.ta }

/-- R312: a sheaf that has entered a handler: the registers of its new level saved, one level up, its PC the vector, its EM
the trapping threads; of an imprecise fault, its region. -/
def Sheaf.entered (sh : Sheaf) (p : Pending) (vec : DWord) (sup : Bool) : Sheaf :=
  { sh with
    t1 := if sh.tlvl = 0 then sh.trapRegsFor p sup else sh.t1
    t2 := if sh.tlvl = 0 then sh.t2 else sh.trapRegsFor p sup
    tlvl := sh.tlvl + 1, pc := vec, em := p.mask, pend := none, rel := none
    rgnpc := if p.imp then p.rgnpc else sh.rgnpc, rgncnt := if p.imp then p.rgncnt else sh.rgncnt }

/-- R323: a sheaf that has returned from a handler. -/
def Sheaf.returned (sh : Sheaf) (pc : DWord) : Sheaf :=
  { sh with pc := pc, em := (sh.trapRegs.tm.extractLsb' 16 16) &&& sh.live, tlvl := sh.tlvl - 1 }

/-! ### Accesses that start (R87, R197 to R210) -/

/-- R87: a global address: the base pair, an index unless the form has none, an offset. -/
def globalAddress (sh : Sheaf) (f : Fields) (off : DWord) (t : Nat) : DWord :=
  sh.read64 f f.b t
    + (if a64 f then 0 else if csx f then (sh.read32 f f.c t).signExtend 64 else (sh.read32 f f.c t).setWidth 64) + off

/-- R205: a scratchpad address. -/
def scratchAddress (sh : Sheaf) (f : Fields) (off : Word) (t : Nat) : Word :=
  sh.read32 f f.b t + sh.read32 f f.c t + off

/-- R304: no walk that an instruction needs meets a stack in self-refresh. -/
def State.walksNow (s : State) (sh : Sheaf) (u : Machine.Use) (vas : List Nat) : Prop :=
  ∀ va ∈ vas, s.xlateHeld sh.heath sh.core sh.ctx va u = none

/-- R160: a store, atomic or reduction of a compute core finds room in the FIFO for its lines and those of its core's that are
issued and not written. -/
def State.fifoTakes (s : State) (sh : Sheaf) (kind : OpKind) (accs : List Access) : Prop :=
  sh.heath = false → kind ∈ [.store, .atom, .red] →
    s.fifoFits sh.core (s.linesDue sh.core ++ (accs.filter fun a => a.loc.tier < 2).map fun a => lineOf a.loc.addr) = true

/-- An operation of a sheaf as its instruction starts it (R201, R221, R316); on a heath core an order code adds nothing to
an access of HBM (R288). -/
def opOf (k : Nat) (sh : Sheaf) (f : Fields) (kind : OpKind) (aop hint : Nat) (ar : Bool) (clk : Nat) (accs : List Access) : Op :=
  let code := if sh.heath && !kind.scratch then min (ord f) 1 else ord f
  { kind := kind, sheaf := k, home := sh.home, ctx := sh.ctx, core := sh.core, heath := sh.heath, ty := f.ty, ord := code
    ar := ar && code = ord f, aop := aop, hint := hint, dest := if kind.onLd then sh.resolve f.u f.a else .none, words := tyWords f.ty
    accs := accs, rgnpc := sh.rgnpc, rgncnt := sh.rgncnt, destField := f.a, ucls := f.u
    mask := if f.u then sh.em else sh.maskFor f, markers := [], clk := clk, res := [] }

/-- R221, R313: an operation joins the outstanding ones under the next number and its counter rises; the sheaf goes on, or,
in a handler, waits for it.  A release order puts its markers into the FIFOs of its core first (R184). -/
def Starts (out : Host.Outcome State Fault Refusal) (u : State) (k : Nat) (sh : Sheaf) (o : Op) : Prop :=
  let m := if o.ord = 3 && !o.heath then u.mark o.core else (u, [])
  out = .next ({ m.1 with ops := u.ops ++ [(u.fresh, { o with markers := m.2 })], fresh := u.fresh + 1 }.onSheaf k fun x =>
    let x := if o.kind.onLd then x.countLd u.fresh else x.incr .st
    if sh.tlvl ≠ 0 && (o.kind.reads || o.kind.writes) then { x with status := .stalled (.access u.fresh) } else x.advance)

/-- A global access: its row, what it does, its operation code, hint and acquire bit, its offset and its operands. -/
structure GlobalAccess where
  row : Row
  instr : Fields → Instr
  kind : OpKind
  use : Machine.Use
  aop : Fields → Nat := fun _ => 0
  hint : Fields → Nat := fun _ => 0
  ar : Fields → Bool := fun _ => false
  off : Fields → DWord := fun f => f.imm.signExtend 64
  x : Sheaf → Fields → Nat → Val := fun _ _ _ => 0
  e : Sheaf → Fields → Nat → Val := fun _ _ _ => 0

/-- R207: the value and the compare value of an atomic, from its A operand. -/
def atomValue (sh : Sheaf) (f : Fields) (t : Nat) : Val :=
  ((sh.read f f.ty (atomWords f) f.a t).setWidth (tyBits f.ty)).setWidth 128
def atomCompare (sh : Sheaf) (f : Fields) (t : Nat) : Val :=
  if atomOp f = 7 then sh.read f f.ty (atomWords f) f.a t >>> tyBits f.ty else 0

/-- R199, R200, R202, R208, R209. -/
def globalAccesses : List GlobalAccess :=
  [{ row := rowLd, instr := .ld, kind := .load, use := .load, hint := hintF },
   { row := rowSt, instr := .st, kind := .store, use := .store, hint := hintF
     x := fun sh f t => sh.read f f.ty (tyWords f.ty) f.a t },
   { row := rowLdx, instr := .ldx, kind := .ldx, use := .load },
   { row := rowAtom, instr := .atom, kind := .atom, use := .atomic, aop := atomOp, ar := fun f => f.imm.getLsbD 11
     off := fun f => (f.imm.extractLsb' 0 11).signExtend 64, x := atomValue, e := atomCompare },
   { row := rowRed, instr := .red, kind := .red, use := .store, aop := atomOp
     off := fun f => (f.imm.extractLsb' 0 11).signExtend 64
     x := fun sh f t => ((sh.read f f.ty (tyWords f.ty) f.a t).setWidth (tyBits f.ty)).setWidth 128 }]

/-- A scratchpad access. -/
structure ScratchAccess where
  row : Row
  instr : Fields → Instr
  kind : OpKind
  aop : Fields → Nat := fun _ => 0
  ar : Fields → Bool := fun _ => false
  off : Fields → Word := fun f => f.imm.signExtend 32
  x : Sheaf → Fields → Nat → Val := fun _ _ _ => 0
  e : Sheaf → Fields → Nat → Val := fun _ _ _ => 0

/-- R206, R210. -/
def scratchAccesses : List ScratchAccess :=
  [{ row := rowLds, instr := .lds, kind := .lds },
   { row := rowSts, instr := .sts, kind := .sts, x := fun sh f t => sh.read f f.ty (tyWords f.ty) f.a t },
   { row := rowAtoms, instr := .atoms, kind := .atoms, aop := atomOp, ar := fun f => f.imm.getLsbD 11
     off := fun f => (f.imm.extractLsb' 0 11).signExtend 32, x := atomValue, e := atomCompare }]

/-- R180, R185: the byte a load of a core finds: of its L1's copy, unless it is an acquire and the copy not owned; else the
coherent one. -/
def State.seenByte (s : State) (core : Nat) (acq : Bool) (a : Nat) : Byte :=
  match s.l1Word? (s.slice core (lineOf a)) a with
  | some w => if w.owned || !acq then w.val.extractLsb' (8 * (a % 4)) 8 else s.peekByte a
  | none => s.peekByte a

/-- Registers and modes of a sheaf that no memory event changes. -/
def Sheaf.regs (sh : Sheaf) : Sheaf :=
  { sh with status := .ready, lane := none, laneClk := 0, readyClk := 0, pc := 0, mon := none, ld := [], st := 0, ac0 := 0
            ac1 := 0, ac2 := 0, mx := 0, en := 0, pend := none, held := [], rel := none, lead := [], ahead := [], len := 1 }

/-! ### Requests of engines (R229) -/

/-- A request as its instruction queues it, with the registers of its block. -/
def requestOf (k : Nat) (sh : Sheaf) (f : Fields) (kind : EngKind) (clk : Nat) (blk : List Word) : Eng :=
  { kind := kind, sheaf := k, wg := sh.home.wgId, ctx := sh.ctx, core := sh.core, part := sh.part, pc := sh.pc
    accepted := false, blk := blk, reg := f.a.toNat, lvl := sh.tlvl, acpys := [], hint := 0, words := [], base := 0
    pitch := 0, sp := false, hurdle := 0, pieces := [], rows := [], tiled := false, applied := [], dropped := false
    fault := none, clk := clk }

/-- An instruction that queues a request. -/
structure EngRequest where
  row : Row
  instr : Fields → Instr
  kind : Fields → EngKind

/-- R234, R238, R239, R273, R355. -/
def engRequests : List EngRequest :=
  [{ row := rowBcpy, instr := .bcpy, kind := fun f => .bcpy (f.imm.extractLsb' 0 8).toNat (f.imm.getLsbD 8) },
   { row := rowGath, instr := .gath, kind := fun f => .gath (f.imm.getLsbD 0) },
   { row := rowScat, instr := .scat, kind := fun _ => .scat },
   { row := rowKvld, instr := .kvld, kind := fun f => .kvld (f.imm.getLsbD 0) },
   { row := rowXred, instr := .xred, kind := fun f => .xred f.ty (f.imm.getLsbD 0) }]

/-! ### Tile operations (R250, R259 to R261, R277 to R279) -/

/-- A tile instruction that counts on nothing: the tile it names, the operation the lattice accepts, and what must hold at
issue beside the ownership of the lattice. -/
structure TileInstr where
  row : Row
  instr : Fields → Instr
  tile : Fields → Nat := Forms.tile
  op : State → Sheaf → Fields → TileOp
  holds : State → Nat → Sheaf → Fields → Prop := fun _ _ _ _ => True

/-- R245: the tile rows of the threads of a mask. -/
def tileRows (sh : Sheaf) (m : Mask) : List Nat := (active m).map fun t => 16 * sh.part + t

/-- R259, R260, R277 to R279. -/
def tileInstrs : List TileInstr :=
  [{ row := rowLmz, instr := .lmz, op := fun _ sh f => .lmz (tileRows sh (sh.maskFor f)) },
   { row := rowLmld, instr := .lmld
     op := fun _ sh f => .lmld (tileRows sh (sh.maskFor f)) (f.imm.extractLsb' 4 2).toNat
       ((active (sh.maskFor f)).foldl (fun (st : Store 32) t => (List.range 16).foldl (fun (st : Store 32) q =>
         st.set ((16 * sh.part + t) * 16 + q) (sh.readV (sh.vslot f.a.toNat + q) t)) st) []) },
   { row := rowLmscl, instr := .lmscl
     op := fun _ sh f => .lmscl (tileRows sh (sh.maskFor f)) (f.imm.getLsbD 4)
       (if f.imm.getLsbD 4 then [] else (active (sh.maskFor f)).foldl (fun (st : Store 32) t =>
         st.set (16 * sh.part + t) (sh.read32 f f.b t)) []) },
   { row := rowSmxi, instr := .smxi
     op := fun s sh f => .smxi (tileRows sh sh.em) (if f.imm.getLsbD 4 then
       some ((active sh.em).foldl (fun (st : Store 32) t =>
         st.set (16 * sh.part + t) (s.spWord sh.home ((sh.read32 f f.b 0).toNat + 4 * t))) []) else none)
     holds := fun s k sh f => s.usingScratch k = false ∧ s.acquiring k = false ∧ (f.imm.getLsbD 4 = true → (sh.read32 f f.b 0).toNat % 4 = 0 ∧
       (sh.read32 f f.b 0).toNat < 2 ^ 31 ∧ (sh.read32 f f.b 0).toNat + 64 ≤ s.spsz sh.home) },
   { row := rowSmxu, instr := .smxu, tile := smTs
     op := fun s sh f =>
       let mo := (sh.readS f.a.toNat).toNat
       .smxu (tileRows sh sh.em) (smTo f) (smNo f) (smMask f) (sh.readS f.a.toNat) (sh.readS (f.a.toNat + 1))
         (f.imm.getLsbD 10) (sh.read32 f f.b 0) (sh.read32 f f.c 0).toNat (sh.read32 f f.d 0).toNat
         (if smMask f ≠ 2 then [] else (active sh.em).foldl (fun (st : Store 64) t =>
           st.set t (BitVec.ofNat 64 (leNat (s.spRead sh.home (mo + 8 * t) 8)))) [])
     holds := fun s k sh f => s.usingScratch k = false ∧ s.acquiring k = false ∧
       (let c := (sh.read32 f f.c 0).toNat
        c % 16 = 0 ∧ c < 2 ^ 31 ∧ c + 2048 ≤ s.spsz sh.home) ∧
       (let d := (sh.read32 f f.d 0).toNat
        d % 16 = 0 ∧ d < 2 ^ 31 ∧ d + 16 ≤ s.spsz sh.home) ∧
       (smMask f = 2 → let mo := (sh.readS f.a.toNat).toNat
        mo % 8 = 0 ∧ mo < 2 ^ 31 ∧ mo + 128 ≤ s.spsz sh.home) },
   { row := rowSmxn, instr := .smxn, op := fun _ sh _ => .smxn (tileRows sh sh.em) }]

/-- R250: an operation the lattice of a core accepts. -/
def tiledOf (id tile k : Nat) (sh : Sheaf) (op : TileOp) : Tiled :=
  { id := id, tile := tile, sheaf := k, wg := sh.home.wgId, pc := sh.pc, op := op }

/-- R246, R247: a sheaf whose workgroup owns its core's lattice. -/
def State.ownsLattice (s : State) (sh : Sheaf) : Prop :=
  s.latticeKernel sh.home = true ∧ (s.core sh.core).lattice.owner = some sh.home.wgId

/-- Word `x` of a lattice lies in these rows of a tile. -/
def inRows (tile : Nat) (rows : List Nat) (x : Nat) : Prop := x / 4096 = tile ∧ x % 4096 / 64 ∈ rows

end Sys2Proof.Machine
end

