-- ==== Sys2Proof/Certificates/Slice0/Obligations.lean ====
section
/-! DEFINITION. The statements: what the EG9's instructions and events do, each from the rules of spec/ its docstring
names. -/

section Statements
open Sys2Proof Sys2Proof.Machine Sys2Proof.Forms

/-! ### Encoding -/

/-- R73, R74, R92, R106, R111, R122: words of the spec's own text, and words laid out from its tables, decode to what they
stand for. -/
def Obligations.WorkedWords : Prop :=
  decodeWords [0x0000003C] = .ok (.nop { u := false, x := false, w := false, a := 0, b := 0, c := 0, gn := false, gi := 7, d := 0, ty := 0, imm := 0, lit := none }, 1) ∧
  decodeWords [0x0000043C] = .ok (.nop { u := true, x := false, w := false, a := 0, b := 0, c := 0, gn := false, gi := 7, d := 0, ty := 0, imm := 0, lit := none }, 1) ∧
  decodeWords [0x02081882, 0x70810802] = .ok (.iset { u := false, x := true, w := false, a := 1, b := 2, c := 3, gn := false, gi := 7, d := 4, ty := 1, imm := 0x0802, lit := none }, 2) ∧
  decodeWords [0x00F804CC] = .ok (.ret { u := true, x := false, w := false, a := 0, b := 0x3E, c := 0, gn := false, gi := 7, d := 0, ty := 0, imm := 0, lit := none }, 1) ∧
  decodeWords [0x005004CA, 0x70020000] = .ok (.callReg { u := true, x := true, w := false, a := 0, b := 0x14, c := 0, gn := false, gi := 7, d := 0, ty := 2, imm := 0, lit := none }, 2)

/-- R71, R73 to R76, R92: every well-formed instruction is read back from its words, whatever follows them. -/
def Obligations.DecodeEncode : Prop :=
  ∀ i rest, i.wellFormed = true → (i.coded.isSome ∨ ∃ b m, i = .reservedOpcode b m) →
    decodeWords (encode i ++ rest) = .ok (i, (encode i).length)

/-- R71, R73, R74: an instruction's words are the words it was read from: no bit of them is dropped.
R71: an instruction has one to three words, and a step that lacks one of them reads nothing. -/
def Obligations.EncodeDecode : Prop :=
  (∀ ws i n, decodeWords ws = .ok (i, n) → n ≤ ws.length ∧ encode i = ws.take n) ∧
  ((∀ ws i n, decodeWords ws = .ok (i, n) → 1 ≤ n ∧ n ≤ 3 ∧ n ≤ ws.length) ∧
  ∀ base rest, decodeWords (base :: rest) = .error .short ↔
    rest.length + 1 < lengthOf base (if baseX base then rest.head? else none) ∨ (baseX base = true ∧ rest = []))

/-! ### Reset and the step -/

/-- R359, R361, R347, R358: the machine after power-on: in BRINGUP, its registers at their reset values, nothing
resident; by the model's choices, every temperature byte at 0xFF, as one that is unavailable (log 90), and memory's bytes
reading as 0 (log 1); memory in its form. -/
def Obligations.ResetState : Prop :=
  State.reset.dev = .bringup ∧ State.reset.fstage = 0 ∧ State.reset.cmt = .idle ∧ State.reset.sheafs = [] ∧
  State.reset.wgs = [] ∧ State.reset.grids = [] ∧ State.reset.ctxs = [] ∧ State.reset.ops = [] ∧ State.reset.slots = [] ∧
  State.reset.accid = 0 ∧ State.reset.bmbase = 0 ∧ State.reset.bmcount = 0 ∧ State.reset.fqbase = 0 ∧ State.reset.irq = 0 ∧
  State.reset.stage1 = false ∧ State.reset.xwin = [] ∧ State.reset.xgrp = [] ∧ State.reset.reports = [] ∧
  (∀ z < 8, Store.get State.reset.tzone z = 0xFF) ∧ (∀ a, State.reset.peekByte a = 0) ∧ State.reset.Inv

/-- R71, R225: a sheaf that the agenda names (log 2) and whose next instruction's words lie fetched ahead runs the
instruction they decode to, with no new translation (log 72): the step is that instruction's execution, in the state in
which the sheaf is the one that issues. -/
def Obligations.StepRunsDecoded : Prop :=
  ∀ (s : State) (k : Nat) (sh : Sheaf) (rest : List Act) (ws : List Word) (i : Instr) (n : Nat),
    s.agenda = .issue k :: rest → s.sheaf? k = some sh → sh.status = .issuing → sh.mayEnter = false →
    decodeWords ws = .ok (i, n) → n = ws.length →
    (∀ j, (h : j < ws.length) → sh.ahead.get? (sh.pc + BitVec.ofNat 64 (4 * j)).toNat = some ws[j]) →
    sh.pc.toNat + 12 < 2 ^ 64 →
    step s = exec i ({ s with agenda := rest, cur := some k }.onSheaf k fun _ => sh.nearAhead)

/-- R71, R72, R316: a step lets the sheaf the agenda names (log 2) issue: a trap that waits is taken first; else the words
at its PC are fetched, and what they decode to is executed; a word that cannot be fetched traps, with the fields of log 71,
or is waited for; a word on a host page that has failed for the sheaf traps with XLATE and REMOTE (R350), which stands while
other words are waited for.
R72, R155, R183, R225: a word of an HBM page that the core's TLBs hold is the one its instruction cache holds, else its coherent
value. -/
def Obligations.StepIssues : Prop :=
  (∀ (s : State) (k : Nat) (sh0 : Sheaf) (rest : List Act), s.agenda = .issue k :: rest → s.sheaf? k = some sh0 →
    s.mayIssue sh0 = true →
    let sh : Sheaf := { sh0.nearAhead with status := .issuing }
    let u : State := { { s with agenda := rest }.onSheaf k (fun _ => sh) with cur := some k }
    (sh.mayEnter = true → step s = .next (u.trapEntry k)) ∧
    (sh.mayEnter = false →
      let fetched := u.fetchInstr sh0.nearAhead
      (∀ t w x i n, fetched = (.got t w, x) → decodeWords w.list = .ok (i, n) → step s = exec i t) ∧
      (∀ t p w, fetched = (.trap t p, w) → step s = .next (t.wordTrap k w p)) ∧
      (∀ t w ws, fetched = (.wait t ws, w) → (∀ va old, sh0.status ≠ .stalled (.lost va old)) →
        step s = .next (t.onSheaf k fun x => { x with status := .stalled (.fetch ws) })) ∧
      ∀ t w ws va old, fetched = (.wait t ws, w) → sh0.status = .stalled (.lost va old) →
        step s = .next (t.onSheaf k fun x => { x with status := .stalled (.lost va ws) }))) ∧
  (∀ (s : State) (sh : Sheaf) (va : DWord) (ws : List WaitOn), sh.status = .stalled (.lost va.toNat ws) →
    sh.ahead.get? va.toNat = none →
    s.fetchWord sh va = .trap s { cause := .xlate, det := 4, acc := accFetch, mask := sh.em, ta := va }) ∧
  (∀ (s : State) (sh : Sheaf) (va : DWord) (h : Hit) (leaf : DWord) (pte : Nat) (block : Bool),
    s.checkAddr sh .fetch 4 0 va = .ok h → h.xl = .ok leaf pte block true → h.loc.tier = 0 → sh.heath = false →
    s.unreadable h.loc.addr = false → s.heldAt false h.loc.addr = false → sh.ahead.get? va.toNat = none →
    (∀ ws, sh.status ≠ .stalled (.lost va.toNat ws)) → ∃ t, s.fetchWord sh va =
      .got t ((s.icWord? sh.core (lineOf h.loc.addr) (wordIn h.loc.addr)).getD (s.peek h.loc.addr)))

/-- Log 2: the head of the agenda happens: an event is executed; with nothing there, an uncorrectable error that waits is
logged, else what is due happens, else the next sheaf issues. -/
def Obligations.StepActs : Prop :=
  (∀ (s : State) (i : Instr) (rest : List Act), s.agenda = .event i :: rest → Instr.isEvent i = true →
    step s = exec i { s with agenda := rest }) ∧
  (∀ (s : State) (e : Nat × Nat) (rest : List (Nat × Nat)), s.agenda = [] → s.eccLog = e :: rest →
    step s = .next (({ s with eccLog := rest }.faultLog e.1 { kind := 4, causes := Cause.ecc.code, addr := e.2 }).reapCtx e.1)) ∧
  (∀ (s t : State), s.agenda = [] → s.eccLog = [] → s.firstDue = some t → step s = .next t) ∧
  ∀ (s : State) (k : Nat), s.agenda = [] → s.eccLog = [] → s.firstDue = none → s.nextSheaf = some k → step s = s.issueStep k

/-! ### What every instruction does at issue -/

/-- R94: the first of the checks 2 to 7 that fails decides: the instruction traps, and does nothing else.
R93: words of no instruction trap with ILLOP, the base word in TA, and have no other effect.
R71: an instruction that would go on past the last address the PC holds traps at that instruction; of the words that only go
on this reads R71 by the model (log 106). -/
def Obligations.FailedCheckTraps : Prop :=
  (∀ i r f s k sh t, i.coded = some (r, f) → Selected s k sh → (issOf r f k sh).check s = some t →
    exec i s = .next ((issOf r f k sh).trap (s.issued k sh f) t)) ∧
  (∀ base mod s k sh, Selected s k sh →
    exec (.reservedOpcode base mod) s =
      .next ((s.after k sh { sh with len := if mod.isSome then 2 else 1, status := .issuing, pend := none }).raise k
        { cause := .illop, det := 0, acc := 0, mask := sh.em, ta := base.zeroExtend 64, dest := base.extractLsb' 25 7
          dv := false, imp := false, lead := false, len := if mod.isSome then 2 else 1, ucls := base.getLsbD 10
          w64 := false, rgnpc := 0, rgncnt := 0, seq := 0 } false)) ∧
  (∀ i r f s k sh, i.coded = some (r, f) → Selected s k sh → (issOf r f k sh).check s = none →
    r.op ∉ [0x2F#8, 0x30#8, 0x31#8, 0x32#8, 0x33#8, 0x39#8, 0x3E#8, 0x3F#8, 0xC5#8, 0xF7#8] →
    JumpTraps (exec i s) r f s k sh (sh.past f).pc)

/-- R94: the causes of checks 2 to 7, in their order.
R86: the WINDOW check reports the lowest register slot, of those an instruction names, that its workgroup lacks. -/
def Obligations.CheckOrder : Prop :=
  (∀ r f s k sh, let i := issOf r f k sh
    let ok2 := r.legal f && r.formed f && subsetOk r f sh.heath
    let free := f.gn && decide (f.gi = 7#3)
    let cause := (i.check s).map fun t => (t.cause, t.ta)
    (ok2 = false → cause = some (.illop, (baseWord r.op f).zeroExtend 64)) ∧
    (ok2 = true → free = true → cause = none) ∧
    (ok2 = true → free = false →
      (r.super f = true → sh.supervisor = false → cause = some (.priv, 0)) ∧
      ((r.super f = false ∨ sh.supervisor = true) →
        (roleOk sh.role r.right = false → cause = some (.role, 0)) ∧
        (roleOk sh.role r.right = true →
          (r.lattice = true → sh.tlvl ≠ 0 → cause = some (.lattice, 0)) ∧
          ((r.lattice = false ∨ sh.tlvl = 0) →
            (∀ n, lowestFailing (s.nreg sh.home) (sh.slots (r.uses f) f) = some n →
              cause = some (.window, BitVec.ofNat 64 n)) ∧
            (lowestFailing (s.nreg sh.home) (sh.slots (r.uses f) f) = none →
              cause = (sh.latchFail (r.uses f) f).map fun j => (.latch, BitVec.ofNat 64 j))))))) ∧
  (∀ nreg l, (∀ n, lowestFailing nreg l = some n → n ∈ l ∧ nreg ≤ n ∧ ∀ m ∈ l, nreg ≤ m → n ≤ m) ∧
    (lowestFailing nreg l = none ↔ ∀ m ∈ l, m < nreg))

/-- R81, R82, R94: an instruction that passes its checks and does not act, a BRA with a false guard among them, moves the PC
past itself; a vector one that produces a result shifts the latches, unless it is guarded by negated p7.  The EZ form of BRA
has its own statement. -/
def Obligations.IdleInstructions : Prop :=
  ∀ i r f s k sh, i.coded = some (r, f) → Selected s k sh → (issOf r f k sh).check s = none → (r.op = 0x30#8 → f.ty ≠ 1#5) →
    onCode (sh.past f).pc →
    ((issOf r f k sh).nullified = true → Leaves (exec i s) s k sh (sh.past f)) ∧
    ((issOf r f k sh).nullified = false → (issOf r f k sh).acts = false → (f.u = true ∨ r.result f = false) →
      Leaves (exec i s) s k sh (sh.past f)) ∧
    ((issOf r f k sh).nullified = false → (issOf r f k sh).acts = false → f.u = false → r.result f = true →
      ∃ sh', exec i s = .next (s.afterResult k sh sh' f (resWords r f)) ∧
        Latched sh sh' f (resWords r f) [] (fun _ => 0) ∧
        sh' = { sh.past f with y0 := sh'.y0, y1 := sh'.y1, y2 := sh'.y2, y3 := sh'.y3 })

/-! ### Arithmetic -/

/-- R103: the exact results, wrapped, or clamped with SAT.
R104: the sum with a carry, and the carry out. -/
def Obligations.IntegerResults : Prop :=
  (∀ c ∈ integerCalcs, c.Holds) ∧
  (carryCalc.Holds)

/-- R60: quotients and remainders, with 0 as a divisor where it does not trap, and DIVZ where it does. -/
def Obligations.DivideResults : Prop := (∀ c ∈ divideCalcs, c.Holds) ∧ ∀ c ∈ divideCalcs, c.Traps

/-- R107: the logic operations.
R108: shifts and rotation.
R107 to R109: counts, reversal, bit fields, bytes. -/
def Obligations.BitwiseResults : Prop :=
  (∀ c ∈ logicCalcs, c.Holds) ∧
  (∀ c ∈ shiftCalcs, c.Holds) ∧
  (∀ c ∈ bitsCalcs, c.Holds)

/-- R105, R106, R112, R116, R117: addresses, copies, selections, exchanges between threads.
R106: NOP has no effect. -/
def Obligations.MoveResults : Prop :=
  (∀ c ∈ moveCalcs, c.Holds) ∧
  (∀ f s k sh, Executes rowNop f s k sh → Leaves (exec (.nop f) s) s k sh (sh.past f))

/-- R111, R113 to R115: predicates. -/
def Obligations.PredicateResults : Prop := ∀ c ∈ predicateCalcs, c.Holds

/-- R135, R137, R141, R142: one exact result, rounded once.
R111, R135, R138 to R140: scaling, parts, classes, whole numbers, float comparisons.
R143: packed 16-bit arithmetic. -/
def Obligations.FloatResults : Prop :=
  (∀ c ∈ floatCalcs, c.Holds) ∧
  (∀ c ∈ partCalcs, c.Holds) ∧
  (∀ c ∈ packedCalcs, c.Holds)

/-- R145 to R150: conversions. -/
def Obligations.ConvertResults : Prop := ∀ c ∈ convertCalcs, c.Holds

/-- R57: of every instruction that computes, an enabled exception in some threads lets the others complete. -/
def Obligations.FloatTraps : Prop := ∀ c ∈ floatCalcs ++ partCalcs ++ packedCalcs ++ convertCalcs, c.Traps

/-- R47: the rounding of `m` ÷ 2^s: to a neighbour; to the nearest, the even one at a tie, in RNE; toward zero in RZ; in
RU and RD the neighbour that is not below, not above, the number; and whether it is inexact. -/
def Obligations.Rounding : Prop :=
  ∀ (neg : Bool) (m sft : Nat) (rm : Rm),
    let q := (roundShift rm neg m sft false).1
    (q = m / 2 ^ sft ∨ q = m / 2 ^ sft + 1) ∧
    ((roundShift rm neg m sft false).2 = decide (m % 2 ^ sft ≠ 0)) ∧
    (m % 2 ^ sft = 0 → q = m / 2 ^ sft) ∧
    (rm = .rne → 2 * (q * 2 ^ sft) ≤ 2 * m + 2 ^ sft ∧ 2 * m ≤ 2 * (q * 2 ^ sft) + 2 ^ sft ∧
      (2 * (m % 2 ^ sft) = 2 ^ sft → q % 2 = 0)) ∧
    (rm = .rz → q * 2 ^ sft ≤ m) ∧
    (rm = .ru → if neg then q * 2 ^ sft ≤ m else m ≤ q * 2 ^ sft) ∧
    (rm = .rd → if neg then m ≤ q * 2 ^ sft else q * 2 ^ sft ≤ m)

/-! ### Control -/

/-- R91, R120, R121: BRA and BRX set the PC; the EZ form does when EM is zero, or with GN when it is not.
R28, R29: a branch backwards, after 4,096 clocks in its lane and with a sheaf ready for it, is a swap point.
R71, R119: a jump to an address the PC cannot hold traps at the jump, with the target in TA; of one that fails both rules
the cause is ALIGN by the model's choice (log 100).
R122: CALL writes the link to s62:s63, s62 the high half, and sets the PC. -/
def Obligations.Jumps : Prop :=
  ((∀ f s k sh, Executes rowBra f s k sh →
    let target := sh.pc + ((f.a ++ f.b ++ f.c : BitVec 21).signExtend 64 <<< 2)
    onCode target → s.staysOn k sh f target → Leaves (exec (.bra f) s) s k sh { sh.issuing f with pc := target }) ∧
  (∀ f s k sh, Selected s k sh → (issOf rowBraEz f k sh).check s = none →
    let target := sh.pc + ((f.a ++ f.b ++ f.c : BitVec 21).signExtend 64 <<< 2)
    ((decide (sh.em = 0) ^^ f.gn) = true → onCode target → s.staysOn k sh f target →
      Leaves (exec (.braEz f) s) s k sh { sh.issuing f with pc := target }) ∧
    ((decide (sh.em = 0) ^^ f.gn) = false → onCode (sh.past f).pc → Leaves (exec (.braEz f) s) s k sh (sh.past f))) ∧
  ∀ f s k sh, Executes rowBrx f s k sh → onCode (sh.read64 f f.b 0) → s.staysOn k sh f (sh.read64 f f.b 0) →
    Leaves (exec (.brx f) s) s k sh { sh.issuing f with pc := sh.read64 f f.b 0 }) ∧
  (∀ f s k sh,
    let target := sh.pc + ((f.a ++ f.b ++ f.c : BitVec 21).signExtend 64 <<< 2)
    let taken := Selected s k sh ∧ (issOf rowBraEz f k sh).check s = none ∧ (decide (sh.em = 0) ^^ f.gn) = true
    let swaps (out : Host.Outcome State Fault Refusal) (target : DWord) : Prop :=
      onCode target → ¬s.staysOn k sh f target →
      ∃ t, out = .next t ∧ Swapped (s.after k sh { sh.issuing f with pc := target }) t k
    (Executes rowBra f s k sh → swaps (exec (.bra f) s) target) ∧
    (taken → swaps (exec (.braEz f) s) target) ∧
    (Executes rowBrx f s k sh → swaps (exec (.brx f) s) (sh.read64 f f.b 0)) ∧
    (Executes rowBra f s k sh → JumpTraps (exec (.bra f) s) rowBra f s k sh target) ∧
    (taken → JumpTraps (exec (.braEz f) s) rowBraEz f s k sh target) ∧
    (Executes rowBrx f s k sh → JumpTraps (exec (.brx f) s) rowBrx f s k sh (sh.read64 f f.b 0)) ∧
    (Executes rowCall f s k sh → JumpTraps (exec (.call f) s) rowCall f s k sh target) ∧
    (Executes rowCallReg f s k sh → JumpTraps (exec (.callReg f) s) rowCallReg f s k sh (sh.read64 f f.b 0)) ∧
    (Executes rowRet f s k sh → JumpTraps (exec (.ret f) s) rowRet f s k sh (sh.read64 f f.b 0))) ∧
  (∀ f s k sh,
    let link := sh.pc + BitVec.ofNat 64 (4 * words f)
    let linked := ((sh.issuing f).writeS 62 (link.extractLsb' 32 32)).writeS 63 (link.extractLsb' 0 32)
    (Executes rowCall f s k sh →
      let target := sh.pc + ((f.a ++ f.b ++ f.c : BitVec 21).signExtend 64 <<< 2)
      onCode target → Leaves (exec (.call f) s) s k sh { linked with pc := target }) ∧
    (Executes rowCallReg f s k sh → onCode (sh.read64 f f.b 0) →
      Leaves (exec (.callReg f) s) s k sh { linked with pc := sh.read64 f f.b 0 }))

/-- R123: RET sets the PC to its B pair, writes no link and changes no other state. -/
def Obligations.Returns : Prop :=
  ∀ f s k sh, Executes rowRet f s k sh → onCode (sh.read64 f f.b 0) →
    Leaves (exec (.ret f) s) s k sh { sh.issuing f with pc := sh.read64 f f.b 0 }

/-- R124 to R127: EM copied, loaded and narrowed, WB set, a region opened.  A discard name as EMSAV's A takes nothing, by the
model's reading (log 20); the zero name as a source of EMLD or WBASE is 0 (log 19).
R131: YIELD is a swap point. -/
def Obligations.MasksAndRegions : Prop :=
  ((∀ f s k sh i, Executes rowEmsav f s k sh → dstOf true f.a = .s i →
    Leaves (exec (.emsav f) s) s k sh ((sh.past f).writeS i (sh.em.zeroExtend 32))) ∧
  (∀ f s k sh, Executes rowEmsav f s k sh → dstOf true f.a = .discard → Leaves (exec (.emsav f) s) s k sh (sh.past f)) ∧
  (∀ f s k sh, Executes rowEmld f s k sh →
    Leaves (exec (.emld f) s) s k sh { sh.past f with em := (sh.read32 f f.b 0).extractLsb' 0 16 &&& sh.live }) ∧
  (∀ f s k sh, Executes rowEmand f s k sh → ∃ em, Leaves (exec (.emand f) s) s k sh { sh.past f with em := em } ∧
    ∀ t < 16, em.getLsbD t = (sh.em.getLsbD t && (sh.pred false f.b t ^^ f.imm.getLsbD 0))) ∧
  (∀ f s k sh, Executes rowWbase f s k sh → (sh.read32 f f.b 0).toNat < 64 →
    Leaves (exec (.wbase f) s) s k sh { sh.past f with wb := (sh.read32 f f.b 0).extractLsb' 0 6 }) ∧
  ∀ f s k sh, Executes rowRgn f s k sh →
    Leaves (exec (.rgn f) s) s k sh
      { sh.past f with rgnpc := sh.pc + BitVec.ofNat 64 (4 * words f), rgncnt := sh.rgncnt + 1 }) ∧
  (∀ f s k sh, Executes rowYield f s k sh →
    ∃ t, exec (.yield f) s = .next t ∧ Swapped (s.after k sh (sh.past f)) t k)

/-- R36, R37, R40, R41, R132: MOVS reads a special register into an s register or pair; CLK with the clock of its own issue
counted, by the model's choice (log 43).
R296: SMOV to WINH closes a window, or opens one over the lines its pages name.
R37, R39, R40, R132: SMOV writes the registers of its sheaf that a program may write: EM within the live mask, FPSR in
every thread; and R315: it clears the bits of AXF it names.
R39, R37: a value with a reserved bit set, a role that does not exist, and a trap register of no level trap with
ILLOP and write nothing. -/
def Obligations.SpecialRegisters : Prop :=
  (∀ f s k sh, Executes rowMovs f s k sh →
    let idx := sregIdx f
    let u := s.issued k sh f
    Leaves (exec (.movs f) s) s k sh
      ((sh.past f).write true (if sregWide idx then 2 else 1) f.a 0 (BitVec.ofNat 128 (u.sreg sh idx))) ∧
    (∀ p ∈ [(0x00, sh.shid), (0x05, sh.ctx % 4096), (0x06, sh.core), (0x07, sh.part), (0x08, sh.lane.getD 0),
            (0x09, sh.role.toNat), (0x0A, sh.em.toNat), (0x0B, sh.wb.toNat), (0x0C, sh.fpcr.toNat), (0x10, sh.tlvl),
            (0x11, sh.trapRegs.tc.toNat), (0x12, sh.trapRegs.tr.toNat), (0x13, sh.trapRegs.tm.toNat),
            (0x14, sh.trapRegs.ta.toNat), (0x19, u.clkOf sh), (0x20, u.nreg sh.home), (0x21, u.spsz sh.home)],
      idx = p.1 → u.sreg sh idx = p.2) ∧
    (idx = 0x0D → u.sreg sh idx = (if sh.sticky.inv = 0 then 0 else 1) + (if sh.sticky.dz = 0 then 0 else 2)
      + (if sh.sticky.ovf = 0 then 0 else 4) + (if sh.sticky.unf = 0 then 0 else 8) + (if sh.sticky.inx = 0 then 0 else 16)) ∧
    (idx = 0x0E → u.sreg sh idx = if sh.heath then 0 else sh.rgnpc.toNat) ∧
    (idx = 0x0F → u.sreg sh idx = if sh.heath then 0 else sh.rgncnt.toNat)) ∧
  (∀ f s k sh, Executes rowSmov f s k sh →
    let idx := sregIdx f
    let x := sh.read32 f f.b 0
    let y := sh.read64 f f.b 0
    (sregWide idx = false → x &&& ~~~sregMask idx = 0) →
    (idx = 0x09 → x.toNat < 5 → Leaves (exec (.smov f) s) s k sh { sh.past f with role := x.extractLsb' 0 3 }) ∧
    (idx = 0x0A → Leaves (exec (.smov f) s) s k sh { sh.past f with em := x.extractLsb' 0 16 &&& sh.live }) ∧
    (idx = 0x0B → Leaves (exec (.smov f) s) s k sh { sh.past f with wb := x.extractLsb' 0 6 }) ∧
    (idx = 0x0C → Leaves (exec (.smov f) s) s k sh { sh.past f with fpcr := x.extractLsb' 0 12 }) ∧
    (idx = 0x0D → ∃ st : Sticky, Leaves (exec (.smov f) s) s k sh { sh.past f with sticky := st } ∧
      ∀ t < 16, st.inv.getLsbD t = x.getLsbD 0 ∧ st.dz.getLsbD t = x.getLsbD 1 ∧ st.ovf.getLsbD t = x.getLsbD 2 ∧
        st.unf.getLsbD t = x.getLsbD 3 ∧ st.inx.getLsbD t = x.getLsbD 4) ∧
    (idx = 0x12 → sh.tlvl = 1 → Leaves (exec (.smov f) s) s k sh { sh.past f with t1 := { sh.t1 with tr := y } }) ∧
    (idx = 0x12 → sh.tlvl = 2 → Leaves (exec (.smov f) s) s k sh { sh.past f with t2 := { sh.t2 with tr := y } }) ∧
    (idx = 0x11 → sh.tlvl = 1 → Leaves (exec (.smov f) s) s k sh { sh.past f with
      t1 := { sh.t1 with tc := x.extractLsb' 22 10 ++ sh.t1.tc.extractLsb' 21 1 ++ x.extractLsb' 0 21 } }) ∧
    (idx = 0x13 → sh.tlvl = 1 → Leaves (exec (.smov f) s) s k sh { sh.past f with t1 := { sh.t1 with tm := x } }) ∧
    (idx = 0x14 → sh.tlvl = 1 → Leaves (exec (.smov f) s) s k sh { sh.past f with t1 := { sh.t1 with ta := y } }) ∧
    (idx = 0x11 → sh.tlvl = 2 → Leaves (exec (.smov f) s) s k sh { sh.past f with
      t2 := { sh.t2 with tc := x.extractLsb' 22 10 ++ sh.t2.tc.extractLsb' 21 1 ++ x.extractLsb' 0 21 } }) ∧
    (idx = 0x13 → sh.tlvl = 2 → Leaves (exec (.smov f) s) s k sh { sh.past f with t2 := { sh.t2 with tm := x } }) ∧
    (idx = 0x14 → sh.tlvl = 2 → Leaves (exec (.smov f) s) s k sh { sh.past f with t2 := { sh.t2 with ta := y } }) ∧
    (idx = 0x15 → sh.tlvl = 2 → Leaves (exec (.smov f) s) s k sh { sh.past f with
      t1 := { sh.t1 with tc := x.extractLsb' 22 10 ++ sh.t1.tc.extractLsb' 21 1 ++ x.extractLsb' 0 21 } }) ∧
    (idx = 0x17 → sh.tlvl = 2 → Leaves (exec (.smov f) s) s k sh { sh.past f with t1 := { sh.t1 with tm := x } }) ∧
    (idx = 0x18 → sh.tlvl = 2 → Leaves (exec (.smov f) s) s k sh { sh.past f with t1 := { sh.t1 with ta := y } }) ∧
    (∀ b, s.blocks.get? sh.core = some b → idx = 0x25 →
      (x.getLsbD 31 = false → exec (.smov f) s =
        .next ((s.after k sh (sh.past f)).onBlock sh.core fun b => { b with winh := x, window := [] })) ∧
      (x.getLsbD 31 = true → b.winb.toNat % 128 = 0 → b.winl.toNat % 128 = 0 → 128 ≤ b.winl.toNat →
        b.winl.toNat ≤ 1048576 → (x.extractLsb' 0 18).toNat % 16 = 0 →
        ∀ hit : Nat → Hit,
        let v := s.issued k sh f
        let at_ (p : Nat × Nat × Nat) : Nat := max b.winb.toNat p.1
        let pages := pagesOf b.winb.toNat b.winl.toNat
        let line (j : Nat) : Nat :=
          let va := b.winb.toNat + 128 * j
          lineOf ((hit (va / 65536)).loc.addr / 65536 * 65536 + va % 65536)
        v.walksNow sh .store (pages.map at_) →
        (∀ p ∈ pages, v.checkAddr sh .store 1 0 (BitVec.ofNat 64 (at_ p)) = .ok (hit (p.1 / 65536))) →
        (∀ j < b.winl.toNat / 128, v.flushHeld (line j) = false) →
        ∃ t, exec (.smov f) s = .next t ∧ t.blocks.get? sh.core =
            some { b with winh := x, window := (List.range (b.winl.toNat / 128)).map line } ∧
          (t.sheaf? k).map Sheaf.regs = some (sh.past f).regs ∧
          (t.sheaf? k).map (fun x => x.pc) = some (sh.past f).pc)) ∧
    (idx = 0x16 → sh.tlvl = 2 → Leaves (exec (.smov f) s) s k sh { sh.past f with t1 := { sh.t1 with tr := y } }) ∧
    (idx = 0x26 → exec (.smov f) s = .next ((s.after k sh (sh.past f)).onCtx sh.ctx fun c =>
      { c with axf := c.axf &&& ~~~(x.extractLsb' 0 3) })) ∧
    (idx = 0x22 → y.toNat % 1024 = 0 →
      exec (.smov f) s = .next ((s.after k sh (sh.past f)).onCtx sh.ctx fun c => { c with tsb := y })) ∧
    ∀ b, s.blocks.get? sh.core = some b → b.winh.getLsbD 31 = false →
      (idx = 0x23 → exec (.smov f) s = .next ((s.after k sh (sh.past f)).onBlock sh.core fun b => { b with winb := y })) ∧
      (idx = 0x24 → exec (.smov f) s = .next ((s.after k sh (sh.past f)).onBlock sh.core fun b => { b with winl := x }))) ∧
  (∀ f s k sh, Executes rowSmov f s k sh →
    let idx := sregIdx f
    let x := sh.read32 f f.b 0
    ((sregWide idx = false ∧ x &&& ~~~sregMask idx ≠ 0) ∨ (idx = 0x09 ∧ 5 ≤ x.toNat) ∨
      (idx ∈ [0x11, 0x12, 0x13, 0x14] ∧ sh.tlvl = 0) ∨ (idx ∈ [0x15, 0x16, 0x17, 0x18] ∧ sh.tlvl ≠ 2)) →
    exec (.smov f) s = .next ((issOf rowSmov f k sh).trap (s.issued k sh f)
      { cause := .illop, mask := if f.u then sh.em else sh.maskFor f, ta := (baseWord 0x3D#8 f).zeroExtend 64 }))

/-! ### Traps -/

/-- R307, R312: a trap that a route takes to a handler: the registers of the new level (ACC set for every cause that an
access raises, ALIGN among them, by log 33), TLVL one higher, the PC at the
vector, EM the trapping threads; entry is a swap point.
R35: a trap of a sheaf with lattice operations outstanding waits, STALLED, and has not happened yet; R304: so does one whose
entry of the routing table lies in a stack in self-refresh. -/
def Obligations.TrapEntered : Prop :=
  (∀ (s : State) (k : Nat) (sh : Sheaf) (p : Pending) (vec : DWord) (sup : Bool), s.sheaf? k = some sh → sh.heath = false → sh.mx = 0 → sh.tlvl < 2 → p.lead = false → p.fits → s.routeHeld sh p.cause = false →
    s.resolve sh p.cause = some (vec, sup) →
    Swapped (s.onSheaf k fun x => x.entered p vec sup) (s.raise k p false) k) ∧
  (∀ (s : State) (k : Nat) (sh : Sheaf) (p : Pending), s.sheaf? k = some sh → sh.heath = false →
    (sh.mx ≠ 0 ∨ s.routeHeld sh p.cause = true) →
    s.raise k p false = s.onSheaf k fun x => { x with pend := some p, status := .stalled .mx })

/-- R309, R324: a trap at TLVL 2, and one without a route, kills the context, and the host is told.  R23: a kill frees every
workgroup of its context at once (log 117).
R286, R295: a trap of a heath sheaf ends its block with the status of its cause: RANGE for an access that fails or a misaligned
heath-scratch address.  That XLATE and PROT of a fetch, and XLATE of a failing branch or return target, are RANGE too, and that
ALIGN of such a target is TRAP, as of every other access, is log 127, the model's choice: R286's row speaks of a global access or
fetch. -/
def Obligations.FatalTraps : Prop :=
  (∀ (s : State) (k : Nat) (sh : Sheaf) (p : Pending) (c : Ctx), s.sheaf? k = some sh → sh.heath = false → sh.mx = 0 → s.ctx? sh.ctx = some c →
    s.routeHeld sh p.cause = false → (2 ≤ sh.tlvl ∨ s.resolve sh p.cause = none) →
    (((s.raise k p false).ctx? sh.ctx).map fun c => c.killed) = some true ∧
    (s.raise k p false).reports.getLast? = some (.killed sh.ctx)) ∧
  (∀ (s : State) (ctx : Nat) (r : LogRec) (w : Nat) (g : Wg), (s.kill ctx r).wg? w = some g → g.ctx = ctx → g.freed = true) ∧
  (∀ (s : State) (k : Nat) (sh : Sheaf) (p : Pending) (scratch : Bool), s.sheaf? k = some sh → sh.heath = true →
    let ends (stat cause : Nat) (addr : DWord) : Prop :=
      s.raise k p scratch = (s.endBlock sh.core stat cause sh.shid addr).stopCalls
    (p.cause ∈ [.xlate, .prot] → ends 1 0 p.ta) ∧
    (p.cause = .align → scratch = true → ends 1 0 p.ta) ∧
    (p.cause = .align → scratch = false → ends 6 p.cause.code sh.pc) ∧
    (p.cause ∈ [.illop, .priv, .role, .lattice] → ends 2 0 sh.pc) ∧
    (p.cause = .ecc → ends 3 0 p.ta) ∧
    (p.cause ∈ [.window, .latch, .divz, .fpinv, .fpdz, .fpovf, .fpunf, .fpinx, .fallow, .hover, .hdead, .soft, .brk] →
      ends 6 p.cause.code sh.pc))

/-- R118, R323: TRAP raises SOFT, BRK raises BRK, with the code in TA: each enters the handler its route names.
R311: the route of a cause without a table: the grid's own vector for the causes of user code, else nothing; with a table,
its entry's route and supervisor vector, and no handler where the entry is no address. -/
def Obligations.SoftTraps : Prop :=
  (∀ (f : Fields) (s : State) (k : Nat) (sh : Sheaf) (vec : DWord) (sup : Bool), sh.heath = false → sh.mx = 0 → sh.tlvl < 2 →
    let u := s.issued k sh f
    let p (c : Cause) (m : Mask) : Pending :=
      { cause := c, det := 0, acc := 0, mask := m, ta := f.imm.setWidth 64, dest := f.a, dv := false, imp := false
        lead := false, len := words f, ucls := f.u, w64 := false, rgnpc := 0, rgncnt := 0, seq := 0 }
    (Executes rowTrap f s k sh → u.routeHeld (sh.issuing f) .soft = false → u.resolve (sh.issuing f) .soft = some (vec, sup) →
      ∃ t, exec (.trap f) s = .next t ∧ Swapped (s.after k sh ((sh.issuing f).entered (p .soft sh.em) vec sup)) t k) ∧
    (Executes rowBrk f s k sh → u.routeHeld (sh.issuing f) .brk = false → u.resolve (sh.issuing f) .brk = some (vec, sup) →
      ∃ t, exec (.brk f) s = .next t ∧
        Swapped (s.after k sh ((sh.issuing f).entered (p .brk (if f.u then sh.em else sh.maskFor f)) vec sup)) t k)) ∧
  (∀ (s : State) (sh : Sheaf) (c : Cause) (w : Nat) (g : Wg) (r : Grid) (x : Ctx) (b : CtxBlock), sh.home = .wg w → s.wg? w = some g → s.grid? g.grid = some r → s.ctx? sh.ctx = some x →
    x.blk = some b → b.trt = 0 →
    s.resolve sh c = if c.route = .user ∧ r.trapvec c ≠ 0 then some (r.entry + (r.trapvec c).signExtend 64, false) else none) ∧
  (∀ (s : State) (sh : Sheaf) (c : Cause) (w : Nat) (g : Wg) (r : Grid) (x : Ctx) (b : CtxBlock) (leaf : DWord) (pte : Nat)
    (block hit : Bool), sh.home = .wg w → s.wg? w = some g → s.grid? g.grid = some r → s.ctx? sh.ctx = some x →
    x.blk = some b → b.trt ≠ 0 →
    let va := b.trt + 8 * c.code
    s.xlate false sh.core sh.ctx va .look = .ok leaf pte block hit →
    let l := s.place leaf block va
    l.tier = 0 → leaf.getLsbD 2 = true → s.lostIn l.addr 8 = false →
    let e := s.peek64 l.addr
    let svec := e &&& ~~~3#64
    let sup : Option (DWord × Bool) := if svec = 0 then none else some (svec, true)
    let user := if r.trapvec c = 0 then sup else some (r.entry + (r.trapvec c).signExtend 64, false)
    (2 ^ 49 ≤ e.toNat → s.resolve sh c = none) ∧
    (e.toNat < 2 ^ 49 → s.resolve sh c =
      if e.toNat % 4 = 3 then none else if e.toNat % 4 = 2 then sup else if e.toNat % 4 = 1 then user
      else match c.route with | .kill => none | .supervisor => sup | .user => user))

/-- R323: TRET: the PC, EM and TLVL of the level returned to; the substituting form writes DEST first, the region form
drops the faults held for the region; the page-fault entry that the level leads is dropped.  The return is a swap point.
R77, R86: a substitution into what is no destination is ILLOP; into a register the workgroup has not is WINDOW.
R323: where the forms return to: the trapping instruction, the one after it, the region's first.
R323: the substituting form writes o0 of the handler's level, for the threads of TM, into the 32-bit vector register
DEST names; every other vector register is as before. -/
def Obligations.TrapReturns : Prop :=
  (∀ f s k sh, Executes rowTret f s k sh →
    let form := (f.imm &&& 3#16).toNat
    sh.tretOk form = true → (form = 2 → sh.substBad = false ∧ ∀ n ∈ sh.substSlots, n < s.nreg sh.home) →
    onCode (sh.tretTarget form) →
    let back := (if form = 2 then (sh.issuing f).substitute else sh.issuing f).returned (sh.tretTarget form)
    let back := if form = 3 then { back with held := sh.held.filter fun h => h.rgncnt < sh.rgncnt } else back
    let u := s.after k sh back
    ∃ t, exec (.tret f) s = .next t ∧ Swapped (u.dropLeadAt k sh.lead sh.tlvl) t k) ∧
  (∀ f s k sh, Executes rowTret f s k sh → f.imm &&& 3#16 = 2#16 → sh.tretOk 2 = true →
    let stops (t : Trap) : Prop := exec (.tret f) s = .next ((issOf rowTret f k sh).trap (s.issued k sh f) t)
    (sh.substBad = true → stops
      { cause := .illop, mask := if f.u then sh.em else sh.maskFor f, ta := (baseWord rowTret.op f).zeroExtend 64 }) ∧
    ∀ n ∈ sh.substSlots, sh.substBad = false → s.nreg sh.home ≤ n → (∀ m ∈ sh.substSlots, s.nreg sh.home ≤ m → n ≤ m) →
      stops { cause := .window, mask := sh.em, ta := BitVec.ofNat 64 n }) ∧
  (∀ sh : Sheaf, sh.tretTarget 0 = sh.trapRegs.tr ∧
    sh.tretTarget 1 = sh.trapRegs.tr + (sh.trapRegs.tc.extractLsb' 10 2).setWidth 64 * 4 ∧
    sh.tretTarget 2 = sh.tretTarget 1 ∧ sh.tretTarget 3 = sh.rgnpc ∧
    ∀ form, sh.tretOk form = true → 1 ≤ sh.tlvl ∧ (sh.trapRegs.tc.getLsbD 23 = true → form = 3)) ∧
  (∀ (sh : Sheaf) (i : Nat), sh.trapRegs.tc.getLsbD 9 = false → sh.trapRegs.tc.getLsbD 8 = false →
    dstOf false (sh.trapRegs.tc.extractLsb' 25 7) = .v i →
    ∀ slot, ∀ t < 16, sh.substitute.readV slot t =
      if slot = sh.vslot i ∧ sh.trapRegs.tm.getLsbD t = true then sh.readO 0 t else sh.readV slot t)

/-! ### Memory -/

/-- R87, R198 to R202, R207 to R209, R221, R316: a global access whose every thread's address is aligned, translated and
permitted starts: it joins the outstanding accesses with its operands, and its counter rises; what the walks leave in
page tables and TLBs, and fills that are asked for of what the L1 does not hold, are there.  With every page in a TLB no byte of memory changes.
R160, R304: the lines written find room in the FIFO, and no walk meets a stack in self-refresh. -/
def Obligations.GlobalAccessesStart : Prop :=
  ∀ c ∈ globalAccesses, ∀ f s k sh (hit : Nat → Hit), Executes c.row f s k sh →
    let v := s.issued k sh f
    let ts := acting f sh
    v.acquiring k = false → (sh.full c.kind) = false →
    (∀ t ∈ ts, v.checkAddr sh c.use (tyBytes f.ty) t (globalAddress sh f (c.off f) t) = .ok (hit t) ∧
      ((hit t).loc.tier = 3 → tier3Ok c.kind (atomOp f) f.ty = true)) →
    let accs := ts.map fun t =>
      { thread := t, va := (globalAddress sh f (c.off f) t).toNat, loc := (hit t).loc, lh := (hit t).hint
        x := c.x sh f t, e := c.e sh f t : Access }
    v.walksNow sh c.use (ts.map fun t => (globalAddress sh f (c.off f) t).toNat) → v.fifoTakes sh c.kind accs →
    let w := v.cacheHits sh c.use (ts.map hit)
    let o := opOf k sh f c.kind (c.aop f) (c.hint f) (c.ar f) (w.clkOf sh) accs
    let u := w.requestFills (accs.filter fun a => !w.copied o a)
    Starts (exec (c.instr f) s) u k sh o ∧
    ((∀ t ∈ ts, ∃ leaf pte block, (hit t).xl = .ok leaf pte block true) →
      (∀ a, u.peekByte a = s.peekByte a) ∧ u.sheafs = v.sheafs)

/-- R198, R308: the lowest thread whose address fails decides the cause and TA; TM holds every thread that fails with
that cause; nothing is accessed.  ACC holds the kind of the access for every cause, ALIGN among them, by log 33. -/
def Obligations.GlobalAccessesTrap : Prop :=
  ∀ c ∈ globalAccesses, ∀ f s k sh (err : Nat → Cause × Nat) (t0 : Nat), Executes c.row f s k sh →
    let v := s.issued k sh f
    let ts := acting f sh
    let addr := globalAddress sh f (c.off f)
    let fails (t : Nat) : Prop := t ∈ ts ∧ v.checkAddr sh c.use (tyBytes f.ty) t (addr t) = .error (err t)
    v.acquiring k = false → v.walksNow sh c.use (ts.map fun t => (addr t).toNat) →
    (∀ t ∈ ts, fails t ∨ ∃ h, v.checkAddr sh c.use (tyBytes f.ty) t (addr t) = .ok h ∧ h.loc.tier ≠ 3) →
    fails t0 → (∀ t < t0, ¬fails t) → err t0 ≠ (.ecc, 2) →
    ∃ m : Mask, (∀ t < 16, f.u = false → (m.getLsbD t = true ↔ fails t ∧ (err t).1 = (err t0).1)) ∧ (f.u = true → m = sh.em) ∧
      exec (c.instr f) s = .next ((issOf c.row f k sh).trap v
        { cause := (err t0).1, det := (err t0).2
          acc := match c.use with | .load => 1 | .atomic => 4 | _ => 2
          mask := m, ta := addr t0 })

/-- R205, R206, R210: a scratchpad access whose every thread's address is aligned and in range starts.
R205: a scratchpad address: aligned, in the sheaf's own scratchpad below SPSZ, or in the window of a workgroup of its
cluster. -/
def Obligations.ScratchAccesses : Prop :=
  (∀ c ∈ scratchAccesses, ∀ f s k sh (spot : Nat → Spot), Executes c.row f s k sh →
    let v := s.issued k sh f
    let ts := acting f sh
    v.acquiring k = false → sh.full c.kind = false →
    (∀ t ∈ ts, v.spCheck sh.home true (tyBytes f.ty) (scratchAddress sh f (c.off f) t) = .ok (spot t)) →
    Starts (exec (c.instr f) s) v k sh (opOf k sh f c.kind (c.aop f) 0 (c.ar f) (v.clkOf sh) (ts.map fun t =>
      { thread := t, va := (spot t).off, loc := (spot t).loc, lh := 0, x := c.x sh f t, e := c.e sh f t })) ∧
    ∀ a, v.peekByte a = s.peekByte a) ∧
  (∀ (s : State) (w width : Nat) (a : Word), 0 < width →
    (a.toNat % width ≠ 0 → s.spCheck (.wg w) true width a = .error (.align, 0)) ∧
    (a.toNat % width = 0 → a.getLsbD 31 = false →
      s.spCheck (.wg w) true width a =
        if a.toNat + width ≤ s.spsz (.wg w) then .ok { home := .wg w, off := a.toNat } else .error (.xlate, 2)) ∧
    (a.toNat % width = 0 → a.getLsbD 31 = true → ∀ p, s.peerWg w (a.extractLsb' 19 2).toNat = some p →
      a.extractLsb' 21 10 = 0#10 → (a.extractLsb' 0 19).toNat + width ≤ s.spsz (.wg p) →
      s.spCheck (.wg w) true width a = .ok { home := .wg p, off := (a.extractLsb' 0 19).toNat }))

/-- R203: PFM drops the addresses that fail a check; when all do, nothing else happens, but for the report of an
uncorrectable page-table read (R166); it never traps for an address and
never writes a register.
R204: CFLUSH and CINV translate every page of their range and start; an empty range does nothing. -/
def Obligations.PrefetchesAndRanges : Prop :=
  (∀ f s k sh, Executes rowPfm f s k sh →
    let v := s.issued k sh f
    let addr := globalAddress sh f (f.imm.signExtend 64)
    v.walksNow sh .load (((acting f sh).filter fun t => (addr t).toNat % 4 = 0).map fun t => (addr t).toNat) →
    ((∀ t ∈ acting f sh, ∃ c d, v.checkAddr sh .load 4 t (addr t) = .error (c, d) ∧ c ≠ .ecc) →
      Leaves (exec (.pfm f) s) s k sh (sh.past f)) ∧
    ∃ t, exec (.pfm f) s = .next t ∧ (t.sheaf? k).map Sheaf.regs = some (sh.past f).regs ∧
      (t.sheaf? k).map (fun x => x.pc) = some (sh.past f).pc) ∧
  (∀ c ∈ [(rowCflush, Instr.cflush, OpKind.cflush), (rowCinv, Instr.cinv, OpKind.cinv)], ∀ f s k sh (hit : Nat → Hit),
    Executes c.1 f s k sh →
    let v := s.issued k sh f
    let pages := pagesOf (sh.read64 f f.b 0).toNat (sh.read32 f f.c 0).toNat
    (pages = [] → Leaves (exec (c.2.1 f) s) s k sh (sh.past f)) ∧
    (pages ≠ [] → v.acquiring k = false → sh.full c.2.2 = false → v.walksNow sh .look (pages.map fun p => p.1) →
      (∀ p ∈ pages, v.checkAddr sh .look 1 0 (BitVec.ofNat 64 p.1) = .ok (hit p.1)) →
      let u := v.cacheHits sh .look (pages.map fun p => hit p.1)
      let accs := (pages.filter fun p => (hit p.1).loc.tier < 2).map fun p =>
        { thread := 0, va := p.2.1, loc := (hit p.1).loc, lh := 0, x := BitVec.ofNat 128 p.1, e := BitVec.ofNat 128 p.2.2 : Access }
      Starts (exec (c.2.1 f) s) u k sh { opOf k sh f c.2.2 0 0 false (u.clkOf sh) accs with ty := 7#5, ord := 0 }))

/-! ### Synchronisation -/

/-- R178, R211: FENCE: an acquire drops what the core does not own and goes on; a release takes its place in the FIFOs and
stalls the sheaf until it is complete.
R185: what an acquire does: a core keeps the words it owns alone; a sheaf's words fetched ahead go. -/
def Obligations.Fences : Prop :=
  (∀ f s k sh, Executes rowFence f s k sh →
    let v := s.issued k sh f
    let m := if sh.heath then (v, []) else v.mark sh.core
    (f.d = 2#7 → v.acquiring k = false → v.syncing k = false →
      exec (.fence f) s = .next ((v.acquire k).onSheaf k Sheaf.advance)) ∧
    (f.d ≠ 2#7 → exec (.fence f) s = .next ({ m.1 with fresh := s.fresh + 1 }.onSheaf k fun x =>
      { x with status := .stalled .release
               rel := some { seq := s.fresh, markers := m.2, after := .fence (decide (f.d = 1#7)) } }))) ∧
  (∀ (s : State) (k : Nat) (sh : Sheaf), s.sheaf? k = some sh → s.fused = [] →
    (s.acquire k).sheaf? k = some { sh with ahead := [] } ∧
    (∀ a, (s.acquire k).l2 = s.l2 ∧ (s.acquire k).mem = s.mem ∧ ∀ c, c ≠ sh.core → (s.acquire k).l1Word? c a = s.l1Word? c a) ∧
    (sh.heath = false → ∀ l ∈ ((s.acquire k).core sh.core).l1, ∀ w ∈ l.words, w.2.owned = true))

/-- R221, R222: CWAIT goes on when its counter is at or below the threshold, on an AC path as an acquire; else it waits at
a swap point.
R212, R213: MON arms the monitor on the physical line of its address; MWAIT ends at once, as an acquire, where no
monitor is armed or the armed one has fired, and else waits at a swap point. -/
def Obligations.Waits : Prop :=
  (∀ f s k sh, Executes rowCwait f s k sh →
    let v := s.issued k sh f
    let n := (sh.read32 f f.b 0).toNat
    let c := (f.imm.extractLsb' 0 3).toNat
    let count := [sh.ld.length, sh.st, sh.ac0, sh.ac1, sh.ac2, sh.mx, sh.en].getD c 0
    let path := [Path.ld, .st, .ac0, .ac1, .ac2, .mx, .en].getD c .en
    ((c < 2 ∨ 5 ≤ c) → count ≤ n → Leaves (exec (.cwait f) s) s k sh (sh.past f)) ∧
    (2 ≤ c → c < 5 → v.acquiring k = false → v.syncing k = false → count ≤ n →
      exec (.cwait f) s = .next ((v.acquire k).onSheaf k Sheaf.advance)) ∧
    (((c < 2 ∨ 5 ≤ c) ∨ (v.acquiring k = false ∧ v.syncing k = false)) → n < count →
      ∃ t, exec (.cwait f) s = .next t ∧ Swapped v t k ∧ (t.sheaf? k).bind Sheaf.waitsFor = some (.cwait path n))) ∧
  ((∀ f s k sh h, Executes rowMon f s k sh →
    (s.issued k sh f).walksNow sh .load [(globalAddress sh f (f.imm.signExtend 64) 0).toNat] →
    (s.issued k sh f).checkAddr sh .load 1 0 (globalAddress sh f (f.imm.signExtend 64) 0) = .ok h →
    exec (.mon f) s = .next (((s.issued k sh f).cacheHits sh .look [h]).onSheaf k fun x =>
      { x with mon := some { line := lineOf h.loc.addr, fired := decide (2 ≤ h.loc.tier) } }.advance)) ∧
  ∀ f s k sh, Executes rowMwait f s k sh →
    let v := s.issued k sh f
    v.acquiring k = false → v.syncing k = false →
    (sh.mon = none → exec (.mwait f) s = .next ((v.acquire k).onSheaf k Sheaf.advance)) ∧
    (∀ l, sh.mon = some { line := l, fired := true } →
      exec (.mwait f) s = .next ((v.acquire k).onSheaf k fun x => { x with mon := none }.advance)) ∧
    ∀ l, sh.mon = some { line := l, fired := false } → ∃ t, exec (.mwait f) s = .next t ∧ Swapped v t k ∧
      (t.sheaf? k).bind Sheaf.waitsFor = some .mwait)

/-- R215: an arrival, a drop, a credit: what each does to the hurdle's counts, the phase that completes when they are
spent, and the causes of a dead or an exhausted hurdle.
R214, R220: a hurdle written is read back; every byte of scratchpad outside its 16 reads as before. -/
def Obligations.HurdleCounts : Prop :=
  (∀ (s : State) (w a : Nat) (g : Wg) (n : Word), s.wg? w = some g → a % 16 = 0 →
    let h := s.hurdle (.wg w) a
    let dead := h.pend = 0 ∧ h.exp = 0 ∧ h.next = 0 ∧ h.bal = 0
    let after (x : Hurdle) : Hurdle :=
      if x.pend = 0 ∧ x.bal = 0 then { x with phase := !x.phase, exp := x.next, pend := x.next, bal := 0 } else x
    (dead → s.arrive (.wg w) a n = .error .hdead ∧ s.hdropAt (.wg w) a = .error .hdead ∧ s.credit (.wg w) a n.toNat = .error .hdead) ∧
    (¬dead → h.pend = 0 → s.arrive (.wg w) a n = .error .hover ∧ s.hdropAt (.wg w) a = .error .hover) ∧
    (¬dead → h.pend ≠ 0 → ∃ t, s.arrive (.wg w) a n = .ok t ∧
      t.hurdle (.wg w) a = after { h with pend := h.pend - 1, bal := h.bal + n }) ∧
    (¬dead → h.pend ≠ 0 → h.next = 0 → s.hdropAt (.wg w) a = .error .hover) ∧
    (¬dead → h.pend ≠ 0 → h.next ≠ 0 → ∃ t, s.hdropAt (.wg w) a = .ok t ∧
      t.hurdle (.wg w) a = after { h with pend := h.pend - 1, next := h.next - 1 }) ∧
    (¬dead → ∃ t, s.credit (.wg w) a n.toNat = .ok t ∧ t.hurdle (.wg w) a = after { h with bal := h.bal - n })) ∧
  (∀ (s : State) (w a : Nat) (g : Wg) (x : Hurdle), s.wg? w = some g → a % 16 = 0 →
    (s.putHurdle (.wg w) a x).hurdle (.wg w) a = x ∧
    ∀ b, (b < a ∨ a + 16 ≤ b) → (s.putHurdle (.wg w) a x).spRead (.wg w) b 1 = s.spRead (.wg w) b 1)

/-- R215 to R218: HINIT, an arrival without a release, HDROP and HTEST are done at once; HWAIT ends at once, as an acquire,
when the phase differs from its parity, and else waits at a swap point; an arrival with a release stalls until it is
complete.
R215, R216: what HINIT leaves at an aligned offset: PHASE 0, EXP, PEND and NEXT n, BAL 0, and every byte of scratchpad outside its
16 as before. -/
def Obligations.Hurdles : Prop :=
  (∀ (s : State) (h : Home) (a n : Nat), a % 16 = 0 → n ≤ 32767 →
    (match h with | .wg w => (s.wg? w).isSome | .block c => (s.blocks.get? c).isSome) = true →
    let t := s.hinitAt h a n
    t.hurdle h a = { phase := false, exp := BitVec.ofNat 15 n, pend := BitVec.ofNat 15 n, next := BitVec.ofNat 15 n, bal := 0 } ∧
    (∀ b, (b < a ∨ a + 16 ≤ b) → t.spRead h b 1 = s.spRead h b 1) ∧ (∀ h', h' ≠ h → ∀ b, t.spRead h' b 1 = s.spRead h' b 1) ∧
    t.mem = s.mem) ∧
  ∀ (f : Fields) (s : State) (k : Nat) (sh : Sheaf) (p : Spot), let v := s.issued k sh f
    let addr := sh.read32 f f.b 0 + f.imm.signExtend 32
    v.usingScratch k = false → v.acquiring k = false →
    (Executes rowHinit f s k sh → v.spCheck sh.home false 16 addr = .ok p →
      let n := (sh.read32 f f.c 0).toNat
      1 ≤ n → n ≤ 32767 → exec (.hinit f) s = .next ((v.hinitAt p.home p.off n).onSheaf k Sheaf.advance)) ∧
    (Executes rowHarv f s k sh → f.d = 1#7 → v.syncing k = false → v.spCheck sh.home true 16 addr = .ok p →
      ∀ t, v.arrive p.home p.off (sh.read32 f f.c 0) = .ok t → exec (.harv f) s = .next (t.onSheaf k Sheaf.advance)) ∧
    (Executes rowHarv f s k sh → f.d = 0#7 → v.spCheck sh.home true 16 addr = .ok p →
      exec (.harv f) s = .next ((v.startRelease k (.arrive p.home p.off (sh.read32 f f.c 0) (addr.setWidth 64))).onSheaf k
        fun x => { x with status := .stalled .release })) ∧
    (Executes rowHdrop f s k sh → v.syncing k = false → v.spCheck sh.home true 16 addr = .ok p →
      ∀ t, v.hdropAt p.home p.off = .ok t → exec (.hdrop f) s = .next (t.onSheaf k Sheaf.advance)) ∧
    (Executes rowHtest f s k sh → v.spCheck sh.home false 16 addr = .ok p →
      let x := v.hurdle p.home p.off
      exec (.htest f) s = .next ((v.putHurdle p.home p.off x).onSheaf k fun y =>
        (y.write true 1 f.a 0 (if x.phase then 1 else 0)).advance)) ∧
    (Executes rowHwait f s k sh → v.spCheck sh.home false 16 addr = .ok p → v.syncing k = false →
      let x := v.hurdle p.home p.off
      ∀ b : Bool, (sh.read32 f f.c 0).toNat = b.toNat →
      (x.phase ≠ b → exec (.hwait f) s = .next (((v.putHurdle p.home p.off x).acquire k).onSheaf k Sheaf.advance)) ∧
      (x.phase = b → ¬(x.pend = 0 ∧ x.exp = 0 ∧ x.next = 0 ∧ x.bal = 0) → ∃ t, exec (.hwait f) s = .next t ∧
        Swapped (v.putHurdle p.home p.off x) t k ∧ (t.sheaf? k).bind Sheaf.waitsFor = some (.hwait p.off b)))

/-! ### Engines -/

/-- R229, R230, R234, R238, R239, R273, R355: BCPY, GATH, SCAT, KVLD and XRED queue a request with the registers of their
block and EN rises; ACPY starts with every thread's copy checked, and its tag's counter rises. -/
def Obligations.Requests : Prop :=
  (∀ c ∈ engRequests, ∀ f s k sh, Executes c.row f s k sh → sh.en < 63 → (s.issued k sh f).acquiring k = false →
    exec (c.instr f) s = .next ({ s.issued k sh f with
      engs := s.engs ++ [(s.fresh, requestOf k sh f (c.kind f) ((s.issued k sh f).clkOf sh)
        ((List.range 8).map fun j => sh.readS (f.a.toNat + j)))]
      fresh := s.fresh + 1 }.onSheaf k fun x => (x.incr .en).advance)) ∧
  ∀ f s k sh (c : Nat → Copied) (xs : Nat → List (DWord × Xl)), Executes rowAcpy f s k sh →
    let v := s.issued k sh f
    let tag := (f.imm.extractLsb' 0 2).toNat
    let p : Path := if tag = 0 then .ac0 else if tag = 1 then .ac1 else .ac2
    let source (t : Nat) : DWord := sh.read64 f f.b t + if f.imm.getLsbD 4 then 0
      else if f.imm.getLsbD 5 then (sh.read32 f f.c t).signExtend 64 else (sh.read32 f f.c t).setWidth 64
    v.acquiring k = false → sh.counter p < 63 →
    v.walksNow sh .load ((acting f sh).flatMap fun t => copyPages (source t).toNat (min (sh.read32 f f.d t).toNat 32)) →
    (∀ t ∈ acting f sh, v.checkCopy sh (f.imm.extractLsb' 2 2).toNat (sh.read32 f f.a t) (source t)
      (min (sh.read32 f f.d t).toNat 32) = .ok (c t, xs t)) →
    let u := (acting f sh).foldl (fun s t =>
      (xs t).foldl (fun s x => s.cacheLeaf false sh.core sh.ctx x.1.toNat .load x.2) s) v
    let w := (acting f sh).foldl (fun s t =>
      if (c t).n = 0 then s else (s.requestAts (c t).first).requestAts (c t).last) u
    exec (.acpy f) s = .next ({ w with
      engs := w.engs ++ [(w.fresh, { requestOf k sh f (.acpy tag) (w.clkOf sh) [] with
        accepted := true, acpys := (acting f sh).map c })]
      fresh := w.fresh + 1 }.onSheaf k fun x => (x.incr p).advance)

/-- R229, R242: the first request of a core that waits is accepted: each register of its block reads as the engine has read
it, else as at issue or as it stands, EN falls, and what the engine checks decides whether it goes on, meets a fault, or,
with no rows to move, is over (log 45).
R243: the fault of an engine operation, or the failure of its access to another device, ends its workgroup: its sheafs'
registers and held faults go (log 37), its operations stop, and its grid has failed; a failed link's report carries the
address that waits (log 113).
R166, R239, R242: an operation that has still to read a scratchpad word that is uncorrectable meets the fault ECC, and the host is
told; that the report and the fault name the word's offset is log 39. -/
def Obligations.Acceptance : Prop :=
  (∀ (s : State) (core : Nat) (stale : Byte) (data : List Byte) (n : Nat) (g : Eng) (sh : Sheaf),
    s.nextRequest core = some (n, g) → s.requestReady n g = true → g.fault = none → s.engLate g 0 1 data = false → s.sheaf? g.sheaf = some sh →
    let blk := (List.range 8).map fun j => (g.got.get? j).getD
      (if stale.getLsbD j then g.blk.getD j 0 else sh.s.get (sKey g.lvl (g.reg + j)))
    let took := { g with accepted := true, blk := blk, waits := [], asked := [] }
    (∀ t h, s.accept took data = .ok t h → exec (.engineAccept core stale data) s =
      .next ((if h.empty then { t with engs := t.engs.del n } else t.onEng n fun _ => h).decr g.sheaf .en)) ∧
    ∀ t c a, s.accept took data = .fault t c a →
      exec (.engineAccept core stale data) s = .next
        ((t.onEng n fun _ => { took with fault := some (c, a) }).decr g.sheaf .en)) ∧
  (∀ (s : State) (op : Nat) (link ecc : Bool) (g : Eng) (c : Cause) (at_ : Nat), s.engs.get? op = some g →
    g.fault = some (c, at_) → exec (.engineFault op link ecc) s = .next (s.terminate g.wg c g.pc.toNat at_)) ∧
  (∀ (s : State) (op a : Nat) (rest : List Act) (g : Eng), s.agenda = .scratchLost op a :: rest → s.engs.get? op = some g →
    g.toRead a = true → ∃ t, step s = .next t ∧ (t.engs.get? op).map (fun x => x.fault) = some (some (.ecc, a)) ∧
      .uncorrectable a ∈ t.reports ∧ t.irq.getLsbD 4 = true) ∧
  (∀ (s : State) (op : Nat) (link ecc : Bool) (g : Eng) (w : Wg) (r : Grid), s.engs.get? op = some g →
    (g.fault.isSome ∨ (link = true ∧ (s.remoteVa g ecc).isSome)) →
    s.wg? g.wg = some w → w.terminated = false → w.freed = false → s.grid? w.grid = some r → r.ctx = w.ctx →
    ∃ t, exec (.engineFault op link ecc) s = .next t ∧ ((t.wg? g.wg).map fun x => x.terminated) = some true ∧
      ((t.grid? w.grid).map fun x => x.failed) = some true ∧ (∀ e ∈ t.engs, e.2.wg ≠ g.wg) ∧
      ∀ k sh, s.sheaf? k = some sh → sh.home = .wg g.wg → sh.status ≠ .exited →
        (t.sheaf? k).map (fun x => (x.v, x.o, x.s, x.held)) = some ([], [], [], []))

/-- R230, R234, R237 to R240, R261, R273: a piece an engine has moved is credited on its operation's hurdle, the rows of a
gather once each of their elements is copied; the operation is done with its last piece, that of a gather or a scatter
after its drop counter; of an ACPY nothing is credited, and its tag's counter falls once every byte is written.
R230, R234, R238, R261, R269, R273: what a piece moves: the bytes of its destination are those its operation defines, of the source
words the engine has read, and every other byte of scratchpad is as before; R241: bytes of it written ahead stay, and a word is read
once, as its home holds it then.  In a KVLD every row uses the descriptor and the translation of its first read (log 121).
R68, R355, R356: the results of a group, for the earliest of its reductions: with every member's contribution, their sums in
port order are written and credited, each as it is, and the flags are raised even where a write fails; members that
disagree meet ILLOP.  By log 112 a station keeps its port, and the other members theirs until one is bound anew. -/
def Obligations.Credits : Prop :=
  ((∀ (s : State) (op lo : Nat) (data : List Byte) (g : Eng) (t : State) (d : Eng × List Byte),
    s.engs.get? op = some g → s.requestReady op g = true → s.engLate g lo 1 data = false →
    s.mixes op g lo 1 = false → g.mayCredit lo 1 = true → s.movePiece g lo none data = .ok t d →
    let row := lo / g.desc.width
    let whole := row ∉ g.credited ∧ { g with pieces := g.pieces ++ [(lo, 1)] }.rowDone row = true
    let bytes : List Nat := match g.kind with
      | .bcpy _ _ => [(tmplOf g.words).e]
      | .gath true => [4 * g.desc.width]
      | .gath false => if whole then [g.desc.rbytes] else []
      | .scat => [g.desc.rbytes]
      | .kvld _ => [2 * g.base]
      | .lmsav _ | .lmrst _ => [256]
      | .acpy _ | .xred _ _ => []
    let h := { g with
      buf := d.1.buf, kvs := d.1.kvs.filter fun x => x.1 ≠ lo, early := g.early.filter fun x => x.1 ≠ lo
      waits := g.waits.filter fun x => !partOf lo 1 x.1, asked := g.asked.filter fun x => !partOf lo 1 x.1
      pieces := g.pieces ++ [(lo, 1)]
      credited := if g.kind = .gath false ∧ whole then g.credited ++ [row] else g.credited }
    let out := exec (.engineCredit op lo 1 data) s
    let pay (u : State) : Host.Outcome State Fault Refusal :=
      .next (bytes.foldl (fun u b => u.agentCredit g.wg g.hurdle b g.pc.toNat) u).stopCalls
    ((∀ tag, g.kind ≠ .acpy tag) → g.count + 1 < g.total → out = pay (t.onEng op fun _ => h)) ∧
    ((∀ tag, g.kind ≠ .acpy tag) → (∀ b, g.kind ≠ .gath b) → g.kind ≠ .scat → g.count + 1 = g.total →
      out = pay { t with engs := t.engs.del op }) ∧
    (((∃ b, g.kind = .gath b) ∨ g.kind = .scat) → g.count + 1 = g.total → ∀ u x, t.addDrops d.1 = .ok u x →
      out = pay { u with engs := u.engs.del op }) ∧
    ((∃ tag, g.kind = .acpy tag) → out = .next (t.onEng op fun _ => h))) ∧
  (∀ (s t : State) (g : Eng) (p : Nat) (x : Wg) (data : List Byte) (d : Eng × List Byte), s.wg? g.wg = some x →
    s.movePiece g p none data = .ok t d →
    let src (part va n : Nat) : List Byte :=
      bytesFrom ((wordsAt va n).map fun a => (d.1.buf.get? (part * 2 ^ 128 + a)).getD 0) va n
    let num (part va n : Nat) : Nat := leNat (src part va n)
    let puts (early : List (Nat × Nat)) (at_ : Nat) (bs : List Byte) : Prop :=
      ∀ b, s.linkByte (.wg g.wg) b = false → t.spRead (.wg g.wg) b 1 =
        if at_ ≤ b ∧ b < at_ + bs.length ∧ (p, b - at_) ∉ early then [bs.getD (b - at_) 0] else s.spRead (.wg g.wg) b 1
    let e := (tmplOf g.words).e
    let k := g.desc.size
    (∀ tag c, g.kind = .acpy tag → g.acpys[p / 32]? = some c →
      puts [] (c.dst + p % 32) [if c.n ≤ p % 32 then 0 else (src (p / 32) (c.va + p % 32) 1).getD 0 0]) ∧
    (∀ n, g.kind = .bcpy n false → puts g.early (g.element p).1 (match (g.element p).2 with
      | none => (List.range e).map fun j => (tmplOf g.words).fill.extractLsb' (8 * (j % 4)) 8
      | some va => src 0 va e)) ∧
    (g.kind = .gath false → (g.dropsRow (p / g.desc.width) = true → t = s) ∧
      (g.dropsRow (p / g.desc.width) = false →
        puts g.early (g.gathered p).1 (src (p / g.desc.width) (g.gathered p).2 k))) ∧
    (g.kind = .gath true → p = 0 → puts g.early (g.blkN 4) ((List.range g.desc.width).flatMap fun i => bytesLe 4
      (poolSum (fmtOf g.desc.fmt) (g.liveRows.map fun j => num j (g.rowAt j + i * k) k)))) ∧
    (∀ v, g.kind = .kvld v → g.blkN 2 ≤ p → puts g.early (g.blkN 3 + p * g.blkN 4) (List.replicate (2 * g.base) 0)) ∧
    (∀ v, g.kind = .kvld v → p < g.blkN 2 → ∃ r, d.1.kvs.get? p = some r ∧
      let c := r.desc
      let fmt := if (if v then r.hit.vf else r.hit.kf) = 0 then bf16 else e4m3
      let n := r.size v
      let raw (i : Nat) : Nat := match r.hit.blk with
        | none => leNat ((r.far.drop (4 + i * n)).take n)
        | some b => num p (r.base v (g.blkN 1 + p) b + i * n) n
      let key (freq : DWord) (i e0 e1 : Nat) : Nat := keyElement c r.hit.pos fmt (r.scale v) freq i e0 e1
      puts g.early (g.blkN 3 + p * g.blkN 4) ((List.range c.hdim).flatMap fun i => bytesLe 2
        (if v then valueElement fmt (r.scale v) (raw i)
        else if c.rotates i then key (BitVec.ofNat 64 (num (32 + p) (c.frq + 8 * c.pairOf i) 8)) i (raw (c.first (c.pairOf i)))
          (raw (c.second (c.pairOf i)))
        else key 0 i (raw i) 0))) ∧
    (∀ n, g.kind = .lmsav n → g.sp = true →
      puts g.early (g.base + p * g.pitch) ((((g.rows.get? p).getD []).flatMap bytesOf).take 256)) ∧
    (((∃ n, g.kind = .bcpy n true) ∨ g.kind = .scat ∨ ∃ n, g.kind = .lmsav n ∧ g.sp = false) →
      ∀ b, t.spRead (.wg g.wg) b 1 = s.spRead (.wg g.wg) b 1) ∧
    (∀ n, g.kind = .bcpy n true → (g.element p).2 = none → t = s) ∧
    ∀ n va pa, g.kind = .bcpy n true → (g.element p).2 = some va → g.early = [] → va % 4 = pa % 4 →
      lineOf pa = lineOf (pa + e - 1) → (va % 4 + e ≤ 4 ∨ s.l2? (lineOf pa) ≠ none) →
      (∀ j < e, ∃ lh, s.engXlate g.agent .store (va + j) = .ok s ({ tier := 0, peer := 0, addr := pa + j }, lh)) →
      let at_ := (g.element p).1
      let bs := bytesFrom ((wordsAt at_ e).map fun a => (g.buf.get? a).getD (s.spWord (.wg g.wg) a)) at_ e
      ∀ j < e, t.peekByte (pa + j) = bs.getD j 0) ∧
  (∀ (s t : State) (g h : Eng) (part va n : Nat) (data bs rest : List Byte),
    s.srcBytes g part va n data = .ok t (h, bs, rest) →
    (∀ key w, g.buf.get? key = some w → h.buf.get? key = some w) ∧
    (∀ a ∈ wordsAt va n, (h.buf.get? (part * 2 ^ 128 + a)).isSome) ∧
    bs = bytesFrom ((wordsAt va n).map fun a => (h.buf.get? (part * 2 ^ 128 + a)).getD 0) va n ∧
    ∀ a pa lh, wordsAt va n = [a] → g.buf.get? (part * 2 ^ 128 + a) = none →
      s.engXlate g.agent .load a = .ok s ({ tier := 0, peer := 0, addr := pa }, lh) →
      h.buf.get? (part * 2 ^ 128 + a) = some (s.peek pa)) ∧
  (∀ (t : Tmpl) (c : Nat → Int) (b0 b1 b2 b3 b4 i0 i1 i2 i3 i4 : Nat), t.box = [b0, b1, b2, b3, b4] → i0 < b0 → i1 < b1 →
    i2 < b2 → i3 < b3 → i4 < b4 → t.rank ≤ 5 →
    let row := i1 + b1 * (i2 + b2 * (i3 + b3 * i4))
    let x (d : Nat) : Int := c d + ([i0, i1, i2, i3, i4].getD d 0 : Nat)
    let span := 2 ^ (t.skw + 1)
    let chunk := t.e * i0 / 16
    t.element c (i0 + b0 * row) = (row * (b0 * t.e) +
        (if t.skw = 0 then t.e * i0 else (chunk - chunk % span + (chunk % span + row) % span) * 16 + t.e * i0 % 16),
      if ∀ d < t.rank, 0 ≤ x d ∧ x d < nth t.ext d then
        some (t.base + t.e * ((List.range t.rank).map fun d => (x d).toNat * nth t.pitch d).sum)
      else none)) ∧
  ∀ (s : State) (op tag : Nat) (g : Eng), s.engs.get? op = some g → g.kind = .acpy tag → g.fault = none →
    g.count = 32 * g.acpys.length →
    exec (.acpyComplete op) s = .next (({ s with engs := s.engs.del op }).decr g.sheaf
      (if tag = 0 then .ac0 else if tag = 1 then .ac1 else .ac2))) ∧
  (∀ (s : State) (op port : Nat) (others : List Contribution) (g : Eng) (ty : BitVec 5) (rf : Bool),
    s.engs.get? op = some g → g.kind = .xred ty rf → g.accepted = true → g.fault = none →
    others.length + 1 = s.xgrpNmem (g.blkN 6) →
    (∀ e ∈ s.engs, ∀ ty' rf', e.2.kind = .xred ty' rf' → e.2.accepted = true → e.2.fault = none →
      e.2.blkN 6 = g.blkN 6 → g.seq ≤ e.2.seq) →
    let stn := ((s.xgrp.get (g.blkN 6)).extractLsb' 40 8).toNat
    let ports := (others.foldl (fun l c => byPort c l) []).map fun c => c.port
    (port :: ports).Nodup → (∀ p, s.stnPort.get? stn = some p → p = port) →
    (∀ l, s.xports.get? (g.blkN 6) = some l → l = ports) →
    let v := { s with stnPort := s.stnPort.put stn port, xports := s.xports.put (g.blkN 6) ports }
    let all := (({ port := port, elems := g.words, agrees := true } : Contribution) :: others).foldl
      (fun l c => byPort c l) []
    let sums := (List.range g.words.length).map fun e => xredResult ty rf (all.map fun c => wd c.elems e)
    let size := if rf then 4 else tyBytes ty
    let bs := sums.flatMap fun r => bytesLe size r.1
    let flags := sums.foldl (fun (f : Flags) r => f.or r.2) {}
    (all.Pairwise fun a b => a.port ≤ b.port) ∧ all.length = others.length + 1 ∧
    ((∃ c ∈ others, c.agrees = false) → exec (.xredResult op port others) s =
      .next (v.onEng op fun _ => { g with fault := some (.illop, 0) })) ∧
    ((∀ c ∈ others, c.agrees = true) →
      (∀ t, v.engStore g.agent g.base bs = .ok t () → exec (.xredResult op port others) s =
        .next (({ t.axf g.ctx flags with engs := (t.axf g.ctx flags).engs.del op }).creditAll g.wg g.hurdle g.pc.toNat
          (sums.map fun _ => size)).stopCalls) ∧
      ∀ t c a, v.engStore g.agent g.base bs = .fault t c a → exec (.xredResult op port others) s =
        .next ((t.axf g.ctx flags).onEng op fun _ => { g with fault := some (c, a) })))

/-- R190, R239, R297: a memory-side reduction: the home's owners are recalled, HBM holds the new value R207 gives of the old
one, and every other byte stays; a reduction is credited on the hurdle of each open window that holds its line; so for a SCAT's element, a RED to
a window, and a packet of a peer, which is served in arrival order (log 57), its flags in the AXF of the context it names
on this device (log 97).
R166: one that meets an uncorrectable sector is not applied: it is reported and logged, and raises no flag; so too of a
RED in its core's L1 (log 39).  The flags of an applied one are put into the AXF of its context.
R207: the new value that each operation gives.  R69: of a floating-point add, its rounding and its flags. -/
def Obligations.Reductions : Prop :=
  ((∀ (s : State) (ctx pa aop : Nat) (ty : BitVec 5) (x : Nat),
    let u := s.evictLine (lineOf pa)
    let t := s.reduceAt ctx pa aop ty x
    (u.bad pa = false →
      t.hbmRead pa (tyBytes ty) = bytesLe (tyBytes ty) (atomNew aop ty (leNat (u.hbmRead pa (tyBytes ty))) x 0).1 ∧
      (pa % tyBytes ty = 0 → ∀ b, (b < pa ∨ pa + tyBytes ty ≤ b) → Store.get t.mem b = Store.get u.mem b)) ∧
    (u.bad pa = true → t = (u.fire false (lineOf pa)).uncorrectable (some ctx) { kind := 4, addr := pa } pa ∧
      (t.ctx? ctx).map (fun c => c.axf) = (s.ctx? ctx).map fun c => c.axf) ∧
    (∀ c, s.ctx? ctx = some c → u.bad pa = false →
      let fl := (atomNew aop ty (leNat (u.hbmRead pa (tyBytes ty))) x 0).2
      (t.ctx? ctx).map (fun c => c.axf) = some (c.axf ||| (if fl.inv then 1 else 0) ||| if fl.ovf then 4 else 0)) ∧
    s.reduceHome ctx pa aop ty x = (s.windowsOf pa).foldl (fun t h => t.creditWindow h (tyBytes ty)) t ∧
    (∀ h, h ∈ s.windowsOf pa ↔ ∃ b, (h, b) ∈ s.blocks ∧ lineOf pa ∈ b.window) ∧
    (∀ (u v : State) (h : Nat) (b : Block), u.blocks.get? h = some b →
      u.credit (.block h) (b.winh.toNat % 2 ^ 18) (tyBytes ty) = .ok v → u.creditWindow h (tyBytes ty) = v ∧ v.mem = u.mem)) ∧
  (∀ (s : State) (n : Nat) (o : Op) (a : Access), o.heath = false → s.lostIn a.loc.addr o.bytes = true →
    let t := s.redAccess n o a
    t.mem = s.mem ∧ t.l2 = s.l2 ∧ t.cores = s.cores ∧ t.ctxs = s.ctxs ∧
      t.eccLog = s.eccLog ++ [(o.ctx, a.loc.addr)])) ∧
  (∀ (s u : State) (op row e lh : Nat) (g : Eng) (l : Loc), s.engs.get? op = some g → g.mayApply row e = true →
    let va := g.rowAt row + e * g.desc.size
    s.engXlate g.agent .store va = .ok u (l, lh) →
    (l.tier = 3 → exec (.memsideReduction (.scat op row e)) s =
      .next (u.onEng op fun _ => { g with fault := some (.prot, va) })) ∧
    (l.tier ≠ 3 → u.engHold l va true = .ok u () →
      let p := u.srcScratch g (g.blkN 4 + row * g.desc.rbytes + e * g.desc.size) g.desc.size
      let w := if l.tier = 2 then u.farWritten l else u.reduceHome g.ctx l.addr 0 g.desc.fmt (leNat p.2)
      let me := wordPart row e
      exec (.memsideReduction (.scat op row e)) s = .next (w.onEng op fun _ =>
        { g with buf := p.1.buf, applied := (row * g.desc.width + e) :: g.applied
                 waits := g.waits.filter fun x => x.1 ≠ me, asked := g.asked.filter fun x => x.1 ≠ me }))) ∧
  (∀ (s : State) (n th : Nat) (o : Op) (a : Access), s.ops.get? n = some o → o.kind = .red → o.heath = false →
    o.accs = [a] → a.thread = th → a.done = false → a.loc.tier = 0 → s.heldAt true a.loc.addr = false →
    (a.fwd = true ∨ (s.frozen a.loc = false ∧ s.mayPerform n o = true ∧ s.windowsOf a.loc.addr ≠ [])) →
    ∃ t, exec (.memsideReduction (.red n th)) s = .next t ∧
      t.mem = (s.reduceHome o.ctx a.loc.addr o.aop o.ty a.x.toNat).mem ∧ t.ops.get? n = none) ∧
  (∀ (s : State) (n op ty : Nat) (r : RemoteRequest) (x : DWord), s.packets.get? n = some r → r.kind = .reduce op ty x →
    s.frozen { tier := 0, peer := 0, addr := r.addr } = false → s.heldAt true r.addr = false →
    (∀ e ∈ s.packets, e.1 < n → stackOf e.2.addr ≠ stackOf r.addr) →
    exec (.memsideReduction (.packet n)) s = .next
      (({ s with packets := s.packets.del n }.reduceHome r.ctx r.addr op (BitVec.ofNat 5 ty) x.toNat).report (.ack true []))) ∧
  ((∀ (ty : BitVec 5) (old x e : Nat), let w := tyBits ty
    old < 2 ^ w → x < 2 ^ w → let num (v : Nat) : Int := asNum ty (BitVec.ofNat 128 v)
    let new (op : Nat) : Nat := (atomNew op ty old x e).1
    (ty ≠ 8#5 → ty ≠ 0xA#5 → new 0 = (old + x) % 2 ^ w ∧ (atomNew 0 ty old x e).2 = {}) ∧
    (new 1 < 2 ^ w ∧ num (new 1) = min (num old) (num x)) ∧ (new 2 < 2 ^ w ∧ num (new 2) = max (num old) (num x)) ∧
    (∀ i, (new 3).testBit i = (old.testBit i && x.testBit i) ∧ (new 4).testBit i = (old.testBit i || x.testBit i) ∧
      (new 5).testBit i = (old.testBit i ^^ x.testBit i)) ∧
    new 6 = x ∧ new 7 = (if old = e then x else old) ∧ new 8 = (if old ≥ x then 0 else old + 1) ∧
    new 9 = if old = 0 ∨ old > x then x else old - 1) ∧
  ∀ (bf : Bool) (old x e : Nat), let f := if bf then bf16 else f32
    let ty : BitVec 5 := if bf then 0xA#5 else 8#5
    old < 2 ^ f.width → x < 2 ^ f.width →
    let nan := f.isNan old ∨ f.isNan x ∨ (f.isInf old ∧ f.isInf x ∧ f.sign old ≠ f.sign x)
    let sum := f32.pack .rne false false (Fl.add .rne (f.value false old) (f.value false x)).1
    let low := bf16.pack .rne false false (f32.value false sum.1)
    (nan → atomNew 0 ty old x e = (f.nan, { inv := true })) ∧
    (¬nan → atomNew 0 ty old x e =
      if bf then (low.1, { ovf := sum.2.ovf || low.2.ovf }) else (sum.1, { ovf := sum.2.ovf })))

/-! ### The lattice -/

/-- R247, R248, R249: MXACQ queues a workgroup once; MXREL frees the lattice or leaves the queue; LATTICE_GRANT makes the
workgroup chosen when the lattice became free its owner: of those queued then, that of the highest priority, the earliest
among equals; and no word of another context is left. -/
def Obligations.LatticeOwners : Prop :=
  (∀ f s k sh w, Executes rowMxacq f s k sh → sh.home = .wg w → s.latticeKernel sh.home = true →
    let v := s.issued k sh f
    let l := (s.core sh.core).lattice
    (l.owner ≠ some w → w ∉ l.queue → exec (.mxacq f) s =
      .next (((v.onLattice sh.core fun l => { l with queue := l.queue ++ [w] }).chooseOwner sh.core).onSheaf k Sheaf.advance)) ∧
    ((l.owner = some w ∨ w ∈ l.queue) → Leaves (exec (.mxacq f) s) s k sh (sh.past f))) ∧
  (∀ f s k sh w g, Executes rowMxrel f s k sh → sh.home = .wg w → s.wg? w = some g → g.lat = true →
    ∃ t, exec (.mxrel f) s = .next t ∧ t.sheaf? k = some (sh.past f) ∧
      (t.core g.core).lattice.owner ≠ some w ∧ w ∉ (t.core g.core).lattice.queue ∧
      ((s.core g.core).lattice.owner = some w →
        (t.core g.core).lattice.owner = none ∧ (t.core g.core).lattice.lastCtx = some g.ctx) ∧
      ((s.core g.core).lattice.owner ≠ some w → (t.core g.core).lattice.owner = (s.core g.core).lattice.owner) ∧
      ((s.core g.core).lattice.owner = some w → (s.core g.core).lattice.ops = [] → (s.core g.core).lattice.next = none →
        w ∉ (s.core g.core).lattice.queue → (t.core g.core).lattice.next = s.nextOwner g.core) ∧
      (t.core g.core).lattice.lam = (s.core g.core).lattice.lam) ∧
  (∀ (s : State) (core : Nat), let l := (s.core core).lattice
    let u := ((s.chooseOwner core).core core).lattice
    u = { l with next := u.next } ∧
    u.next = if l.owner = none ∧ l.ops = [] ∧ l.next = none then s.nextOwner core else l.next) ∧
  (∀ (s : State) (core w : Nat), s.nextOwner core = some w →
    let prio (x : Nat) : Nat := ((s.wg? x).map fun g => s.ctxPrio g.ctx core).getD 0
    ∃ a b, (s.core core).lattice.queue = a ++ w :: b ∧ (∀ x ∈ a, prio x < prio w) ∧ ∀ x ∈ b, prio x ≤ prio w) ∧
  ∀ (s : State) (core w : Nat) (carry : Carry) (g : Wg), (s.core core).lattice.owner = none →
    (s.core core).lattice.ops = [] → (s.core core).lattice.next = some w → s.wg? w = some g →
    ∃ t, exec (.latticeGrant core carry) s = .next t ∧ (t.core core).lattice.owner = some w ∧
      w ∉ (t.core core).lattice.queue ∧ (t.core core).lattice.next = none ∧
      (let l := (s.core core).lattice
      let u := (t.core core).lattice
      let left : Tiles := if l.lastCtx = some g.ctx then { lam := l.lam, rowM := l.rowM, rowL := l.rowL, rowA := l.rowA }
        else (l.left.get? g.ctx).getD {}
      (carry = .keepAll → u.lam = left.lam ∧ u.rowM = left.rowM ∧ u.rowL = left.rowL ∧ u.rowA = left.rowA) ∧
      ∀ x, (u.lam.get x = left.lam.get x ∨ u.lam.get x = 0) ∧ (u.rowM.get x = left.rowM.get x ∨ u.rowM.get x = 0) ∧
        (u.rowL.get x = left.rowL.get x ∨ u.rowL.get x = 0) ∧ (u.rowA.get x = left.rowA.get x ∨ u.rowA.get x = 0))

/-- R250, R259 to R261, R277 to R279: an instruction of a workgroup that owns its lattice is accepted at issue, in tile
order; LMST counts on LD, and LMSAV and LMRST leave an engine operation too.
R246, R250: with no `.lattice` kernel or no ownership a tile instruction traps with ILLOP and is not accepted. -/
def Obligations.TileInstructions : Prop :=
  ((∀ c ∈ tileInstrs, ∀ f s k sh, Executes c.row f s k sh → s.ownsLattice sh → c.holds (s.issued k sh f) k sh f →
    exec (c.instr f) s = .next (({ s.issued k sh f with fresh := s.fresh + 1 }.onLattice sh.core fun l =>
      { l with ops := l.ops ++ [tiledOf s.fresh (c.tile f) k sh (c.op (s.issued k sh f) sh f)] }).onSheaf k
        Sheaf.advance)) ∧
  (∀ f s k sh, Executes rowLmst f s k sh → s.ownsLattice sh → sh.full .lmst = false →
    let v := s.issued k sh f
    let o := { opOf k sh f .lmst 0 0 false (v.clkOf sh) ((active (sh.maskFor f)).map fun t =>
      { thread := t, va := 0, loc := { tier := 0, peer := 0, addr := 0 }, lh := 0, x := 0, e := 0 }) with
      ord := 0, dest := .v (sh.vslot f.a.toNat), words := 16 }
    exec (.lmst f) s = .next (((({ v with ops := s.ops ++ [(s.fresh, o)], fresh := s.fresh + 1 } : State).onSheaf k
      fun x => x.countLd s.fresh).onLattice sh.core fun l => { l with ops := l.ops ++
        [tiledOf s.fresh (tile f) k sh (.lmst s.fresh (tileRows sh (sh.maskFor f)) (f.imm.extractLsb' 4 2).toNat)] }).onSheaf k
          Sheaf.advance)) ∧
  ∀ c ∈ [(rowLmsav, Instr.lmsav, (Machine.Use.store, accStore), EngKind.lmsav, TileOp.lmsav),
         (rowLmrst, Instr.lmrst, (Machine.Use.load, accLoad), EngKind.lmrst, TileOp.lmrst)],
    ∀ f s k sh, Executes c.1 f s k sh → s.ownsLattice sh →
    let v := s.issued k sh f
    (issOf c.1 f k sh).tileCheck v c.2.2.1.1 c.2.2.1.2 = none → v.acquiring k = false →
    (f.imm.getLsbD 4 = false → v.walksNow sh c.2.2.1.1 (issOf c.1 f k sh).tilePages) →
    let sp := f.imm.getLsbD 4
    let g := { requestOf k sh f (c.2.2.2.1 (tile f)) (v.clkOf sh) [] with
      accepted := true, sp := sp, hurdle := (sh.read32 f f.d 0).toNat
      base := if sp then (sh.read32 f f.b 0).toNat else (sh.read64 f f.b 0).toNat
      pitch := if sh.read32 f f.c 0 = 0 then 256 else (sh.read32 f f.c 0).toNat }
    exec (c.2.1 f) s = .next ((({ v with engs := s.engs ++ [(s.fresh, g)], fresh := s.fresh + 1 } : State).onLattice sh.core
      fun l => { l with ops := l.ops ++ [tiledOf s.fresh (tile f) k sh (c.2.2.2.2 s.fresh)] }).onSheaf k Sheaf.advance)) ∧
  (∀ c ∈ tileInstrs, ∀ f s k sh, Executes c.row f s k sh →
    (s.latticeKernel sh.home = false ∨ s.owning sh.core sh.home.wgId = .none) →
    exec (c.instr f) s = .next ((issOf c.row f k sh).trap (s.issued k sh f)
      { cause := .illop, mask := if f.u then sh.em else sh.maskFor f, ta := (baseWord c.row.op f).zeroExtend 64 }))

/-- R250, R259, R260, R277, R279: an operation first on its tiles is performed: zeros, words and factors put into its rows
and no others; LMST's words taken; the row state set; a whole-tile save has its rows, a restore puts them and no others.
R66, R278: SMXU row by row: the row's new state goes to each destination's row state, its probabilities to scratchpad, 128
bytes a row, those not written ahead (R241), and then its hurdle has an arrival; shown where no other operation writes that
scratchpad. -/
def Obligations.TileResults : Prop :=
  ∀ (s : State) (core op : Nat) (t : Tiled),
    (startable [] (s.core core).lattice.ops).find? (fun t => t.id = op) = some t →
    let l := (s.core core).lattice
    let rest := l.ops.filter fun x => x.id ≠ t.id
    let out := exec (.tileOperationPerformed core op) s
    let done (u : State) (m : Store 32) : Lattice := { l with lam := m, ops := rest, next := (u.core core).lattice.next }
    let lam (g : Nat → Word) : Prop := ∃ m : Store 32, (∀ x, m.get x = g x) ∧
      out = .next ((s.onLattice core fun l => { l with lam := m, ops := rest }).chooseOwner core)
    (∀ rows, t.op = .lmz rows → (∀ r ∈ rows, r < 64) →
      lam fun x => if x / 4096 = t.tile ∧ x % 4096 / 64 ∈ rows then 0 else l.lam.get x) ∧
    (∀ rows cg vals, t.op = .lmld rows cg vals → cg < 4 → (∀ r ∈ rows, r < 64) →
      lam fun x => if x / 4096 = t.tile ∧ x % 4096 / 64 ∈ rows ∧ x % 64 / 16 = cg then
        vals.get (16 * (x % 4096 / 64) + x % 16) else l.lam.get x) ∧
    (∀ rows alpha fs, t.op = .lmscl rows alpha fs → rows.Nodup → (∀ r ∈ rows, r < 64) →
      lam fun x => if x / 4096 = t.tile ∧ x % 4096 / 64 ∈ rows then
        (scaleRow (if alpha then l.rowA.get (t.tile * 64 + x % 4096 / 64) else fs.get (x % 4096 / 64))
          (l.rowWords t.tile (x % 4096 / 64))).getD (x % 64) 0 else l.lam.get x) ∧
    (∀ rows, t.op = .smxn rows → rows.Nodup → (∀ r ∈ rows, r < 64) →
      lam fun x => if x / 4096 = t.tile ∧ x % 4096 / 64 ∈ rows then
        (divideRow (l.rowL.get (t.tile * 64 + x % 4096 / 64)) (l.rowWords t.tile (x % 4096 / 64))).getD (x % 64) 0
        else l.lam.get x) ∧
    (∀ rows sink, t.op = .smxi rows sink → (∀ r ∈ rows, r < 64) → ∃ u, out = .next u ∧ (u.core core).lattice.lam = l.lam ∧
      ∀ r ∈ rows, (u.core core).lattice.rowM.get (t.tile * 64 + r) = (sink.map fun ws => ws.get r).getD 0xFF800000#32 ∧
        (u.core core).lattice.rowL.get (t.tile * 64 + r) = (if sink.isSome then 0x3F800000#32 else 0) ∧
        (u.core core).lattice.rowA.get (t.tile * 64 + r) = 0x3F800000#32) ∧
    (∀ n rows cg o p, t.op = .lmst n rows cg → s.ops.get? n = some o → (∀ r ∈ rows, r < 64 ∧ r / 16 = p) → ∃ u res,
      out = .next u ∧ (u.core core).lattice = done u l.lam ∧ u.ops.get? n = some { o with res := res } ∧
      ∀ r ∈ rows, ∀ q < 16, res.getD (r % 16 * 16 + q) 0 = l.lam.get (t.tile * 4096 + r * 64 + 16 * cg + q)) ∧
    (∀ e g, t.op = .lmsav e → s.engs.get? e = some g → ∃ u, out = .next u ∧ (u.core core).lattice = done u l.lam ∧
      u.engs.get? e = some { g with rows := (List.range 64).map fun r => (r, l.rowWords t.tile r), tiled := true }) ∧
    (∀ e g, t.op = .lmrst e → s.engs.get? e = some g → 64 ≤ g.rows.length → (g.rows.map fun r => r.1).Nodup →
      (∀ r ∈ g.rows, r.1 < 64 ∧ r.2.length = 64) → ∃ u m, out = .next u ∧
      (u.core core).lattice = done u m ∧ u.engs.get? e = some { g with tiled := true } ∧
      ∀ x, m.get x = if x / 4096 = t.tile then
        ((g.rows.get? (x % 4096 / 64)).map fun ws => ws.getD (x % 64) 0).getD (l.lam.get x) else l.lam.get x) ∧
    (s.writers t.wg t.id = [] →
      let ends (l : Lattice) (bs : List (Nat × Byte)) (h : Nat) : Prop :=
        let u := bs.foldl (fun (u : State) b => u.spWrite (.wg t.wg) b.1 [b.2]) (s.onLattice core fun _ => l)
        out = .next ((((u.onLattice core fun l => { l with ops := l.ops.filter fun x => x.id ≠ t.id }).chooseOwner
          core).agentArrive t.wg h 0 t.pc.toNat).stopCalls)
      (∀ rows dst no p bs h, t.op = .smxp rows dst no p bs h → ends l bs h) ∧
      ∀ rows dst no mode qp kp qstep scale p h masks, t.op = .smxu rows dst no mode qp kp qstep scale p h masks →
        let x := rows.foldl (fun (x : Lattice × List (Nat × Byte)) r =>
          let y := x.1.softStep t.tile dst no mode qp kp qstep scale masks r
          (y.1, x.2 ++ y.2.zipIdx.map fun b => (p + 128 * (r % 16) + b.2, b.1))) (l, [])
        ends x.1 x.2 h) ∧
    ∀ ts dst no mode qp kp qstep scale masks r, r < 64 →
      let x := softRow scale.toNat (l.rowM.get (dst * 64 + r)).toNat (l.rowL.get (dst * 64 + r)).toNat
        (smxuMasked mode qp kp qstep masks (r % 16)) (l.rowWords ts r)
      let u := l.softStep ts dst no mode qp kp qstep scale masks r
      let named (key : Nat) : Prop := dst ≤ key / 64 ∧ key / 64 ≤ dst + no ∧ key % 64 = r
      u.2 = x.p.flatMap (bytesLe 2) ∧ u.1.lam = l.lam ∧ ∀ key,
        (named key → u.1.rowM.get key = BitVec.ofNat 32 x.m ∧ u.1.rowL.get key = BitVec.ofNat 32 x.l ∧
          u.1.rowA.get key = BitVec.ofNat 32 x.a) ∧
        (¬named key → u.1.rowM.get key = l.rowM.get key ∧ u.1.rowL.get key = l.rowL.get key ∧
          u.1.rowA.get key = l.rowA.get key)

/-- R251, R253: LMMA: the first members of a quad's join wait at a swap point, MX one higher; the fourth completes it, and
of a workgroup that owns its lattice the product is accepted.  In a kernel without a lattice, of a quad that is not whole or
has an exited member, of a workgroup that has not asked for the lattice, and with a shape other than the open join's, it traps
with ILLOP and does not join.
R254, R257: the lattice reads a member's fragments, each register as at issue or as it stands, and MX falls; a product
whose fragments are all read is performed: the rows of its members' threads take their new values, and no others.
R65, R256: of a complex product, words 2n and 2n + 1 of a row take the parts of its 8-term sum for column n. -/
def Obligations.Joins : Prop :=
  (∀ f s k sh w g, Executes rowLmma f s k sh → sh.home = .wg w → s.wg? w = some g → g.lat = true → sh.mx < 63 →
    let v := s.issued k sh f
    4 ≤ (v.quadSheafs sh).length → (∀ x ∈ v.quadSheafs sh, x.status ≠ .exited) → v.owning sh.core w ≠ .none →
    let i := issOf rowLmma f k sh
    let counted := v.onSheaf k fun x => x.incr .mx
    let open_ := g.joins.find? fun j => j.quad = sh.shid / 4 && j.members.length < 4
    (open_ = none → ∃ t, exec (.lmma f) s = .next t ∧
      Swapped (counted.onWg w fun g => { g with joins := g.joins ++
        [{ quad := sh.shid / 4, tile := tile f, ty := f.ty, cplx := mmCplx f, bf := mmBf f, members := [i.member] }] }) t k ∧
      (t.sheaf? k).bind Sheaf.waitsFor = some .join) ∧
    ∀ j, open_ = some j → j.tile = tile f → j.ty = f.ty → j.cplx = mmCplx f → j.bf = mmBf f →
      let joined := counted.onWg w fun g => { g with joins := g.joins.map fun j =>
        if j.quad = sh.shid / 4 ∧ j.members.length < 4 then { j with members := j.members ++ [i.member] } else j }
      ((j.members.length < 3 ∨ v.owning sh.core w ≠ .owner) → ∃ t, exec (.lmma f) s = .next t ∧ Swapped joined t k ∧
        (t.sheaf? k).bind Sheaf.waitsFor = some .join) ∧
      (j.members.length = 3 → v.owning sh.core w = .owner →
        exec (.lmma f) s = .next ((joined.acceptJoins sh.core w).onSheaf k Sheaf.advance))) ∧
  (∀ f s k sh w g, Executes rowLmma f s k sh → sh.home = .wg w → s.wg? w = some g →
    let v := s.issued k sh f
    (g.lat = false ∨ (v.quadSheafs sh).length < 4 ∨ (∃ x ∈ v.quadSheafs sh, x.status = .exited) ∨
      v.owning sh.core w = .none ∨ ∃ j, g.joins.find? (fun j => j.quad = sh.shid / 4 && j.members.length < 4) = some j ∧
        ¬(j.tile = tile f ∧ j.ty = f.ty ∧ j.cplx = mmCplx f ∧ j.bf = mmBf f)) →
    exec (.lmma f) s = .next ((issOf rowLmma f k sh).trap v
      { cause := .illop, mask := if f.u then sh.em else sh.maskFor f, ta := (baseWord rowLmma.op f).zeroExtend 64 })) ∧
  (∀ (s : State) (core : Nat) (t : Tiled) (j : Join), s.nextProduct core = some (t, j) →
    (∀ n stale m sh, j.members[n]? = some m → m.got = none → s.sheaf? m.sheaf = some sh →
      ∃ a b, exec (.lmmaFragmentRead core n stale) s = .next ((s.setTiled core t.id (.product { j with
          members := j.members.map fun x => if x.sheaf = m.sheaf then { m with got := some (a, b) } else x })).decr m.sheaf .mx) ∧
        (∀ i < (if j.cplx then 8 else 16), ∀ x < 16, a.get (16 * i + x) =
          if (i, x) ∈ stale then m.issueA.get (16 * i + x) else sh.readV (m.aReg + i) x) ∧
        ∀ i < (if j.cplx then 4 else 16), ∀ x < 16, b.get (16 * i + x) =
          if (16 + i, x) ∈ stale then m.issueB.get (16 * i + x) else sh.readV (m.bReg + i) x) ∧
    ((∀ m ∈ j.members, m.got.isSome = true) → (∀ m ∈ j.members, m.part < 4) →
      (j.members.Pairwise fun a b => a.part ≠ b.part) → ∃ u, exec (.latticeProduct core) s = .next u ∧
      (u.core core).lattice.ops = ((s.core core).lattice.ops.filter fun x => x.id ≠ t.id) ∧
      (∀ x, (∀ m ∈ j.members, m.nor = false → ∀ i ∈ active m.mask, ¬inRows j.tile [16 * m.part + i] x) →
        (u.core core).lattice.lam.get x = (s.core core).lattice.lam.get x) ∧
      ∀ m ∈ j.members, m.nor = false → ∀ i ∈ active m.mask,
        let old := (s.core core).lattice.rowWords j.tile (16 * m.part + i)
        let new := (u.core core).lattice.rowWords j.tile (16 * m.part + i)
        (j.cplx = false → new = j.row j.columns m i old) ∧
        (j.cplx = true → ∀ n < 32,
          let b (k : Nat) : Fl × Fl := let c := n + 32 * (k / 4)
            complexOf (((j.member (c / 16)).map fun x => x.fragB.get (k % 4 * 16 + c % 16)).getD 0)
          let terms := (List.range 8).map fun k => (complexOf (m.fragA.get (k * 16 + i)), b k)
          let zero : Fl := .fin false 0 0 false
          new.getD (2 * n) 0 = accumulate (old.getD (2 * n) 0) (terms.foldl
            (fun a p => (a.plus (p.1.1.times p.2.1)).plus (p.1.2.times p.2.2).neg) zero) ∧
          new.getD (2 * n + 1) 0 = accumulate (old.getD (2 * n + 1) 0) (terms.foldl
            (fun a p => (a.plus (p.1.1.times p.2.2)).plus (p.1.2.times p.2.1)) zero))))

/-! ### Near calls, the fallow tier, handles, code -/

/-- R290 to R294: NCALL queues a call with its release, which a heath core of the stack runs as a block of new sheafs; NRET
ends a sheaf of it, the last one the block, with status OK; a call whose stack stays in self-refresh returns BUSY, after the
clocks of the dispatcher that its limit names (log 59). -/
def Obligations.NearCalls : Prop :=
  (∀ f s k sh (l : Loc), Executes rowNcall f s k sh →
    let v := s.issued k sh f
    let i := issOf rowNcall f k sh
    let w := i.reqWord 4
    let ta := i.reqPair 2
    let stack := if ncTsel f then stackOf l.addr else (i.reqWord 3).toNat % 8
    i.ncallOffsets v = none → i.ncallBad = false →
    (if ncTsel f then ∃ leaf pte block hit, v.xlate false sh.core sh.ctx ta.toNat .look = .ok leaf pte block hit ∧
      l = v.place leaf block ta.toNat else l = { tier := 0, peer := 0, addr := 0 }) →
    v.callsQueued stack < 64 → v.usingScratch k = false → v.acquiring k = false →
    v.walksNow sh .look ((if ncTsel f then [ta.toNat] else []) ++ (i.ncallPages v).map fun p => p.2.1) → i.ncallLost v = none →
    v.callRefused sh.ctx l.tier stack ta = none →
    let m := ({ v with fresh := s.fresh + 1 } : State).mark sh.core
    exec (.ncall f) s = .next (({ m.1 with calls := s.calls ++ [(s.fresh, ({
        ctx := sh.ctx, wg := sh.home.wgId, sheaf := k, core := sh.core, stack := stack, entry := i.reqPair 0
        nsh := (w.extractLsb' 0 6).toNat, nreg := 8 * (w.extractLsb' 16 7).toNat
        msg := (List.range (ncMlen f)).map fun j => sh.readS (f.b.toNat + j), fpcr := sh.fpcr
        hurdle := (i.reqWord 5).toNat, status := (i.reqWord 6).toNat, ranges := (i.ncallRanges v).map (·.2), pages := (i.ncallRanges v).map (·.1), lim := ncLim f
        prio := ((s.wg? sh.home.wgId).map fun g => g.prio).getD 0
        rel := { seq := s.fresh, markers := m.2, after := .exit }, pc := sh.pc, state := .release } : Call))] } : State).onSheaf k
          Sheaf.advance)) ∧
  (∀ (s : State) (call h : Nat) (c : Call), s.calls.get? call = some c → c.state = .queued → h / 16 = c.stack →
    s.heathInService h = true → s.heathFree h = true → s.refresh.get? c.stack = none →
    (s.nextCall c.stack).map (fun e => e.1) = some call →
    ∃ t, exec (.ncallStart call h) s = .next t ∧
      t.blocks.get? h = some { call := call, ctx := c.ctx, nshf := c.nsh, nreg := c.nreg } ∧
      t.calls.get? call = some { c with state := .running h } ∧
      t.sheafs.map (fun e => (e.1, e.2.besides)) = s.sheafs.map (fun e => (e.1, e.2.besides)) ++
        (List.range c.nsh).map fun j => (s.fresh + j, (c.newSheaf h 0 j).besides)) ∧
  (∀ f s k sh, Executes rowNret f s k sh → (∀ e ∈ s.ops, e.2.sheaf ≠ k) →
    let u := (s.issued k sh f).endSheaf k
    (u.sheaf? k).map (fun x => x.status) = some .exited ∧
    ((∃ e ∈ u.sheafs, e.2.home = sh.home ∧ e.2.status ≠ .exited) → exec (.nret f) s = .next u) ∧
    ((∀ e ∈ u.sheafs, e.2.home = sh.home → e.2.status = .exited) →
      ∃ t, exec (.nret f) s = .next t ∧ t = (u.endBlock sh.core 0 0 0 0).stopCalls ∧
        (u.blocks.get? sh.core ≠ none → t.blocks.get? sh.core = none) ∧
        (s.refresh = [] → s.migrations = [] → ∀ b, u.blocks.get? sh.core = some b → t.calls.get? b.call = none))) ∧
  ∀ (s : State) (call : Nat) (c : Call) (since : Nat), s.calls.get? call = some c → c.state = .queued →
    s.refresh.get? c.stack = some since → c.lim ≠ 0 → 2 ^ (c.lim + 9) < s.dispClk - since →
    exec (.ncallBusyTimeout call) s =
      .next (((s.onCall call fun c => { c with stat := 4, state := .returning }).callReturn call).stopCalls)

/-- R299 to R303: FINST is accepted whole, or answers the status of the first rule its segments break; a segment's install
ends with its result; FQRY reports a segment's state, wear and limit as they are at its issue (log 54).  That the ADDR of a
SRCFAULT is the source address plus 2^25 for each segment done is log 126, and that each stack of a die has its own share of the
staging cache, with the blocks that lie in it, log 109: the model's choices.
R159, R164: a staging fill that ends puts its block where its leaf's hint says, in front or, of a stream, at the least
recent place; a full share of a stack gives up a block, one of hint keep only when all are. -/
def Obligations.FallowTier : Prop :=
  (∀ f s k sh, Executes rowFinst f s k sh →
    let v := s.issued k sh f
    let i := issOf rowFinst f k sh
    let dst := (i.reqPair 2).toNat
    let len := (i.reqWord 4).toNat
    let count := (len + 2 ^ 25 - 1) / 2 ^ 25
    let u := ({ v with fresh := s.fresh + 1 } : State).onSheaf k Sheaf.advance
    let x : Install :=
      { ctx := sh.ctx, wg := sh.home.wgId, core := sh.core, src := (i.reqPair 0).toNat, dest := dst, len := len
        hurdle := (i.reqWord 5).toNat, status := (i.reqWord 6).toNat, segs := [], pc := sh.pc
        grid := ((s.wg? sh.home.wgId).map fun g => g.grid).getD 0 }
    i.finstCheck v = none → v.acquiring k = false → v.walksNow sh .look ((List.range count).map fun j => dst + j * 2 ^ 25) →
    (∀ va, u.finstSegs sh.core sh.ctx dst count [] = .error va → exec (.finst f) s = .next ((i.reportWalks u [va] u).endInstall s.fresh x 4 va)) ∧
    ∀ segs, u.finstSegs sh.core sh.ctx dst count [] = .ok segs →
      (∀ a b q, segs = a ++ q :: b → (∀ y ∈ a, (u.seg y).wear < 3000) → 3000 ≤ (u.seg q).wear →
        exec (.finst f) s = .next (u.endInstall s.fresh x 1 (dst + a.length * 2 ^ 25))) ∧
      ((∀ q ∈ segs, (u.seg q).wear < 3000) → ∀ c, s.ctx? sh.ctx = some c →
        (c.instb.toNat < count → exec (.finst f) s = .next (u.endInstall s.fresh x 6 dst)) ∧
        (count ≤ c.instb.toNat → exec (.finst f) s =
          .next (({ u with installs := u.installs ++ [(s.fresh, { x with segs := segs })] } : State).pumpInstalls)))) ∧
  (∀ (s t : State) (req seg : Nat) (r : InstallResult) (data bs : List Byte) (x : Install), s.installs.get? req = some x →
    x.started = true → x.lost = false → x.segs[x.done]? = some seg → s.installSource x data = .ok t bs →
    let ends (st : SegState) : State := { t with
      segs := t.segs.put seg { t.seg seg with state := st }
      staging := t.staging.filter fun b => segOf (b.1 * 65536) ≠ seg }
    let here := x.dest + x.done * 2 ^ 25
    (r = .sourceFault → exec (.segmentInstallDone req r data) s =
      .next (((ends .invalid).endInstall req x 5 (x.src + x.done * 2 ^ 25)).pumpInstalls)) ∧
    (r = .programFailure → exec (.segmentInstallDone req r data) s =
      .next (((ends .failed).endInstall req x 2 here).pumpInstalls)) ∧
    (r = .mismatch → exec (.segmentInstallDone req r data) s =
      .next (((ends .invalid).endInstall req x 3 here).pumpInstalls)) ∧
    (r = .verified →
      let mem := Store.blit (Store.clear t.mem (segBase seg) (segBase seg + 2 ^ 25)) (segBase seg) bs
      let u : State := { ends (if 3000 ≤ (t.seg seg).wear then .worn else .service) with mem := mem }
      (∀ j, (h : j < bs.length) → Store.get mem (segBase seg + j) = bs[j]) ∧
      (∀ a, (a < segBase seg ∨ segBase seg + 2 ^ 25 ≤ a) → segBase seg + bs.length ≤ segBase seg + 2 ^ 25 →
        Store.get mem a = Store.get t.mem a) ∧
      let y := { x with done := x.done + 1, started := false, waits := [] }
      exec (.segmentInstallDone req r data) s = .next (if x.done + 1 = x.segs.length
        then (u.endInstall req y 0 0).pumpInstalls
        else ({ u with installs := u.installs.upd req fun _ => y } : State).pumpInstalls))) ∧
  (∀ f s k sh, Executes rowFqry f s k sh → sh.full .fqry = false →
    let v := s.issued k sh f
    let va := (sh.read64 f f.b 0).toNat
    v.walksNow sh .look [va] →
    Starts (exec (.fqry f) s) ((issOf rowFqry f k sh).reportWalks v [va] v) k sh { opOf k sh f .fqry 0 0 false (v.clkOf sh)
      [{ thread := 0, va := 0, loc := { tier := 0, peer := 0, addr := 0 }, lh := 0, x := 0, e := 0 }] with
      ord := 0, words := 4, res := v.fqry sh va }) ∧
  (∀ (s : State) (sh : Sheaf) (va : Nat) (leaf : DWord) (pte : Nat) (block hit : Bool),
    s.xlate false sh.core sh.ctx va .look = .ok leaf pte block hit →
    let n := segOf (s.place leaf block va).addr
    ((s.place leaf block va).tier ≠ 1 → s.fqry sh va = [7, 0, 0, 0]) ∧
    ((s.place leaf block va).tier = 1 → s.fqry sh va = [(match (s.seg n).state with
      | .service => 0 | .install => 1 | .worn => 2 | .invalid => 3 | .failed => 4 | .out => 7),
      BitVec.ofNat 32 (s.seg n).wear, 3000, BitVec.ofNat 32 (n / 32768 * 65536 + n % 32768)])) ∧
  (∀ (s : State) (block hint : Nat), s.stagingFills.find? (fun b => b.1 = block) = some (block, hint) → s.prefetches = [] →
    let die := dieOf (65536 * block)
    (∀ st, s.stagingStack block = some st → s.refresh.get? st = none) →
    let own := s.staging.filter fun b => dieOf (65536 * b.1) = die ∧ s.stagingStack b.1 = s.stagingStack block
    let size := s.stagingBlocks die
    let place (rest : List (Nat × Nat)) : List (Nat × Nat) :=
      if hint = 2 then rest ++ [(block, hint)] else (block, hint) :: rest
    size ≠ 0 → ∃ t, exec (.stagingFillDone block) s = .next t ∧ (∀ b ∈ t.stagingFills, b.1 ≠ block) ∧
      (own.length < size → t.staging = place s.staging) ∧
      (size ≤ own.length → ∃ v ∈ own, t.staging = place (s.staging.filter fun b => b.1 ≠ v.1) ∧
        ((∃ b ∈ own, b.2 ≠ 1) → v.2 ≠ 1))) ∧
  ∀ (s : State) (block : Nat), (∀ b ∈ s.stagingFills, b.1 ≠ block) → exec (.stagingFillDone block) s = .next s

/-- R163, R223, R224: RHDEF defines a handle and unhandles its old lines; RHPRI sets a priority; RHEVICT starts the eviction
of a handle's lines and, with FREE, undefines it; HANDLE_EVICTION_COMPLETE leaves none of them in the L2.
R268, R272, R274: KVTR starts, counted on LD; KVINV removes the cached entries its KIND names once the sheaf's earlier
accesses are performed. -/
def Obligations.Handles : Prop :=
  ((∀ f s k sh, Executes rowRhdef f s k sh →
    let n := (sh.read32 f f.a 0).toNat
    let lo := (sh.read64 f f.b 0).toNat
    let len := (sh.read64 f f.c 0).toNat
    n ≤ 255 → len ≠ 0 → lo + len ≤ 2 ^ 49 → ∃ t, exec (.rhdef f) s = .next t ∧ t.sheaf? k = some (sh.past f) ∧
      (∀ c, s.ctx? sh.ctx = some c → t.handle? (sh.ctx, n) =
        some { lo := lo / 128 * 128, hi := (lo + len + 127) / 128 * 128, prio := (f.imm.extractLsb' 0 3).toNat, order := s.fresh }) ∧
      (∀ l ∈ t.l2, l.handle ≠ some (sh.ctx, n)) ∧ t.mem = s.mem) ∧
  (∀ f s k sh, Executes rowRhpri f s k sh →
    let n := (sh.read32 f f.a 0).toNat
    let p := (sh.read32 f f.c 0).toNat
    p ≤ 7 → ∃ t, exec (.rhpri f) s = .next t ∧ t.sheaf? k = some (sh.past f) ∧ t.l2 = s.l2 ∧ t.mem = s.mem ∧
      t.handle? (sh.ctx, n) = (s.handle? (sh.ctx, n)).map fun h => { h with prio := p }) ∧
  (∀ f s k sh, Executes rowRhevict f s k sh →
    let v := s.issued k sh f
    let h := (sh.ctx, (sh.read32 f f.a 0).toNat)
    (s.handle? h = none → Leaves (exec (.rhevict f) s) s k sh (sh.past f)) ∧
    (s.handle? h ≠ none → sh.full .rhevict = false →
      let u := if f.imm.getLsbD 0 then v.onCtx sh.ctx fun x => { x with handles := x.handles.del h.2 } else v
      Starts (exec (.rhevict f) s) u k sh { opOf k sh f .rhevict 0 0 false (v.clkOf sh)
        ((s.l2.filter fun l => l.handle = some h).map fun l =>
          { thread := 0, va := 0, loc := { tier := 0, peer := 0, addr := 128 * l.line }, lh := 0, x := 0, e := 0 }) with
        ord := 0 })) ∧
  ∀ (s : State) (n : Nat) (o : Op), s.ops.get? n = some o → o.kind = .rhevict →
    (∀ a ∈ o.accs, s.flushHeld (lineOf a.loc.addr) = false) → ∃ t, exec (.handleEvictionComplete n) s = .next t ∧ t.ops = s.ops.del n ∧
      ∀ a ∈ o.accs, t.l2? (lineOf a.loc.addr) = none) ∧
  ((∀ f s k sh, Executes rowKvtr f s k sh → sh.full .kvtr = false →
    let v := s.issued k sh f
    v.acquiring k = false → Starts (exec (.kvtr f) s) v k sh { opOf k sh f .kvtr 0 0 false (v.clkOf sh)
      [{ thread := 0, va := (sh.read32 f f.c 0).toNat, loc := { tier := 0, peer := 0, addr := 0 }, lh := 0
         x := (sh.read32 f f.b 0).setWidth 128, e := sh.pc.setWidth 128 }] with
      ord := 0, words := 4 }) ∧
  ∀ f s k sh, Executes rowKvinv f s k sh →
    (∀ e ∈ s.ops, e.2.sheaf = k → e.2.kind.reads = false ∧ e.2.kind.writes = false) →
    ∃ t, exec (.kvinv f) s = .next t ∧ t.sheaf? k = some (sh.past f) ∧ t.mem = s.mem ∧ t.l2 = s.l2 ∧
      (f.imm.getLsbD 0 = true → ∀ c, ∀ e ∈ (t.core c).kv, e.1 % 4096 ≠ sh.ctx) ∧
      (f.imm.getLsbD 1 = true → t.bmCache = []) ∧ (f.imm.getLsbD 1 = false → t.bmCache = s.bmCache))

/-- R225, R226: IPF and IPIN put the lines of a range into the core's instruction cache, IPIN with a pin of its context
and a status: done, FULL over 512 pinned lines, FAULT where a page fails; IUNPIN takes the pins of a range away. A line of
another device is kept apart from this device's lines (log 114).  A cache holds 1,024 lines, and a line that enters it the words that
its home holds then, each that can be read (log 130). -/
def Obligations.CodeCache : Prop :=
  (∀ f s k sh, Executes rowIpf f s k sh →
    let v := s.issued k sh f
    let pages := pagesOf (sh.read64 f f.b 0).toNat (sh.read32 f f.c 0).toNat
    v.walksNow sh .look (pages.map fun p => p.2.1) →
    ∃ t, exec (.ipf f) s = .next t ∧ (t.sheaf? k).map Sheaf.regs = some (sh.past f).regs ∧
      (t.sheaf? k).map (fun x => x.pc) = some (sh.past f).pc ∧
      ((∀ p ∈ pages, v.codeLines sh p = none ∧ v.walkLost sh.heath sh.core sh.ctx p.2.1 = false) →
        Leaves (exec (.ipf f) s) s k sh (sh.past f)) ∧
      ((∀ p ∈ pages, v.walkLost sh.heath sh.core sh.ctx p.2.1 = false) →
        (∀ p ∈ pages, ∀ h ls, v.codeLines sh p = some (h, ls) → (∃ leaf pte block, h.xl = .ok leaf pte block true) ∧
          v.codeServed h = true ∧ (h.loc.tier < 2 → ∀ l ∈ ls, s.l2? l ≠ none)) →
        t.mem = s.mem ∧ (∀ a, t.peekByte a = s.peekByte a) ∧
        ((s.core sh.core).ic.length + ((pages.filterMap (v.codeLines sh)).flatMap fun p => p.2).length ≤ 1024 →
          ∀ p ∈ pages, ∀ h ls, v.codeLines sh p = some (h, ls) → ∀ l ∈ ls, (∃ e ∈ (t.core sh.core).ic, e.line = l) ∧
            (h.loc.tier < 2 → ∀ w < 32, s.unreadable (128 * l + 4 * w) = false → t.icWord? sh.core l w =
              some ((s.icWord? sh.core l w).getD (s.peek (128 * l + 4 * w))))))) ∧
  (∀ f s k sh, Executes rowIpin f s k sh →
    let v := s.issued k sh f
    let pages := pagesOf (sh.read64 f f.b 0).toNat (sh.read32 f f.c 0).toNat
    let lines := ((pages.filterMap (v.codeLines sh)).flatMap fun p => p.2).eraseDups
    let pinned := ((s.core sh.core).ic.filter fun l => l.pins ≠ []).map fun l => l.line
    let all := pinned.length + (lines.filter fun l => l ∉ pinned).length
    let gives (n : Nat) : Sheaf := (sh.past f).write true 1 f.a 0 (BitVec.ofNat 128 n)
    (sh.read32 f f.c 0 = 0 → Leaves (exec (.ipin f) s) s k sh (sh.past f)) ∧
    (sh.read32 f f.c 0 ≠ 0 → v.walksNow sh .look (pages.map fun p => p.2.1) →
      ((∃ p ∈ pages, v.codeLines sh p = none) →
        (∃ t, exec (.ipin f) s = .next t ∧ t.sheaf? k = some (gives 2)) ∧
        ((∀ p ∈ pages, v.walkLost sh.heath sh.core sh.ctx p.2.1 = false) → Leaves (exec (.ipin f) s) s k sh (gives 2))) ∧
      ((∀ p ∈ pages, v.codeLines sh p ≠ none) →
        (512 < all → Leaves (exec (.ipin f) s) s k sh (gives 1)) ∧
        (all ≤ 512 → (∀ p ∈ pages, ∀ h ls, v.codeLines sh p = some (h, ls) → v.codeWaits h = []) →
          ∃ t, exec (.ipin f) s = .next t ∧ (t.sheaf? k).map Sheaf.regs = some (gives 0).regs ∧
            (t.sheaf? k).map (fun x => x.pc) = some (gives 0).pc ∧
            (∀ l ∈ lines, ∃ e ∈ (t.core sh.core).ic, e.line = l ∧ sh.ctx ∈ e.pins) ∧
            ((∀ p ∈ pages, ∀ h ls, v.codeLines sh p = some (h, ls) → (∃ leaf pte block, h.xl = .ok leaf pte block true) ∧
                (h.loc.tier < 2 → ∀ l ∈ ls, s.l2? l ≠ none)) →
              t.mem = s.mem ∧ ∀ a, t.peekByte a = s.peekByte a))))) ∧
  ∀ f s k sh, Executes rowIunpin f s k sh →
    let v := s.issued k sh f
    let pages := pagesOf (sh.read64 f f.b 0).toNat (sh.read32 f f.c 0).toNat
    v.walksNow sh .look (pages.map fun p => p.2.1) →
    ∃ t, exec (.iunpin f) s = .next t ∧ t.sheaf? k = some (sh.past f) ∧
      ((∀ p ∈ pages, v.walkLost sh.heath sh.core sh.ctx p.2.1 = false) → t.mem = s.mem ∧ t.l2 = s.l2) ∧
      ∀ p ∈ pages, ∀ leaf pte block hit, v.xlate false sh.core sh.ctx p.2.1 .look = .ok leaf pte block hit →
        ∀ x ∈ (v.place leaf block p.2.1).icLines p,
          ∀ e ∈ (t.core sh.core).ic, e.line = x → sh.ctx ∉ e.pins

/-! ### Paging -/

/-- R319, R320: PMAP answers with its status: 0 with the page mapped to a frame of the pool, 1 where it is mapped, 2 where
no table covers it, 3 for an empty pool.
R157, R322: TLBI removes the context's cached translations of the pages it names, or of all, and goes on when no
access issued before it uses one of them, or a block it removed. -/
def Obligations.FirstTouch : Prop :=
  ((∀ f s k sh c b, Executes rowPmap f s k sh → s.ctx? sh.ctx = some c → c.blk = some b →
    let v := s.issued k sh f
    let va := (sh.read64 f f.b 0).toNat
    let template := sh.read32 f f.c 0
    va < 2 ^ 49 → template &&& ~~~(0x39C#32) = 0 → v.walkHeld b.ttb va = none →
    (v.tableEntry b.ttb va = .ok none → exec (.pmap f) s =
      .next ((v.onSheaf k fun x => x.write true 1 f.a 0 2).onSheaf k Sheaf.advance)) ∧
    ∀ pte, v.tableEntry b.ttb va = .ok (some pte) →
      ((v.peek64 pte).getLsbD 0 = true ∨ (v.poolHeld b.pool = none ∧ v.poolLost b.pool = false)) →
      let r := v.mapFirst sh va pte template
      exec (.pmap f) s =
        .next ((r.1.onSheaf k fun x => x.write true 1 f.a 0 (BitVec.ofNat 128 r.2)).onSheaf k Sheaf.advance)) ∧
  ∀ (s : State) (sh : Sheaf) (va pte : Nat) (template : Word) (c : Ctx) (b : CtxBlock), s.ctx? sh.ctx = some c →
    c.blk = some b →
    let r := s.mapFirst sh va pte template
    let frame := (s.peek64 ((s.peek64 (b.pool + 8)).toNat + 8 * ((s.peek b.pool).toNat - 1))).extractLsb' 0 36
    ((s.peek64 pte).getLsbD 0 = true → r.2 = 1 ∧ r.1.mem = s.mem) ∧
    ((s.peek64 pte).getLsbD 0 = false → s.peek b.pool = 0 → r = (s, 3)) ∧
    (r.2 = 0 → (s.peek64 pte).getLsbD 0 = false ∧ s.peek b.pool ≠ 0 ∧
      r.1.peek64 pte = (0#13 ++ frame ++ 0#15 : DWord) ||| template.setWidth 64 ||| 3)) ∧
  (∀ f s k sh, Executes rowTlbi f s k sh → sh.rel = none →
    let v := s.issued k sh f
    let r := if f.imm = 2#16 then none else some ((sh.read64 f f.b 0).toNat / 65536, (sh.read32 f f.c 0).toNat)
    v.using sh.ctx r (v.namedBlocks sh.ctx r) s.fresh = false →
    ∃ t, exec (.tlbi f) s = .next t ∧ t.sheaf? k = some (sh.past f) ∧ t.mem = s.mem ∧ t.l2 = s.l2 ∧
      (∀ a e page, e ∈ t.tlb a → (match r with | none => True | some (lo, n) => lo ≤ page ∧ page < lo + n) →
        e.covers sh.ctx (page * 65536) = false) ∧
      ∀ a e, e ∈ s.tlb a → e.ctx ≠ sh.ctx → e ∈ t.tlb a)

/-- R319, R321, R351: PFWAIT posts the fault that its level of the sheaf leads, in a queue of 4,096 records (log 60), and
returns as TRET.retry; the host's OK makes the waiters walk again, its FAIL makes each of them trap, one after another;
a write of FQPTR moves HEAD of the queue on to the index it names, and is ignored where that lies beyond TAIL. -/
def Obligations.HostFaults : Prop :=
  (∀ f s k sh, Executes rowPfwait f s k sh → sh.trapRegs.tc.extractLsb' 0 8 = 0x0B#8 → sh.trapRegs.tc.getLsbD 22 = true →
    onCode sh.trapRegs.tr →
    let back := { (sh.issuing f).returned sh.trapRegs.tr with lead := sh.lead.del sh.tlvl }
    (s.ledBy k sh = none → Leaves (exec (.pfwait f) s) s k sh back) ∧
    ∀ page e, sh.lead.get? sh.tlvl = some page →
      s.filters.find? (fun e => e.lead = some k && e.page = page) = some e → s.fqTail - s.fqHead < 4096 →
      ∃ t, exec (.pfwait f) s = .next t ∧ t.sheaf? k = some back ∧ t.fqTail = s.fqTail + 1 ∧
        t.fqOut = s.fqOut ++ [s.fqSeq] ∧ t.irq.getLsbD 0 = true ∧ (∃ bs : List Byte, bs.length = 32 ∧
          t.reports = s.reports ++ [.faultRecord (s.fqTail % 4096) bs] ∧
          let word (at_ n : Nat) : Nat := leNat ((bs.drop at_).take n)
          word 0 4 = e.ctx % 2 ^ 32 ∧ word 4 4 = (e.acc + 16 * (e.waiters % 4096) + 65536 * sh.core) % 2 ^ 32 ∧
          word 8 8 = e.page * 65536 % 2 ^ 64 ∧ word 16 8 = s.fqSeq % 2 ^ 64 ∧ word 24 8 = 0)) ∧
  (∀ (s : State) (seq : Nat), seq ∈ s.fqOut →
    let u : State := { s with fqOut := s.fqOut.filter (· ≠ seq) }
    (s.recordOf seq = none → exec (.pfcOk seq) s = .next u ∧ exec (.pfcFail seq) s = .next u) ∧
    ∀ e, s.recordOf seq = some e →
      let waits (sh : Sheaf) : Bool := sh.status = .stalled (.filter e.page) && sh.ctx = e.ctx && s.cluster sh.core = e.cluster
      let gone (x : Filter) : Bool := x.ctx = e.ctx && x.page = e.page && x.cluster = e.cluster
      (∃ t, exec (.pfcOk seq) s = .next t ∧ t.fqOut = u.fqOut ∧ s.filter? e.ctx e.page e.cluster ≠ none ∧
        t.filter? e.ctx e.page e.cluster = none ∧
        ∀ k sh, s.sheaf? k = some sh → waits sh = true →
          t.sheaf? k = some { sh with status := .stalled (.walk e.page), pend := none }) ∧
      exec (.pfcFail seq) s = .next (((s.sheafs.filter fun x => waits x.2).map fun x => x.1).foldl (fun v k =>
        match (v.sheaf? k).bind fun sh => sh.pend with
        | some p => (v.onSheaf k fun x => { x with status := .issuing, pend := none }).raise k
            { p with det := 3, lead := false } false
        | none => v) { u with filters := s.filters.filter fun x => !gone x })) ∧
  (∀ (s : State) (seq : Nat), seq ∉ s.fqOut → exec (.pfcOk seq) s = .next s ∧ exec (.pfcFail seq) s = .next s) ∧
  ∀ (s : State) (v : DWord), let index := (v.extractLsb' 32 12).toNat
    let d := (index + (4096 - s.fqHead % 4096)) % 4096
    let head := if d ≤ s.fqTail - s.fqHead then s.fqHead + d else s.fqHead
    exec (.fqptrWrite v) s = .next { s with fqHead := head } ∧
      (s.fqHead ≤ s.fqTail → s.fqHead ≤ head ∧ head ≤ s.fqTail) ∧ (d ≤ s.fqTail - s.fqHead → head % 4096 = index)

/-! ### Sheafs, workgroups, grids -/

/-- R128, R129, R130, R331: EXIT ends its sheaf, its registers gone and its KVTR, FQRY, LDS and LMST discarded, its other
loads kept until they return, to no register, or fail (log 31), its release started; LAUNCH answers at depth 10, else
releases, reads its record (bytes of another device or the host are free, log 12) and answers 3 where it is refused, 2
where the queue is full, or 0 with a child grid.  It traps at a record that is misaligned, and where the host has given no
translation of a page that it reads, or writes the child's entry to (R350); that the trap's ACC names the kind of access for
both causes is log 33, and that the instruction itself takes the trap of a refused page, with DET 4, log 74: the model's
choices.
R17, R22, R24, R334: a workgroup with nothing left is done and freed, its cluster's together; R23, R262, R324: one that a kill has
freed is gone with its lattice, and, as the last of a destroyed context, with that (log 111); a grid whose workgroups
and children are done retires: a failure passes to its parent, and else its event word is added to, with one. -/
def Obligations.Launches : Prop :=
  ((∀ f s k sh, Executes rowExit f s k sh → sh.mx = 0 → sh.en = 0 → sh.held = [] →
    ∃ t x, exec (.exit f) s = .next t ∧ t.sheaf? k = some x ∧ x.status = .exited ∧ x.v = [] ∧ x.o = [] ∧ x.s = [] ∧
      x.mon = none ∧ (∃ r, x.rel = some r ∧ r.seq = s.fresh ∧ r.after = .exit) ∧ t.mem = s.mem ∧ t.l2 = s.l2 ∧
      t.ops = s.ops.filter fun e => e.2.sheaf ≠ k ∨ e.2.kind.onLd = false ∨ e.2.kind ∈ [.load, .ldx, .atom, .atoms]) ∧
  ∀ (f : Fields) (s : State) (k : Nat) (sh : Sheaf) (w : Nat) (g : Wg) (p : Grid), Executes rowLaunch f s k sh →
    sh.home = .wg w → s.wg? w = some g → s.grid? g.grid = some p →
    let v := s.issued k sh f
    let va := (sh.pairS f.b.toNat).toNat
    let agent : Agent := { ctx := sh.ctx, core := sh.core, wg := w, pc := sh.pc.toNat, hint := 0 }
    let answers (u : State) (stat gid : Word) : Prop := exec (.launch f) s = .next ((u.onSheaf k fun x =>
      { (x.writeS f.a.toNat stat).writeS (f.a.toNat + 1) gid with rel := none }).onSheaf k Sheaf.advance)
    (p.depth = 10 → answers v 1 0) ∧
    let traps (u : State) (x : Trap) : Prop :=
      exec (.launch f) s = .next ((issOf rowLaunch f k sh).trap u { x with mask := sh.em })
    (p.depth ≠ 10 → va % 64 ≠ 0 → traps v { cause := .align, acc := 1, mask := 0, ta := BitVec.ofNat 64 va }) ∧
    (p.depth ≠ 10 → va % 64 = 0 →
      (sh.rel = none → exec (.launch f) s =
        .next ((v.startRelease k .launch).onSheaf k fun x => { x with status := .stalled .release })) ∧
      (∀ x a c b, sh.rel = some x → x.lost = some a → s.ctx? sh.ctx = some c → c.blk = some b →
        let entry := b.dqb + 512 * (c.dqNext % b.dqn)
        traps v { cause := .xlate, det := 4, acc := if entry ≤ a ∧ a < entry + 512 then 2 else 1, mask := 0
                  ta := BitVec.ofNat 64 a }) ∧
      (∀ x, sh.rel = some x → x.lost = none → ∀ (t : State) (r : Option LaunchVals),
        v.readLaunch agent va ((List.range 440).map (Config.remoteByte s.fresh)) = .ok t r →
        let u : State := { t with fresh := t.fresh + 1 }
        (r = none → answers u 3 0) ∧
        ∀ l, r = some l →
          u.walksNow sh .look (([8, 10, 14].map (addrAt l.words)).filter (· ≠ 0)) →
          (u.launchOk sh.core sh.ctx l = false →
            answers ((issOf rowLaunch f k sh).reportWalks u (eventWords l.words) u) 3 0) ∧
          (u.launchOk sh.core sh.ctx l = true →
            let u := u.pumpDevice sh.ctx
            let gid := u.freeGid sh.ctx
            ∀ c b, u.ctx? sh.ctx = some c → c.blk = some b →
              (b.dqn ≤ c.dq.length → answers u 2 0) ∧
              (c.dq.length < b.dqn → ∀ y, u.engStore agent (b.dqb + 512 * (c.dqNext % b.dqn))
                  (deviceEntry l gid (p.depth + 1) p.prio) = .ok y () →
                ∃ t x child, exec (.launch f) s = .next t ∧ t.sheaf? k = some x ∧ x.readS f.a.toNat = 0 ∧
                  x.readS (f.a.toNat + 1) = gid ∧ (y.fresh, child) ∈ t.grids ∧ child.gid = gid ∧ child.ctx = sh.ctx ∧
                  child.depth = p.depth + 1 ∧ child.parent = some g.grid ∧ child.prio = p.prio ∧ child.desc = l.desc ∧
                  child.args = l.args))))) ∧
  ((∀ (s : State) (w : Nat) (g : Wg), s.wg? w = some g → g.freed = true → s.wgIdle w g = true →
    ∃ t, exec (.workgroupDone w) s = .next t ∧ t.wgs.get? w = none ∧ (∀ e ∈ t.sheafs, e.2.home ≠ .wg w) ∧
      (t.core g.core).lattice.owner ≠ some w ∧
      (∀ c, s.ctx? g.ctx = some c → c.dying = true → t.ctxBusy g.ctx = false →
        (t.ctx? g.ctx).map (fun c => c.state) = some 0 ∧ ∀ e ∈ t.grids, e.2.ctx ≠ g.ctx)) ∧
  (∀ (s : State) (w : Nat) (g : Wg), s.wg? w = some g → g.done = false → g.freed = false → s.wgIdle w g = true →
    ∃ t, exec (.workgroupDone w) s = .next t ∧
      ((∀ c ∈ s.ctxs, c.2.dying = false) →
        (t.grid? g.grid).map (fun x => x.doneWgs) = (s.grid? g.grid).map (fun x => x.doneWgs + 1)) ∧
      (g.peers = [] → t.wgs.get? w = none ∧ (∀ e ∈ t.sheafs, e.2.home ≠ .wg w) ∧
        (t.core g.core).lattice.owner ≠ some w) ∧
      ((∃ p x, p ∈ g.peers ∧ p ≠ w ∧ s.wg? p = some x ∧ x.done = false) →
        t.wgs.get? w = some { g with done := true } ∧ t.sheafs = s.sheafs)) ∧
  ∀ (s : State) (n : Nat) (g : Grid) (c : Ctx), s.grid? n = some g → g.total = g.doneWgs → s.ctx? g.ctx = some c →
    c.killed = false → (∀ e ∈ s.grids, e.2.parent ≠ some n) →
    let gone (u : State) : State := { u with grids := u.grids.del n }
    (g.failed = false → g.sig = 0 → exec (.gridRetire n) s = .next (gone s)) ∧
    (g.failed = true → exec (.gridRetire n) s = .next (match g.parent with
      | some p => (gone s).onGrid p fun x => { x with failed := true }
      | none => gone s)) ∧
    (g.failed = false → g.sig ≠ 0 → ∀ u l h, s.engXlate (dispAgent g.ctx) .atomic g.sig = .ok u (l, h) → l.tier < 2 →
      u.heldAt false l.addr = false → u.frozen l = false → u.lostIn l.addr 8 = false →
      exec (.gridRetire n) s = .next (gone (u.homeWrite { ctx := g.ctx, va := g.sig } l.addr
        (bytesLe 8 (leNat (u.peekBytes l.addr 8) + 1))))))

/-- R331, R332, R333, R334, R336, R337, R338, R344: a record that becomes head is refused, its slot in ERROR and the host told (its
RHEAD stays, log 64; its announcements too, log 77), or makes a grid; a waited word is compared; a decision dispatches the
next workgroup or cluster of the first ready grid (numbered x fastest, log 69), its sheafs as R38 and R331 start them, or,
where it does not fit, compacts or drains for it and dispatches the next ready grid that fits then.  Ready grids come in the
order of E = min(11, P + W/1024), equals by the rotating pointer; a workgroup goes to the core with the fewest that can hold
it, a cluster to the first physical cluster that can hold it.  That the pointer moves past the source of the grid dispatched
also where that is not the target is log 68, and that a context's launch priority for the whole device, by which one is chosen to
drain, is the highest it has on a core log 135: the model's choices.  A context whose block breaks a rule when it would be switched
in is not, and its running slots enter ERROR.
R304, R326, R336, R348: a drain is requested by the host or by the end of a time slice and starts from each core's
clock; a deadline that passes kills the context; a stack enters and leaves self-refresh, the host is told, and what it
has held goes on. -/
def Obligations.Dispatch : Prop :=
  ((∀ (s : State) (n : Nat) (data : List Byte) (x : Slot) (c : Ctx), s.slots.get? n = some x → x.state = 1 → x.ann ≠ 0 →
    s.queuesRun x.ctxn = true → s.slotFree x = true → s.hostWrites = false → s.ctx? x.ctxn = some c → c.blk ≠ none → x.lost = false → s.slotLate x = false →
    let va := x.rbase.toNat + 64 * (x.rhead % 2 ^ x.rsize)
    let out := exec (.recordHead (.slot n) data) s
    (∀ t, s.readLaunch (dispAgent x.ctxn) va data = .ok t none → out = .next (t.slotError n)) ∧
    ∀ t l, s.readLaunch (dispAgent x.ctxn) va data = .ok t (some l) →
      (∀ a ∈ eventWords l.words, t.xlateHeld false dispatcher x.ctxn a .look = none) →
      (t.launchOk dispatcher x.ctxn l = false →
        out = .next ((t.reportEvents x.ctxn (eventWords l.words)).slotError n)) ∧
      (t.launchOk dispatcher x.ctxn l = true → ∃ u g, out = .next u ∧ (t.fresh, g) ∈ u.grids ∧
        u.slots.get? n =
          some { x with rhead := (x.rhead + 1) % 2 ^ x.rsize, ann := x.ann - 1, cur := some t.fresh, waits := [], askClk := none } ∧
        g.ctx = x.ctxn ∧ g.gid = t.freeGid x.ctxn ∧ g.depth = 0 ∧ g.parent = none ∧ g.src = .slot n ∧ g.prio = x.prio ∧
        g.desc = l.desc ∧ g.args = l.args ∧ g.gx = wd l.words 2 ∧ g.gy = wd l.words 3 / 65536 ∧
        g.gz = wd l.words 3 % 65536 ∧ g.nthr = wd l.words 4 % 2048 ∧ g.sig = addrAt l.words 14 ∧ g.next = 0)) ∧
  (∀ (s : State) (n : Nat) (x : Slot), s.slots.get? n = some x →
    (s.slotError n).slots.get? n = some { x with state := 2, waits := [], lost := false, askClk := none } ∧ (s.slotError n).irq.getLsbD 2 = true ∧
    (s.slotError n).reports = s.reports ++ [.slotError n]) ∧
  (∀ (s : State) (ctx g : Nat) (data : List Byte) (c : Ctx) (rest : List Nat) (x : Grid), s.queuesRun ctx = true →
    s.deviceHead ctx = false → s.ctx? ctx = some c → c.dq = g :: rest → s.grid? g = some x →
    ∃ u, exec (.recordHead (.device ctx) data) s = .next u ∧ (u.ctx? ctx).map (fun c => c.dq) = some rest ∧
      (u.grid? g).map (fun x => x.head) = some true) ∧
  (∀ (s t : State) (n a : Nat) (g : Grid) (thr : Word) (w : Word) (d : List Byte), s.grid? n = some g → g.head = true →
    g.waits = [(a, thr, false)] → s.engWord (dispAgent g.ctx) a [] = .ok t (w, d) →
    exec (.eventWordRead n) s =
      .next (t.onGrid n fun g => { g with waits := [(a, thr, decide ((w - thr).toNat < 2 ^ 31))] })) ∧
  (∀ s : State, let eff (g : Grid) : Nat := min 11 (g.prio + g.w / 1024)
    let source (g : Grid) : Nat := match g.src with | .slot n => n | .device c => 128 + c
    let turn (g : Grid) : Nat := (source g + 4224 - s.dispPtr) % 4224
    s.readyOrder.Perm (s.grids.filter fun e => s.gridReady e.2) ∧
    s.readyOrder.Pairwise fun a b => eff b.2 < eff a.2 ∨ (eff a.2 = eff b.2 ∧ turn a.2 ≤ turn b.2)) ∧
  (∀ (s : State) (g : Grid), let holds (c : Nat) : Prop := s.clusterTakes g (s.cluster c) = true ∧ s.fits c g.need = true
    let members (cl : Nat) : List Nat := (s.clusterCores cl).filter fun c => s.fits c g.need
    let takes (c : Nat) : Prop := s.clusterTakes g (s.cluster c) = true ∧ g.clus ≤ (members (s.cluster c)).length
    (g.clus = 1 →
      (∀ cs, s.placeFor g = some cs ↔ ∃ c, cs = [c] ∧ c < s.ncore ∧ holds c ∧ ∀ d < s.ncore, holds d →
        (s.wgsOn c).length < (s.wgsOn d).length ∨ ((s.wgsOn c).length = (s.wgsOn d).length ∧ c ≤ d)) ∧
      (s.placeFor g = none ↔ ∀ c < s.ncore, ¬holds c)) ∧
    (g.clus ≠ 1 →
      (∀ cs, s.placeFor g = some cs ↔ ∃ c < s.ncore, takes c ∧ (∀ d < c, ¬takes d) ∧
        cs = (members (s.cluster c)).take g.clus) ∧
      (s.placeFor g = none ↔ ∀ c < s.ncore, ¬takes c))) ∧
  (∀ (s : State) (ctx n : Nat) (x : Slot), s.slots.get? n = some x → x.ctxn = ctx → x.state = 1 →
    ((s.failSlots ctx).slots.get? n).map (fun x => x.state) = some 2) ∧
  (∀ (s : State) (gid : Nat) (g : Grid) (rest : List (Nat × Grid)) (cores : List Nat),
    s.readyOrder = (gid, g) :: rest → s.placeFor g = some cores → s.badBlock g.ctx = false → g.clus ≠ 1 →
    s.grid? gid = some g →
    ∃ t, exec .dispatchDecision s = .next t ∧ t.dispPtr = (QueueRef.source g.src + 1) % 4224 ∧
      (t.grid? gid).map (fun y => (y.next, y.w)) = some (g.next + cores.length, 0) ∧
      (g.fuse = true → (t.fused.get? (s.cluster (cores.headD 0))).isSome) ∧
      ∀ r, (h : r < cores.length) → let i := g.next + r
        (∃ x, (s.fresh + r, x) ∈ t.wgs ∧ x.grid = gid ∧ x.ctx = g.ctx ∧ x.core = cores[r] ∧ x.rank = r ∧
          x.peers = (List.range cores.length).map (fun j => s.fresh + j) ∧ x.x = i % g.gx ∧ x.y = i / g.gx % g.gy ∧
          x.z = i / (g.gx * g.gy) ∧ x.prio = g.prio) ∧
        ∀ j < descNsh g.desc, ∃ sh, (s.fresh + cores.length + r * descNsh g.desc + j, sh) ∈ t.sheafs ∧
          sh.home = .wg (s.fresh + r) ∧ sh.core = cores[r] ∧ sh.shid = j ∧ sh.pc = g.entry) ∧
  ∀ s : State,
    let dispatches (gid : Nat) (g : Grid) (c : Nat) : Prop :=
      ∃ t x, exec .dispatchDecision s = .next t ∧
        (s.fresh, x) ∈ t.wgs ∧ x.grid = gid ∧ x.ctx = g.ctx ∧ x.core = c ∧ x.x = g.next % g.gx ∧
        x.y = g.next / g.gx % g.gy ∧ x.z = g.next / (g.gx * g.gy) ∧ x.prio = g.prio ∧ x.nshf = descNsh g.desc ∧
        x.nreg = 8 * descRg g.desc ∧ x.spsz = wd g.desc 3 ∧ x.scratch = [] ∧
        (∀ j < descNsh g.desc, ∃ sh, (s.fresh + 1 + j, sh) ∈ t.sheafs ∧ sh.home = .wg s.fresh ∧ sh.ctx = g.ctx ∧
          sh.core = c ∧ sh.shid = j ∧ sh.part = j % 4 ∧ sh.pc = g.entry ∧ sh.em = sh.live ∧
          (∀ i < 16, sh.live.getLsbD i = decide (16 * j + i < g.nthr)) ∧ sh.role = BitVec.ofNat 3 (roleOf g.desc j) ∧
          sh.fpcr = g.fpcr ∧ sh.tlvl = 0 ∧ sh.v = [] ∧ sh.o = [] ∧ sh.p = [] ∧ sh.q = 0 ∧
          ∀ i, (h : i < g.args.length) → sh.readS i = g.args[i]) ∧
        t.dispPtr = (QueueRef.source g.src + 1) % 4224 ∧
        (t.grid? gid).map (fun y => (y.next, y.w)) = some (g.next + 1, 0) ∧
        ((s.readyOrder.map fun e => e.1).Nodup → ∀ e ∈ s.readyOrder, e.1 ≠ gid → s.grid? e.1 = some e.2 →
          (t.grid? e.1).map (fun y => (y.next, y.w)) = some (e.2.next, e.2.w + 1))
    let fits (m : State) (e : Nat × Grid) (c : Option (List Nat)) : Prop :=
      m.gridReady e.2 = true ∧ m.placeFor e.2 = c ∧ m.badBlock e.2.ctx = false
    (s.readyOrder = [] → exec .dispatchDecision s = .next s) ∧
    ∀ gid g rest, s.readyOrder = (gid, g) :: rest →
      (∀ c, s.placeFor g = some [c] → s.badBlock g.ctx = false → s.grid? gid = some g → dispatches gid g c) ∧
      (∀ cs, s.placeFor g = some cs → s.badBlock g.ctx = true → rest = [] →
        exec .dispatchDecision s = .next (s.failSlots g.ctx)) ∧
      (s.placeFor g = none → let m := s.misfit g
        ((∀ e ∈ rest, m.gridReady e.2 = true → m.placeFor e.2 = none) → exec .dispatchDecision s = .next m) ∧
        ∀ pre e post c, rest = pre ++ e :: post → (∀ p ∈ pre, m.gridReady p.2 = true → m.placeFor p.2 = none) →
          fits m e (some [c]) → s.grid? e.1 = some e.2 → dispatches e.1 e.2 c)) ∧
  ((∀ (s : State) (ctx : Nat) (c : Ctx), s.ctx? ctx = some c → c.drain = none → s.residentCtx ctx = true →
    ∃ d, (s.requestDrain ctx).ctx? ctx = some { c with state := 3, drain := some d } ∧
      ∀ e ∈ s.wgs, e.2.ctx = ctx → e.2.freed = false → d.get? e.2.core = some (s.core e.2.core).clk) ∧
  (∀ (s : State) (ctx : Nat), s.dev = .ready → exec (.ctxDrain ctx) s = .next (s.requestDrain ctx)) ∧
  (∀ (s : State) (ctx : Nat) (c : Ctx) (b : CtxBlock), s.ctx? ctx = some c → c.blk = some b →
    (b.slice ≠ 0 → b.slice ≤ s.dispClk - c.inClk → exec (.timeSliceExpiry ctx) s = .next (s.requestDrain ctx)) ∧
    ((b.slice = 0 ∨ s.dispClk - c.inClk < b.slice) → exec (.timeSliceExpiry ctx) s = .next s)) ∧
  (∀ (s : State) (ctx core start : Nat) (c : Ctx) (b : CtxBlock) (d : Table Nat), s.ctx? ctx = some c → c.blk = some b →
    c.drain = some d → d.get? core = some start → (∃ e ∈ s.wgs, e.2.ctx = ctx ∧ e.2.core = core ∧ e.2.freed = false) →
    (2 ^ b.dl ≤ (s.core core).clk - start → ∃ t, exec (.drainDeadline ctx core) s = .next t ∧
      (t.ctx? ctx).map (fun c => (c.killed, c.drain)) = some (true, none) ∧ t.reports.getLast? = some (.killed ctx)) ∧
    ((s.core core).clk - start < 2 ^ b.dl → exec (.drainDeadline ctx core) s = .next s)) ∧
  ∀ (s : State) (k : Nat), k < 8 →
    (s.refresh.get? k = none → ∃ t, exec (.selfRefreshEntry k) s = .next t ∧ t.refresh.get? k = some s.dispClk ∧
      t.irq.getLsbD 3 = true ∧ t.reports = s.reports ++ [.selfRefresh k true]) ∧
    (s.refresh.get? k ≠ none → ∃ t : State, exec (.selfRefreshExit k) s = .next t.resume ∧ t.refresh.get? k = none ∧
      t.irq.getLsbD 3 = true ∧ t.reports = s.reports ++ [.selfRefresh k false] ∧
      t = { s with refresh := t.refresh, irq := t.irq, msix := t.msix, reports := t.reports } ∧
      (s.calls = [] → s.prefetches = [] → s.logWait = [] → s.blockWait = [] → t.resume = t)))

/-! ### Events of memory -/

/-- R46, R199, R202, R206 to R208, R210, R221, R303: a counted instruction that may return leaves the outstanding ones and
LD falls past it.  Every thread's register holds, widened: of a load of this device's memory, its bytes as they are at its
return (log 6), those of the sheaf's own stores not yet performed put over them; of a load of another device, what that
answers; of an atomic, the old value, and its location holds what R207 gives; of a scratchpad load, its bytes.  KVTR reads
its tables then (log 54).
R180, R185: what a load of a core finds of one word: the copy in its L1, unless an acquire may not take it, else the
coherent value; of several words of a line that no L1 holds, the coherent values.
R194, R195, R204: an access to another device that is acknowledged is performed, an atomic's old values kept for its
return; CFLUSH and CINV leave the lines of their range clean, and CINV none of them in the L2 nor, of tier 0, in the L1. -/
def Obligations.Returned : Prop :=
  (∀ (s : State) (n : Nat) (data : List Val) (o : Op) (sh : Sheaf), s.ops.get? n = some o → s.loadReady n o data = true →
    s.sheaf? o.sheaf = some sh → sh.status ≠ .exited →
    let v := if o.acquires then s.acquire o.sheaf else s
    let at_ (i : Nat) : State := (o.accs.take i).foldl (fun u a => u.returnOne n o a 0) v
    let loaded (i : Nat) (a : Access) : Nat :=
      if o.heath then leNat ((at_ i).hbmRead a.loc.addr o.bytes)
      else leNat (overlay (s.earlier n o) a
        ((at_ i).loadBytes o.core (o.req a) (o.ord = 2) (o.kind ≠ .ldx) a.loc.addr o.bytes).2)
    (o.kind ≠ .kvtr → ∃ t x, exec (.loadReturn n data) s = .next t ∧ t.sheaf? o.sheaf = some x ∧ t.ops = s.ops.del n ∧
      x.ld = (sh.doneLd n).ld ∧
      (∀ slot, o.dest = .v slot → (o.accs.map fun a => a.thread).Nodup → (∀ a ∈ o.accs, a.thread < 16) →
        (o.kind = .lds → ∀ a ∈ o.accs, ∀ j < o.words, x.readV (slot + j) a.thread =
          splitWord o.words j (widen o.ty (leNat (s.spRead (o.bank a) a.loc.addr o.bytes)))) ∧
        (o.kind ∈ [.load, .ldx] → (∀ a ∈ o.accs, a.loc.tier < 2) → ∀ i, (h : i < o.accs.length) → ∀ j < o.words,
          x.readV (slot + j) o.accs[i].thread = splitWord o.words j (widen o.ty (loaded i o.accs[i]))) ∧
        (∀ a, o.kind ∈ [.load, .ldx] → o.accs = [a] → 2 ≤ a.loc.tier → ∀ j < o.words, x.readV (slot + j) a.thread =
          splitWord o.words j (widen o.ty (leNat (overlay (s.earlier n o) a (bytesLe o.bytes (data.headD 0).toNat))))) ∧
        ∀ a, o.kind = .atom → o.accs = [a] → ∀ j < o.words, x.readV (slot + j) a.thread =
          splitWord o.words j (widen o.ty (if 2 ≤ a.loc.tier then a.e.toNat
            else if o.heath then leNat (s.hbmRead a.loc.addr o.bytes) else leNat (v.peekBytes a.loc.addr o.bytes)))) ∧
      (∀ a i, o.kind = .fqry → o.dest = .s i → o.accs = [a] → ∀ j < o.words, x.s.get (i + j) = o.res.getD j 0) ∧
      (∀ a, o.kind = .atom → o.accs = [a] → a.loc.tier < 2 → o.heath = false → a.loc.addr % o.bytes = 0 → o.bytes ≤ 8 →
        ∀ i < o.bytes, t.peekByte (a.loc.addr + i) = BitVec.ofNat 8
          ((atomNew o.aop o.ty (leNat (v.peekBytes a.loc.addr o.bytes)) a.x.toNat a.e.toNat).1 >>> (8 * i))) ∧
      ∀ a w g, o.kind = .atoms → o.accs = [a] → o.bank a = .wg w → s.wg? w = some g → ∀ i < o.bytes,
        s.linkByte (.wg w) (a.loc.addr + i) = false → t.spRead (.wg w) (a.loc.addr + i) 1 =
          [BitVec.ofNat 8 ((atomNew o.aop o.ty (leNat (s.spRead (.wg w) a.loc.addr o.bytes)) a.x.toNat a.e.toNat).1 >>> (8 * i))]) ∧
    (o.kind = .kvtr → ∀ u r, s.kvtrResult o (data.flatMap fun v => bytesLe 4 v.toNat) = (u, r) →
      exec (.loadReturn n data) s = .next (match r with
        | .ok ws => u.returnRes n { o with res := ws }
        | .error ws => u.onOp n fun p => { p with waits := ws }))) ∧
  (∀ (s : State) (core : Nat) (r : Req) (acq alloc : Bool) (pa n : Nat), 0 < n →
    (pa % 4 + n ≤ 4 → (s.loadBytes core r acq alloc pa n).2 = (List.range n).map fun i => s.seenByte core acq (pa + i)) ∧
    ∀ l, lineOf pa = lineOf (pa + n - 1) → s.l2? (lineOf pa) = some l → l.owners = [] →
      s.l1? (s.slice core (lineOf pa)) (lineOf pa) = none →
      (s.loadBytes core r acq alloc pa n).2 = s.peekBytes pa n) ∧
  ((∀ (s : State) (n : Nat) (data : List Val) (o : Op) (sh : Sheaf), s.ops.get? n = some o →
    (∀ a ∈ o.accs, 2 ≤ a.loc.tier ∧ a.done = false) → o.accs ≠ [] → s.mayPerform n o = true → s.opFails o = false →
    s.refusesLate o = false → s.sheaf? o.sheaf = some sh →
    (o.kind ∈ [.store, .red] → sh.status ≠ .exited → ∃ t, exec (.remoteAcknowledgement n data) s = .next t ∧
      t.ops = s.ops.del n ∧ (t.sheaf? o.sheaf).map (fun x => x.st) = some (sh.st - 1)) ∧
    (o.kind = .atom → data.length = o.accs.length → exec (.remoteAcknowledgement n data) s =
      .next (o.accs.foldl (fun u a => u.farWritten a.loc) (s.onOp n fun p =>
        { p with accs := (o.accs.zip data).map fun q => { q.1 with done := true, e := q.2 } })))) ∧
  (∀ (s : State) (n : Nat) (data : List Val) (o : Op), s.ops.get? n = some o → s.refusesLate o = true →
    exec (.remoteAcknowledgement n data) s = .next s) ∧
  ∀ (s : State) (n : Nat) (o : Op), s.ops.get? n = some o → s.maintainReady n o = true → (o.kind = .cflush ∨ o.kind = .cinv) →
    (∀ a ∈ o.accs, ∀ line ∈ linesAt a.loc a.x.toNat a.va a.e.toNat, s.flushHeld line = false) →
    ∃ t, exec (.rangeMaintenanceComplete n) s = .next t ∧ t.ops = s.ops.del n ∧
      ∀ a ∈ o.accs, ∀ line ∈ linesAt a.loc a.x.toNat a.va a.e.toNat,
        (o.kind = .cinv → t.l2? line = none ∧ (a.loc.tier = 0 → t.l1? (s.slice o.core line) line = none)) ∧
        (o.kind = .cflush → a.loc.tier = 0 → ∀ l, t.l2? line = some l → l.dirty = 0))

/-- R176, R182, R183, R200, R206: a store that may be performed is: every byte of a compute core's store, of a heath
core's and of a scratchpad store reads as stored; the operation is over.  Where several threads store, the highest of
those that store a byte gives it, and every other byte reads as before: shown where the lines are in their L2 and L1 and no
monitor is armed.  A word that is written at its home reads as its old bytes with the new ones put over them.
R169, R183, R184: a FIFO entry that is written back (a frozen frame holds it) leaves the FIFO, its line's dirty owned words
lie in the home L2, and no byte reads otherwise than before. -/
def Obligations.StoresPerformed : Prop :=
  (∀ (s : State) (n : Nat) (o : Op) (a : Access), s.ops.get? n = some o → s.storeReady n o = true → o.accs = [a] →
    ∃ t, exec (.storePerformed n) s = .next t ∧ t.ops = s.ops.del n ∧
      (o.kind = .store → o.heath = false → a.loc.addr % o.bytes = 0 → o.bytes ≤ 16 → ∀ i < o.bytes,
        t.peekByte (a.loc.addr + i) = a.x.extractLsb' (8 * i) 8) ∧
      (o.kind = .store → o.heath = true → t.hbmRead a.loc.addr o.bytes = bytesLe o.bytes a.x.toNat) ∧
      ∀ w g, o.kind = .sts → o.bank a = .wg w → s.wg? w = some g → ∀ i < o.bytes, o.bytes ≤ 16 →
        s.linkByte (.wg w) (a.loc.addr + i) = false →
        t.spRead (.wg w) (a.loc.addr + i) 1 = [a.x.extractLsb' (8 * i) 8]) ∧
  (∀ (s : State) (n : Nat) (o : Op), s.ops.get? n = some o → s.storeReady n o = true → o.bytes ≤ 16 →
    (∀ a ∈ o.accs, a.loc.tier < 2 ∧ a.done = false) →
    let put (mine : Access → Prop) [DecidablePred mine] (b : Nat) (old : Byte) : Byte := o.accs.foldl (fun v a =>
      if mine a ∧ a.loc.addr ≤ b ∧ b < a.loc.addr + o.bytes then a.x.extractLsb' (8 * (b - a.loc.addr)) 8 else v) old
    ∃ t, exec (.storePerformed n) s = .next t ∧ t.ops = s.ops.del n ∧
      (o.kind = .store → o.heath = false → (∀ e ∈ s.sheafs, e.2.mon = none) →
        (∀ c, ((s.core c).l1.map fun l => l.line).Nodup) → (∀ a ∈ o.accs, a.loc.addr % o.bytes = 0 ∧ s.l2? (lineOf a.loc.addr) ≠ none ∧
          s.l1? (s.slice o.core (lineOf a.loc.addr)) (lineOf a.loc.addr) ≠ none) →
        ∀ b, t.peekByte b = put (fun _ => True) b (s.peekByte b)) ∧
      ∀ w g b, o.kind = .sts → s.wg? w = some g → s.linkByte (.wg w) b = false →
        t.spRead (.wg w) b 1 = (s.spRead (.wg w) b 1).map (put (fun a => o.bank a = .wg w) b)) ∧
  (∀ (s : State) (r : Req) (pa m : Nat) (x : Word), (s.homeWriteWord r pa x m).peek pa = mergeWord (s.peek pa) x m) ∧
  (∀ (s : State) (core : Nat) (e : FifoEntry) (rest : List FifoEntry), (s.core core).fifo = e :: rest →
    (s.frozen (lineLoc e.line) = true → exec (.fifoWriteback core) s = .next s) ∧
    (s.frozen (lineLoc e.line) = false → ∃ t, exec (.fifoWriteback core) s = .next t ∧ (t.core core).fifo = rest ∧ t.sheafs = s.sheafs ∧ t.mem = s.mem ∧
      (∀ a, t.peekByte a = s.peekByte a) ∧
      ∀ l w x, s.l1? core e.line = some l → l.words.get? w = some x → x.dirty = true → x.owned = true →
        (s.l2? e.line).bind (fun y => y.owners.get? w) = some core →
        (t.l2? e.line).map (fun y => y.data.get w) = some x.val))

/-- R128, R129, R156, R178, R179, R211, R217, R292: a release that is complete: a fence goes on, an acquire too; the arrival
it was for is made; an exit is over, a launch issues again, a call is queued; a walk that returns lets its sheaf issue.
R312, R316: TRAP_ENTRY takes the trap that waits for MX, or the oldest fault held for the sheaf. -/
def Obligations.ReleasesComplete : Prop :=
  ((∀ (s : State) (k : Nat) (sh : Sheaf) (r : Release), s.sheaf? k = some sh → sh.rel = some r → s.released k r = true →
    let out := exec (.releaseComplete (.sheaf k)) s
    let u := s.onSheaf k fun x => { x with rel := none }
    (∀ acq, sh.status = .stalled .release → r.after = .fence acq → ∃ t, out = .next t ∧ t.mem = s.mem ∧ t.l2 = s.l2 ∧
      t.sheaf? k = some { sh with rel := none, status := .issuing, pc := sh.pc + BitVec.ofNat 64 (4 * sh.len)
                                  ahead := if acq then [] else sh.ahead }) ∧
    (∀ h off bytes ta t, sh.status = .stalled .release → r.after = .arrive h off bytes ta → u.arrive h off bytes = .ok t →
      out = .next ((t.onSheaf k Sheaf.advance).wake k)) ∧
    ((sh.status = .stalled .release ∨ sh.status = .exited) → r.after = .exit → out = .next u) ∧
    (sh.status = .stalled .release → r.after = .launch → out = .next (s.onSheaf k fun x => { x with status := .issuing }))) ∧
  (∀ (s : State) (n : Nat) (c : Call), s.calls.get? n = some c → c.state = .release → s.released c.sheaf c.rel = true →
    s.callHeld c = false → ∃ t, exec (.releaseComplete (.call n)) s = .next t ∧ t.calls.get? n = some { c with state := .queued }) ∧
  ∀ (s : State) (k page : Nat) (sh : Sheaf), s.sheaf? k = some sh → sh.status = .stalled (.walk page) →
    exec (.walkComplete k) s = .next { s.onSheaf k (fun x => { x with status := .issuing }) with cur := some k }) ∧
  (∀ (s : State) (k : Nat) (sh : Sheaf) (p : Pending), s.sheaf? k = some sh →
    (sh.pend = some p → sh.status = .stalled .mx → sh.mx = 0 → s.routeHeld sh p.cause = false →
      exec (.trapEntry k) s = .next ((s.onSheaf k fun x => { x with status := .issuing }).enterTrap k p)) ∧
    ∀ rest, sh.pend = none → sh.status = .issuing → sh.tlvl = 0 → sh.held = p :: rest →
      exec (.trapEntry k) s = .next ((s.onSheaf k fun x => { x with held := rest }).raise k p false))

/-- R166, R286, R313, R316, R318, R353: an access that fails after issue, or a tier-2 access not acknowledged in time: an
uncorrectable error is reported first; then its fault is held for its sheaf, imprecise, in issue order; raised at once in a
handler; logged after the sheaf's end as a KIND 2 record, where the grid fails and the host is told; of a heath sheaf, it
ends the block.  A KVTR whose table read another device does not answer has FAULT for its result (R272).
R325: a record's fields, its place in the ring and the count of those that find the ring full; R304: one whose place lies in
a stack in self-refresh waits.
That a KIND 2 record of an access that fails has IMP set is log 38, that an access with several causes gives one fault for
each is log 42, the fields of a KIND 4 record are log 39, that a trap in a handler drops what the operation's other threads had
still to do is log 118, and that a load outstanding at EXIT is logged where it fails is log 31: the model's choices. -/
def Obligations.LateFaults : Prop :=
  (∀ (s : State) (n : Nat) (remote : Mask) (ecc : Bool) (o : Op) (a : Access) (c : Cause) (d : Nat)
      (fs rest : List (Access × Cause × Nat)) (sh : Sheaf) (out : Host.Outcome State Fault Refusal),
    s.ops.get? n = some o → s.sheaf? o.sheaf = some sh → fs = (a, c, d) :: rest → o.kind ≠ .kvtr →
    (fs = s.failing o remote ecc ∧ out = exec (.accessFault n remote ecc) s ∧
        (if o.kind = .load ∨ o.kind = .ldx then s.mayReturn n o else s.mayPerform n o) = true) ∨
      (fs = (s.failing o 0xFFFF false).filter (fun p => p.1.loc.tier = 2) ∧ out = exec (.tier2Timeout n) s ∧
        2 ^ 22 < (s.core o.core).clk - o.clk) →
    let u := if c = .ecc then
      s.uncorrectable (some o.ctx) { s.sheafRec sh 4 .ecc with addr := a.va } a.loc.addr else s
    let left := o.accs.filter fun x => !(fs.any fun p => p.1.thread = x.thread && p.2.1 = c)
    (o.heath = true → ∃ p : Pending, p.cause = c ∧ p.det = d ∧ p.ta = BitVec.ofNat 64 a.va ∧
      out = .next ((u.onOp n fun q => { q with accs := o.accs.filter fun x =>
        !(fs.any fun p => p.1.thread = x.thread) }).raise o.sheaf p false)) ∧
    (o.heath = false → sh.status ≠ .stalled (.access n) → sh.status ≠ .exited → ∃ (t : State) (p : Pending), out = .next t ∧
      (t.sheaf? o.sheaf).map (fun x => x.held) =
        some ((sh.held.filter fun h => h.seq ≤ n) ++ [p] ++ sh.held.filter fun h => n < h.seq) ∧
      p.cause = c ∧ p.det = d ∧ p.ta = BitVec.ofNat 64 a.va ∧ p.imp = true ∧ p.rgnpc = o.rgnpc ∧ p.rgncnt = o.rgncnt ∧
      p.seq = n ∧ p.dest = o.destField ∧ (o.ucls = true → p.mask = o.mask) ∧
      (o.ucls = false → ∀ i < 16, p.mask.getLsbD i = fs.any fun q => q.1.thread = i && q.2.1 = c)) ∧
    (o.heath = false → sh.status = .exited → ∀ w g r, sh.home = .wg w → s.wg? w = some g → s.grid? g.grid = some r →
      let t := (((u.onOp n fun q => { q with accs := left }).faultLog sh.ctx
        { kind := 2, exited := true, imp := true, causes := c.code, grid := r.gid.toNat, shid := sh.shid, wg := (g.x, g.y, g.z)
          core := g.core, addr := a.va % 2 ^ 64, rgnpc := o.rgnpc.toNat, rgncnt := o.rgncnt.toNat }).failGrid g.grid).report
        (.gridFailed sh.ctx r.gid)
      out = .next (if left.all fun x => x.done && !o.kind.onLd then t.opDone n { o with accs := left } else t)) ∧
    (o.heath = false → sh.status = .stalled (.access n) → ∃ (v : State) (p : Pending), out = .next (v.raise o.sheaf p false) ∧
      v.ops = s.ops.del n ∧ p.cause = c ∧ p.det = d ∧ p.ta = BitVec.ofNat 64 a.va ∧ p.imp = false ∧ p.len = sh.len)) ∧
  (∀ (s : State) (n : Nat) (o : Op), s.ops.get? n = some o →
    (∀ x ∈ (s.failing o 0xFFFF false).filter (fun p => p.1.loc.tier = 2), x.2 = (.xlate, 4)) ∧
    ((s.core o.core).clk - o.clk ≤ 2 ^ 22 → exec (.tier2Timeout n) s = .next s) ∧
    (∀ va, o.kind = .kvtr → o.res = [] → .peer 2 va ∈ o.waits →
      let failed := s.onOp n fun p => { p with res := [4, 0, 0, 0], waits := [] }
      (∀ remote ecc, remote ≠ 0 → exec (.accessFault n remote ecc) s = .next failed) ∧
      (2 ^ 22 < (s.core o.core).clk - o.clk → exec (.tier2Timeout n) s = .next failed))) ∧
  (∀ (s : State) (ctx : Nat) (c : Ctx) (b : CtxBlock) (r : LogRec), s.ctx? ctx = some c → c.blk = some b →
    (s.logHeld ctx = true → s.faultLog ctx r = { s with logWait := s.logWait ++ [(ctx, r.bytes)] }) ∧
    let goes := s.logHeld ctx = false ∧ ∀ e ∈ s.logWait, e.1 ≠ ctx
    (goes → (c.flogTail - c.flogHead).toNat < b.flogn → s.faultLog ctx r =
      ((s.homeWrite {} (b.flog + 64 * (c.flogTail.toNat % b.flogn)) r.bytes).onCtx ctx fun c =>
        { c with flogTail := c.flogTail + 1 }).raiseIrq 1) ∧
    (goes → b.flogn ≤ (c.flogTail - c.flogHead).toNat →
      s.faultLog ctx r = s.onCtx ctx fun c => { c with flogovf := c.flogovf + 1 })) ∧
  ∀ r : LogRec, let word (at_ n : Nat) : Nat := leNat ((r.bytes.drop at_).take n)
    r.bytes.length = 64 ∧
    word 0 4 = (r.kind + (if r.exited then 2 ^ 8 else 0) + (if r.imp then 2 ^ 9 else 0)) % 2 ^ 32 ∧
    word 4 4 = r.causes % 2 ^ 32 ∧ word 8 4 = r.grid % 2 ^ 32 ∧ word 12 4 = r.shid % 2 ^ 32 ∧ word 16 4 = r.wg.1 % 2 ^ 32 ∧
    word 20 4 = r.wg.2.1 % 2 ^ 32 ∧ word 24 4 = r.wg.2.2 % 2 ^ 32 ∧ word 28 4 = r.core % 2 ^ 32 ∧ word 32 8 = r.pc % 2 ^ 64 ∧
    word 40 8 = r.addr % 2 ^ 64 ∧ word 48 8 = r.rgnpc % 2 ^ 64 ∧ word 56 4 = r.rgncnt % 2 ^ 32 ∧ word 60 4 = 0

/-- R169, R170: a page moves: selected, with the frame that the event names (log 58), where the context's migration log has
room for the records of all its moves; drained once nothing is past the hold point, copied unless its stack is in
self-refresh, remapped and released; it is abandoned on an uncorrectable error or on a leaf changed but for A and D
(log 56); each move is logged, and the frame given up is reported. -/
def Obligations.Migrations : Prop :=
  (∀ (s : State) (ctx page : Nat) (dest : FrameRef) (c : Ctx) (ttb : Nat) (leaf : DWord) (pte : Nat), s.ctx? ctx = some c →
    s.ttb ctx = some ttb → s.walk ttb (page * 65536) = .leaf leaf pte false → s.walkHeld ttb (page * 65536) = none →
    let old := s.place leaf false (page * 65536)
    let new : Loc := { tier := dest.tier, peer := dest.peer, addr := dest.addr / 65536 * 65536 }
    page < 2 ^ 33 → leaf.getLsbD 9 = true → c.migb ≠ 0 → c.dying = false → c.mlogRoom (s.moves ctx) = true → s.migration? ctx page = none →
    movable old.tier new.tier = true → (new.tier = 0 → s.usableHbm new.addr 65536 = true) →
    exec (.migrationSelect ctx page dest) s = .next (({ s with
        fresh := s.fresh + 1
        migrations := s.migrations ++ [({ ctx := ctx, page := page, pte := pte, leaf := leaf, old := old, new := new
                                          state := .drain, seq := s.fresh } : Migration)] } : State).onCtx ctx fun c => { c with migb := c.migb - 1 })) ∧
  ∀ (s : State) (ctx page : Nat) (m : Migration), s.migration? ctx page = some m → m.ctx = ctx → m.page = page →
    (m.state = .drain → s.past m = true → exec (.migrationDrained ctx page) s = .next s) ∧
    (m.state = .drain → s.past m = false → ∃ t, exec (.migrationDrained ctx page) s = .next t ∧ t.mem = s.mem ∧
      t.migration? ctx page = some { m with state := .copy }) ∧
    (∀ ok data, m.state = .copy → (ok = true → m.new.tier = 0 → data.length = 65536) →
      (m.old.tier = 0 → s.heldAt true m.old.addr = false) → (m.new.tier = 0 → s.heldAt true m.new.addr = false) → s.heldAt false m.pte = false →
      let u := if m.old.tier = 0 then s.settleFrame m.old.addr else s
      let lost := ok = false ∨ (m.old.tier = 0 ∧ u.badFrame m.old.addr = true)
      let changed := (u.peek64 m.pte) &&& ~~~0xC00 ≠ m.leaf &&& ~~~0xC00
      ∃ t : State, exec (.migrationCopyDone ctx page ok data) s = .next t.thaw ∧
        (t.thaw.migration? ctx page).map (fun x => { x with seq := m.seq }) = some { m with
          state := if lost ∨ changed then .releaseOld else .remap
          stat := if lost then 1 else if changed then 2 else m.stat } ∧
        (∀ r, t.migration? ctx page = some r → if lost ∨ changed then s.fresh ≤ r.seq else r.seq = m.seq) ∧
        (¬lost → ¬changed → m.new.tier = 0 → ∀ j, (h : j < data.length) → Store.get t.mem (m.new.addr + j) = data[j])) ∧
    (m.state = .remap → s.heldAt false m.pte = false → m.new.tier < 4 → m.new.addr / 65536 < 2 ^ 36 →
      ∃ t, exec (.migrationRemapDone ctx page) s = .next t ∧ (t.migration? ctx page).map (fun x => { x with seq := m.seq }) = some { m with state := .release } ∧
        (∀ r, t.migration? ctx page = some r → s.fresh ≤ r.seq) ∧
        pteTier (t.peek64 m.pte) = m.new.tier ∧ pteFrame (t.peek64 m.pte) = m.new.addr / 65536 ∧
        t.peek64 m.pte &&& 0xF9F = s.peek64 m.pte &&& 0xF9F ∧
        ∀ a x, x ∈ t.tlb a → x.covers ctx (page * 65536) = false) ∧
    ((s.mlogFull ctx = true ∨ s.mlogHeld ctx = true) → exec (.migrationReleaseDone ctx page) s = .next s) ∧
    (∀ c b, s.ctx? ctx = some c → c.blk = some b → s.mlogFull ctx = false → s.mlogHeld ctx = false →
      (m.state = .release ∧ s.reading m.old = false ∧ s.unsent m m.new = false) ∨
        (m.state = .releaseOld ∧ s.unsent m m.old = false) →
      ∃ t, exec (.migrationReleaseDone ctx page) s = .next t ∧ t.migration? ctx page = none ∧
        (t.ctx? ctx).map (fun c => c.mlogTail) = some (c.mlogTail + 1) ∧
        t.reports.getLast? = some (.frameFree (if m.state = .release then m.old else m.new)))

/-! ### Link, host and platform -/

/-- R194, R196, R267, R349, R350, R354, R360: answers of the host's address service, a page it refuses failing every access
that waits for it (log 74); requests of a peer, or of the host, which needs no window (log 76): outside the windows refused,
else served at the home L2, or kept in arrival order while they are held (log 57); a block read past the block map answers
status 3, one of a block in the windows its scale and elements, or, where it only translates (R272), the status alone; one that is
held waits with the windows of its arrival; a doorbell announces records, and outside READY is counted. -/
def Obligations.LinkEvents : Prop :=
  (∀ (s : State) (page target : Nat) (w : Bool),
    (page ∈ s.atsReq → exec (.atsCompletion page (.page target w)) s = .next { s with
        atsReq := s.atsReq.filter (· ≠ page), atc := s.atc.put page (target, w) } ∧
      exec (.atsCompletion page .none) s = .next { s with
        atsReq := s.atsReq.filter (· ≠ page), priReq := s.priReq ++ [page] }) ∧
    (page ∈ s.priReq → exec (.priResponse page (.page target w)) s = .next { s with
        priReq := s.priReq.filter (· ≠ page), atc := s.atc.put page (target, w) } ∧
      exec (.priResponse page .none) s = .next (({ s with priReq := s.priReq.filter (· ≠ page) } : State).failPage page)) ∧
    (s.onAts page = false → ∃ t, exec (.atsInvalidate page) s = .next t ∧ t.atc.get? page = none ∧
      ∀ p, p ≠ page → t.atc.get? p = s.atc.get? p)) ∧
  (∀ (s : State) (r : RemoteRequest), let n := remoteSpan r.kind
    let allowed := r.host = true ∨ exported s.xwin r.addr n (remoteReads r.kind) (remoteWrites r.kind) = true
    let goes := s.heldAt false r.addr = false ∧ (∀ e ∈ s.packets, e.1 < s.fresh → stackOf e.2.addr ≠ stackOf r.addr) ∧
      (remoteWrites r.kind = true → s.frozen { tier := 0, peer := 0, addr := r.addr } = false) ∧
      (remoteReads r.kind = true → ∀ a ∈ wordsAt r.addr n, s.unreadable a = false)
    (∀ w off bytes, r.kind = .arrive w off bytes →
      exec (.remoteAccess r) s = .next ((s.agentArrive w off bytes 0).stopCalls)) ∧
    ((∀ w off bytes, r.kind ≠ .arrive w off bytes) → (¬allowed ∨ s.usableHbm r.addr n = false) →
      exec (.remoteAccess r) s = .next (s.report (.ack false []))) ∧
    (allowed → s.usableHbm r.addr n = true → (∀ w off bytes, r.kind ≠ .arrive w off bytes) →
      (s.requestHeld r = true ∨ ∃ e ∈ s.packets, e.1 < s.fresh ∧ stackOf e.2.addr = stackOf r.addr) →
      exec (.remoteAccess r) s = .next { s with fresh := s.fresh + 1, packets := s.packets ++ [(s.fresh, r)] }) ∧
    (allowed → s.usableHbm r.addr n = true → goes →
      (r.kind = .load n → r.addr % 4 + n ≤ 4 → ∃ t,
        exec (.remoteAccess r) s = .next t ∧ t.reports.getLast? = some (.ack true (s.peekBytes r.addr n))) ∧
      (r.kind = .load n → (∀ a ∈ wordsAt r.addr n, s.l2? (lineOf a) = none) → ∃ t,
        exec (.remoteAccess r) s = .next t ∧ t.reports.getLast? = some (.ack true (s.peekBytes r.addr n))) ∧
      (∀ bs, r.kind = .store bs → r.addr % 4 + bs.length ≤ 4 → ∃ t, exec (.remoteAccess r) s = .next t ∧
        t.peekBytes r.addr bs.length = bs ∧ t.reports.getLast? = some (.ack true [])) ∧
      (∀ op ty x e, r.kind = .atomic op ty x e → ∃ t, exec (.remoteAccess r) s = .next t ∧
        t.reports.getLast? = some (.ack true (bytesLe n (leNat (s.peekBytes r.addr n))))) ∧
      ∀ op ty x, r.kind = .reduce op ty x → exec (.remoteAccess r) s =
        .next { s with fresh := s.fresh + 1, packets := s.packets ++ [(s.fresh, r)] })) ∧
  (∀ (s : State) (r : BlockRequest), exec (.peerBlockRead r) s = .next (s.serveBlock s.xwin r)) ∧
  (∀ (s : State) (win : Store 128) (r : BlockRequest), let entry := s.bmbase.toNat + 32 * r.gbn
    let ends (t : State) (x : Report) : Prop := s.serveBlock win r = t.report x
    (s.bmcount.toNat ≤ r.gbn → ends s (.answer [3, 0, 0, 0])) ∧
    (r.gbn < s.bmcount.toNat → exported win entry 32 true false = false → ends s (.ack false [])) ∧
    (r.gbn < s.bmcount.toNat → exported win entry 32 true false = true → ∀ ws, s.blockRead (dispAgent 4096) r.gbn = .held ws →
      s.serveBlock win r = { s with blockWait := s.blockWait ++ [(r, win)] }) ∧
    (r.gbn < s.bmcount.toNat → exported win entry 32 true false = true → ∀ u b,
      s.blockRead (dispAgent 4096) r.gbn = .ok u b →
      (u.blockOk b r.bt r.hdim r.kSize r.vSize = false → ends u (.answer [3, 0, 0, 0])) ∧
      (u.blockOk b r.bt r.hdim r.kSize r.vSize = true → r.look = true → ends u (.answer [0, 0, 0, 0])) ∧
      (u.blockOk b r.bt r.hdim r.kSize r.vSize = true → r.look = false →
        let n := r.hdim * if r.value then r.vSize else r.kSize
        let at_ := (if r.value then valBase b else keyBase b) + r.token % r.bt * n
        (exported win at_ n true false = false → ends u (.ack false [])) ∧
        (exported win at_ n true false = true → ∀ w ws,
          u.engPhys (dispAgent 4096) ((List.range (n / 4)).map fun i => at_ + 4 * i) = .ok w ws →
          ends w (.answer ([0, 0, 0, 0] ++ bytesLe 4 (wd b (if r.value then 5 else 4)) ++ ws.flatMap bytesOf)))))) ∧
  ∀ (s : State) (n : Nat) (t : Word),
    (s.dev = .ready → n < 128 → let x := s.slot n
      let k := (t.toNat + 2 ^ x.rsize - x.rhead % 2 ^ x.rsize) % 2 ^ x.rsize
      ∃ u, exec (.doorbell n t) s = .next u ∧ u.slot n = { x with ann := max x.ann k } ∧ u = { s with slots := u.slots }) ∧
    (s.dev = .hold → exec (.doorbell n t) s = .next { s with lastDb := 1, dbRef := min 255 (s.dbRef + 1) }) ∧
    (s.dev = .bringup → exec (.doorbell n t) s = .next { s with lastDb := 2, dbRef := min 255 (s.dbRef + 1) })

/-- R70, R325, R344, R346 to R348, R354, R356, R359, R360: the management registers: what a write of each leaves, its fields
taken unchecked (log 78), DEVCTL and the commit buffer among them, and what a read of each returns; a context that is
created keeps what R347 does not set to 0 (log 79), once its block can be read (log 57).  A resident context that is
destroyed is killed, and its number is free once nothing of it is outstanding (log 111).  A host read is the model's act (log 93).
R348, R360: writes of a slot's CTL, RBASE and RSIZE are ignored in RUN, and those of slots and contexts outside READY.  That
a restart keeps the records announced is log 77, the model's choice. -/
def Obligations.HostRegisters : Prop :=
  (∀ (s : State) (bits : DWord), ∃ t, exec (.irqClear bits) s = .next t ∧ t = { s with irq := t.irq } ∧
    ∀ j < 6, t.irq.getLsbD j = (s.irq.getLsbD j && !bits.getLsbD j)) ∧
  (∀ (s : State) (n : Nat) (v : DWord), s.dev = .ready → n < 128 → (s.slot n).state ≠ 1 →
    let prio := (v.extractLsb' 16 4).toNat
    let x := { s.slot n with ctxn := (v.extractLsb' 0 12).toNat, prio := prio }
    let ends (i : Instr) (y : Slot) : Prop := ∃ t, exec i s = .next t ∧ t.slot n = y ∧ ∀ m, m ≠ n → t.slot m = s.slot m
    let at_ (state : Nat) : Slot := { x with state := state, waits := [], lost := false, askClk := none }
    (12 ≤ prio → ends (.slotCtlWrite n .ctl v) (at_ 2) ∧ ends (.slotRestart n v) (at_ 2)) ∧
    (prio < 12 → ends (.slotRestart n v) (at_ 1) ∧ ends (.slotCtlWrite n .ctl v) (if v.getLsbD 31 then at_ 1 else x)) ∧
    ends (.slotCtlWrite n .rbase v) { s.slot n with rbase := v } ∧
    ends (.slotCtlWrite n .rsize v) { s.slot n with rsize := (v.extractLsb' 0 5).toNat }) ∧
  (∀ (s : State) (n : Nat) (v : DWord), ((s.slot n).state = 1 ∨ s.dev ≠ .ready) →
    (∀ r, exec (.slotCtlWrite n r v) s = .next s) ∧ exec (.slotRestart n v) s = .next s) ∧
  (∀ (s : State) (c : Nat) (v : DWord), s.dev ≠ .ready →
    (∀ i ∈ [Instr.ctxCreate c, .ctxDrain c, .ctxDestroy c, .migbWrite c v, .instbWrite c v, .ctxAxfClear c v,
      .flogptrWrite c v, .mlogptrWrite c v], exec i s = .next s) ∧
    (c < 4096 → exec (.registerWrite (0x20000 + 64 * c) v) s = .next s)) ∧
  (∀ (s : State) (c : Nat), s.dev = .ready → c < 4096 → let x := s.ctxRegs c
    (x.state = 0 → s.blockHeld x.csb.toNat = false → ∃ t y, exec (.ctxCreate c) s = .next t ∧ t.ctx? c = some y ∧ y.state = 1 ∧ y.axf = 0 ∧ y.flogTail = 0 ∧
      y.mlogTail = 0 ∧ y.killed = false ∧ y.csb = x.csb ∧ y.migb = x.migb ∧ y.instb = x.instb ∧
      y.blk = (s.blockAt x.csb.toNat).map fun p => p.1) ∧
    (x.state ≠ 0 → ∃ t, exec (.ctxDestroy c) s = .next t ∧ (∀ e ∈ t.slots, e.2.ctxn = c → e.2.state ≠ 1) ∧
      (s.residentCtx c = true → t.reports.getLast? = some (.killed c)) ∧
      (t.ctxBusy c = true → (t.ctx? c).map (fun y => y.dying) = some true) ∧
      (t.ctxBusy c = false → (t.ctxRegs c).state = 0 ∧ ∀ e ∈ t.grids, e.2.ctx ≠ c) ∧
      (t.ctxBusy c = true ↔ (∃ e ∈ t.wgs, e.2.ctx = c) ∨ (∃ e ∈ t.calls, e.2.ctx = c) ∨ (∃ e ∈ t.installs, e.2.ctx = c) ∨
        (∃ m ∈ t.migrations, m.ctx = c) ∨ (∃ e ∈ t.logWait, e.1 = c) ∨ ∃ e ∈ t.eccLog, e.1 = c)) ∧
    ∀ v : DWord,
      let ends (i : Instr) (y : Ctx) : Prop := exec i s = .next { s with ctxs := s.ctxs.put c y }
      ends (.migbWrite c v) { x with migb := BitVec.ofNat 64 (min (2 ^ 64 - 1) (x.migb.toNat + v.toNat)) } ∧
      ends (.instbWrite c v) { x with instb := BitVec.ofNat 64 (min (2 ^ 64 - 1) (x.instb.toNat + v.toNat)) } ∧
      ends (.ctxAxfClear c v) { x with axf := x.axf &&& ~~~(v.extractLsb' 0 3) } ∧
      (let h := v.extractLsb' 32 32
       ((h - x.flogHead).toNat ≤ (x.flogTail - x.flogHead).toNat → ends (.flogptrWrite c v) { x with flogHead := h }) ∧
       ((x.flogTail - x.flogHead).toNat < (h - x.flogHead).toNat → ends (.flogptrWrite c v) x) ∧
       ((h - x.mlogHead).toNat ≤ (x.mlogTail - x.mlogHead).toNat → ends (.mlogptrWrite c v) { x with mlogHead := h }) ∧
       ((x.mlogTail - x.mlogHead).toNat < (h - x.mlogHead).toNat → ends (.mlogptrWrite c v) x)) ∧
      ends (.registerWrite (0x20000 + 64 * c) v) { x with csb := v }) ∧
  (∀ (s : State) (w : Nat) (g : Wg) (x : Ctx), s.wg? w = some g → (∀ e ∈ s.wgs, e.2.ctx = g.ctx → e.1 = w) →
    s.ctx? g.ctx = some x → x.dying = true → (s.freeWg w).ctxBusy g.ctx = false →
    ((s.freeWg w).ctxRegs g.ctx).state = 0 ∧ ∀ e ∈ (s.freeWg w).grids, e.2.ctx ≠ g.ctx) ∧
  (∀ (s : State) (v : DWord),
    ((∀ e ∈ s.ctxs, e.2.state = 0) → exec (.registerWrite 0 v) s = .next { s with accid := v &&& 0x9FFF#64 }) ∧
    ((∃ e ∈ s.ctxs, e.2.state ≠ 0) → exec (.registerWrite 0 v) s = .next s) ∧
    exec (.registerWrite 8 v) s = .next { s with bmbase := v } ∧
    exec (.registerWrite 0x10 v) s = .next { s with bmcount := v } ∧
    exec (.registerWrite 0x18 v) s = .next { s with fqbase := v } ∧
    (∀ k < 64, exec (.registerWrite (0x61000 + 8 * k) v) s =
      .next { s with xgrp := s.xgrp.set k (v &&& 0x8000FF00FFFF03FF#64)
                     xports := if s.xgrp.get k &&& 0x80000000FFFF03FF#64 = v &&& 0x80000000FFFF03FF#64 then s.xports else s.xports.del k }) ∧
    (v.extractLsb' 0 2 = 1#2 → exec (.registerWrite 0x100008 v) s = exec .reboot s) ∧
    (v.extractLsb' 0 2 = 2#2 → exec (.registerWrite 0x100008 v) s = exec .commit s) ∧
    (v.extractLsb' 0 2 = 0#2 ∨ v.extractLsb' 0 2 = 3#2 → exec (.registerWrite 0x100008 v) s = .next s) ∧
    (∀ k < 8192, ∃ t, exec (.registerWrite (0x180000 + 8 * k) v) s = .next t ∧ t = { s with buffer := t.buffer } ∧
      (∀ j < 8, Store.get t.buffer (8 * k + j) = v.extractLsb' (8 * j) 8) ∧
      ∀ a, (a < 8 * k ∨ 8 * k + 8 ≤ a) → Store.get t.buffer a = Store.get s.buffer a) ∧
    ∀ k < 16, exec (.registerWrite (0x60000 + 16 * k) v) s = .next { s with
        xwin := s.xwin.set k ((s.xwin.get k).extractLsb' 64 64 ++ (v &&& 0x000FFFFFFFFF0000#64)) } ∧
      exec (.registerWrite (0x60008 + 16 * k) v) s = .next { s with
        xwin := s.xwin.set k ((v &&& 0x000FFFFFFFFF0003#64) ++ (s.xwin.get k).extractLsb' 0 64) }) ∧
  ∀ s : State, let r (off lo len : Nat) : Nat := (s.barRead off).toNat / 2 ^ lo % 2 ^ len
    (∀ off, s.hostRead off = { s with reports := s.reports ++ [.read off (s.barRead off)] }) ∧
    (s.barRead 0 = s.accid ∧ s.barRead 8 = s.bmbase ∧ s.barRead 0x10 = s.bmcount ∧ s.barRead 0x18 = s.fqbase) ∧
    (r 0x20 32 12 = s.fqHead % 4096 ∧ r 0x20 0 12 = s.fqTail % 4096 ∧ s.barRead 0x28 = 0 ∧ s.barRead 0x30 = s.irq.setWidth 64) ∧
    (∀ n < 128, let x := s.slot n
      let at_ := 0x10000 + 64 * n
      (x.state < 4 → x.prio < 16 → x.ctxn < 4096 → r at_ 24 2 = x.state ∧ r at_ 16 4 = x.prio ∧ r at_ 0 12 = x.ctxn) ∧
      s.barRead (at_ + 8) = x.rbase ∧ (x.rsize < 32 → r (at_ + 0x10) 0 5 = x.rsize) ∧
      s.barRead (at_ + 0x18) = BitVec.ofNat 64 x.rhead) ∧
    (∀ c < 4096, let x := s.ctxRegs c
      let at_ := 0x20000 + 64 * c
      s.barRead at_ = x.csb ∧ (x.state < 4 → r (at_ + 8) 8 2 = x.state) ∧ s.barRead (at_ + 0x10) = x.migb ∧
      s.barRead (at_ + 0x18) = x.instb ∧ s.barRead (at_ + 0x20) = x.flogovf ∧ r (at_ + 0x28) 0 3 = x.axf.toNat ∧
      s.barRead (at_ + 0x30) = x.flogHead ++ x.flogTail ∧ s.barRead (at_ + 0x38) = x.mlogHead ++ x.mlogTail) ∧
    (∀ k < 16, s.barRead (0x60000 + 16 * k) = (s.xwin.get k).extractLsb' 0 64 ∧
      s.barRead (0x60008 + 16 * k) = (s.xwin.get k).extractLsb' 64 64) ∧
    (∀ g < 64, s.barRead (0x61000 + 8 * g) = s.xgrp.get g) ∧
    (s.log.length < 2 ^ 16 → s.dbRef < 256 → s.lastDb < 16 → s.fstage < 16 →
      r 0x100000 32 16 = s.log.length ∧ r 0x100000 16 8 = s.dbRef ∧ r 0x100000 12 4 = s.lastDb ∧ r 0x100000 8 4 = s.fstage ∧
      (s.dev = .ready → r 0x100000 0 3 = 1) ∧ (s.dev = .hold → r 0x100000 0 3 = 2) ∧ (s.dev = .bringup → r 0x100000 0 3 = 0)) ∧
    (r 0x100010 32 32 = s.flash.seq.toNat ∧
      r 0x100010 0 4 = match s.cmt with
        | .idle => 0 | .busy => 1 | .ok => 2 | .badsig => 3 | .badseq => 4 | .badformat => 5 | .full => 6 | .flashfail => 7) ∧
    (∀ z < 8, r 0x100018 (8 * z) 8 = (s.tzone.get z).toNat) ∧
    (∀ j < 64, ∀ i < 8, r (0x110000 + 8 * j) (8 * i) 8 = (s.descr.get (8 * j + i)).toNat) ∧
    ∀ off, (off % 8 ≠ 0 ∨ (0x38 ≤ off ∧ off < 0x10000) ∨ (0x12000 ≤ off ∧ off < 0x20000) ∨ (0x60100 ≤ off ∧ off < 0x61000) ∨
      (0x61200 ≤ off ∧ off < 0x100000)) → s.barRead off = 0

/-- R358, R359, R360, R364, R365, R371: power, bring-up, reboots and commits: the fallow tier and the configuration flash
are kept, everything else is as at power-on (log 1); a commit is written beside the copy in force, and one that is being
written goes on over a reboot (log 87); a device that stage 6 finds unfit is held with the descriptor of log 84.
R362: a stage's summary ends its records, of a stage that fails too; the log keeps its first 4,096 records (log 110).
R361, R370: before stage 1 of bring-up passes every request is answered with an error; after it each by its answer:
the digest and a portion of the certificate chain, the two algorithms where they are offered, the blocks of the measurements
asked for as they are then, a digest of them for a challenge, a nonce, and a signature over the request and the answer.  The
codes and the layout are those of SPDM 1.2, not of the spec, and the bodies' other bytes are open (log 13). -/
def Obligations.Platform : Prop :=
  ((∀ (s : State) (d : DevState), let t := s.cold d
    t.dev = d ∧ t.flash = s.flash ∧ t.sheafs = [] ∧ t.wgs = [] ∧ t.ctxs = [] ∧ t.slots = [] ∧ t.ops = [] ∧ t.l2 = [] ∧
    t.irq = 0 ∧ (∀ a, isFallow a = true → Store.get t.mem a = Store.get s.mem a) ∧
    (∀ a, isFallow a = false → Store.get t.mem a = 0)) ∧
  (∀ s : State, s.dev = .off → exec .powerOn s = .next (s.cold .bringup)) ∧
  (∀ s : State, exec .powerLoss s = .next (s.cold .off)) ∧
  (∀ (s : State) (z : Nat), ∃ t, exec (.thermalTrip z) s = .next t ∧ t.dev = .off ∧ t.reports = s.reports ++ [.trip z]) ∧
  (∀ s : State, let out := { s.cold .bringup with cmt := s.cmt, flashNext := s.flashNext }
    (s.dev = .hold → exec .reboot s = .next out) ∧
    (s.dev = .ready → (∀ e ∈ s.ctxs, e.2.state = 0) → exec .reboot s = .next out) ∧
    (s.dev = .ready → (∃ e ∈ s.ctxs, e.2.state ≠ 0) → exec .reboot s = .next s)) ∧
  (∀ (s : State) (rs : List UnitResult), s.dev = .bringup → let r := s.flash.stages rs
    let end_ (k : Nat) (failed : Bool) : UnitResult :=
      { stage := k, result := if failed then 1 else 0, kind := 0, unit := 0, detail := 0 }
    (∀ k, (s.flash.stage rs k).1.getLast? = some (end_ k (s.flash.stage rs k).2)) ∧
    (s.stage1 = true → r.2 = 1 → exec (.bringupComplete rs) s = .next s) ∧
    (¬(s.stage1 = true ∧ r.2 = 1) → ∃ t, exec (.bringupComplete rs) s = .next t ∧
      (t.dev = .hold → ∀ a, Store.get t.descr a = if a = 7 then 0x80 else 0) ∧
      (r.2 ≠ 0 → t.dev = .hold ∧ t.fstage = r.2 ∧ t.log = r.1.take 4096) ∧
      (r.2 = 0 → s.flash.unfit = true → t.dev = .hold ∧ t.fstage = 6 ∧ t.log = (r.1 ++ [end_ 6 true]).take 4096) ∧
      (r.2 = 0 → s.flash.unfit = false → t.dev = .ready ∧ t.fstage = 0 ∧ t.descr = s.flash.descriptor ∧
        t.log = (r.1 ++ [end_ 6 false]).take 4096)) ∧
    s.passStage1.attests = true ∧ s.passStage1 = { s with stage1 := true, log := s.passStage1.log }) ∧
  (∀ s : State, (s.dev = .ready ∨ s.dev = .hold) → s.cmt ≠ .busy →
    (∀ e, s.commitOf = .error e → exec .commit s = .next { s with cmt := e }) ∧
    (∀ f, s.commitOf = .ok f → exec .commit s = .next { s with cmt := .busy, flashNext := some f } ∧
      f.seq = s.flash.seq + 1 ∧ (∃ n, s.cmtBody = some n ∧ Config.falconVerifies s.flash.commitKey (s.cmtBytes 0 (n + 2))
        (s.cmtBytes (n + 2) (s.cmtField n 2)) = true) ∧ s.cmtField 8 8 = Config.serial.toNat ∧
      s.flash.entries <+: f.entries)) ∧
  ∀ (s : State) (f : Flash), s.flashNext = some f →
    exec (.commitComplete true) s = .next { s with flash := f, flashNext := none, cmt := .ok } ∧
    exec (.commitComplete false) s = .next { s with flashNext := none, cmt := .flashfail }) ∧
  (∀ (s : State) (req : List Byte), s.dev ≠ .off →
    let answers (i : Instr) (code : Nat) (body : List Byte) : Prop :=
      (s.attests = false → exec i s = .next (s.report (.spdm 0x7F [5, 0]))) ∧
      (s.attests = true → exec i s = .next (s.report (.spdm code body)))
    answers (.getVersion req) 0x04 [0, 0, 0, 1, 0, 0x12] ∧
    (∃ (exp : Byte) (flags : Word) (sizes : List Byte), sizes.length = 8 ∧ flags &&& 0xFFFBFFDE#32 = 0x16#32 ∧
      answers (.getCapabilities req) 0x61 ([0, 0, 0, exp, 0, 0] ++ bytesOf flags ++ sizes)) ∧
    (let na := ((req[28]?).getD 0).toNat
     let nh := ((req[29]?).getD 0).toNat
     let asym := if offers req 32 na Config.spdmFalcon then bytesOf Config.spdmFalcon else []
     let hash := if offers req (32 + 4 * na) nh Config.spdmShake then bytesOf Config.spdmShake else []
     ∃ six : List Byte, six.length = 6 ∧ answers (.negotiateAlgorithms req) 0x63 ([0, 0] ++
       bytesLe 2 (36 + asym.length + hash.length) ++ six ++ List.replicate 20 0 ++ bytesLe 1 (asym.length / 4) ++
       bytesLe 1 (hash.length / 4) ++ [0, 0] ++ asym ++ hash)) ∧
    answers (.getDigests req) 0x01 ([0, 1] ++ digest Config.certificateChain) ∧
    (let rest := Config.certificateChain.drop (leNat ((req.drop 4).take 2))
     let part := rest.take (leNat ((req.drop 6).take 2))
     ∀ k, req[2]? = some k →
       (k.toNat % 16 = 0 → answers (.getCertificate req) 0x02
         ([0, 0] ++ bytesLe 2 part.length ++ bytesLe 2 (rest.length - part.length) ++ part)) ∧
       (k.toNat % 16 ≠ 0 → answers (.getCertificate req) 0x7F [1, 0])) ∧
    (let signs (i : Instr) (code : Nat) (signed : Bool) (body : List Byte) : Prop :=
       (s.attests = false → exec i s = .next (s.report (.spdm 0x7F [5, 0]))) ∧
       (s.attests = true → exec i s = .next ({ s with fresh := s.fresh + 1 }.report
         (.spdm code (body ++ if signed then Config.falconSign (req ++ body) else []))))
     let block (i : Nat) : List Byte :=
       [BitVec.ofNat 8 i, 1, 67, 0, Config.spdmValueType i, 64, 0] ++ digest (s.measured i)
     let nonce : List Byte := bytesLe 32 (Config.spdmNonce s.fresh).toNat
     let free := (Config.spdmOpaque req).take 65535
     let extra : List Byte := bytesLe 2 free.length ++ free
     (∃ two : List Byte, two.length = 2 ∧ ∀ k, req[3]? = some k →
       signs (.challenge req) 0x03 true (two ++ digest Config.certificateChain ++ nonce ++
         (if k = 0 then [] else digest ((if k = 0xFF then [1, 2, 3, 4, 5] else if k = 1 then Config.spdmTcb else []).flatMap
           block)) ++ extra)) ∧
     ∃ slot : Byte, ∀ total l, (∃ k, req[3]? = some k ∧
         ((1 ≤ k.toNat ∧ k.toNat ≤ 5 ∧ total = 0 ∧ l = [k.toNat]) ∨ (k = 0xFF ∧ total = 0 ∧ l = [1, 2, 3, 4, 5]) ∨
           (k = 0 ∧ total = 5 ∧ l = []))) →
       signs (.getMeasurements req) 0x60 (((req[2]?).getD 0).getLsbD 0)
         ([total, slot] ++ bytesLe 1 l.length ++ bytesLe 3 (71 * l.length) ++ l.flatMap block ++ nonce ++ extra)) ∧
    (∀ msg, (digest msg).length = 64) ∧
    answers (.spdmUnsupported req) 0x7F [7, (req[1]?).getD 0])

/-! ### The invariant -/

/-- Every step keeps the canonical form of memory, the model's own way to hold bytes (log 1). -/
def Obligations.InvKept : Prop := ∀ s t, s.Inv → step s = .next t → t.Inv

end Statements
end

