-- ==== Sys2Proof/Laws/Maps.lean ====
section
/-! SUPPORT. Laws of stores and tables: what reads after a write give, and that every operation keeps the canonical form.
None of the read laws needs the canonical form. -/

namespace Sys2Proof.Machine

/-! ### Reads after writes -/

@[simp] theorem Store.get_nil {w : Nat} (a : Nat) : Store.get ([] : Store w) a = 0#w := rfl

theorem Store.get_ins_same {w : Nat} (s : Store w) (a : Nat) (x : BitVec w) : (s.ins a x).get a = x := by
  induction s with
  | nil => simp [Store.ins, Store.get]
  | cons e r ih =>
    obtain ⟨k, v⟩ := e
    simp only [Store.ins]
    split
    · simp [Store.get]
    · split
      · simp [Store.get]
      · have : k ≠ a := fun h => by simp_all
        simp [Store.get, this, ih]

theorem Store.get_ins_other {w : Nat} (s : Store w) {a b : Nat} (x : BitVec w) (h : a ≠ b) :
    (s.ins a x).get b = s.get b := by
  induction s with
  | nil => simp [Store.ins, Store.get, h]
  | cons e r ih =>
    obtain ⟨k, v⟩ := e
    simp only [Store.ins]
    split
    · simp [Store.get, h]
    · split
      · subst_vars
        simp [Store.get, h]
      · simp [Store.get, ih]

theorem Store.get_erase {w : Nat} (s : Store w) (a b : Nat) :
    Store.get (s.filter fun e => e.1 ≠ a) b = if a = b then 0#w else s.get b := by
  induction s with
  | nil => simp [Store.get]
  | cons e r ih =>
    obtain ⟨k, v⟩ := e
    by_cases hk : k = a
    · subst hk
      by_cases hb : k = b <;> simp_all [List.filter, Store.get]
    · by_cases hb : k = b
      · subst hb
        have : ¬a = k := fun h => hk h.symm
        simp_all [List.filter, Store.get]
      · simp_all [List.filter, Store.get]

/-- A read after a write gives the value written, in every state. -/
@[simp] theorem Store.get_set_same {w : Nat} (s : Store w) (a : Nat) (x : BitVec w) : (s.set a x).get a = x := by
  simp only [Store.set]
  split
  · rw [Store.get_erase]; simp_all
  · exact s.get_ins_same a x

/-- A write leaves every other address alone. -/
theorem Store.get_set_other {w : Nat} (s : Store w) {a b : Nat} (x : BitVec w) (h : a ≠ b) :
    (s.set a x).get b = s.get b := by
  simp only [Store.set]
  split
  · rw [Store.get_erase]; simp [h]
  · exact s.get_ins_other x h

theorem Store.get_set {w : Nat} (s : Store w) (a b : Nat) (x : BitVec w) :
    (s.set a x).get b = if a = b then x else s.get b := by
  by_cases h : a = b
  · subst h; simp
  · simp [h, s.get_set_other x h]

/-- A run of writes: each of its addresses reads as the value written, every other as before. -/
theorem Store.get_blit {w : Nat} (l : List (BitVec w)) (s : Store w) (a b : Nat) :
    (Store.blit s a l).get b = if a ≤ b ∧ b < a + l.length then l.getD (b - a) 0#w else s.get b := by
  induction l generalizing s a with
  | nil =>
    simp only [Store.blit, List.length_nil]
    rw [if_neg (by omega)]
  | cons x xs ih =>
    simp only [Store.blit, ih, List.length_cons]
    by_cases h : a = b
    · subst h
      have h1 : ¬(a + 1 ≤ a) := by omega
      simp [h1]
    · by_cases h2 : a + 1 ≤ b ∧ b < a + 1 + xs.length
      · have h3 : a ≤ b ∧ b < a + (xs.length + 1) := by omega
        obtain ⟨n, hn⟩ : ∃ n, b - a = n + 1 := ⟨b - a - 1, by omega⟩
        have h4 : b - (a + 1) = n := by omega
        simp [h2, h3, hn, h4]
      · have h3 : ¬(a ≤ b ∧ b < a + (xs.length + 1)) := by omega
        rw [if_neg h2, if_neg h3, Store.get_set_other _ _ h]

@[simp] theorem Table.get?_nil {α : Type} (a : Nat) : Table.get? ([] : Table α) a = none := rfl

theorem Table.get?_put {α : Type} (t : Table α) (a b : Nat) (x : α) :
    (t.put a x).get? b = if a = b then some x else t.get? b := by
  induction t with
  | nil => simp [Table.put, Table.get?]
  | cons e r ih =>
    obtain ⟨k, v⟩ := e
    simp only [Table.put]
    split
    · rename_i h0
      subst h0
      by_cases h : k = b <;> simp_all [Table.get?]
    · simp only [Table.get?, ih]
      by_cases h : k = b
      · subst h
        have : ¬a = k := fun h => by simp_all
        simp [this]
      · simp [h]

@[simp] theorem Table.get?_put_same {α : Type} (t : Table α) (a : Nat) (x : α) : (t.put a x).get? a = some x := by
  simp [Table.get?_put]

theorem Table.get?_upd {α : Type} (t : Table α) (a b : Nat) (g : α → α) :
    (t.upd a g).get? b = if a = b then (t.get? a).map g else t.get? b := by
  induction t with
  | nil => simp [Table.upd, Table.get?]
  | cons e r ih =>
    obtain ⟨k, v⟩ := e
    by_cases h : k = a
    · subst h
      by_cases hb : k = b <;> simp [Table.upd, Table.get?, hb]
    · by_cases hb : k = b
      · subst hb
        have : ¬a = k := fun h' => h h'.symm
        simp [Table.upd, Table.get?, h, this]
      · by_cases hab : a = b <;> simp_all [Table.upd, Table.get?]

@[simp] theorem Table.get?_upd_same {α : Type} (t : Table α) (a : Nat) (g : α → α) :
    (t.upd a g).get? a = (t.get? a).map g := by simp [Table.get?_upd]

theorem Table.get?_del {α : Type} (t : Table α) (a b : Nat) :
    (t.del a).get? b = if a = b then none else t.get? b := by
  induction t with
  | nil => simp [Table.del, Table.get?]
  | cons e r ih =>
    obtain ⟨k, v⟩ := e
    simp only [Table.del] at ih
    by_cases hk : k = a
    · subst hk
      by_cases hb : k = b <;> simp_all [Table.del, List.filter, Table.get?]
    · by_cases hb : k = b
      · subst hb
        have : ¬a = k := fun h => hk h.symm
        simp_all [Table.del, List.filter, Table.get?]
      · simp_all [Table.del, List.filter, Table.get?]

/-! ### The canonical form -/

theorem Store.above_mono {w : Nat} (s : Store w) {lo hi : Nat} (h : lo ≤ hi) (hs : Store.above (some hi) s = true) :
    Store.above (some lo) s = true := by
  cases s with
  | nil => rfl
  | cons e r =>
    obtain ⟨k, v⟩ := e
    simp only [Store.above, Bool.and_eq_true, decide_eq_true_eq] at hs ⊢
    exact ⟨⟨by omega, hs.1.2⟩, hs.2⟩

theorem Store.above_none {w : Nat} (s : Store w) {lo : Nat} (hs : Store.above (some lo) s = true) :
    Store.above none s = true := by
  cases s with
  | nil => rfl
  | cons e r =>
    obtain ⟨k, v⟩ := e
    simp only [Store.above, Bool.and_eq_true, decide_eq_true_eq] at hs ⊢
    exact ⟨⟨trivial, hs.1.2⟩, hs.2⟩

theorem Store.above_filter {w : Nat} (p : Nat × BitVec w → Bool) (s : Store w) (lo : Option Nat)
    (hs : Store.above lo s = true) : Store.above lo (s.filter p) = true := by
  induction s generalizing lo with
  | nil => rfl
  | cons e r ih =>
    obtain ⟨k, v⟩ := e
    simp only [Store.above, Bool.and_eq_true, decide_eq_true_eq] at hs
    simp only [List.filter]
    split
    · simp only [Store.above, Bool.and_eq_true, decide_eq_true_eq]
      exact ⟨hs.1, ih _ hs.2⟩
    · apply ih
      cases lo with
      | none => exact Store.above_none r hs.2
      | some l => exact Store.above_mono r (by simp at hs; omega) hs.2

theorem Store.above_ins {w : Nat} (s : Store w) (a : Nat) (x : BitVec w) (hx : x ≠ 0#w) (lo : Option Nat)
    (ha : ∀ l, lo = some l → l < a) (hs : Store.above lo s = true) : Store.above lo (s.ins a x) = true := by
  induction s generalizing lo with
  | nil =>
    cases lo with
    | none => simp [Store.ins, Store.above, hx]
    | some l => simp [Store.ins, Store.above, hx, ha l rfl]
  | cons e r ih =>
    obtain ⟨k, v⟩ := e
    simp only [Store.above, Bool.and_eq_true, decide_eq_true_eq] at hs
    have front (t : Store w) (ht : Store.above (some a) t = true) : Store.above lo ((a, x) :: t) = true := by
      cases lo with
      | none => simp [Store.above, hx, ht]
      | some l => simp [Store.above, hx, ht, ha l rfl]
    simp only [Store.ins]
    split
    · rename_i hak
      exact front _ (by simp [Store.above, hak, hs.1.2, hs.2])
    · split
      · rename_i hak
        subst hak
        exact front _ hs.2
      · simp only [Store.above, Bool.and_eq_true, decide_eq_true_eq]
        exact ⟨hs.1, ih _ (fun l hl => by cases hl; omega) hs.2⟩

/-- A write keeps the canonical form. -/
theorem Store.wf_set {w : Nat} (s : Store w) (a : Nat) (x : BitVec w) (hs : s.wf = true) : (s.set a x).wf = true := by
  simp only [Store.set]
  split
  · exact Store.above_filter _ s none hs
  · rename_i hx
    exact Store.above_ins s a x hx none (fun _ h => by cases h) hs

theorem Store.wf_filter {w : Nat} (p : Nat × BitVec w → Bool) (s : Store w) (hs : s.wf = true) :
    Store.wf (s.filter p) = true := Store.above_filter p s none hs

theorem Store.wf_clear {w : Nat} (s : Store w) (lo hi : Nat) (hs : s.wf = true) : (s.clear lo hi).wf = true :=
  Store.wf_filter _ s hs

theorem Store.wf_blit {w : Nat} (l : List (BitVec w)) (s : Store w) (a : Nat) (hs : s.wf = true) :
    (Store.blit s a l).wf = true := by
  induction l generalizing s a with
  | nil => exact hs
  | cons x xs ih => exact ih _ _ (s.wf_set a x hs)

/-- In the canonical form equal readings are equal data. -/
theorem Store.get_below {w : Nat} (s : Store w) (lo a : Nat) (ha : a ≤ lo) (hs : Store.above (some lo) s = true) :
    s.get a = 0#w := by
  induction s generalizing lo with
  | nil => rfl
  | cons e r ih =>
    obtain ⟨k, v⟩ := e
    simp only [Store.above, Bool.and_eq_true, decide_eq_true_eq] at hs
    have : k ≠ a := by omega
    simp only [Store.get, this, if_false]
    exact ih k (by omega) hs.2

end Sys2Proof.Machine
end

