-- ==== Sys2Proof/Laws/State.lean ====
section
/-! SUPPORT. What each update of a state and of a sheaf leaves in each field, by `rfl`. -/

namespace Sys2Proof.Machine

/-! ### State.onSheaf -/

@[simp] theorem State.onSheaf_sheafs (s : State) (k : Nat) (g : Sheaf → Sheaf) : (s.onSheaf k g).sheafs = s.sheafs.upd k g := rfl
@[simp] theorem State.onSheaf_ops (s : State) (k : Nat) (g : Sheaf → Sheaf) : (s.onSheaf k g).ops = s.ops := rfl
@[simp] theorem State.onSheaf_wgs (s : State) (k : Nat) (g : Sheaf → Sheaf) : (s.onSheaf k g).wgs = s.wgs := rfl
@[simp] theorem State.onSheaf_grids (s : State) (k : Nat) (g : Sheaf → Sheaf) : (s.onSheaf k g).grids = s.grids := rfl
@[simp] theorem State.onSheaf_ctxs (s : State) (k : Nat) (g : Sheaf → Sheaf) : (s.onSheaf k g).ctxs = s.ctxs := rfl
@[simp] theorem State.onSheaf_cores (s : State) (k : Nat) (g : Sheaf → Sheaf) : (s.onSheaf k g).cores = s.cores := rfl
@[simp] theorem State.onSheaf_engs (s : State) (k : Nat) (g : Sheaf → Sheaf) : (s.onSheaf k g).engs = s.engs := rfl
@[simp] theorem State.onSheaf_mem (s : State) (k : Nat) (g : Sheaf → Sheaf) : (s.onSheaf k g).mem = s.mem := rfl
@[simp] theorem State.onSheaf_l2 (s : State) (k : Nat) (g : Sheaf → Sheaf) : (s.onSheaf k g).l2 = s.l2 := rfl
@[simp] theorem State.onSheaf_badSectors (s : State) (k : Nat) (g : Sheaf → Sheaf) : (s.onSheaf k g).badSectors = s.badSectors := rfl
@[simp] theorem State.onSheaf_corrected (s : State) (k : Nat) (g : Sheaf → Sheaf) : (s.onSheaf k g).corrected = s.corrected := rfl
@[simp] theorem State.onSheaf_eccLog (s : State) (k : Nat) (g : Sheaf → Sheaf) : (s.onSheaf k g).eccLog = s.eccLog := rfl
@[simp] theorem State.onSheaf_logWait (s : State) (k : Nat) (g : Sheaf → Sheaf) : (s.onSheaf k g).logWait = s.logWait := rfl
@[simp] theorem State.onSheaf_staging (s : State) (k : Nat) (g : Sheaf → Sheaf) : (s.onSheaf k g).staging = s.staging := rfl
@[simp] theorem State.onSheaf_stagingFills (s : State) (k : Nat) (g : Sheaf → Sheaf) : (s.onSheaf k g).stagingFills = s.stagingFills := rfl
@[simp] theorem State.onSheaf_prefetches (s : State) (k : Nat) (g : Sheaf → Sheaf) : (s.onSheaf k g).prefetches = s.prefetches := rfl
@[simp] theorem State.onSheaf_tlbs (s : State) (k : Nat) (g : Sheaf → Sheaf) : (s.onSheaf k g).tlbs = s.tlbs := rfl
@[simp] theorem State.onSheaf_filters (s : State) (k : Nat) (g : Sheaf → Sheaf) : (s.onSheaf k g).filters = s.filters := rfl
@[simp] theorem State.onSheaf_fused (s : State) (k : Nat) (g : Sheaf → Sheaf) : (s.onSheaf k g).fused = s.fused := rfl
@[simp] theorem State.onSheaf_bmCache (s : State) (k : Nat) (g : Sheaf → Sheaf) : (s.onSheaf k g).bmCache = s.bmCache := rfl
@[simp] theorem State.onSheaf_packets (s : State) (k : Nat) (g : Sheaf → Sheaf) : (s.onSheaf k g).packets = s.packets := rfl
@[simp] theorem State.onSheaf_blockWait (s : State) (k : Nat) (g : Sheaf → Sheaf) : (s.onSheaf k g).blockWait = s.blockWait := rfl
@[simp] theorem State.onSheaf_heathClk (s : State) (k : Nat) (g : Sheaf → Sheaf) : (s.onSheaf k g).heathClk = s.heathClk := rfl
@[simp] theorem State.onSheaf_blocks (s : State) (k : Nat) (g : Sheaf → Sheaf) : (s.onSheaf k g).blocks = s.blocks := rfl
@[simp] theorem State.onSheaf_calls (s : State) (k : Nat) (g : Sheaf → Sheaf) : (s.onSheaf k g).calls = s.calls := rfl
@[simp] theorem State.onSheaf_segs (s : State) (k : Nat) (g : Sheaf → Sheaf) : (s.onSheaf k g).segs = s.segs := rfl
@[simp] theorem State.onSheaf_installs (s : State) (k : Nat) (g : Sheaf → Sheaf) : (s.onSheaf k g).installs = s.installs := rfl
@[simp] theorem State.onSheaf_refresh (s : State) (k : Nat) (g : Sheaf → Sheaf) : (s.onSheaf k g).refresh = s.refresh := rfl
@[simp] theorem State.onSheaf_migrations (s : State) (k : Nat) (g : Sheaf → Sheaf) : (s.onSheaf k g).migrations = s.migrations := rfl
@[simp] theorem State.onSheaf_accid (s : State) (k : Nat) (g : Sheaf → Sheaf) : (s.onSheaf k g).accid = s.accid := rfl
@[simp] theorem State.onSheaf_bmbase (s : State) (k : Nat) (g : Sheaf → Sheaf) : (s.onSheaf k g).bmbase = s.bmbase := rfl
@[simp] theorem State.onSheaf_bmcount (s : State) (k : Nat) (g : Sheaf → Sheaf) : (s.onSheaf k g).bmcount = s.bmcount := rfl
@[simp] theorem State.onSheaf_fqbase (s : State) (k : Nat) (g : Sheaf → Sheaf) : (s.onSheaf k g).fqbase = s.fqbase := rfl
@[simp] theorem State.onSheaf_fqHead (s : State) (k : Nat) (g : Sheaf → Sheaf) : (s.onSheaf k g).fqHead = s.fqHead := rfl
@[simp] theorem State.onSheaf_fqTail (s : State) (k : Nat) (g : Sheaf → Sheaf) : (s.onSheaf k g).fqTail = s.fqTail := rfl
@[simp] theorem State.onSheaf_fqSeq (s : State) (k : Nat) (g : Sheaf → Sheaf) : (s.onSheaf k g).fqSeq = s.fqSeq := rfl
@[simp] theorem State.onSheaf_fqOut (s : State) (k : Nat) (g : Sheaf → Sheaf) : (s.onSheaf k g).fqOut = s.fqOut := rfl
@[simp] theorem State.onSheaf_irq (s : State) (k : Nat) (g : Sheaf → Sheaf) : (s.onSheaf k g).irq = s.irq := rfl
@[simp] theorem State.onSheaf_msix (s : State) (k : Nat) (g : Sheaf → Sheaf) : (s.onSheaf k g).msix = s.msix := rfl
@[simp] theorem State.onSheaf_slots (s : State) (k : Nat) (g : Sheaf → Sheaf) : (s.onSheaf k g).slots = s.slots := rfl
@[simp] theorem State.onSheaf_xwin (s : State) (k : Nat) (g : Sheaf → Sheaf) : (s.onSheaf k g).xwin = s.xwin := rfl
@[simp] theorem State.onSheaf_xgrp (s : State) (k : Nat) (g : Sheaf → Sheaf) : (s.onSheaf k g).xgrp = s.xgrp := rfl
@[simp] theorem State.onSheaf_stnPort (s : State) (k : Nat) (g : Sheaf → Sheaf) : (s.onSheaf k g).stnPort = s.stnPort := rfl
@[simp] theorem State.onSheaf_xports (s : State) (k : Nat) (g : Sheaf → Sheaf) : (s.onSheaf k g).xports = s.xports := rfl
@[simp] theorem State.onSheaf_xseq (s : State) (k : Nat) (g : Sheaf → Sheaf) : (s.onSheaf k g).xseq = s.xseq := rfl
@[simp] theorem State.onSheaf_atc (s : State) (k : Nat) (g : Sheaf → Sheaf) : (s.onSheaf k g).atc = s.atc := rfl
@[simp] theorem State.onSheaf_atsReq (s : State) (k : Nat) (g : Sheaf → Sheaf) : (s.onSheaf k g).atsReq = s.atsReq := rfl
@[simp] theorem State.onSheaf_priReq (s : State) (k : Nat) (g : Sheaf → Sheaf) : (s.onSheaf k g).priReq = s.priReq := rfl
@[simp] theorem State.onSheaf_farFails (s : State) (k : Nat) (g : Sheaf → Sheaf) : (s.onSheaf k g).farFails = s.farFails := rfl
@[simp] theorem State.onSheaf_dispClk (s : State) (k : Nat) (g : Sheaf → Sheaf) : (s.onSheaf k g).dispClk = s.dispClk := rfl
@[simp] theorem State.onSheaf_dispPtr (s : State) (k : Nat) (g : Sheaf → Sheaf) : (s.onSheaf k g).dispPtr = s.dispPtr := rfl
@[simp] theorem State.onSheaf_switches (s : State) (k : Nat) (g : Sheaf → Sheaf) : (s.onSheaf k g).switches = s.switches := rfl
@[simp] theorem State.onSheaf_dev (s : State) (k : Nat) (g : Sheaf → Sheaf) : (s.onSheaf k g).dev = s.dev := rfl
@[simp] theorem State.onSheaf_fstage (s : State) (k : Nat) (g : Sheaf → Sheaf) : (s.onSheaf k g).fstage = s.fstage := rfl
@[simp] theorem State.onSheaf_stage1 (s : State) (k : Nat) (g : Sheaf → Sheaf) : (s.onSheaf k g).stage1 = s.stage1 := rfl
@[simp] theorem State.onSheaf_lastDb (s : State) (k : Nat) (g : Sheaf → Sheaf) : (s.onSheaf k g).lastDb = s.lastDb := rfl
@[simp] theorem State.onSheaf_dbRef (s : State) (k : Nat) (g : Sheaf → Sheaf) : (s.onSheaf k g).dbRef = s.dbRef := rfl
@[simp] theorem State.onSheaf_log (s : State) (k : Nat) (g : Sheaf → Sheaf) : (s.onSheaf k g).log = s.log := rfl
@[simp] theorem State.onSheaf_cmt (s : State) (k : Nat) (g : Sheaf → Sheaf) : (s.onSheaf k g).cmt = s.cmt := rfl
@[simp] theorem State.onSheaf_flash (s : State) (k : Nat) (g : Sheaf → Sheaf) : (s.onSheaf k g).flash = s.flash := rfl
@[simp] theorem State.onSheaf_flashNext (s : State) (k : Nat) (g : Sheaf → Sheaf) : (s.onSheaf k g).flashNext = s.flashNext := rfl
@[simp] theorem State.onSheaf_buffer (s : State) (k : Nat) (g : Sheaf → Sheaf) : (s.onSheaf k g).buffer = s.buffer := rfl
@[simp] theorem State.onSheaf_tzone (s : State) (k : Nat) (g : Sheaf → Sheaf) : (s.onSheaf k g).tzone = s.tzone := rfl
@[simp] theorem State.onSheaf_descr (s : State) (k : Nat) (g : Sheaf → Sheaf) : (s.onSheaf k g).descr = s.descr := rfl
@[simp] theorem State.onSheaf_reports (s : State) (k : Nat) (g : Sheaf → Sheaf) : (s.onSheaf k g).reports = s.reports := rfl
@[simp] theorem State.onSheaf_agenda (s : State) (k : Nat) (g : Sheaf → Sheaf) : (s.onSheaf k g).agenda = s.agenda := rfl
@[simp] theorem State.onSheaf_cur (s : State) (k : Nat) (g : Sheaf → Sheaf) : (s.onSheaf k g).cur = s.cur := rfl
@[simp] theorem State.onSheaf_fresh (s : State) (k : Nat) (g : Sheaf → Sheaf) : (s.onSheaf k g).fresh = s.fresh := rfl

/-! ### State.onCore -/

@[simp] theorem State.onCore_sheafs (s : State) (c : Nat) (g : Core → Core) : (s.onCore c g).sheafs = s.sheafs := rfl
@[simp] theorem State.onCore_ops (s : State) (c : Nat) (g : Core → Core) : (s.onCore c g).ops = s.ops := rfl
@[simp] theorem State.onCore_wgs (s : State) (c : Nat) (g : Core → Core) : (s.onCore c g).wgs = s.wgs := rfl
@[simp] theorem State.onCore_grids (s : State) (c : Nat) (g : Core → Core) : (s.onCore c g).grids = s.grids := rfl
@[simp] theorem State.onCore_ctxs (s : State) (c : Nat) (g : Core → Core) : (s.onCore c g).ctxs = s.ctxs := rfl
@[simp] theorem State.onCore_cores (s : State) (c : Nat) (g : Core → Core) : (s.onCore c g).cores = s.cores.put c (g (s.core c)) := rfl
@[simp] theorem State.onCore_engs (s : State) (c : Nat) (g : Core → Core) : (s.onCore c g).engs = s.engs := rfl
@[simp] theorem State.onCore_mem (s : State) (c : Nat) (g : Core → Core) : (s.onCore c g).mem = s.mem := rfl
@[simp] theorem State.onCore_l2 (s : State) (c : Nat) (g : Core → Core) : (s.onCore c g).l2 = s.l2 := rfl
@[simp] theorem State.onCore_badSectors (s : State) (c : Nat) (g : Core → Core) : (s.onCore c g).badSectors = s.badSectors := rfl
@[simp] theorem State.onCore_corrected (s : State) (c : Nat) (g : Core → Core) : (s.onCore c g).corrected = s.corrected := rfl
@[simp] theorem State.onCore_eccLog (s : State) (c : Nat) (g : Core → Core) : (s.onCore c g).eccLog = s.eccLog := rfl
@[simp] theorem State.onCore_logWait (s : State) (c : Nat) (g : Core → Core) : (s.onCore c g).logWait = s.logWait := rfl
@[simp] theorem State.onCore_staging (s : State) (c : Nat) (g : Core → Core) : (s.onCore c g).staging = s.staging := rfl
@[simp] theorem State.onCore_stagingFills (s : State) (c : Nat) (g : Core → Core) : (s.onCore c g).stagingFills = s.stagingFills := rfl
@[simp] theorem State.onCore_prefetches (s : State) (c : Nat) (g : Core → Core) : (s.onCore c g).prefetches = s.prefetches := rfl
@[simp] theorem State.onCore_tlbs (s : State) (c : Nat) (g : Core → Core) : (s.onCore c g).tlbs = s.tlbs := rfl
@[simp] theorem State.onCore_filters (s : State) (c : Nat) (g : Core → Core) : (s.onCore c g).filters = s.filters := rfl
@[simp] theorem State.onCore_fused (s : State) (c : Nat) (g : Core → Core) : (s.onCore c g).fused = s.fused := rfl
@[simp] theorem State.onCore_bmCache (s : State) (c : Nat) (g : Core → Core) : (s.onCore c g).bmCache = s.bmCache := rfl
@[simp] theorem State.onCore_packets (s : State) (c : Nat) (g : Core → Core) : (s.onCore c g).packets = s.packets := rfl
@[simp] theorem State.onCore_blockWait (s : State) (c : Nat) (g : Core → Core) : (s.onCore c g).blockWait = s.blockWait := rfl
@[simp] theorem State.onCore_heathClk (s : State) (c : Nat) (g : Core → Core) : (s.onCore c g).heathClk = s.heathClk := rfl
@[simp] theorem State.onCore_blocks (s : State) (c : Nat) (g : Core → Core) : (s.onCore c g).blocks = s.blocks := rfl
@[simp] theorem State.onCore_calls (s : State) (c : Nat) (g : Core → Core) : (s.onCore c g).calls = s.calls := rfl
@[simp] theorem State.onCore_segs (s : State) (c : Nat) (g : Core → Core) : (s.onCore c g).segs = s.segs := rfl
@[simp] theorem State.onCore_installs (s : State) (c : Nat) (g : Core → Core) : (s.onCore c g).installs = s.installs := rfl
@[simp] theorem State.onCore_refresh (s : State) (c : Nat) (g : Core → Core) : (s.onCore c g).refresh = s.refresh := rfl
@[simp] theorem State.onCore_migrations (s : State) (c : Nat) (g : Core → Core) : (s.onCore c g).migrations = s.migrations := rfl
@[simp] theorem State.onCore_accid (s : State) (c : Nat) (g : Core → Core) : (s.onCore c g).accid = s.accid := rfl
@[simp] theorem State.onCore_bmbase (s : State) (c : Nat) (g : Core → Core) : (s.onCore c g).bmbase = s.bmbase := rfl
@[simp] theorem State.onCore_bmcount (s : State) (c : Nat) (g : Core → Core) : (s.onCore c g).bmcount = s.bmcount := rfl
@[simp] theorem State.onCore_fqbase (s : State) (c : Nat) (g : Core → Core) : (s.onCore c g).fqbase = s.fqbase := rfl
@[simp] theorem State.onCore_fqHead (s : State) (c : Nat) (g : Core → Core) : (s.onCore c g).fqHead = s.fqHead := rfl
@[simp] theorem State.onCore_fqTail (s : State) (c : Nat) (g : Core → Core) : (s.onCore c g).fqTail = s.fqTail := rfl
@[simp] theorem State.onCore_fqSeq (s : State) (c : Nat) (g : Core → Core) : (s.onCore c g).fqSeq = s.fqSeq := rfl
@[simp] theorem State.onCore_fqOut (s : State) (c : Nat) (g : Core → Core) : (s.onCore c g).fqOut = s.fqOut := rfl
@[simp] theorem State.onCore_irq (s : State) (c : Nat) (g : Core → Core) : (s.onCore c g).irq = s.irq := rfl
@[simp] theorem State.onCore_msix (s : State) (c : Nat) (g : Core → Core) : (s.onCore c g).msix = s.msix := rfl
@[simp] theorem State.onCore_slots (s : State) (c : Nat) (g : Core → Core) : (s.onCore c g).slots = s.slots := rfl
@[simp] theorem State.onCore_xwin (s : State) (c : Nat) (g : Core → Core) : (s.onCore c g).xwin = s.xwin := rfl
@[simp] theorem State.onCore_xgrp (s : State) (c : Nat) (g : Core → Core) : (s.onCore c g).xgrp = s.xgrp := rfl
@[simp] theorem State.onCore_stnPort (s : State) (c : Nat) (g : Core → Core) : (s.onCore c g).stnPort = s.stnPort := rfl
@[simp] theorem State.onCore_xports (s : State) (c : Nat) (g : Core → Core) : (s.onCore c g).xports = s.xports := rfl
@[simp] theorem State.onCore_xseq (s : State) (c : Nat) (g : Core → Core) : (s.onCore c g).xseq = s.xseq := rfl
@[simp] theorem State.onCore_atc (s : State) (c : Nat) (g : Core → Core) : (s.onCore c g).atc = s.atc := rfl
@[simp] theorem State.onCore_atsReq (s : State) (c : Nat) (g : Core → Core) : (s.onCore c g).atsReq = s.atsReq := rfl
@[simp] theorem State.onCore_priReq (s : State) (c : Nat) (g : Core → Core) : (s.onCore c g).priReq = s.priReq := rfl
@[simp] theorem State.onCore_farFails (s : State) (c : Nat) (g : Core → Core) : (s.onCore c g).farFails = s.farFails := rfl
@[simp] theorem State.onCore_dispClk (s : State) (c : Nat) (g : Core → Core) : (s.onCore c g).dispClk = s.dispClk := rfl
@[simp] theorem State.onCore_dispPtr (s : State) (c : Nat) (g : Core → Core) : (s.onCore c g).dispPtr = s.dispPtr := rfl
@[simp] theorem State.onCore_switches (s : State) (c : Nat) (g : Core → Core) : (s.onCore c g).switches = s.switches := rfl
@[simp] theorem State.onCore_dev (s : State) (c : Nat) (g : Core → Core) : (s.onCore c g).dev = s.dev := rfl
@[simp] theorem State.onCore_fstage (s : State) (c : Nat) (g : Core → Core) : (s.onCore c g).fstage = s.fstage := rfl
@[simp] theorem State.onCore_stage1 (s : State) (c : Nat) (g : Core → Core) : (s.onCore c g).stage1 = s.stage1 := rfl
@[simp] theorem State.onCore_lastDb (s : State) (c : Nat) (g : Core → Core) : (s.onCore c g).lastDb = s.lastDb := rfl
@[simp] theorem State.onCore_dbRef (s : State) (c : Nat) (g : Core → Core) : (s.onCore c g).dbRef = s.dbRef := rfl
@[simp] theorem State.onCore_log (s : State) (c : Nat) (g : Core → Core) : (s.onCore c g).log = s.log := rfl
@[simp] theorem State.onCore_cmt (s : State) (c : Nat) (g : Core → Core) : (s.onCore c g).cmt = s.cmt := rfl
@[simp] theorem State.onCore_flash (s : State) (c : Nat) (g : Core → Core) : (s.onCore c g).flash = s.flash := rfl
@[simp] theorem State.onCore_flashNext (s : State) (c : Nat) (g : Core → Core) : (s.onCore c g).flashNext = s.flashNext := rfl
@[simp] theorem State.onCore_buffer (s : State) (c : Nat) (g : Core → Core) : (s.onCore c g).buffer = s.buffer := rfl
@[simp] theorem State.onCore_tzone (s : State) (c : Nat) (g : Core → Core) : (s.onCore c g).tzone = s.tzone := rfl
@[simp] theorem State.onCore_descr (s : State) (c : Nat) (g : Core → Core) : (s.onCore c g).descr = s.descr := rfl
@[simp] theorem State.onCore_reports (s : State) (c : Nat) (g : Core → Core) : (s.onCore c g).reports = s.reports := rfl
@[simp] theorem State.onCore_agenda (s : State) (c : Nat) (g : Core → Core) : (s.onCore c g).agenda = s.agenda := rfl
@[simp] theorem State.onCore_cur (s : State) (c : Nat) (g : Core → Core) : (s.onCore c g).cur = s.cur := rfl
@[simp] theorem State.onCore_fresh (s : State) (c : Nat) (g : Core → Core) : (s.onCore c g).fresh = s.fresh := rfl

/-! ### State.onWg -/

@[simp] theorem State.onWg_sheafs (s : State) (w : Nat) (g : Wg → Wg) : (s.onWg w g).sheafs = s.sheafs := rfl
@[simp] theorem State.onWg_ops (s : State) (w : Nat) (g : Wg → Wg) : (s.onWg w g).ops = s.ops := rfl
@[simp] theorem State.onWg_wgs (s : State) (w : Nat) (g : Wg → Wg) : (s.onWg w g).wgs = s.wgs.upd w g := rfl
@[simp] theorem State.onWg_grids (s : State) (w : Nat) (g : Wg → Wg) : (s.onWg w g).grids = s.grids := rfl
@[simp] theorem State.onWg_ctxs (s : State) (w : Nat) (g : Wg → Wg) : (s.onWg w g).ctxs = s.ctxs := rfl
@[simp] theorem State.onWg_cores (s : State) (w : Nat) (g : Wg → Wg) : (s.onWg w g).cores = s.cores := rfl
@[simp] theorem State.onWg_engs (s : State) (w : Nat) (g : Wg → Wg) : (s.onWg w g).engs = s.engs := rfl
@[simp] theorem State.onWg_mem (s : State) (w : Nat) (g : Wg → Wg) : (s.onWg w g).mem = s.mem := rfl
@[simp] theorem State.onWg_l2 (s : State) (w : Nat) (g : Wg → Wg) : (s.onWg w g).l2 = s.l2 := rfl
@[simp] theorem State.onWg_badSectors (s : State) (w : Nat) (g : Wg → Wg) : (s.onWg w g).badSectors = s.badSectors := rfl
@[simp] theorem State.onWg_corrected (s : State) (w : Nat) (g : Wg → Wg) : (s.onWg w g).corrected = s.corrected := rfl
@[simp] theorem State.onWg_eccLog (s : State) (w : Nat) (g : Wg → Wg) : (s.onWg w g).eccLog = s.eccLog := rfl
@[simp] theorem State.onWg_logWait (s : State) (w : Nat) (g : Wg → Wg) : (s.onWg w g).logWait = s.logWait := rfl
@[simp] theorem State.onWg_staging (s : State) (w : Nat) (g : Wg → Wg) : (s.onWg w g).staging = s.staging := rfl
@[simp] theorem State.onWg_stagingFills (s : State) (w : Nat) (g : Wg → Wg) : (s.onWg w g).stagingFills = s.stagingFills := rfl
@[simp] theorem State.onWg_prefetches (s : State) (w : Nat) (g : Wg → Wg) : (s.onWg w g).prefetches = s.prefetches := rfl
@[simp] theorem State.onWg_tlbs (s : State) (w : Nat) (g : Wg → Wg) : (s.onWg w g).tlbs = s.tlbs := rfl
@[simp] theorem State.onWg_filters (s : State) (w : Nat) (g : Wg → Wg) : (s.onWg w g).filters = s.filters := rfl
@[simp] theorem State.onWg_fused (s : State) (w : Nat) (g : Wg → Wg) : (s.onWg w g).fused = s.fused := rfl
@[simp] theorem State.onWg_bmCache (s : State) (w : Nat) (g : Wg → Wg) : (s.onWg w g).bmCache = s.bmCache := rfl
@[simp] theorem State.onWg_packets (s : State) (w : Nat) (g : Wg → Wg) : (s.onWg w g).packets = s.packets := rfl
@[simp] theorem State.onWg_blockWait (s : State) (w : Nat) (g : Wg → Wg) : (s.onWg w g).blockWait = s.blockWait := rfl
@[simp] theorem State.onWg_heathClk (s : State) (w : Nat) (g : Wg → Wg) : (s.onWg w g).heathClk = s.heathClk := rfl
@[simp] theorem State.onWg_blocks (s : State) (w : Nat) (g : Wg → Wg) : (s.onWg w g).blocks = s.blocks := rfl
@[simp] theorem State.onWg_calls (s : State) (w : Nat) (g : Wg → Wg) : (s.onWg w g).calls = s.calls := rfl
@[simp] theorem State.onWg_segs (s : State) (w : Nat) (g : Wg → Wg) : (s.onWg w g).segs = s.segs := rfl
@[simp] theorem State.onWg_installs (s : State) (w : Nat) (g : Wg → Wg) : (s.onWg w g).installs = s.installs := rfl
@[simp] theorem State.onWg_refresh (s : State) (w : Nat) (g : Wg → Wg) : (s.onWg w g).refresh = s.refresh := rfl
@[simp] theorem State.onWg_migrations (s : State) (w : Nat) (g : Wg → Wg) : (s.onWg w g).migrations = s.migrations := rfl
@[simp] theorem State.onWg_accid (s : State) (w : Nat) (g : Wg → Wg) : (s.onWg w g).accid = s.accid := rfl
@[simp] theorem State.onWg_bmbase (s : State) (w : Nat) (g : Wg → Wg) : (s.onWg w g).bmbase = s.bmbase := rfl
@[simp] theorem State.onWg_bmcount (s : State) (w : Nat) (g : Wg → Wg) : (s.onWg w g).bmcount = s.bmcount := rfl
@[simp] theorem State.onWg_fqbase (s : State) (w : Nat) (g : Wg → Wg) : (s.onWg w g).fqbase = s.fqbase := rfl
@[simp] theorem State.onWg_fqHead (s : State) (w : Nat) (g : Wg → Wg) : (s.onWg w g).fqHead = s.fqHead := rfl
@[simp] theorem State.onWg_fqTail (s : State) (w : Nat) (g : Wg → Wg) : (s.onWg w g).fqTail = s.fqTail := rfl
@[simp] theorem State.onWg_fqSeq (s : State) (w : Nat) (g : Wg → Wg) : (s.onWg w g).fqSeq = s.fqSeq := rfl
@[simp] theorem State.onWg_fqOut (s : State) (w : Nat) (g : Wg → Wg) : (s.onWg w g).fqOut = s.fqOut := rfl
@[simp] theorem State.onWg_irq (s : State) (w : Nat) (g : Wg → Wg) : (s.onWg w g).irq = s.irq := rfl
@[simp] theorem State.onWg_msix (s : State) (w : Nat) (g : Wg → Wg) : (s.onWg w g).msix = s.msix := rfl
@[simp] theorem State.onWg_slots (s : State) (w : Nat) (g : Wg → Wg) : (s.onWg w g).slots = s.slots := rfl
@[simp] theorem State.onWg_xwin (s : State) (w : Nat) (g : Wg → Wg) : (s.onWg w g).xwin = s.xwin := rfl
@[simp] theorem State.onWg_xgrp (s : State) (w : Nat) (g : Wg → Wg) : (s.onWg w g).xgrp = s.xgrp := rfl
@[simp] theorem State.onWg_stnPort (s : State) (w : Nat) (g : Wg → Wg) : (s.onWg w g).stnPort = s.stnPort := rfl
@[simp] theorem State.onWg_xports (s : State) (w : Nat) (g : Wg → Wg) : (s.onWg w g).xports = s.xports := rfl
@[simp] theorem State.onWg_xseq (s : State) (w : Nat) (g : Wg → Wg) : (s.onWg w g).xseq = s.xseq := rfl
@[simp] theorem State.onWg_atc (s : State) (w : Nat) (g : Wg → Wg) : (s.onWg w g).atc = s.atc := rfl
@[simp] theorem State.onWg_atsReq (s : State) (w : Nat) (g : Wg → Wg) : (s.onWg w g).atsReq = s.atsReq := rfl
@[simp] theorem State.onWg_priReq (s : State) (w : Nat) (g : Wg → Wg) : (s.onWg w g).priReq = s.priReq := rfl
@[simp] theorem State.onWg_farFails (s : State) (w : Nat) (g : Wg → Wg) : (s.onWg w g).farFails = s.farFails := rfl
@[simp] theorem State.onWg_dispClk (s : State) (w : Nat) (g : Wg → Wg) : (s.onWg w g).dispClk = s.dispClk := rfl
@[simp] theorem State.onWg_dispPtr (s : State) (w : Nat) (g : Wg → Wg) : (s.onWg w g).dispPtr = s.dispPtr := rfl
@[simp] theorem State.onWg_switches (s : State) (w : Nat) (g : Wg → Wg) : (s.onWg w g).switches = s.switches := rfl
@[simp] theorem State.onWg_dev (s : State) (w : Nat) (g : Wg → Wg) : (s.onWg w g).dev = s.dev := rfl
@[simp] theorem State.onWg_fstage (s : State) (w : Nat) (g : Wg → Wg) : (s.onWg w g).fstage = s.fstage := rfl
@[simp] theorem State.onWg_stage1 (s : State) (w : Nat) (g : Wg → Wg) : (s.onWg w g).stage1 = s.stage1 := rfl
@[simp] theorem State.onWg_lastDb (s : State) (w : Nat) (g : Wg → Wg) : (s.onWg w g).lastDb = s.lastDb := rfl
@[simp] theorem State.onWg_dbRef (s : State) (w : Nat) (g : Wg → Wg) : (s.onWg w g).dbRef = s.dbRef := rfl
@[simp] theorem State.onWg_log (s : State) (w : Nat) (g : Wg → Wg) : (s.onWg w g).log = s.log := rfl
@[simp] theorem State.onWg_cmt (s : State) (w : Nat) (g : Wg → Wg) : (s.onWg w g).cmt = s.cmt := rfl
@[simp] theorem State.onWg_flash (s : State) (w : Nat) (g : Wg → Wg) : (s.onWg w g).flash = s.flash := rfl
@[simp] theorem State.onWg_flashNext (s : State) (w : Nat) (g : Wg → Wg) : (s.onWg w g).flashNext = s.flashNext := rfl
@[simp] theorem State.onWg_buffer (s : State) (w : Nat) (g : Wg → Wg) : (s.onWg w g).buffer = s.buffer := rfl
@[simp] theorem State.onWg_tzone (s : State) (w : Nat) (g : Wg → Wg) : (s.onWg w g).tzone = s.tzone := rfl
@[simp] theorem State.onWg_descr (s : State) (w : Nat) (g : Wg → Wg) : (s.onWg w g).descr = s.descr := rfl
@[simp] theorem State.onWg_reports (s : State) (w : Nat) (g : Wg → Wg) : (s.onWg w g).reports = s.reports := rfl
@[simp] theorem State.onWg_agenda (s : State) (w : Nat) (g : Wg → Wg) : (s.onWg w g).agenda = s.agenda := rfl
@[simp] theorem State.onWg_cur (s : State) (w : Nat) (g : Wg → Wg) : (s.onWg w g).cur = s.cur := rfl
@[simp] theorem State.onWg_fresh (s : State) (w : Nat) (g : Wg → Wg) : (s.onWg w g).fresh = s.fresh := rfl

/-! ### State.onGrid -/

@[simp] theorem State.onGrid_sheafs (s : State) (n : Nat) (g : Grid → Grid) : (s.onGrid n g).sheafs = s.sheafs := rfl
@[simp] theorem State.onGrid_ops (s : State) (n : Nat) (g : Grid → Grid) : (s.onGrid n g).ops = s.ops := rfl
@[simp] theorem State.onGrid_wgs (s : State) (n : Nat) (g : Grid → Grid) : (s.onGrid n g).wgs = s.wgs := rfl
@[simp] theorem State.onGrid_grids (s : State) (n : Nat) (g : Grid → Grid) : (s.onGrid n g).grids = s.grids.upd n g := rfl
@[simp] theorem State.onGrid_ctxs (s : State) (n : Nat) (g : Grid → Grid) : (s.onGrid n g).ctxs = s.ctxs := rfl
@[simp] theorem State.onGrid_cores (s : State) (n : Nat) (g : Grid → Grid) : (s.onGrid n g).cores = s.cores := rfl
@[simp] theorem State.onGrid_engs (s : State) (n : Nat) (g : Grid → Grid) : (s.onGrid n g).engs = s.engs := rfl
@[simp] theorem State.onGrid_mem (s : State) (n : Nat) (g : Grid → Grid) : (s.onGrid n g).mem = s.mem := rfl
@[simp] theorem State.onGrid_l2 (s : State) (n : Nat) (g : Grid → Grid) : (s.onGrid n g).l2 = s.l2 := rfl
@[simp] theorem State.onGrid_badSectors (s : State) (n : Nat) (g : Grid → Grid) : (s.onGrid n g).badSectors = s.badSectors := rfl
@[simp] theorem State.onGrid_corrected (s : State) (n : Nat) (g : Grid → Grid) : (s.onGrid n g).corrected = s.corrected := rfl
@[simp] theorem State.onGrid_eccLog (s : State) (n : Nat) (g : Grid → Grid) : (s.onGrid n g).eccLog = s.eccLog := rfl
@[simp] theorem State.onGrid_logWait (s : State) (n : Nat) (g : Grid → Grid) : (s.onGrid n g).logWait = s.logWait := rfl
@[simp] theorem State.onGrid_staging (s : State) (n : Nat) (g : Grid → Grid) : (s.onGrid n g).staging = s.staging := rfl
@[simp] theorem State.onGrid_stagingFills (s : State) (n : Nat) (g : Grid → Grid) : (s.onGrid n g).stagingFills = s.stagingFills := rfl
@[simp] theorem State.onGrid_prefetches (s : State) (n : Nat) (g : Grid → Grid) : (s.onGrid n g).prefetches = s.prefetches := rfl
@[simp] theorem State.onGrid_tlbs (s : State) (n : Nat) (g : Grid → Grid) : (s.onGrid n g).tlbs = s.tlbs := rfl
@[simp] theorem State.onGrid_filters (s : State) (n : Nat) (g : Grid → Grid) : (s.onGrid n g).filters = s.filters := rfl
@[simp] theorem State.onGrid_fused (s : State) (n : Nat) (g : Grid → Grid) : (s.onGrid n g).fused = s.fused := rfl
@[simp] theorem State.onGrid_bmCache (s : State) (n : Nat) (g : Grid → Grid) : (s.onGrid n g).bmCache = s.bmCache := rfl
@[simp] theorem State.onGrid_packets (s : State) (n : Nat) (g : Grid → Grid) : (s.onGrid n g).packets = s.packets := rfl
@[simp] theorem State.onGrid_blockWait (s : State) (n : Nat) (g : Grid → Grid) : (s.onGrid n g).blockWait = s.blockWait := rfl
@[simp] theorem State.onGrid_heathClk (s : State) (n : Nat) (g : Grid → Grid) : (s.onGrid n g).heathClk = s.heathClk := rfl
@[simp] theorem State.onGrid_blocks (s : State) (n : Nat) (g : Grid → Grid) : (s.onGrid n g).blocks = s.blocks := rfl
@[simp] theorem State.onGrid_calls (s : State) (n : Nat) (g : Grid → Grid) : (s.onGrid n g).calls = s.calls := rfl
@[simp] theorem State.onGrid_segs (s : State) (n : Nat) (g : Grid → Grid) : (s.onGrid n g).segs = s.segs := rfl
@[simp] theorem State.onGrid_installs (s : State) (n : Nat) (g : Grid → Grid) : (s.onGrid n g).installs = s.installs := rfl
@[simp] theorem State.onGrid_refresh (s : State) (n : Nat) (g : Grid → Grid) : (s.onGrid n g).refresh = s.refresh := rfl
@[simp] theorem State.onGrid_migrations (s : State) (n : Nat) (g : Grid → Grid) : (s.onGrid n g).migrations = s.migrations := rfl
@[simp] theorem State.onGrid_accid (s : State) (n : Nat) (g : Grid → Grid) : (s.onGrid n g).accid = s.accid := rfl
@[simp] theorem State.onGrid_bmbase (s : State) (n : Nat) (g : Grid → Grid) : (s.onGrid n g).bmbase = s.bmbase := rfl
@[simp] theorem State.onGrid_bmcount (s : State) (n : Nat) (g : Grid → Grid) : (s.onGrid n g).bmcount = s.bmcount := rfl
@[simp] theorem State.onGrid_fqbase (s : State) (n : Nat) (g : Grid → Grid) : (s.onGrid n g).fqbase = s.fqbase := rfl
@[simp] theorem State.onGrid_fqHead (s : State) (n : Nat) (g : Grid → Grid) : (s.onGrid n g).fqHead = s.fqHead := rfl
@[simp] theorem State.onGrid_fqTail (s : State) (n : Nat) (g : Grid → Grid) : (s.onGrid n g).fqTail = s.fqTail := rfl
@[simp] theorem State.onGrid_fqSeq (s : State) (n : Nat) (g : Grid → Grid) : (s.onGrid n g).fqSeq = s.fqSeq := rfl
@[simp] theorem State.onGrid_fqOut (s : State) (n : Nat) (g : Grid → Grid) : (s.onGrid n g).fqOut = s.fqOut := rfl
@[simp] theorem State.onGrid_irq (s : State) (n : Nat) (g : Grid → Grid) : (s.onGrid n g).irq = s.irq := rfl
@[simp] theorem State.onGrid_msix (s : State) (n : Nat) (g : Grid → Grid) : (s.onGrid n g).msix = s.msix := rfl
@[simp] theorem State.onGrid_slots (s : State) (n : Nat) (g : Grid → Grid) : (s.onGrid n g).slots = s.slots := rfl
@[simp] theorem State.onGrid_xwin (s : State) (n : Nat) (g : Grid → Grid) : (s.onGrid n g).xwin = s.xwin := rfl
@[simp] theorem State.onGrid_xgrp (s : State) (n : Nat) (g : Grid → Grid) : (s.onGrid n g).xgrp = s.xgrp := rfl
@[simp] theorem State.onGrid_stnPort (s : State) (n : Nat) (g : Grid → Grid) : (s.onGrid n g).stnPort = s.stnPort := rfl
@[simp] theorem State.onGrid_xports (s : State) (n : Nat) (g : Grid → Grid) : (s.onGrid n g).xports = s.xports := rfl
@[simp] theorem State.onGrid_xseq (s : State) (n : Nat) (g : Grid → Grid) : (s.onGrid n g).xseq = s.xseq := rfl
@[simp] theorem State.onGrid_atc (s : State) (n : Nat) (g : Grid → Grid) : (s.onGrid n g).atc = s.atc := rfl
@[simp] theorem State.onGrid_atsReq (s : State) (n : Nat) (g : Grid → Grid) : (s.onGrid n g).atsReq = s.atsReq := rfl
@[simp] theorem State.onGrid_priReq (s : State) (n : Nat) (g : Grid → Grid) : (s.onGrid n g).priReq = s.priReq := rfl
@[simp] theorem State.onGrid_farFails (s : State) (n : Nat) (g : Grid → Grid) : (s.onGrid n g).farFails = s.farFails := rfl
@[simp] theorem State.onGrid_dispClk (s : State) (n : Nat) (g : Grid → Grid) : (s.onGrid n g).dispClk = s.dispClk := rfl
@[simp] theorem State.onGrid_dispPtr (s : State) (n : Nat) (g : Grid → Grid) : (s.onGrid n g).dispPtr = s.dispPtr := rfl
@[simp] theorem State.onGrid_switches (s : State) (n : Nat) (g : Grid → Grid) : (s.onGrid n g).switches = s.switches := rfl
@[simp] theorem State.onGrid_dev (s : State) (n : Nat) (g : Grid → Grid) : (s.onGrid n g).dev = s.dev := rfl
@[simp] theorem State.onGrid_fstage (s : State) (n : Nat) (g : Grid → Grid) : (s.onGrid n g).fstage = s.fstage := rfl
@[simp] theorem State.onGrid_stage1 (s : State) (n : Nat) (g : Grid → Grid) : (s.onGrid n g).stage1 = s.stage1 := rfl
@[simp] theorem State.onGrid_lastDb (s : State) (n : Nat) (g : Grid → Grid) : (s.onGrid n g).lastDb = s.lastDb := rfl
@[simp] theorem State.onGrid_dbRef (s : State) (n : Nat) (g : Grid → Grid) : (s.onGrid n g).dbRef = s.dbRef := rfl
@[simp] theorem State.onGrid_log (s : State) (n : Nat) (g : Grid → Grid) : (s.onGrid n g).log = s.log := rfl
@[simp] theorem State.onGrid_cmt (s : State) (n : Nat) (g : Grid → Grid) : (s.onGrid n g).cmt = s.cmt := rfl
@[simp] theorem State.onGrid_flash (s : State) (n : Nat) (g : Grid → Grid) : (s.onGrid n g).flash = s.flash := rfl
@[simp] theorem State.onGrid_flashNext (s : State) (n : Nat) (g : Grid → Grid) : (s.onGrid n g).flashNext = s.flashNext := rfl
@[simp] theorem State.onGrid_buffer (s : State) (n : Nat) (g : Grid → Grid) : (s.onGrid n g).buffer = s.buffer := rfl
@[simp] theorem State.onGrid_tzone (s : State) (n : Nat) (g : Grid → Grid) : (s.onGrid n g).tzone = s.tzone := rfl
@[simp] theorem State.onGrid_descr (s : State) (n : Nat) (g : Grid → Grid) : (s.onGrid n g).descr = s.descr := rfl
@[simp] theorem State.onGrid_reports (s : State) (n : Nat) (g : Grid → Grid) : (s.onGrid n g).reports = s.reports := rfl
@[simp] theorem State.onGrid_agenda (s : State) (n : Nat) (g : Grid → Grid) : (s.onGrid n g).agenda = s.agenda := rfl
@[simp] theorem State.onGrid_cur (s : State) (n : Nat) (g : Grid → Grid) : (s.onGrid n g).cur = s.cur := rfl
@[simp] theorem State.onGrid_fresh (s : State) (n : Nat) (g : Grid → Grid) : (s.onGrid n g).fresh = s.fresh := rfl

/-! ### State.onCtx -/

@[simp] theorem State.onCtx_sheafs (s : State) (c : Nat) (g : Ctx → Ctx) : (s.onCtx c g).sheafs = s.sheafs := rfl
@[simp] theorem State.onCtx_ops (s : State) (c : Nat) (g : Ctx → Ctx) : (s.onCtx c g).ops = s.ops := rfl
@[simp] theorem State.onCtx_wgs (s : State) (c : Nat) (g : Ctx → Ctx) : (s.onCtx c g).wgs = s.wgs := rfl
@[simp] theorem State.onCtx_grids (s : State) (c : Nat) (g : Ctx → Ctx) : (s.onCtx c g).grids = s.grids := rfl
@[simp] theorem State.onCtx_ctxs (s : State) (c : Nat) (g : Ctx → Ctx) : (s.onCtx c g).ctxs = s.ctxs.upd c g := rfl
@[simp] theorem State.onCtx_cores (s : State) (c : Nat) (g : Ctx → Ctx) : (s.onCtx c g).cores = s.cores := rfl
@[simp] theorem State.onCtx_engs (s : State) (c : Nat) (g : Ctx → Ctx) : (s.onCtx c g).engs = s.engs := rfl
@[simp] theorem State.onCtx_mem (s : State) (c : Nat) (g : Ctx → Ctx) : (s.onCtx c g).mem = s.mem := rfl
@[simp] theorem State.onCtx_l2 (s : State) (c : Nat) (g : Ctx → Ctx) : (s.onCtx c g).l2 = s.l2 := rfl
@[simp] theorem State.onCtx_badSectors (s : State) (c : Nat) (g : Ctx → Ctx) : (s.onCtx c g).badSectors = s.badSectors := rfl
@[simp] theorem State.onCtx_corrected (s : State) (c : Nat) (g : Ctx → Ctx) : (s.onCtx c g).corrected = s.corrected := rfl
@[simp] theorem State.onCtx_eccLog (s : State) (c : Nat) (g : Ctx → Ctx) : (s.onCtx c g).eccLog = s.eccLog := rfl
@[simp] theorem State.onCtx_logWait (s : State) (c : Nat) (g : Ctx → Ctx) : (s.onCtx c g).logWait = s.logWait := rfl
@[simp] theorem State.onCtx_staging (s : State) (c : Nat) (g : Ctx → Ctx) : (s.onCtx c g).staging = s.staging := rfl
@[simp] theorem State.onCtx_stagingFills (s : State) (c : Nat) (g : Ctx → Ctx) : (s.onCtx c g).stagingFills = s.stagingFills := rfl
@[simp] theorem State.onCtx_prefetches (s : State) (c : Nat) (g : Ctx → Ctx) : (s.onCtx c g).prefetches = s.prefetches := rfl
@[simp] theorem State.onCtx_tlbs (s : State) (c : Nat) (g : Ctx → Ctx) : (s.onCtx c g).tlbs = s.tlbs := rfl
@[simp] theorem State.onCtx_filters (s : State) (c : Nat) (g : Ctx → Ctx) : (s.onCtx c g).filters = s.filters := rfl
@[simp] theorem State.onCtx_fused (s : State) (c : Nat) (g : Ctx → Ctx) : (s.onCtx c g).fused = s.fused := rfl
@[simp] theorem State.onCtx_bmCache (s : State) (c : Nat) (g : Ctx → Ctx) : (s.onCtx c g).bmCache = s.bmCache := rfl
@[simp] theorem State.onCtx_packets (s : State) (c : Nat) (g : Ctx → Ctx) : (s.onCtx c g).packets = s.packets := rfl
@[simp] theorem State.onCtx_blockWait (s : State) (c : Nat) (g : Ctx → Ctx) : (s.onCtx c g).blockWait = s.blockWait := rfl
@[simp] theorem State.onCtx_heathClk (s : State) (c : Nat) (g : Ctx → Ctx) : (s.onCtx c g).heathClk = s.heathClk := rfl
@[simp] theorem State.onCtx_blocks (s : State) (c : Nat) (g : Ctx → Ctx) : (s.onCtx c g).blocks = s.blocks := rfl
@[simp] theorem State.onCtx_calls (s : State) (c : Nat) (g : Ctx → Ctx) : (s.onCtx c g).calls = s.calls := rfl
@[simp] theorem State.onCtx_segs (s : State) (c : Nat) (g : Ctx → Ctx) : (s.onCtx c g).segs = s.segs := rfl
@[simp] theorem State.onCtx_installs (s : State) (c : Nat) (g : Ctx → Ctx) : (s.onCtx c g).installs = s.installs := rfl
@[simp] theorem State.onCtx_refresh (s : State) (c : Nat) (g : Ctx → Ctx) : (s.onCtx c g).refresh = s.refresh := rfl
@[simp] theorem State.onCtx_migrations (s : State) (c : Nat) (g : Ctx → Ctx) : (s.onCtx c g).migrations = s.migrations := rfl
@[simp] theorem State.onCtx_accid (s : State) (c : Nat) (g : Ctx → Ctx) : (s.onCtx c g).accid = s.accid := rfl
@[simp] theorem State.onCtx_bmbase (s : State) (c : Nat) (g : Ctx → Ctx) : (s.onCtx c g).bmbase = s.bmbase := rfl
@[simp] theorem State.onCtx_bmcount (s : State) (c : Nat) (g : Ctx → Ctx) : (s.onCtx c g).bmcount = s.bmcount := rfl
@[simp] theorem State.onCtx_fqbase (s : State) (c : Nat) (g : Ctx → Ctx) : (s.onCtx c g).fqbase = s.fqbase := rfl
@[simp] theorem State.onCtx_fqHead (s : State) (c : Nat) (g : Ctx → Ctx) : (s.onCtx c g).fqHead = s.fqHead := rfl
@[simp] theorem State.onCtx_fqTail (s : State) (c : Nat) (g : Ctx → Ctx) : (s.onCtx c g).fqTail = s.fqTail := rfl
@[simp] theorem State.onCtx_fqSeq (s : State) (c : Nat) (g : Ctx → Ctx) : (s.onCtx c g).fqSeq = s.fqSeq := rfl
@[simp] theorem State.onCtx_fqOut (s : State) (c : Nat) (g : Ctx → Ctx) : (s.onCtx c g).fqOut = s.fqOut := rfl
@[simp] theorem State.onCtx_irq (s : State) (c : Nat) (g : Ctx → Ctx) : (s.onCtx c g).irq = s.irq := rfl
@[simp] theorem State.onCtx_msix (s : State) (c : Nat) (g : Ctx → Ctx) : (s.onCtx c g).msix = s.msix := rfl
@[simp] theorem State.onCtx_slots (s : State) (c : Nat) (g : Ctx → Ctx) : (s.onCtx c g).slots = s.slots := rfl
@[simp] theorem State.onCtx_xwin (s : State) (c : Nat) (g : Ctx → Ctx) : (s.onCtx c g).xwin = s.xwin := rfl
@[simp] theorem State.onCtx_xgrp (s : State) (c : Nat) (g : Ctx → Ctx) : (s.onCtx c g).xgrp = s.xgrp := rfl
@[simp] theorem State.onCtx_stnPort (s : State) (c : Nat) (g : Ctx → Ctx) : (s.onCtx c g).stnPort = s.stnPort := rfl
@[simp] theorem State.onCtx_xports (s : State) (c : Nat) (g : Ctx → Ctx) : (s.onCtx c g).xports = s.xports := rfl
@[simp] theorem State.onCtx_xseq (s : State) (c : Nat) (g : Ctx → Ctx) : (s.onCtx c g).xseq = s.xseq := rfl
@[simp] theorem State.onCtx_atc (s : State) (c : Nat) (g : Ctx → Ctx) : (s.onCtx c g).atc = s.atc := rfl
@[simp] theorem State.onCtx_atsReq (s : State) (c : Nat) (g : Ctx → Ctx) : (s.onCtx c g).atsReq = s.atsReq := rfl
@[simp] theorem State.onCtx_priReq (s : State) (c : Nat) (g : Ctx → Ctx) : (s.onCtx c g).priReq = s.priReq := rfl
@[simp] theorem State.onCtx_farFails (s : State) (c : Nat) (g : Ctx → Ctx) : (s.onCtx c g).farFails = s.farFails := rfl
@[simp] theorem State.onCtx_dispClk (s : State) (c : Nat) (g : Ctx → Ctx) : (s.onCtx c g).dispClk = s.dispClk := rfl
@[simp] theorem State.onCtx_dispPtr (s : State) (c : Nat) (g : Ctx → Ctx) : (s.onCtx c g).dispPtr = s.dispPtr := rfl
@[simp] theorem State.onCtx_switches (s : State) (c : Nat) (g : Ctx → Ctx) : (s.onCtx c g).switches = s.switches := rfl
@[simp] theorem State.onCtx_dev (s : State) (c : Nat) (g : Ctx → Ctx) : (s.onCtx c g).dev = s.dev := rfl
@[simp] theorem State.onCtx_fstage (s : State) (c : Nat) (g : Ctx → Ctx) : (s.onCtx c g).fstage = s.fstage := rfl
@[simp] theorem State.onCtx_stage1 (s : State) (c : Nat) (g : Ctx → Ctx) : (s.onCtx c g).stage1 = s.stage1 := rfl
@[simp] theorem State.onCtx_lastDb (s : State) (c : Nat) (g : Ctx → Ctx) : (s.onCtx c g).lastDb = s.lastDb := rfl
@[simp] theorem State.onCtx_dbRef (s : State) (c : Nat) (g : Ctx → Ctx) : (s.onCtx c g).dbRef = s.dbRef := rfl
@[simp] theorem State.onCtx_log (s : State) (c : Nat) (g : Ctx → Ctx) : (s.onCtx c g).log = s.log := rfl
@[simp] theorem State.onCtx_cmt (s : State) (c : Nat) (g : Ctx → Ctx) : (s.onCtx c g).cmt = s.cmt := rfl
@[simp] theorem State.onCtx_flash (s : State) (c : Nat) (g : Ctx → Ctx) : (s.onCtx c g).flash = s.flash := rfl
@[simp] theorem State.onCtx_flashNext (s : State) (c : Nat) (g : Ctx → Ctx) : (s.onCtx c g).flashNext = s.flashNext := rfl
@[simp] theorem State.onCtx_buffer (s : State) (c : Nat) (g : Ctx → Ctx) : (s.onCtx c g).buffer = s.buffer := rfl
@[simp] theorem State.onCtx_tzone (s : State) (c : Nat) (g : Ctx → Ctx) : (s.onCtx c g).tzone = s.tzone := rfl
@[simp] theorem State.onCtx_descr (s : State) (c : Nat) (g : Ctx → Ctx) : (s.onCtx c g).descr = s.descr := rfl
@[simp] theorem State.onCtx_reports (s : State) (c : Nat) (g : Ctx → Ctx) : (s.onCtx c g).reports = s.reports := rfl
@[simp] theorem State.onCtx_agenda (s : State) (c : Nat) (g : Ctx → Ctx) : (s.onCtx c g).agenda = s.agenda := rfl
@[simp] theorem State.onCtx_cur (s : State) (c : Nat) (g : Ctx → Ctx) : (s.onCtx c g).cur = s.cur := rfl
@[simp] theorem State.onCtx_fresh (s : State) (c : Nat) (g : Ctx → Ctx) : (s.onCtx c g).fresh = s.fresh := rfl

/-! ### State.onOp -/

@[simp] theorem State.onOp_sheafs (s : State) (n : Nat) (g : Op → Op) : (s.onOp n g).sheafs = s.sheafs := rfl
@[simp] theorem State.onOp_ops (s : State) (n : Nat) (g : Op → Op) : (s.onOp n g).ops = s.ops.upd n g := rfl
@[simp] theorem State.onOp_wgs (s : State) (n : Nat) (g : Op → Op) : (s.onOp n g).wgs = s.wgs := rfl
@[simp] theorem State.onOp_grids (s : State) (n : Nat) (g : Op → Op) : (s.onOp n g).grids = s.grids := rfl
@[simp] theorem State.onOp_ctxs (s : State) (n : Nat) (g : Op → Op) : (s.onOp n g).ctxs = s.ctxs := rfl
@[simp] theorem State.onOp_cores (s : State) (n : Nat) (g : Op → Op) : (s.onOp n g).cores = s.cores := rfl
@[simp] theorem State.onOp_engs (s : State) (n : Nat) (g : Op → Op) : (s.onOp n g).engs = s.engs := rfl
@[simp] theorem State.onOp_mem (s : State) (n : Nat) (g : Op → Op) : (s.onOp n g).mem = s.mem := rfl
@[simp] theorem State.onOp_l2 (s : State) (n : Nat) (g : Op → Op) : (s.onOp n g).l2 = s.l2 := rfl
@[simp] theorem State.onOp_badSectors (s : State) (n : Nat) (g : Op → Op) : (s.onOp n g).badSectors = s.badSectors := rfl
@[simp] theorem State.onOp_corrected (s : State) (n : Nat) (g : Op → Op) : (s.onOp n g).corrected = s.corrected := rfl
@[simp] theorem State.onOp_eccLog (s : State) (n : Nat) (g : Op → Op) : (s.onOp n g).eccLog = s.eccLog := rfl
@[simp] theorem State.onOp_logWait (s : State) (n : Nat) (g : Op → Op) : (s.onOp n g).logWait = s.logWait := rfl
@[simp] theorem State.onOp_staging (s : State) (n : Nat) (g : Op → Op) : (s.onOp n g).staging = s.staging := rfl
@[simp] theorem State.onOp_stagingFills (s : State) (n : Nat) (g : Op → Op) : (s.onOp n g).stagingFills = s.stagingFills := rfl
@[simp] theorem State.onOp_prefetches (s : State) (n : Nat) (g : Op → Op) : (s.onOp n g).prefetches = s.prefetches := rfl
@[simp] theorem State.onOp_tlbs (s : State) (n : Nat) (g : Op → Op) : (s.onOp n g).tlbs = s.tlbs := rfl
@[simp] theorem State.onOp_filters (s : State) (n : Nat) (g : Op → Op) : (s.onOp n g).filters = s.filters := rfl
@[simp] theorem State.onOp_fused (s : State) (n : Nat) (g : Op → Op) : (s.onOp n g).fused = s.fused := rfl
@[simp] theorem State.onOp_bmCache (s : State) (n : Nat) (g : Op → Op) : (s.onOp n g).bmCache = s.bmCache := rfl
@[simp] theorem State.onOp_packets (s : State) (n : Nat) (g : Op → Op) : (s.onOp n g).packets = s.packets := rfl
@[simp] theorem State.onOp_blockWait (s : State) (n : Nat) (g : Op → Op) : (s.onOp n g).blockWait = s.blockWait := rfl
@[simp] theorem State.onOp_heathClk (s : State) (n : Nat) (g : Op → Op) : (s.onOp n g).heathClk = s.heathClk := rfl
@[simp] theorem State.onOp_blocks (s : State) (n : Nat) (g : Op → Op) : (s.onOp n g).blocks = s.blocks := rfl
@[simp] theorem State.onOp_calls (s : State) (n : Nat) (g : Op → Op) : (s.onOp n g).calls = s.calls := rfl
@[simp] theorem State.onOp_segs (s : State) (n : Nat) (g : Op → Op) : (s.onOp n g).segs = s.segs := rfl
@[simp] theorem State.onOp_installs (s : State) (n : Nat) (g : Op → Op) : (s.onOp n g).installs = s.installs := rfl
@[simp] theorem State.onOp_refresh (s : State) (n : Nat) (g : Op → Op) : (s.onOp n g).refresh = s.refresh := rfl
@[simp] theorem State.onOp_migrations (s : State) (n : Nat) (g : Op → Op) : (s.onOp n g).migrations = s.migrations := rfl
@[simp] theorem State.onOp_accid (s : State) (n : Nat) (g : Op → Op) : (s.onOp n g).accid = s.accid := rfl
@[simp] theorem State.onOp_bmbase (s : State) (n : Nat) (g : Op → Op) : (s.onOp n g).bmbase = s.bmbase := rfl
@[simp] theorem State.onOp_bmcount (s : State) (n : Nat) (g : Op → Op) : (s.onOp n g).bmcount = s.bmcount := rfl
@[simp] theorem State.onOp_fqbase (s : State) (n : Nat) (g : Op → Op) : (s.onOp n g).fqbase = s.fqbase := rfl
@[simp] theorem State.onOp_fqHead (s : State) (n : Nat) (g : Op → Op) : (s.onOp n g).fqHead = s.fqHead := rfl
@[simp] theorem State.onOp_fqTail (s : State) (n : Nat) (g : Op → Op) : (s.onOp n g).fqTail = s.fqTail := rfl
@[simp] theorem State.onOp_fqSeq (s : State) (n : Nat) (g : Op → Op) : (s.onOp n g).fqSeq = s.fqSeq := rfl
@[simp] theorem State.onOp_fqOut (s : State) (n : Nat) (g : Op → Op) : (s.onOp n g).fqOut = s.fqOut := rfl
@[simp] theorem State.onOp_irq (s : State) (n : Nat) (g : Op → Op) : (s.onOp n g).irq = s.irq := rfl
@[simp] theorem State.onOp_msix (s : State) (n : Nat) (g : Op → Op) : (s.onOp n g).msix = s.msix := rfl
@[simp] theorem State.onOp_slots (s : State) (n : Nat) (g : Op → Op) : (s.onOp n g).slots = s.slots := rfl
@[simp] theorem State.onOp_xwin (s : State) (n : Nat) (g : Op → Op) : (s.onOp n g).xwin = s.xwin := rfl
@[simp] theorem State.onOp_xgrp (s : State) (n : Nat) (g : Op → Op) : (s.onOp n g).xgrp = s.xgrp := rfl
@[simp] theorem State.onOp_stnPort (s : State) (n : Nat) (g : Op → Op) : (s.onOp n g).stnPort = s.stnPort := rfl
@[simp] theorem State.onOp_xports (s : State) (n : Nat) (g : Op → Op) : (s.onOp n g).xports = s.xports := rfl
@[simp] theorem State.onOp_xseq (s : State) (n : Nat) (g : Op → Op) : (s.onOp n g).xseq = s.xseq := rfl
@[simp] theorem State.onOp_atc (s : State) (n : Nat) (g : Op → Op) : (s.onOp n g).atc = s.atc := rfl
@[simp] theorem State.onOp_atsReq (s : State) (n : Nat) (g : Op → Op) : (s.onOp n g).atsReq = s.atsReq := rfl
@[simp] theorem State.onOp_priReq (s : State) (n : Nat) (g : Op → Op) : (s.onOp n g).priReq = s.priReq := rfl
@[simp] theorem State.onOp_farFails (s : State) (n : Nat) (g : Op → Op) : (s.onOp n g).farFails = s.farFails := rfl
@[simp] theorem State.onOp_dispClk (s : State) (n : Nat) (g : Op → Op) : (s.onOp n g).dispClk = s.dispClk := rfl
@[simp] theorem State.onOp_dispPtr (s : State) (n : Nat) (g : Op → Op) : (s.onOp n g).dispPtr = s.dispPtr := rfl
@[simp] theorem State.onOp_switches (s : State) (n : Nat) (g : Op → Op) : (s.onOp n g).switches = s.switches := rfl
@[simp] theorem State.onOp_dev (s : State) (n : Nat) (g : Op → Op) : (s.onOp n g).dev = s.dev := rfl
@[simp] theorem State.onOp_fstage (s : State) (n : Nat) (g : Op → Op) : (s.onOp n g).fstage = s.fstage := rfl
@[simp] theorem State.onOp_stage1 (s : State) (n : Nat) (g : Op → Op) : (s.onOp n g).stage1 = s.stage1 := rfl
@[simp] theorem State.onOp_lastDb (s : State) (n : Nat) (g : Op → Op) : (s.onOp n g).lastDb = s.lastDb := rfl
@[simp] theorem State.onOp_dbRef (s : State) (n : Nat) (g : Op → Op) : (s.onOp n g).dbRef = s.dbRef := rfl
@[simp] theorem State.onOp_log (s : State) (n : Nat) (g : Op → Op) : (s.onOp n g).log = s.log := rfl
@[simp] theorem State.onOp_cmt (s : State) (n : Nat) (g : Op → Op) : (s.onOp n g).cmt = s.cmt := rfl
@[simp] theorem State.onOp_flash (s : State) (n : Nat) (g : Op → Op) : (s.onOp n g).flash = s.flash := rfl
@[simp] theorem State.onOp_flashNext (s : State) (n : Nat) (g : Op → Op) : (s.onOp n g).flashNext = s.flashNext := rfl
@[simp] theorem State.onOp_buffer (s : State) (n : Nat) (g : Op → Op) : (s.onOp n g).buffer = s.buffer := rfl
@[simp] theorem State.onOp_tzone (s : State) (n : Nat) (g : Op → Op) : (s.onOp n g).tzone = s.tzone := rfl
@[simp] theorem State.onOp_descr (s : State) (n : Nat) (g : Op → Op) : (s.onOp n g).descr = s.descr := rfl
@[simp] theorem State.onOp_reports (s : State) (n : Nat) (g : Op → Op) : (s.onOp n g).reports = s.reports := rfl
@[simp] theorem State.onOp_agenda (s : State) (n : Nat) (g : Op → Op) : (s.onOp n g).agenda = s.agenda := rfl
@[simp] theorem State.onOp_cur (s : State) (n : Nat) (g : Op → Op) : (s.onOp n g).cur = s.cur := rfl
@[simp] theorem State.onOp_fresh (s : State) (n : Nat) (g : Op → Op) : (s.onOp n g).fresh = s.fresh := rfl

/-! ### State.onEng -/

@[simp] theorem State.onEng_sheafs (s : State) (n : Nat) (g : Eng → Eng) : (s.onEng n g).sheafs = s.sheafs := rfl
@[simp] theorem State.onEng_ops (s : State) (n : Nat) (g : Eng → Eng) : (s.onEng n g).ops = s.ops := rfl
@[simp] theorem State.onEng_wgs (s : State) (n : Nat) (g : Eng → Eng) : (s.onEng n g).wgs = s.wgs := rfl
@[simp] theorem State.onEng_grids (s : State) (n : Nat) (g : Eng → Eng) : (s.onEng n g).grids = s.grids := rfl
@[simp] theorem State.onEng_ctxs (s : State) (n : Nat) (g : Eng → Eng) : (s.onEng n g).ctxs = s.ctxs := rfl
@[simp] theorem State.onEng_cores (s : State) (n : Nat) (g : Eng → Eng) : (s.onEng n g).cores = s.cores := rfl
@[simp] theorem State.onEng_engs (s : State) (n : Nat) (g : Eng → Eng) : (s.onEng n g).engs = s.engs.upd n g := rfl
@[simp] theorem State.onEng_mem (s : State) (n : Nat) (g : Eng → Eng) : (s.onEng n g).mem = s.mem := rfl
@[simp] theorem State.onEng_l2 (s : State) (n : Nat) (g : Eng → Eng) : (s.onEng n g).l2 = s.l2 := rfl
@[simp] theorem State.onEng_badSectors (s : State) (n : Nat) (g : Eng → Eng) : (s.onEng n g).badSectors = s.badSectors := rfl
@[simp] theorem State.onEng_corrected (s : State) (n : Nat) (g : Eng → Eng) : (s.onEng n g).corrected = s.corrected := rfl
@[simp] theorem State.onEng_eccLog (s : State) (n : Nat) (g : Eng → Eng) : (s.onEng n g).eccLog = s.eccLog := rfl
@[simp] theorem State.onEng_logWait (s : State) (n : Nat) (g : Eng → Eng) : (s.onEng n g).logWait = s.logWait := rfl
@[simp] theorem State.onEng_staging (s : State) (n : Nat) (g : Eng → Eng) : (s.onEng n g).staging = s.staging := rfl
@[simp] theorem State.onEng_stagingFills (s : State) (n : Nat) (g : Eng → Eng) : (s.onEng n g).stagingFills = s.stagingFills := rfl
@[simp] theorem State.onEng_prefetches (s : State) (n : Nat) (g : Eng → Eng) : (s.onEng n g).prefetches = s.prefetches := rfl
@[simp] theorem State.onEng_tlbs (s : State) (n : Nat) (g : Eng → Eng) : (s.onEng n g).tlbs = s.tlbs := rfl
@[simp] theorem State.onEng_filters (s : State) (n : Nat) (g : Eng → Eng) : (s.onEng n g).filters = s.filters := rfl
@[simp] theorem State.onEng_fused (s : State) (n : Nat) (g : Eng → Eng) : (s.onEng n g).fused = s.fused := rfl
@[simp] theorem State.onEng_bmCache (s : State) (n : Nat) (g : Eng → Eng) : (s.onEng n g).bmCache = s.bmCache := rfl
@[simp] theorem State.onEng_packets (s : State) (n : Nat) (g : Eng → Eng) : (s.onEng n g).packets = s.packets := rfl
@[simp] theorem State.onEng_blockWait (s : State) (n : Nat) (g : Eng → Eng) : (s.onEng n g).blockWait = s.blockWait := rfl
@[simp] theorem State.onEng_heathClk (s : State) (n : Nat) (g : Eng → Eng) : (s.onEng n g).heathClk = s.heathClk := rfl
@[simp] theorem State.onEng_blocks (s : State) (n : Nat) (g : Eng → Eng) : (s.onEng n g).blocks = s.blocks := rfl
@[simp] theorem State.onEng_calls (s : State) (n : Nat) (g : Eng → Eng) : (s.onEng n g).calls = s.calls := rfl
@[simp] theorem State.onEng_segs (s : State) (n : Nat) (g : Eng → Eng) : (s.onEng n g).segs = s.segs := rfl
@[simp] theorem State.onEng_installs (s : State) (n : Nat) (g : Eng → Eng) : (s.onEng n g).installs = s.installs := rfl
@[simp] theorem State.onEng_refresh (s : State) (n : Nat) (g : Eng → Eng) : (s.onEng n g).refresh = s.refresh := rfl
@[simp] theorem State.onEng_migrations (s : State) (n : Nat) (g : Eng → Eng) : (s.onEng n g).migrations = s.migrations := rfl
@[simp] theorem State.onEng_accid (s : State) (n : Nat) (g : Eng → Eng) : (s.onEng n g).accid = s.accid := rfl
@[simp] theorem State.onEng_bmbase (s : State) (n : Nat) (g : Eng → Eng) : (s.onEng n g).bmbase = s.bmbase := rfl
@[simp] theorem State.onEng_bmcount (s : State) (n : Nat) (g : Eng → Eng) : (s.onEng n g).bmcount = s.bmcount := rfl
@[simp] theorem State.onEng_fqbase (s : State) (n : Nat) (g : Eng → Eng) : (s.onEng n g).fqbase = s.fqbase := rfl
@[simp] theorem State.onEng_fqHead (s : State) (n : Nat) (g : Eng → Eng) : (s.onEng n g).fqHead = s.fqHead := rfl
@[simp] theorem State.onEng_fqTail (s : State) (n : Nat) (g : Eng → Eng) : (s.onEng n g).fqTail = s.fqTail := rfl
@[simp] theorem State.onEng_fqSeq (s : State) (n : Nat) (g : Eng → Eng) : (s.onEng n g).fqSeq = s.fqSeq := rfl
@[simp] theorem State.onEng_fqOut (s : State) (n : Nat) (g : Eng → Eng) : (s.onEng n g).fqOut = s.fqOut := rfl
@[simp] theorem State.onEng_irq (s : State) (n : Nat) (g : Eng → Eng) : (s.onEng n g).irq = s.irq := rfl
@[simp] theorem State.onEng_msix (s : State) (n : Nat) (g : Eng → Eng) : (s.onEng n g).msix = s.msix := rfl
@[simp] theorem State.onEng_slots (s : State) (n : Nat) (g : Eng → Eng) : (s.onEng n g).slots = s.slots := rfl
@[simp] theorem State.onEng_xwin (s : State) (n : Nat) (g : Eng → Eng) : (s.onEng n g).xwin = s.xwin := rfl
@[simp] theorem State.onEng_xgrp (s : State) (n : Nat) (g : Eng → Eng) : (s.onEng n g).xgrp = s.xgrp := rfl
@[simp] theorem State.onEng_stnPort (s : State) (n : Nat) (g : Eng → Eng) : (s.onEng n g).stnPort = s.stnPort := rfl
@[simp] theorem State.onEng_xports (s : State) (n : Nat) (g : Eng → Eng) : (s.onEng n g).xports = s.xports := rfl
@[simp] theorem State.onEng_xseq (s : State) (n : Nat) (g : Eng → Eng) : (s.onEng n g).xseq = s.xseq := rfl
@[simp] theorem State.onEng_atc (s : State) (n : Nat) (g : Eng → Eng) : (s.onEng n g).atc = s.atc := rfl
@[simp] theorem State.onEng_atsReq (s : State) (n : Nat) (g : Eng → Eng) : (s.onEng n g).atsReq = s.atsReq := rfl
@[simp] theorem State.onEng_priReq (s : State) (n : Nat) (g : Eng → Eng) : (s.onEng n g).priReq = s.priReq := rfl
@[simp] theorem State.onEng_farFails (s : State) (n : Nat) (g : Eng → Eng) : (s.onEng n g).farFails = s.farFails := rfl
@[simp] theorem State.onEng_dispClk (s : State) (n : Nat) (g : Eng → Eng) : (s.onEng n g).dispClk = s.dispClk := rfl
@[simp] theorem State.onEng_dispPtr (s : State) (n : Nat) (g : Eng → Eng) : (s.onEng n g).dispPtr = s.dispPtr := rfl
@[simp] theorem State.onEng_switches (s : State) (n : Nat) (g : Eng → Eng) : (s.onEng n g).switches = s.switches := rfl
@[simp] theorem State.onEng_dev (s : State) (n : Nat) (g : Eng → Eng) : (s.onEng n g).dev = s.dev := rfl
@[simp] theorem State.onEng_fstage (s : State) (n : Nat) (g : Eng → Eng) : (s.onEng n g).fstage = s.fstage := rfl
@[simp] theorem State.onEng_stage1 (s : State) (n : Nat) (g : Eng → Eng) : (s.onEng n g).stage1 = s.stage1 := rfl
@[simp] theorem State.onEng_lastDb (s : State) (n : Nat) (g : Eng → Eng) : (s.onEng n g).lastDb = s.lastDb := rfl
@[simp] theorem State.onEng_dbRef (s : State) (n : Nat) (g : Eng → Eng) : (s.onEng n g).dbRef = s.dbRef := rfl
@[simp] theorem State.onEng_log (s : State) (n : Nat) (g : Eng → Eng) : (s.onEng n g).log = s.log := rfl
@[simp] theorem State.onEng_cmt (s : State) (n : Nat) (g : Eng → Eng) : (s.onEng n g).cmt = s.cmt := rfl
@[simp] theorem State.onEng_flash (s : State) (n : Nat) (g : Eng → Eng) : (s.onEng n g).flash = s.flash := rfl
@[simp] theorem State.onEng_flashNext (s : State) (n : Nat) (g : Eng → Eng) : (s.onEng n g).flashNext = s.flashNext := rfl
@[simp] theorem State.onEng_buffer (s : State) (n : Nat) (g : Eng → Eng) : (s.onEng n g).buffer = s.buffer := rfl
@[simp] theorem State.onEng_tzone (s : State) (n : Nat) (g : Eng → Eng) : (s.onEng n g).tzone = s.tzone := rfl
@[simp] theorem State.onEng_descr (s : State) (n : Nat) (g : Eng → Eng) : (s.onEng n g).descr = s.descr := rfl
@[simp] theorem State.onEng_reports (s : State) (n : Nat) (g : Eng → Eng) : (s.onEng n g).reports = s.reports := rfl
@[simp] theorem State.onEng_agenda (s : State) (n : Nat) (g : Eng → Eng) : (s.onEng n g).agenda = s.agenda := rfl
@[simp] theorem State.onEng_cur (s : State) (n : Nat) (g : Eng → Eng) : (s.onEng n g).cur = s.cur := rfl
@[simp] theorem State.onEng_fresh (s : State) (n : Nat) (g : Eng → Eng) : (s.onEng n g).fresh = s.fresh := rfl

/-! ### State.onCall -/

@[simp] theorem State.onCall_sheafs (s : State) (n : Nat) (g : Call → Call) : (s.onCall n g).sheafs = s.sheafs := rfl
@[simp] theorem State.onCall_ops (s : State) (n : Nat) (g : Call → Call) : (s.onCall n g).ops = s.ops := rfl
@[simp] theorem State.onCall_wgs (s : State) (n : Nat) (g : Call → Call) : (s.onCall n g).wgs = s.wgs := rfl
@[simp] theorem State.onCall_grids (s : State) (n : Nat) (g : Call → Call) : (s.onCall n g).grids = s.grids := rfl
@[simp] theorem State.onCall_ctxs (s : State) (n : Nat) (g : Call → Call) : (s.onCall n g).ctxs = s.ctxs := rfl
@[simp] theorem State.onCall_cores (s : State) (n : Nat) (g : Call → Call) : (s.onCall n g).cores = s.cores := rfl
@[simp] theorem State.onCall_engs (s : State) (n : Nat) (g : Call → Call) : (s.onCall n g).engs = s.engs := rfl
@[simp] theorem State.onCall_mem (s : State) (n : Nat) (g : Call → Call) : (s.onCall n g).mem = s.mem := rfl
@[simp] theorem State.onCall_l2 (s : State) (n : Nat) (g : Call → Call) : (s.onCall n g).l2 = s.l2 := rfl
@[simp] theorem State.onCall_badSectors (s : State) (n : Nat) (g : Call → Call) : (s.onCall n g).badSectors = s.badSectors := rfl
@[simp] theorem State.onCall_corrected (s : State) (n : Nat) (g : Call → Call) : (s.onCall n g).corrected = s.corrected := rfl
@[simp] theorem State.onCall_eccLog (s : State) (n : Nat) (g : Call → Call) : (s.onCall n g).eccLog = s.eccLog := rfl
@[simp] theorem State.onCall_logWait (s : State) (n : Nat) (g : Call → Call) : (s.onCall n g).logWait = s.logWait := rfl
@[simp] theorem State.onCall_staging (s : State) (n : Nat) (g : Call → Call) : (s.onCall n g).staging = s.staging := rfl
@[simp] theorem State.onCall_stagingFills (s : State) (n : Nat) (g : Call → Call) : (s.onCall n g).stagingFills = s.stagingFills := rfl
@[simp] theorem State.onCall_prefetches (s : State) (n : Nat) (g : Call → Call) : (s.onCall n g).prefetches = s.prefetches := rfl
@[simp] theorem State.onCall_tlbs (s : State) (n : Nat) (g : Call → Call) : (s.onCall n g).tlbs = s.tlbs := rfl
@[simp] theorem State.onCall_filters (s : State) (n : Nat) (g : Call → Call) : (s.onCall n g).filters = s.filters := rfl
@[simp] theorem State.onCall_fused (s : State) (n : Nat) (g : Call → Call) : (s.onCall n g).fused = s.fused := rfl
@[simp] theorem State.onCall_bmCache (s : State) (n : Nat) (g : Call → Call) : (s.onCall n g).bmCache = s.bmCache := rfl
@[simp] theorem State.onCall_packets (s : State) (n : Nat) (g : Call → Call) : (s.onCall n g).packets = s.packets := rfl
@[simp] theorem State.onCall_blockWait (s : State) (n : Nat) (g : Call → Call) : (s.onCall n g).blockWait = s.blockWait := rfl
@[simp] theorem State.onCall_heathClk (s : State) (n : Nat) (g : Call → Call) : (s.onCall n g).heathClk = s.heathClk := rfl
@[simp] theorem State.onCall_blocks (s : State) (n : Nat) (g : Call → Call) : (s.onCall n g).blocks = s.blocks := rfl
@[simp] theorem State.onCall_calls (s : State) (n : Nat) (g : Call → Call) : (s.onCall n g).calls = s.calls.upd n g := rfl
@[simp] theorem State.onCall_segs (s : State) (n : Nat) (g : Call → Call) : (s.onCall n g).segs = s.segs := rfl
@[simp] theorem State.onCall_installs (s : State) (n : Nat) (g : Call → Call) : (s.onCall n g).installs = s.installs := rfl
@[simp] theorem State.onCall_refresh (s : State) (n : Nat) (g : Call → Call) : (s.onCall n g).refresh = s.refresh := rfl
@[simp] theorem State.onCall_migrations (s : State) (n : Nat) (g : Call → Call) : (s.onCall n g).migrations = s.migrations := rfl
@[simp] theorem State.onCall_accid (s : State) (n : Nat) (g : Call → Call) : (s.onCall n g).accid = s.accid := rfl
@[simp] theorem State.onCall_bmbase (s : State) (n : Nat) (g : Call → Call) : (s.onCall n g).bmbase = s.bmbase := rfl
@[simp] theorem State.onCall_bmcount (s : State) (n : Nat) (g : Call → Call) : (s.onCall n g).bmcount = s.bmcount := rfl
@[simp] theorem State.onCall_fqbase (s : State) (n : Nat) (g : Call → Call) : (s.onCall n g).fqbase = s.fqbase := rfl
@[simp] theorem State.onCall_fqHead (s : State) (n : Nat) (g : Call → Call) : (s.onCall n g).fqHead = s.fqHead := rfl
@[simp] theorem State.onCall_fqTail (s : State) (n : Nat) (g : Call → Call) : (s.onCall n g).fqTail = s.fqTail := rfl
@[simp] theorem State.onCall_fqSeq (s : State) (n : Nat) (g : Call → Call) : (s.onCall n g).fqSeq = s.fqSeq := rfl
@[simp] theorem State.onCall_fqOut (s : State) (n : Nat) (g : Call → Call) : (s.onCall n g).fqOut = s.fqOut := rfl
@[simp] theorem State.onCall_irq (s : State) (n : Nat) (g : Call → Call) : (s.onCall n g).irq = s.irq := rfl
@[simp] theorem State.onCall_msix (s : State) (n : Nat) (g : Call → Call) : (s.onCall n g).msix = s.msix := rfl
@[simp] theorem State.onCall_slots (s : State) (n : Nat) (g : Call → Call) : (s.onCall n g).slots = s.slots := rfl
@[simp] theorem State.onCall_xwin (s : State) (n : Nat) (g : Call → Call) : (s.onCall n g).xwin = s.xwin := rfl
@[simp] theorem State.onCall_xgrp (s : State) (n : Nat) (g : Call → Call) : (s.onCall n g).xgrp = s.xgrp := rfl
@[simp] theorem State.onCall_stnPort (s : State) (n : Nat) (g : Call → Call) : (s.onCall n g).stnPort = s.stnPort := rfl
@[simp] theorem State.onCall_xports (s : State) (n : Nat) (g : Call → Call) : (s.onCall n g).xports = s.xports := rfl
@[simp] theorem State.onCall_xseq (s : State) (n : Nat) (g : Call → Call) : (s.onCall n g).xseq = s.xseq := rfl
@[simp] theorem State.onCall_atc (s : State) (n : Nat) (g : Call → Call) : (s.onCall n g).atc = s.atc := rfl
@[simp] theorem State.onCall_atsReq (s : State) (n : Nat) (g : Call → Call) : (s.onCall n g).atsReq = s.atsReq := rfl
@[simp] theorem State.onCall_priReq (s : State) (n : Nat) (g : Call → Call) : (s.onCall n g).priReq = s.priReq := rfl
@[simp] theorem State.onCall_farFails (s : State) (n : Nat) (g : Call → Call) : (s.onCall n g).farFails = s.farFails := rfl
@[simp] theorem State.onCall_dispClk (s : State) (n : Nat) (g : Call → Call) : (s.onCall n g).dispClk = s.dispClk := rfl
@[simp] theorem State.onCall_dispPtr (s : State) (n : Nat) (g : Call → Call) : (s.onCall n g).dispPtr = s.dispPtr := rfl
@[simp] theorem State.onCall_switches (s : State) (n : Nat) (g : Call → Call) : (s.onCall n g).switches = s.switches := rfl
@[simp] theorem State.onCall_dev (s : State) (n : Nat) (g : Call → Call) : (s.onCall n g).dev = s.dev := rfl
@[simp] theorem State.onCall_fstage (s : State) (n : Nat) (g : Call → Call) : (s.onCall n g).fstage = s.fstage := rfl
@[simp] theorem State.onCall_stage1 (s : State) (n : Nat) (g : Call → Call) : (s.onCall n g).stage1 = s.stage1 := rfl
@[simp] theorem State.onCall_lastDb (s : State) (n : Nat) (g : Call → Call) : (s.onCall n g).lastDb = s.lastDb := rfl
@[simp] theorem State.onCall_dbRef (s : State) (n : Nat) (g : Call → Call) : (s.onCall n g).dbRef = s.dbRef := rfl
@[simp] theorem State.onCall_log (s : State) (n : Nat) (g : Call → Call) : (s.onCall n g).log = s.log := rfl
@[simp] theorem State.onCall_cmt (s : State) (n : Nat) (g : Call → Call) : (s.onCall n g).cmt = s.cmt := rfl
@[simp] theorem State.onCall_flash (s : State) (n : Nat) (g : Call → Call) : (s.onCall n g).flash = s.flash := rfl
@[simp] theorem State.onCall_flashNext (s : State) (n : Nat) (g : Call → Call) : (s.onCall n g).flashNext = s.flashNext := rfl
@[simp] theorem State.onCall_buffer (s : State) (n : Nat) (g : Call → Call) : (s.onCall n g).buffer = s.buffer := rfl
@[simp] theorem State.onCall_tzone (s : State) (n : Nat) (g : Call → Call) : (s.onCall n g).tzone = s.tzone := rfl
@[simp] theorem State.onCall_descr (s : State) (n : Nat) (g : Call → Call) : (s.onCall n g).descr = s.descr := rfl
@[simp] theorem State.onCall_reports (s : State) (n : Nat) (g : Call → Call) : (s.onCall n g).reports = s.reports := rfl
@[simp] theorem State.onCall_agenda (s : State) (n : Nat) (g : Call → Call) : (s.onCall n g).agenda = s.agenda := rfl
@[simp] theorem State.onCall_cur (s : State) (n : Nat) (g : Call → Call) : (s.onCall n g).cur = s.cur := rfl
@[simp] theorem State.onCall_fresh (s : State) (n : Nat) (g : Call → Call) : (s.onCall n g).fresh = s.fresh := rfl

/-! ### State.onBlock -/

@[simp] theorem State.onBlock_sheafs (s : State) (n : Nat) (g : Block → Block) : (s.onBlock n g).sheafs = s.sheafs := rfl
@[simp] theorem State.onBlock_ops (s : State) (n : Nat) (g : Block → Block) : (s.onBlock n g).ops = s.ops := rfl
@[simp] theorem State.onBlock_wgs (s : State) (n : Nat) (g : Block → Block) : (s.onBlock n g).wgs = s.wgs := rfl
@[simp] theorem State.onBlock_grids (s : State) (n : Nat) (g : Block → Block) : (s.onBlock n g).grids = s.grids := rfl
@[simp] theorem State.onBlock_ctxs (s : State) (n : Nat) (g : Block → Block) : (s.onBlock n g).ctxs = s.ctxs := rfl
@[simp] theorem State.onBlock_cores (s : State) (n : Nat) (g : Block → Block) : (s.onBlock n g).cores = s.cores := rfl
@[simp] theorem State.onBlock_engs (s : State) (n : Nat) (g : Block → Block) : (s.onBlock n g).engs = s.engs := rfl
@[simp] theorem State.onBlock_mem (s : State) (n : Nat) (g : Block → Block) : (s.onBlock n g).mem = s.mem := rfl
@[simp] theorem State.onBlock_l2 (s : State) (n : Nat) (g : Block → Block) : (s.onBlock n g).l2 = s.l2 := rfl
@[simp] theorem State.onBlock_badSectors (s : State) (n : Nat) (g : Block → Block) : (s.onBlock n g).badSectors = s.badSectors := rfl
@[simp] theorem State.onBlock_corrected (s : State) (n : Nat) (g : Block → Block) : (s.onBlock n g).corrected = s.corrected := rfl
@[simp] theorem State.onBlock_eccLog (s : State) (n : Nat) (g : Block → Block) : (s.onBlock n g).eccLog = s.eccLog := rfl
@[simp] theorem State.onBlock_logWait (s : State) (n : Nat) (g : Block → Block) : (s.onBlock n g).logWait = s.logWait := rfl
@[simp] theorem State.onBlock_staging (s : State) (n : Nat) (g : Block → Block) : (s.onBlock n g).staging = s.staging := rfl
@[simp] theorem State.onBlock_stagingFills (s : State) (n : Nat) (g : Block → Block) : (s.onBlock n g).stagingFills = s.stagingFills := rfl
@[simp] theorem State.onBlock_prefetches (s : State) (n : Nat) (g : Block → Block) : (s.onBlock n g).prefetches = s.prefetches := rfl
@[simp] theorem State.onBlock_tlbs (s : State) (n : Nat) (g : Block → Block) : (s.onBlock n g).tlbs = s.tlbs := rfl
@[simp] theorem State.onBlock_filters (s : State) (n : Nat) (g : Block → Block) : (s.onBlock n g).filters = s.filters := rfl
@[simp] theorem State.onBlock_fused (s : State) (n : Nat) (g : Block → Block) : (s.onBlock n g).fused = s.fused := rfl
@[simp] theorem State.onBlock_bmCache (s : State) (n : Nat) (g : Block → Block) : (s.onBlock n g).bmCache = s.bmCache := rfl
@[simp] theorem State.onBlock_packets (s : State) (n : Nat) (g : Block → Block) : (s.onBlock n g).packets = s.packets := rfl
@[simp] theorem State.onBlock_blockWait (s : State) (n : Nat) (g : Block → Block) : (s.onBlock n g).blockWait = s.blockWait := rfl
@[simp] theorem State.onBlock_heathClk (s : State) (n : Nat) (g : Block → Block) : (s.onBlock n g).heathClk = s.heathClk := rfl
@[simp] theorem State.onBlock_blocks (s : State) (n : Nat) (g : Block → Block) : (s.onBlock n g).blocks = s.blocks.upd n g := rfl
@[simp] theorem State.onBlock_calls (s : State) (n : Nat) (g : Block → Block) : (s.onBlock n g).calls = s.calls := rfl
@[simp] theorem State.onBlock_segs (s : State) (n : Nat) (g : Block → Block) : (s.onBlock n g).segs = s.segs := rfl
@[simp] theorem State.onBlock_installs (s : State) (n : Nat) (g : Block → Block) : (s.onBlock n g).installs = s.installs := rfl
@[simp] theorem State.onBlock_refresh (s : State) (n : Nat) (g : Block → Block) : (s.onBlock n g).refresh = s.refresh := rfl
@[simp] theorem State.onBlock_migrations (s : State) (n : Nat) (g : Block → Block) : (s.onBlock n g).migrations = s.migrations := rfl
@[simp] theorem State.onBlock_accid (s : State) (n : Nat) (g : Block → Block) : (s.onBlock n g).accid = s.accid := rfl
@[simp] theorem State.onBlock_bmbase (s : State) (n : Nat) (g : Block → Block) : (s.onBlock n g).bmbase = s.bmbase := rfl
@[simp] theorem State.onBlock_bmcount (s : State) (n : Nat) (g : Block → Block) : (s.onBlock n g).bmcount = s.bmcount := rfl
@[simp] theorem State.onBlock_fqbase (s : State) (n : Nat) (g : Block → Block) : (s.onBlock n g).fqbase = s.fqbase := rfl
@[simp] theorem State.onBlock_fqHead (s : State) (n : Nat) (g : Block → Block) : (s.onBlock n g).fqHead = s.fqHead := rfl
@[simp] theorem State.onBlock_fqTail (s : State) (n : Nat) (g : Block → Block) : (s.onBlock n g).fqTail = s.fqTail := rfl
@[simp] theorem State.onBlock_fqSeq (s : State) (n : Nat) (g : Block → Block) : (s.onBlock n g).fqSeq = s.fqSeq := rfl
@[simp] theorem State.onBlock_fqOut (s : State) (n : Nat) (g : Block → Block) : (s.onBlock n g).fqOut = s.fqOut := rfl
@[simp] theorem State.onBlock_irq (s : State) (n : Nat) (g : Block → Block) : (s.onBlock n g).irq = s.irq := rfl
@[simp] theorem State.onBlock_msix (s : State) (n : Nat) (g : Block → Block) : (s.onBlock n g).msix = s.msix := rfl
@[simp] theorem State.onBlock_slots (s : State) (n : Nat) (g : Block → Block) : (s.onBlock n g).slots = s.slots := rfl
@[simp] theorem State.onBlock_xwin (s : State) (n : Nat) (g : Block → Block) : (s.onBlock n g).xwin = s.xwin := rfl
@[simp] theorem State.onBlock_xgrp (s : State) (n : Nat) (g : Block → Block) : (s.onBlock n g).xgrp = s.xgrp := rfl
@[simp] theorem State.onBlock_stnPort (s : State) (n : Nat) (g : Block → Block) : (s.onBlock n g).stnPort = s.stnPort := rfl
@[simp] theorem State.onBlock_xports (s : State) (n : Nat) (g : Block → Block) : (s.onBlock n g).xports = s.xports := rfl
@[simp] theorem State.onBlock_xseq (s : State) (n : Nat) (g : Block → Block) : (s.onBlock n g).xseq = s.xseq := rfl
@[simp] theorem State.onBlock_atc (s : State) (n : Nat) (g : Block → Block) : (s.onBlock n g).atc = s.atc := rfl
@[simp] theorem State.onBlock_atsReq (s : State) (n : Nat) (g : Block → Block) : (s.onBlock n g).atsReq = s.atsReq := rfl
@[simp] theorem State.onBlock_priReq (s : State) (n : Nat) (g : Block → Block) : (s.onBlock n g).priReq = s.priReq := rfl
@[simp] theorem State.onBlock_farFails (s : State) (n : Nat) (g : Block → Block) : (s.onBlock n g).farFails = s.farFails := rfl
@[simp] theorem State.onBlock_dispClk (s : State) (n : Nat) (g : Block → Block) : (s.onBlock n g).dispClk = s.dispClk := rfl
@[simp] theorem State.onBlock_dispPtr (s : State) (n : Nat) (g : Block → Block) : (s.onBlock n g).dispPtr = s.dispPtr := rfl
@[simp] theorem State.onBlock_switches (s : State) (n : Nat) (g : Block → Block) : (s.onBlock n g).switches = s.switches := rfl
@[simp] theorem State.onBlock_dev (s : State) (n : Nat) (g : Block → Block) : (s.onBlock n g).dev = s.dev := rfl
@[simp] theorem State.onBlock_fstage (s : State) (n : Nat) (g : Block → Block) : (s.onBlock n g).fstage = s.fstage := rfl
@[simp] theorem State.onBlock_stage1 (s : State) (n : Nat) (g : Block → Block) : (s.onBlock n g).stage1 = s.stage1 := rfl
@[simp] theorem State.onBlock_lastDb (s : State) (n : Nat) (g : Block → Block) : (s.onBlock n g).lastDb = s.lastDb := rfl
@[simp] theorem State.onBlock_dbRef (s : State) (n : Nat) (g : Block → Block) : (s.onBlock n g).dbRef = s.dbRef := rfl
@[simp] theorem State.onBlock_log (s : State) (n : Nat) (g : Block → Block) : (s.onBlock n g).log = s.log := rfl
@[simp] theorem State.onBlock_cmt (s : State) (n : Nat) (g : Block → Block) : (s.onBlock n g).cmt = s.cmt := rfl
@[simp] theorem State.onBlock_flash (s : State) (n : Nat) (g : Block → Block) : (s.onBlock n g).flash = s.flash := rfl
@[simp] theorem State.onBlock_flashNext (s : State) (n : Nat) (g : Block → Block) : (s.onBlock n g).flashNext = s.flashNext := rfl
@[simp] theorem State.onBlock_buffer (s : State) (n : Nat) (g : Block → Block) : (s.onBlock n g).buffer = s.buffer := rfl
@[simp] theorem State.onBlock_tzone (s : State) (n : Nat) (g : Block → Block) : (s.onBlock n g).tzone = s.tzone := rfl
@[simp] theorem State.onBlock_descr (s : State) (n : Nat) (g : Block → Block) : (s.onBlock n g).descr = s.descr := rfl
@[simp] theorem State.onBlock_reports (s : State) (n : Nat) (g : Block → Block) : (s.onBlock n g).reports = s.reports := rfl
@[simp] theorem State.onBlock_agenda (s : State) (n : Nat) (g : Block → Block) : (s.onBlock n g).agenda = s.agenda := rfl
@[simp] theorem State.onBlock_cur (s : State) (n : Nat) (g : Block → Block) : (s.onBlock n g).cur = s.cur := rfl
@[simp] theorem State.onBlock_fresh (s : State) (n : Nat) (g : Block → Block) : (s.onBlock n g).fresh = s.fresh := rfl

/-! ### State.onL2 -/

@[simp] theorem State.onL2_sheafs (s : State) (n : Nat) (g : L2Line → L2Line) : (s.onL2 n g).sheafs = s.sheafs := rfl
@[simp] theorem State.onL2_ops (s : State) (n : Nat) (g : L2Line → L2Line) : (s.onL2 n g).ops = s.ops := rfl
@[simp] theorem State.onL2_wgs (s : State) (n : Nat) (g : L2Line → L2Line) : (s.onL2 n g).wgs = s.wgs := rfl
@[simp] theorem State.onL2_grids (s : State) (n : Nat) (g : L2Line → L2Line) : (s.onL2 n g).grids = s.grids := rfl
@[simp] theorem State.onL2_ctxs (s : State) (n : Nat) (g : L2Line → L2Line) : (s.onL2 n g).ctxs = s.ctxs := rfl
@[simp] theorem State.onL2_cores (s : State) (n : Nat) (g : L2Line → L2Line) : (s.onL2 n g).cores = s.cores := rfl
@[simp] theorem State.onL2_engs (s : State) (n : Nat) (g : L2Line → L2Line) : (s.onL2 n g).engs = s.engs := rfl
@[simp] theorem State.onL2_mem (s : State) (n : Nat) (g : L2Line → L2Line) : (s.onL2 n g).mem = s.mem := rfl
@[simp] theorem State.onL2_l2 (s : State) (n : Nat) (g : L2Line → L2Line) : (s.onL2 n g).l2 = s.l2.map fun l => if l.line = n then g l else l := rfl
@[simp] theorem State.onL2_badSectors (s : State) (n : Nat) (g : L2Line → L2Line) : (s.onL2 n g).badSectors = s.badSectors := rfl
@[simp] theorem State.onL2_corrected (s : State) (n : Nat) (g : L2Line → L2Line) : (s.onL2 n g).corrected = s.corrected := rfl
@[simp] theorem State.onL2_eccLog (s : State) (n : Nat) (g : L2Line → L2Line) : (s.onL2 n g).eccLog = s.eccLog := rfl
@[simp] theorem State.onL2_logWait (s : State) (n : Nat) (g : L2Line → L2Line) : (s.onL2 n g).logWait = s.logWait := rfl
@[simp] theorem State.onL2_staging (s : State) (n : Nat) (g : L2Line → L2Line) : (s.onL2 n g).staging = s.staging := rfl
@[simp] theorem State.onL2_stagingFills (s : State) (n : Nat) (g : L2Line → L2Line) : (s.onL2 n g).stagingFills = s.stagingFills := rfl
@[simp] theorem State.onL2_prefetches (s : State) (n : Nat) (g : L2Line → L2Line) : (s.onL2 n g).prefetches = s.prefetches := rfl
@[simp] theorem State.onL2_tlbs (s : State) (n : Nat) (g : L2Line → L2Line) : (s.onL2 n g).tlbs = s.tlbs := rfl
@[simp] theorem State.onL2_filters (s : State) (n : Nat) (g : L2Line → L2Line) : (s.onL2 n g).filters = s.filters := rfl
@[simp] theorem State.onL2_fused (s : State) (n : Nat) (g : L2Line → L2Line) : (s.onL2 n g).fused = s.fused := rfl
@[simp] theorem State.onL2_bmCache (s : State) (n : Nat) (g : L2Line → L2Line) : (s.onL2 n g).bmCache = s.bmCache := rfl
@[simp] theorem State.onL2_packets (s : State) (n : Nat) (g : L2Line → L2Line) : (s.onL2 n g).packets = s.packets := rfl
@[simp] theorem State.onL2_blockWait (s : State) (n : Nat) (g : L2Line → L2Line) : (s.onL2 n g).blockWait = s.blockWait := rfl
@[simp] theorem State.onL2_heathClk (s : State) (n : Nat) (g : L2Line → L2Line) : (s.onL2 n g).heathClk = s.heathClk := rfl
@[simp] theorem State.onL2_blocks (s : State) (n : Nat) (g : L2Line → L2Line) : (s.onL2 n g).blocks = s.blocks := rfl
@[simp] theorem State.onL2_calls (s : State) (n : Nat) (g : L2Line → L2Line) : (s.onL2 n g).calls = s.calls := rfl
@[simp] theorem State.onL2_segs (s : State) (n : Nat) (g : L2Line → L2Line) : (s.onL2 n g).segs = s.segs := rfl
@[simp] theorem State.onL2_installs (s : State) (n : Nat) (g : L2Line → L2Line) : (s.onL2 n g).installs = s.installs := rfl
@[simp] theorem State.onL2_refresh (s : State) (n : Nat) (g : L2Line → L2Line) : (s.onL2 n g).refresh = s.refresh := rfl
@[simp] theorem State.onL2_migrations (s : State) (n : Nat) (g : L2Line → L2Line) : (s.onL2 n g).migrations = s.migrations := rfl
@[simp] theorem State.onL2_accid (s : State) (n : Nat) (g : L2Line → L2Line) : (s.onL2 n g).accid = s.accid := rfl
@[simp] theorem State.onL2_bmbase (s : State) (n : Nat) (g : L2Line → L2Line) : (s.onL2 n g).bmbase = s.bmbase := rfl
@[simp] theorem State.onL2_bmcount (s : State) (n : Nat) (g : L2Line → L2Line) : (s.onL2 n g).bmcount = s.bmcount := rfl
@[simp] theorem State.onL2_fqbase (s : State) (n : Nat) (g : L2Line → L2Line) : (s.onL2 n g).fqbase = s.fqbase := rfl
@[simp] theorem State.onL2_fqHead (s : State) (n : Nat) (g : L2Line → L2Line) : (s.onL2 n g).fqHead = s.fqHead := rfl
@[simp] theorem State.onL2_fqTail (s : State) (n : Nat) (g : L2Line → L2Line) : (s.onL2 n g).fqTail = s.fqTail := rfl
@[simp] theorem State.onL2_fqSeq (s : State) (n : Nat) (g : L2Line → L2Line) : (s.onL2 n g).fqSeq = s.fqSeq := rfl
@[simp] theorem State.onL2_fqOut (s : State) (n : Nat) (g : L2Line → L2Line) : (s.onL2 n g).fqOut = s.fqOut := rfl
@[simp] theorem State.onL2_irq (s : State) (n : Nat) (g : L2Line → L2Line) : (s.onL2 n g).irq = s.irq := rfl
@[simp] theorem State.onL2_msix (s : State) (n : Nat) (g : L2Line → L2Line) : (s.onL2 n g).msix = s.msix := rfl
@[simp] theorem State.onL2_slots (s : State) (n : Nat) (g : L2Line → L2Line) : (s.onL2 n g).slots = s.slots := rfl
@[simp] theorem State.onL2_xwin (s : State) (n : Nat) (g : L2Line → L2Line) : (s.onL2 n g).xwin = s.xwin := rfl
@[simp] theorem State.onL2_xgrp (s : State) (n : Nat) (g : L2Line → L2Line) : (s.onL2 n g).xgrp = s.xgrp := rfl
@[simp] theorem State.onL2_stnPort (s : State) (n : Nat) (g : L2Line → L2Line) : (s.onL2 n g).stnPort = s.stnPort := rfl
@[simp] theorem State.onL2_xports (s : State) (n : Nat) (g : L2Line → L2Line) : (s.onL2 n g).xports = s.xports := rfl
@[simp] theorem State.onL2_xseq (s : State) (n : Nat) (g : L2Line → L2Line) : (s.onL2 n g).xseq = s.xseq := rfl
@[simp] theorem State.onL2_atc (s : State) (n : Nat) (g : L2Line → L2Line) : (s.onL2 n g).atc = s.atc := rfl
@[simp] theorem State.onL2_atsReq (s : State) (n : Nat) (g : L2Line → L2Line) : (s.onL2 n g).atsReq = s.atsReq := rfl
@[simp] theorem State.onL2_priReq (s : State) (n : Nat) (g : L2Line → L2Line) : (s.onL2 n g).priReq = s.priReq := rfl
@[simp] theorem State.onL2_farFails (s : State) (n : Nat) (g : L2Line → L2Line) : (s.onL2 n g).farFails = s.farFails := rfl
@[simp] theorem State.onL2_dispClk (s : State) (n : Nat) (g : L2Line → L2Line) : (s.onL2 n g).dispClk = s.dispClk := rfl
@[simp] theorem State.onL2_dispPtr (s : State) (n : Nat) (g : L2Line → L2Line) : (s.onL2 n g).dispPtr = s.dispPtr := rfl
@[simp] theorem State.onL2_switches (s : State) (n : Nat) (g : L2Line → L2Line) : (s.onL2 n g).switches = s.switches := rfl
@[simp] theorem State.onL2_dev (s : State) (n : Nat) (g : L2Line → L2Line) : (s.onL2 n g).dev = s.dev := rfl
@[simp] theorem State.onL2_fstage (s : State) (n : Nat) (g : L2Line → L2Line) : (s.onL2 n g).fstage = s.fstage := rfl
@[simp] theorem State.onL2_stage1 (s : State) (n : Nat) (g : L2Line → L2Line) : (s.onL2 n g).stage1 = s.stage1 := rfl
@[simp] theorem State.onL2_lastDb (s : State) (n : Nat) (g : L2Line → L2Line) : (s.onL2 n g).lastDb = s.lastDb := rfl
@[simp] theorem State.onL2_dbRef (s : State) (n : Nat) (g : L2Line → L2Line) : (s.onL2 n g).dbRef = s.dbRef := rfl
@[simp] theorem State.onL2_log (s : State) (n : Nat) (g : L2Line → L2Line) : (s.onL2 n g).log = s.log := rfl
@[simp] theorem State.onL2_cmt (s : State) (n : Nat) (g : L2Line → L2Line) : (s.onL2 n g).cmt = s.cmt := rfl
@[simp] theorem State.onL2_flash (s : State) (n : Nat) (g : L2Line → L2Line) : (s.onL2 n g).flash = s.flash := rfl
@[simp] theorem State.onL2_flashNext (s : State) (n : Nat) (g : L2Line → L2Line) : (s.onL2 n g).flashNext = s.flashNext := rfl
@[simp] theorem State.onL2_buffer (s : State) (n : Nat) (g : L2Line → L2Line) : (s.onL2 n g).buffer = s.buffer := rfl
@[simp] theorem State.onL2_tzone (s : State) (n : Nat) (g : L2Line → L2Line) : (s.onL2 n g).tzone = s.tzone := rfl
@[simp] theorem State.onL2_descr (s : State) (n : Nat) (g : L2Line → L2Line) : (s.onL2 n g).descr = s.descr := rfl
@[simp] theorem State.onL2_reports (s : State) (n : Nat) (g : L2Line → L2Line) : (s.onL2 n g).reports = s.reports := rfl
@[simp] theorem State.onL2_agenda (s : State) (n : Nat) (g : L2Line → L2Line) : (s.onL2 n g).agenda = s.agenda := rfl
@[simp] theorem State.onL2_cur (s : State) (n : Nat) (g : L2Line → L2Line) : (s.onL2 n g).cur = s.cur := rfl
@[simp] theorem State.onL2_fresh (s : State) (n : Nat) (g : L2Line → L2Line) : (s.onL2 n g).fresh = s.fresh := rfl

/-! ### State.report -/

@[simp] theorem State.report_sheafs (s : State) (r : Report) : (s.report r).sheafs = s.sheafs := rfl
@[simp] theorem State.report_ops (s : State) (r : Report) : (s.report r).ops = s.ops := rfl
@[simp] theorem State.report_wgs (s : State) (r : Report) : (s.report r).wgs = s.wgs := rfl
@[simp] theorem State.report_grids (s : State) (r : Report) : (s.report r).grids = s.grids := rfl
@[simp] theorem State.report_ctxs (s : State) (r : Report) : (s.report r).ctxs = s.ctxs := rfl
@[simp] theorem State.report_cores (s : State) (r : Report) : (s.report r).cores = s.cores := rfl
@[simp] theorem State.report_engs (s : State) (r : Report) : (s.report r).engs = s.engs := rfl
@[simp] theorem State.report_mem (s : State) (r : Report) : (s.report r).mem = s.mem := rfl
@[simp] theorem State.report_l2 (s : State) (r : Report) : (s.report r).l2 = s.l2 := rfl
@[simp] theorem State.report_badSectors (s : State) (r : Report) : (s.report r).badSectors = s.badSectors := rfl
@[simp] theorem State.report_corrected (s : State) (r : Report) : (s.report r).corrected = s.corrected := rfl
@[simp] theorem State.report_eccLog (s : State) (r : Report) : (s.report r).eccLog = s.eccLog := rfl
@[simp] theorem State.report_logWait (s : State) (r : Report) : (s.report r).logWait = s.logWait := rfl
@[simp] theorem State.report_staging (s : State) (r : Report) : (s.report r).staging = s.staging := rfl
@[simp] theorem State.report_stagingFills (s : State) (r : Report) : (s.report r).stagingFills = s.stagingFills := rfl
@[simp] theorem State.report_prefetches (s : State) (r : Report) : (s.report r).prefetches = s.prefetches := rfl
@[simp] theorem State.report_tlbs (s : State) (r : Report) : (s.report r).tlbs = s.tlbs := rfl
@[simp] theorem State.report_filters (s : State) (r : Report) : (s.report r).filters = s.filters := rfl
@[simp] theorem State.report_fused (s : State) (r : Report) : (s.report r).fused = s.fused := rfl
@[simp] theorem State.report_bmCache (s : State) (r : Report) : (s.report r).bmCache = s.bmCache := rfl
@[simp] theorem State.report_packets (s : State) (r : Report) : (s.report r).packets = s.packets := rfl
@[simp] theorem State.report_blockWait (s : State) (r : Report) : (s.report r).blockWait = s.blockWait := rfl
@[simp] theorem State.report_heathClk (s : State) (r : Report) : (s.report r).heathClk = s.heathClk := rfl
@[simp] theorem State.report_blocks (s : State) (r : Report) : (s.report r).blocks = s.blocks := rfl
@[simp] theorem State.report_calls (s : State) (r : Report) : (s.report r).calls = s.calls := rfl
@[simp] theorem State.report_segs (s : State) (r : Report) : (s.report r).segs = s.segs := rfl
@[simp] theorem State.report_installs (s : State) (r : Report) : (s.report r).installs = s.installs := rfl
@[simp] theorem State.report_refresh (s : State) (r : Report) : (s.report r).refresh = s.refresh := rfl
@[simp] theorem State.report_migrations (s : State) (r : Report) : (s.report r).migrations = s.migrations := rfl
@[simp] theorem State.report_accid (s : State) (r : Report) : (s.report r).accid = s.accid := rfl
@[simp] theorem State.report_bmbase (s : State) (r : Report) : (s.report r).bmbase = s.bmbase := rfl
@[simp] theorem State.report_bmcount (s : State) (r : Report) : (s.report r).bmcount = s.bmcount := rfl
@[simp] theorem State.report_fqbase (s : State) (r : Report) : (s.report r).fqbase = s.fqbase := rfl
@[simp] theorem State.report_fqHead (s : State) (r : Report) : (s.report r).fqHead = s.fqHead := rfl
@[simp] theorem State.report_fqTail (s : State) (r : Report) : (s.report r).fqTail = s.fqTail := rfl
@[simp] theorem State.report_fqSeq (s : State) (r : Report) : (s.report r).fqSeq = s.fqSeq := rfl
@[simp] theorem State.report_fqOut (s : State) (r : Report) : (s.report r).fqOut = s.fqOut := rfl
@[simp] theorem State.report_irq (s : State) (r : Report) : (s.report r).irq = s.irq := rfl
@[simp] theorem State.report_msix (s : State) (r : Report) : (s.report r).msix = s.msix := rfl
@[simp] theorem State.report_slots (s : State) (r : Report) : (s.report r).slots = s.slots := rfl
@[simp] theorem State.report_xwin (s : State) (r : Report) : (s.report r).xwin = s.xwin := rfl
@[simp] theorem State.report_xgrp (s : State) (r : Report) : (s.report r).xgrp = s.xgrp := rfl
@[simp] theorem State.report_stnPort (s : State) (r : Report) : (s.report r).stnPort = s.stnPort := rfl
@[simp] theorem State.report_xports (s : State) (r : Report) : (s.report r).xports = s.xports := rfl
@[simp] theorem State.report_xseq (s : State) (r : Report) : (s.report r).xseq = s.xseq := rfl
@[simp] theorem State.report_atc (s : State) (r : Report) : (s.report r).atc = s.atc := rfl
@[simp] theorem State.report_atsReq (s : State) (r : Report) : (s.report r).atsReq = s.atsReq := rfl
@[simp] theorem State.report_priReq (s : State) (r : Report) : (s.report r).priReq = s.priReq := rfl
@[simp] theorem State.report_farFails (s : State) (r : Report) : (s.report r).farFails = s.farFails := rfl
@[simp] theorem State.report_dispClk (s : State) (r : Report) : (s.report r).dispClk = s.dispClk := rfl
@[simp] theorem State.report_dispPtr (s : State) (r : Report) : (s.report r).dispPtr = s.dispPtr := rfl
@[simp] theorem State.report_switches (s : State) (r : Report) : (s.report r).switches = s.switches := rfl
@[simp] theorem State.report_dev (s : State) (r : Report) : (s.report r).dev = s.dev := rfl
@[simp] theorem State.report_fstage (s : State) (r : Report) : (s.report r).fstage = s.fstage := rfl
@[simp] theorem State.report_stage1 (s : State) (r : Report) : (s.report r).stage1 = s.stage1 := rfl
@[simp] theorem State.report_lastDb (s : State) (r : Report) : (s.report r).lastDb = s.lastDb := rfl
@[simp] theorem State.report_dbRef (s : State) (r : Report) : (s.report r).dbRef = s.dbRef := rfl
@[simp] theorem State.report_log (s : State) (r : Report) : (s.report r).log = s.log := rfl
@[simp] theorem State.report_cmt (s : State) (r : Report) : (s.report r).cmt = s.cmt := rfl
@[simp] theorem State.report_flash (s : State) (r : Report) : (s.report r).flash = s.flash := rfl
@[simp] theorem State.report_flashNext (s : State) (r : Report) : (s.report r).flashNext = s.flashNext := rfl
@[simp] theorem State.report_buffer (s : State) (r : Report) : (s.report r).buffer = s.buffer := rfl
@[simp] theorem State.report_tzone (s : State) (r : Report) : (s.report r).tzone = s.tzone := rfl
@[simp] theorem State.report_descr (s : State) (r : Report) : (s.report r).descr = s.descr := rfl
@[simp] theorem State.report_reports (s : State) (r : Report) : (s.report r).reports = s.reports ++ [r] := rfl
@[simp] theorem State.report_agenda (s : State) (r : Report) : (s.report r).agenda = s.agenda := rfl
@[simp] theorem State.report_cur (s : State) (r : Report) : (s.report r).cur = s.cur := rfl
@[simp] theorem State.report_fresh (s : State) (r : Report) : (s.report r).fresh = s.fresh := rfl

/-! ### State.raiseIrq -/

@[simp] theorem State.raiseIrq_sheafs (s : State) (b : Nat) : (s.raiseIrq b).sheafs = s.sheafs := rfl
@[simp] theorem State.raiseIrq_ops (s : State) (b : Nat) : (s.raiseIrq b).ops = s.ops := rfl
@[simp] theorem State.raiseIrq_wgs (s : State) (b : Nat) : (s.raiseIrq b).wgs = s.wgs := rfl
@[simp] theorem State.raiseIrq_grids (s : State) (b : Nat) : (s.raiseIrq b).grids = s.grids := rfl
@[simp] theorem State.raiseIrq_ctxs (s : State) (b : Nat) : (s.raiseIrq b).ctxs = s.ctxs := rfl
@[simp] theorem State.raiseIrq_cores (s : State) (b : Nat) : (s.raiseIrq b).cores = s.cores := rfl
@[simp] theorem State.raiseIrq_engs (s : State) (b : Nat) : (s.raiseIrq b).engs = s.engs := rfl
@[simp] theorem State.raiseIrq_mem (s : State) (b : Nat) : (s.raiseIrq b).mem = s.mem := rfl
@[simp] theorem State.raiseIrq_l2 (s : State) (b : Nat) : (s.raiseIrq b).l2 = s.l2 := rfl
@[simp] theorem State.raiseIrq_badSectors (s : State) (b : Nat) : (s.raiseIrq b).badSectors = s.badSectors := rfl
@[simp] theorem State.raiseIrq_corrected (s : State) (b : Nat) : (s.raiseIrq b).corrected = s.corrected := rfl
@[simp] theorem State.raiseIrq_eccLog (s : State) (b : Nat) : (s.raiseIrq b).eccLog = s.eccLog := rfl
@[simp] theorem State.raiseIrq_logWait (s : State) (b : Nat) : (s.raiseIrq b).logWait = s.logWait := rfl
@[simp] theorem State.raiseIrq_staging (s : State) (b : Nat) : (s.raiseIrq b).staging = s.staging := rfl
@[simp] theorem State.raiseIrq_stagingFills (s : State) (b : Nat) : (s.raiseIrq b).stagingFills = s.stagingFills := rfl
@[simp] theorem State.raiseIrq_prefetches (s : State) (b : Nat) : (s.raiseIrq b).prefetches = s.prefetches := rfl
@[simp] theorem State.raiseIrq_tlbs (s : State) (b : Nat) : (s.raiseIrq b).tlbs = s.tlbs := rfl
@[simp] theorem State.raiseIrq_filters (s : State) (b : Nat) : (s.raiseIrq b).filters = s.filters := rfl
@[simp] theorem State.raiseIrq_fused (s : State) (b : Nat) : (s.raiseIrq b).fused = s.fused := rfl
@[simp] theorem State.raiseIrq_bmCache (s : State) (b : Nat) : (s.raiseIrq b).bmCache = s.bmCache := rfl
@[simp] theorem State.raiseIrq_packets (s : State) (b : Nat) : (s.raiseIrq b).packets = s.packets := rfl
@[simp] theorem State.raiseIrq_blockWait (s : State) (b : Nat) : (s.raiseIrq b).blockWait = s.blockWait := rfl
@[simp] theorem State.raiseIrq_heathClk (s : State) (b : Nat) : (s.raiseIrq b).heathClk = s.heathClk := rfl
@[simp] theorem State.raiseIrq_blocks (s : State) (b : Nat) : (s.raiseIrq b).blocks = s.blocks := rfl
@[simp] theorem State.raiseIrq_calls (s : State) (b : Nat) : (s.raiseIrq b).calls = s.calls := rfl
@[simp] theorem State.raiseIrq_segs (s : State) (b : Nat) : (s.raiseIrq b).segs = s.segs := rfl
@[simp] theorem State.raiseIrq_installs (s : State) (b : Nat) : (s.raiseIrq b).installs = s.installs := rfl
@[simp] theorem State.raiseIrq_refresh (s : State) (b : Nat) : (s.raiseIrq b).refresh = s.refresh := rfl
@[simp] theorem State.raiseIrq_migrations (s : State) (b : Nat) : (s.raiseIrq b).migrations = s.migrations := rfl
@[simp] theorem State.raiseIrq_accid (s : State) (b : Nat) : (s.raiseIrq b).accid = s.accid := rfl
@[simp] theorem State.raiseIrq_bmbase (s : State) (b : Nat) : (s.raiseIrq b).bmbase = s.bmbase := rfl
@[simp] theorem State.raiseIrq_bmcount (s : State) (b : Nat) : (s.raiseIrq b).bmcount = s.bmcount := rfl
@[simp] theorem State.raiseIrq_fqbase (s : State) (b : Nat) : (s.raiseIrq b).fqbase = s.fqbase := rfl
@[simp] theorem State.raiseIrq_fqHead (s : State) (b : Nat) : (s.raiseIrq b).fqHead = s.fqHead := rfl
@[simp] theorem State.raiseIrq_fqTail (s : State) (b : Nat) : (s.raiseIrq b).fqTail = s.fqTail := rfl
@[simp] theorem State.raiseIrq_fqSeq (s : State) (b : Nat) : (s.raiseIrq b).fqSeq = s.fqSeq := rfl
@[simp] theorem State.raiseIrq_fqOut (s : State) (b : Nat) : (s.raiseIrq b).fqOut = s.fqOut := rfl
@[simp] theorem State.raiseIrq_irq (s : State) (b : Nat) : (s.raiseIrq b).irq = s.irq ||| (1#6 <<< b) := rfl
@[simp] theorem State.raiseIrq_msix (s : State) (b : Nat) : (s.raiseIrq b).msix = s.msix ++ [b] := rfl
@[simp] theorem State.raiseIrq_slots (s : State) (b : Nat) : (s.raiseIrq b).slots = s.slots := rfl
@[simp] theorem State.raiseIrq_xwin (s : State) (b : Nat) : (s.raiseIrq b).xwin = s.xwin := rfl
@[simp] theorem State.raiseIrq_xgrp (s : State) (b : Nat) : (s.raiseIrq b).xgrp = s.xgrp := rfl
@[simp] theorem State.raiseIrq_stnPort (s : State) (b : Nat) : (s.raiseIrq b).stnPort = s.stnPort := rfl
@[simp] theorem State.raiseIrq_xports (s : State) (b : Nat) : (s.raiseIrq b).xports = s.xports := rfl
@[simp] theorem State.raiseIrq_xseq (s : State) (b : Nat) : (s.raiseIrq b).xseq = s.xseq := rfl
@[simp] theorem State.raiseIrq_atc (s : State) (b : Nat) : (s.raiseIrq b).atc = s.atc := rfl
@[simp] theorem State.raiseIrq_atsReq (s : State) (b : Nat) : (s.raiseIrq b).atsReq = s.atsReq := rfl
@[simp] theorem State.raiseIrq_priReq (s : State) (b : Nat) : (s.raiseIrq b).priReq = s.priReq := rfl
@[simp] theorem State.raiseIrq_farFails (s : State) (b : Nat) : (s.raiseIrq b).farFails = s.farFails := rfl
@[simp] theorem State.raiseIrq_dispClk (s : State) (b : Nat) : (s.raiseIrq b).dispClk = s.dispClk := rfl
@[simp] theorem State.raiseIrq_dispPtr (s : State) (b : Nat) : (s.raiseIrq b).dispPtr = s.dispPtr := rfl
@[simp] theorem State.raiseIrq_switches (s : State) (b : Nat) : (s.raiseIrq b).switches = s.switches := rfl
@[simp] theorem State.raiseIrq_dev (s : State) (b : Nat) : (s.raiseIrq b).dev = s.dev := rfl
@[simp] theorem State.raiseIrq_fstage (s : State) (b : Nat) : (s.raiseIrq b).fstage = s.fstage := rfl
@[simp] theorem State.raiseIrq_stage1 (s : State) (b : Nat) : (s.raiseIrq b).stage1 = s.stage1 := rfl
@[simp] theorem State.raiseIrq_lastDb (s : State) (b : Nat) : (s.raiseIrq b).lastDb = s.lastDb := rfl
@[simp] theorem State.raiseIrq_dbRef (s : State) (b : Nat) : (s.raiseIrq b).dbRef = s.dbRef := rfl
@[simp] theorem State.raiseIrq_log (s : State) (b : Nat) : (s.raiseIrq b).log = s.log := rfl
@[simp] theorem State.raiseIrq_cmt (s : State) (b : Nat) : (s.raiseIrq b).cmt = s.cmt := rfl
@[simp] theorem State.raiseIrq_flash (s : State) (b : Nat) : (s.raiseIrq b).flash = s.flash := rfl
@[simp] theorem State.raiseIrq_flashNext (s : State) (b : Nat) : (s.raiseIrq b).flashNext = s.flashNext := rfl
@[simp] theorem State.raiseIrq_buffer (s : State) (b : Nat) : (s.raiseIrq b).buffer = s.buffer := rfl
@[simp] theorem State.raiseIrq_tzone (s : State) (b : Nat) : (s.raiseIrq b).tzone = s.tzone := rfl
@[simp] theorem State.raiseIrq_descr (s : State) (b : Nat) : (s.raiseIrq b).descr = s.descr := rfl
@[simp] theorem State.raiseIrq_reports (s : State) (b : Nat) : (s.raiseIrq b).reports = s.reports := rfl
@[simp] theorem State.raiseIrq_agenda (s : State) (b : Nat) : (s.raiseIrq b).agenda = s.agenda := rfl
@[simp] theorem State.raiseIrq_cur (s : State) (b : Nat) : (s.raiseIrq b).cur = s.cur := rfl
@[simp] theorem State.raiseIrq_fresh (s : State) (b : Nat) : (s.raiseIrq b).fresh = s.fresh := rfl

/-! ### Sheaf.writeV -/

@[simp] theorem Sheaf.writeV_home (sh : Sheaf) (i t : Nat) (x : Word) : (sh.writeV i t x).home = sh.home := rfl
@[simp] theorem Sheaf.writeV_ctx (sh : Sheaf) (i t : Nat) (x : Word) : (sh.writeV i t x).ctx = sh.ctx := rfl
@[simp] theorem Sheaf.writeV_core (sh : Sheaf) (i t : Nat) (x : Word) : (sh.writeV i t x).core = sh.core := rfl
@[simp] theorem Sheaf.writeV_heath (sh : Sheaf) (i t : Nat) (x : Word) : (sh.writeV i t x).heath = sh.heath := rfl
@[simp] theorem Sheaf.writeV_part (sh : Sheaf) (i t : Nat) (x : Word) : (sh.writeV i t x).part = sh.part := rfl
@[simp] theorem Sheaf.writeV_shid (sh : Sheaf) (i t : Nat) (x : Word) : (sh.writeV i t x).shid = sh.shid := rfl
@[simp] theorem Sheaf.writeV_slot (sh : Sheaf) (i t : Nat) (x : Word) : (sh.writeV i t x).slot = sh.slot := rfl
@[simp] theorem Sheaf.writeV_status (sh : Sheaf) (i t : Nat) (x : Word) : (sh.writeV i t x).status = sh.status := rfl
@[simp] theorem Sheaf.writeV_lane (sh : Sheaf) (i t : Nat) (x : Word) : (sh.writeV i t x).lane = sh.lane := rfl
@[simp] theorem Sheaf.writeV_laneClk (sh : Sheaf) (i t : Nat) (x : Word) : (sh.writeV i t x).laneClk = sh.laneClk := rfl
@[simp] theorem Sheaf.writeV_readyClk (sh : Sheaf) (i t : Nat) (x : Word) : (sh.writeV i t x).readyClk = sh.readyClk := rfl
@[simp] theorem Sheaf.writeV_pc (sh : Sheaf) (i t : Nat) (x : Word) : (sh.writeV i t x).pc = sh.pc := rfl
@[simp] theorem Sheaf.writeV_live (sh : Sheaf) (i t : Nat) (x : Word) : (sh.writeV i t x).live = sh.live := rfl
@[simp] theorem Sheaf.writeV_em (sh : Sheaf) (i t : Nat) (x : Word) : (sh.writeV i t x).em = sh.em := rfl
@[simp] theorem Sheaf.writeV_wb (sh : Sheaf) (i t : Nat) (x : Word) : (sh.writeV i t x).wb = sh.wb := rfl
@[simp] theorem Sheaf.writeV_role (sh : Sheaf) (i t : Nat) (x : Word) : (sh.writeV i t x).role = sh.role := rfl
@[simp] theorem Sheaf.writeV_fpcr (sh : Sheaf) (i t : Nat) (x : Word) : (sh.writeV i t x).fpcr = sh.fpcr := rfl
@[simp] theorem Sheaf.writeV_sticky (sh : Sheaf) (i t : Nat) (x : Word) : (sh.writeV i t x).sticky = sh.sticky := rfl
@[simp] theorem Sheaf.writeV_v (sh : Sheaf) (i t : Nat) (x : Word) : (sh.writeV i t x).v = sh.v.set (i * 16 + t) x := rfl
@[simp] theorem Sheaf.writeV_o (sh : Sheaf) (i t : Nat) (x : Word) : (sh.writeV i t x).o = sh.o := rfl
@[simp] theorem Sheaf.writeV_s (sh : Sheaf) (i t : Nat) (x : Word) : (sh.writeV i t x).s = sh.s := rfl
@[simp] theorem Sheaf.writeV_p (sh : Sheaf) (i t : Nat) (x : Word) : (sh.writeV i t x).p = sh.p := rfl
@[simp] theorem Sheaf.writeV_q (sh : Sheaf) (i t : Nat) (x : Word) : (sh.writeV i t x).q = sh.q := rfl
@[simp] theorem Sheaf.writeV_y0 (sh : Sheaf) (i t : Nat) (x : Word) : (sh.writeV i t x).y0 = sh.y0 := rfl
@[simp] theorem Sheaf.writeV_y1 (sh : Sheaf) (i t : Nat) (x : Word) : (sh.writeV i t x).y1 = sh.y1 := rfl
@[simp] theorem Sheaf.writeV_y2 (sh : Sheaf) (i t : Nat) (x : Word) : (sh.writeV i t x).y2 = sh.y2 := rfl
@[simp] theorem Sheaf.writeV_y3 (sh : Sheaf) (i t : Nat) (x : Word) : (sh.writeV i t x).y3 = sh.y3 := rfl
@[simp] theorem Sheaf.writeV_rgnpc (sh : Sheaf) (i t : Nat) (x : Word) : (sh.writeV i t x).rgnpc = sh.rgnpc := rfl
@[simp] theorem Sheaf.writeV_rgncnt (sh : Sheaf) (i t : Nat) (x : Word) : (sh.writeV i t x).rgncnt = sh.rgncnt := rfl
@[simp] theorem Sheaf.writeV_tlvl (sh : Sheaf) (i t : Nat) (x : Word) : (sh.writeV i t x).tlvl = sh.tlvl := rfl
@[simp] theorem Sheaf.writeV_t1 (sh : Sheaf) (i t : Nat) (x : Word) : (sh.writeV i t x).t1 = sh.t1 := rfl
@[simp] theorem Sheaf.writeV_t2 (sh : Sheaf) (i t : Nat) (x : Word) : (sh.writeV i t x).t2 = sh.t2 := rfl
@[simp] theorem Sheaf.writeV_mon (sh : Sheaf) (i t : Nat) (x : Word) : (sh.writeV i t x).mon = sh.mon := rfl
@[simp] theorem Sheaf.writeV_ld (sh : Sheaf) (i t : Nat) (x : Word) : (sh.writeV i t x).ld = sh.ld := rfl
@[simp] theorem Sheaf.writeV_st (sh : Sheaf) (i t : Nat) (x : Word) : (sh.writeV i t x).st = sh.st := rfl
@[simp] theorem Sheaf.writeV_ac0 (sh : Sheaf) (i t : Nat) (x : Word) : (sh.writeV i t x).ac0 = sh.ac0 := rfl
@[simp] theorem Sheaf.writeV_ac1 (sh : Sheaf) (i t : Nat) (x : Word) : (sh.writeV i t x).ac1 = sh.ac1 := rfl
@[simp] theorem Sheaf.writeV_ac2 (sh : Sheaf) (i t : Nat) (x : Word) : (sh.writeV i t x).ac2 = sh.ac2 := rfl
@[simp] theorem Sheaf.writeV_mx (sh : Sheaf) (i t : Nat) (x : Word) : (sh.writeV i t x).mx = sh.mx := rfl
@[simp] theorem Sheaf.writeV_en (sh : Sheaf) (i t : Nat) (x : Word) : (sh.writeV i t x).en = sh.en := rfl
@[simp] theorem Sheaf.writeV_pend (sh : Sheaf) (i t : Nat) (x : Word) : (sh.writeV i t x).pend = sh.pend := rfl
@[simp] theorem Sheaf.writeV_held (sh : Sheaf) (i t : Nat) (x : Word) : (sh.writeV i t x).held = sh.held := rfl
@[simp] theorem Sheaf.writeV_rel (sh : Sheaf) (i t : Nat) (x : Word) : (sh.writeV i t x).rel = sh.rel := rfl
@[simp] theorem Sheaf.writeV_lead (sh : Sheaf) (i t : Nat) (x : Word) : (sh.writeV i t x).lead = sh.lead := rfl
@[simp] theorem Sheaf.writeV_ahead (sh : Sheaf) (i t : Nat) (x : Word) : (sh.writeV i t x).ahead = sh.ahead := rfl
@[simp] theorem Sheaf.writeV_len (sh : Sheaf) (i t : Nat) (x : Word) : (sh.writeV i t x).len = sh.len := rfl

/-! ### Sheaf.writeS -/

@[simp] theorem Sheaf.writeS_home (sh : Sheaf) (i : Nat) (x : Word) : (sh.writeS i x).home = sh.home := rfl
@[simp] theorem Sheaf.writeS_ctx (sh : Sheaf) (i : Nat) (x : Word) : (sh.writeS i x).ctx = sh.ctx := rfl
@[simp] theorem Sheaf.writeS_core (sh : Sheaf) (i : Nat) (x : Word) : (sh.writeS i x).core = sh.core := rfl
@[simp] theorem Sheaf.writeS_heath (sh : Sheaf) (i : Nat) (x : Word) : (sh.writeS i x).heath = sh.heath := rfl
@[simp] theorem Sheaf.writeS_part (sh : Sheaf) (i : Nat) (x : Word) : (sh.writeS i x).part = sh.part := rfl
@[simp] theorem Sheaf.writeS_shid (sh : Sheaf) (i : Nat) (x : Word) : (sh.writeS i x).shid = sh.shid := rfl
@[simp] theorem Sheaf.writeS_slot (sh : Sheaf) (i : Nat) (x : Word) : (sh.writeS i x).slot = sh.slot := rfl
@[simp] theorem Sheaf.writeS_status (sh : Sheaf) (i : Nat) (x : Word) : (sh.writeS i x).status = sh.status := rfl
@[simp] theorem Sheaf.writeS_lane (sh : Sheaf) (i : Nat) (x : Word) : (sh.writeS i x).lane = sh.lane := rfl
@[simp] theorem Sheaf.writeS_laneClk (sh : Sheaf) (i : Nat) (x : Word) : (sh.writeS i x).laneClk = sh.laneClk := rfl
@[simp] theorem Sheaf.writeS_readyClk (sh : Sheaf) (i : Nat) (x : Word) : (sh.writeS i x).readyClk = sh.readyClk := rfl
@[simp] theorem Sheaf.writeS_pc (sh : Sheaf) (i : Nat) (x : Word) : (sh.writeS i x).pc = sh.pc := rfl
@[simp] theorem Sheaf.writeS_live (sh : Sheaf) (i : Nat) (x : Word) : (sh.writeS i x).live = sh.live := rfl
@[simp] theorem Sheaf.writeS_em (sh : Sheaf) (i : Nat) (x : Word) : (sh.writeS i x).em = sh.em := rfl
@[simp] theorem Sheaf.writeS_wb (sh : Sheaf) (i : Nat) (x : Word) : (sh.writeS i x).wb = sh.wb := rfl
@[simp] theorem Sheaf.writeS_role (sh : Sheaf) (i : Nat) (x : Word) : (sh.writeS i x).role = sh.role := rfl
@[simp] theorem Sheaf.writeS_fpcr (sh : Sheaf) (i : Nat) (x : Word) : (sh.writeS i x).fpcr = sh.fpcr := rfl
@[simp] theorem Sheaf.writeS_sticky (sh : Sheaf) (i : Nat) (x : Word) : (sh.writeS i x).sticky = sh.sticky := rfl
@[simp] theorem Sheaf.writeS_v (sh : Sheaf) (i : Nat) (x : Word) : (sh.writeS i x).v = sh.v := rfl
@[simp] theorem Sheaf.writeS_o (sh : Sheaf) (i : Nat) (x : Word) : (sh.writeS i x).o = sh.o := rfl
@[simp] theorem Sheaf.writeS_s (sh : Sheaf) (i : Nat) (x : Word) : (sh.writeS i x).s = sh.s.set (sKey sh.tlvl i) x := rfl
@[simp] theorem Sheaf.writeS_p (sh : Sheaf) (i : Nat) (x : Word) : (sh.writeS i x).p = sh.p := rfl
@[simp] theorem Sheaf.writeS_q (sh : Sheaf) (i : Nat) (x : Word) : (sh.writeS i x).q = sh.q := rfl
@[simp] theorem Sheaf.writeS_y0 (sh : Sheaf) (i : Nat) (x : Word) : (sh.writeS i x).y0 = sh.y0 := rfl
@[simp] theorem Sheaf.writeS_y1 (sh : Sheaf) (i : Nat) (x : Word) : (sh.writeS i x).y1 = sh.y1 := rfl
@[simp] theorem Sheaf.writeS_y2 (sh : Sheaf) (i : Nat) (x : Word) : (sh.writeS i x).y2 = sh.y2 := rfl
@[simp] theorem Sheaf.writeS_y3 (sh : Sheaf) (i : Nat) (x : Word) : (sh.writeS i x).y3 = sh.y3 := rfl
@[simp] theorem Sheaf.writeS_rgnpc (sh : Sheaf) (i : Nat) (x : Word) : (sh.writeS i x).rgnpc = sh.rgnpc := rfl
@[simp] theorem Sheaf.writeS_rgncnt (sh : Sheaf) (i : Nat) (x : Word) : (sh.writeS i x).rgncnt = sh.rgncnt := rfl
@[simp] theorem Sheaf.writeS_tlvl (sh : Sheaf) (i : Nat) (x : Word) : (sh.writeS i x).tlvl = sh.tlvl := rfl
@[simp] theorem Sheaf.writeS_t1 (sh : Sheaf) (i : Nat) (x : Word) : (sh.writeS i x).t1 = sh.t1 := rfl
@[simp] theorem Sheaf.writeS_t2 (sh : Sheaf) (i : Nat) (x : Word) : (sh.writeS i x).t2 = sh.t2 := rfl
@[simp] theorem Sheaf.writeS_mon (sh : Sheaf) (i : Nat) (x : Word) : (sh.writeS i x).mon = sh.mon := rfl
@[simp] theorem Sheaf.writeS_ld (sh : Sheaf) (i : Nat) (x : Word) : (sh.writeS i x).ld = sh.ld := rfl
@[simp] theorem Sheaf.writeS_st (sh : Sheaf) (i : Nat) (x : Word) : (sh.writeS i x).st = sh.st := rfl
@[simp] theorem Sheaf.writeS_ac0 (sh : Sheaf) (i : Nat) (x : Word) : (sh.writeS i x).ac0 = sh.ac0 := rfl
@[simp] theorem Sheaf.writeS_ac1 (sh : Sheaf) (i : Nat) (x : Word) : (sh.writeS i x).ac1 = sh.ac1 := rfl
@[simp] theorem Sheaf.writeS_ac2 (sh : Sheaf) (i : Nat) (x : Word) : (sh.writeS i x).ac2 = sh.ac2 := rfl
@[simp] theorem Sheaf.writeS_mx (sh : Sheaf) (i : Nat) (x : Word) : (sh.writeS i x).mx = sh.mx := rfl
@[simp] theorem Sheaf.writeS_en (sh : Sheaf) (i : Nat) (x : Word) : (sh.writeS i x).en = sh.en := rfl
@[simp] theorem Sheaf.writeS_pend (sh : Sheaf) (i : Nat) (x : Word) : (sh.writeS i x).pend = sh.pend := rfl
@[simp] theorem Sheaf.writeS_held (sh : Sheaf) (i : Nat) (x : Word) : (sh.writeS i x).held = sh.held := rfl
@[simp] theorem Sheaf.writeS_rel (sh : Sheaf) (i : Nat) (x : Word) : (sh.writeS i x).rel = sh.rel := rfl
@[simp] theorem Sheaf.writeS_lead (sh : Sheaf) (i : Nat) (x : Word) : (sh.writeS i x).lead = sh.lead := rfl
@[simp] theorem Sheaf.writeS_ahead (sh : Sheaf) (i : Nat) (x : Word) : (sh.writeS i x).ahead = sh.ahead := rfl
@[simp] theorem Sheaf.writeS_len (sh : Sheaf) (i : Nat) (x : Word) : (sh.writeS i x).len = sh.len := rfl

/-! ### Sheaf.writeO -/

@[simp] theorem Sheaf.writeO_home (sh : Sheaf) (i t : Nat) (x : Word) : (sh.writeO i t x).home = sh.home := rfl
@[simp] theorem Sheaf.writeO_ctx (sh : Sheaf) (i t : Nat) (x : Word) : (sh.writeO i t x).ctx = sh.ctx := rfl
@[simp] theorem Sheaf.writeO_core (sh : Sheaf) (i t : Nat) (x : Word) : (sh.writeO i t x).core = sh.core := rfl
@[simp] theorem Sheaf.writeO_heath (sh : Sheaf) (i t : Nat) (x : Word) : (sh.writeO i t x).heath = sh.heath := rfl
@[simp] theorem Sheaf.writeO_part (sh : Sheaf) (i t : Nat) (x : Word) : (sh.writeO i t x).part = sh.part := rfl
@[simp] theorem Sheaf.writeO_shid (sh : Sheaf) (i t : Nat) (x : Word) : (sh.writeO i t x).shid = sh.shid := rfl
@[simp] theorem Sheaf.writeO_slot (sh : Sheaf) (i t : Nat) (x : Word) : (sh.writeO i t x).slot = sh.slot := rfl
@[simp] theorem Sheaf.writeO_status (sh : Sheaf) (i t : Nat) (x : Word) : (sh.writeO i t x).status = sh.status := rfl
@[simp] theorem Sheaf.writeO_lane (sh : Sheaf) (i t : Nat) (x : Word) : (sh.writeO i t x).lane = sh.lane := rfl
@[simp] theorem Sheaf.writeO_laneClk (sh : Sheaf) (i t : Nat) (x : Word) : (sh.writeO i t x).laneClk = sh.laneClk := rfl
@[simp] theorem Sheaf.writeO_readyClk (sh : Sheaf) (i t : Nat) (x : Word) : (sh.writeO i t x).readyClk = sh.readyClk := rfl
@[simp] theorem Sheaf.writeO_pc (sh : Sheaf) (i t : Nat) (x : Word) : (sh.writeO i t x).pc = sh.pc := rfl
@[simp] theorem Sheaf.writeO_live (sh : Sheaf) (i t : Nat) (x : Word) : (sh.writeO i t x).live = sh.live := rfl
@[simp] theorem Sheaf.writeO_em (sh : Sheaf) (i t : Nat) (x : Word) : (sh.writeO i t x).em = sh.em := rfl
@[simp] theorem Sheaf.writeO_wb (sh : Sheaf) (i t : Nat) (x : Word) : (sh.writeO i t x).wb = sh.wb := rfl
@[simp] theorem Sheaf.writeO_role (sh : Sheaf) (i t : Nat) (x : Word) : (sh.writeO i t x).role = sh.role := rfl
@[simp] theorem Sheaf.writeO_fpcr (sh : Sheaf) (i t : Nat) (x : Word) : (sh.writeO i t x).fpcr = sh.fpcr := rfl
@[simp] theorem Sheaf.writeO_sticky (sh : Sheaf) (i t : Nat) (x : Word) : (sh.writeO i t x).sticky = sh.sticky := rfl
@[simp] theorem Sheaf.writeO_v (sh : Sheaf) (i t : Nat) (x : Word) : (sh.writeO i t x).v = sh.v := rfl
@[simp] theorem Sheaf.writeO_o (sh : Sheaf) (i t : Nat) (x : Word) : (sh.writeO i t x).o = sh.o.set (oKey sh.tlvl i t) x := rfl
@[simp] theorem Sheaf.writeO_s (sh : Sheaf) (i t : Nat) (x : Word) : (sh.writeO i t x).s = sh.s := rfl
@[simp] theorem Sheaf.writeO_p (sh : Sheaf) (i t : Nat) (x : Word) : (sh.writeO i t x).p = sh.p := rfl
@[simp] theorem Sheaf.writeO_q (sh : Sheaf) (i t : Nat) (x : Word) : (sh.writeO i t x).q = sh.q := rfl
@[simp] theorem Sheaf.writeO_y0 (sh : Sheaf) (i t : Nat) (x : Word) : (sh.writeO i t x).y0 = sh.y0 := rfl
@[simp] theorem Sheaf.writeO_y1 (sh : Sheaf) (i t : Nat) (x : Word) : (sh.writeO i t x).y1 = sh.y1 := rfl
@[simp] theorem Sheaf.writeO_y2 (sh : Sheaf) (i t : Nat) (x : Word) : (sh.writeO i t x).y2 = sh.y2 := rfl
@[simp] theorem Sheaf.writeO_y3 (sh : Sheaf) (i t : Nat) (x : Word) : (sh.writeO i t x).y3 = sh.y3 := rfl
@[simp] theorem Sheaf.writeO_rgnpc (sh : Sheaf) (i t : Nat) (x : Word) : (sh.writeO i t x).rgnpc = sh.rgnpc := rfl
@[simp] theorem Sheaf.writeO_rgncnt (sh : Sheaf) (i t : Nat) (x : Word) : (sh.writeO i t x).rgncnt = sh.rgncnt := rfl
@[simp] theorem Sheaf.writeO_tlvl (sh : Sheaf) (i t : Nat) (x : Word) : (sh.writeO i t x).tlvl = sh.tlvl := rfl
@[simp] theorem Sheaf.writeO_t1 (sh : Sheaf) (i t : Nat) (x : Word) : (sh.writeO i t x).t1 = sh.t1 := rfl
@[simp] theorem Sheaf.writeO_t2 (sh : Sheaf) (i t : Nat) (x : Word) : (sh.writeO i t x).t2 = sh.t2 := rfl
@[simp] theorem Sheaf.writeO_mon (sh : Sheaf) (i t : Nat) (x : Word) : (sh.writeO i t x).mon = sh.mon := rfl
@[simp] theorem Sheaf.writeO_ld (sh : Sheaf) (i t : Nat) (x : Word) : (sh.writeO i t x).ld = sh.ld := rfl
@[simp] theorem Sheaf.writeO_st (sh : Sheaf) (i t : Nat) (x : Word) : (sh.writeO i t x).st = sh.st := rfl
@[simp] theorem Sheaf.writeO_ac0 (sh : Sheaf) (i t : Nat) (x : Word) : (sh.writeO i t x).ac0 = sh.ac0 := rfl
@[simp] theorem Sheaf.writeO_ac1 (sh : Sheaf) (i t : Nat) (x : Word) : (sh.writeO i t x).ac1 = sh.ac1 := rfl
@[simp] theorem Sheaf.writeO_ac2 (sh : Sheaf) (i t : Nat) (x : Word) : (sh.writeO i t x).ac2 = sh.ac2 := rfl
@[simp] theorem Sheaf.writeO_mx (sh : Sheaf) (i t : Nat) (x : Word) : (sh.writeO i t x).mx = sh.mx := rfl
@[simp] theorem Sheaf.writeO_en (sh : Sheaf) (i t : Nat) (x : Word) : (sh.writeO i t x).en = sh.en := rfl
@[simp] theorem Sheaf.writeO_pend (sh : Sheaf) (i t : Nat) (x : Word) : (sh.writeO i t x).pend = sh.pend := rfl
@[simp] theorem Sheaf.writeO_held (sh : Sheaf) (i t : Nat) (x : Word) : (sh.writeO i t x).held = sh.held := rfl
@[simp] theorem Sheaf.writeO_rel (sh : Sheaf) (i t : Nat) (x : Word) : (sh.writeO i t x).rel = sh.rel := rfl
@[simp] theorem Sheaf.writeO_lead (sh : Sheaf) (i t : Nat) (x : Word) : (sh.writeO i t x).lead = sh.lead := rfl
@[simp] theorem Sheaf.writeO_ahead (sh : Sheaf) (i t : Nat) (x : Word) : (sh.writeO i t x).ahead = sh.ahead := rfl
@[simp] theorem Sheaf.writeO_len (sh : Sheaf) (i t : Nat) (x : Word) : (sh.writeO i t x).len = sh.len := rfl

/-! ### Sheaf.advance -/

@[simp] theorem Sheaf.advance_home (sh : Sheaf) : (sh.advance).home = sh.home := rfl
@[simp] theorem Sheaf.advance_ctx (sh : Sheaf) : (sh.advance).ctx = sh.ctx := rfl
@[simp] theorem Sheaf.advance_core (sh : Sheaf) : (sh.advance).core = sh.core := rfl
@[simp] theorem Sheaf.advance_heath (sh : Sheaf) : (sh.advance).heath = sh.heath := rfl
@[simp] theorem Sheaf.advance_part (sh : Sheaf) : (sh.advance).part = sh.part := rfl
@[simp] theorem Sheaf.advance_shid (sh : Sheaf) : (sh.advance).shid = sh.shid := rfl
@[simp] theorem Sheaf.advance_slot (sh : Sheaf) : (sh.advance).slot = sh.slot := rfl
@[simp] theorem Sheaf.advance_status (sh : Sheaf) : (sh.advance).status = sh.status := rfl
@[simp] theorem Sheaf.advance_lane (sh : Sheaf) : (sh.advance).lane = sh.lane := rfl
@[simp] theorem Sheaf.advance_laneClk (sh : Sheaf) : (sh.advance).laneClk = sh.laneClk := rfl
@[simp] theorem Sheaf.advance_readyClk (sh : Sheaf) : (sh.advance).readyClk = sh.readyClk := rfl
@[simp] theorem Sheaf.advance_pc (sh : Sheaf) : (sh.advance).pc = sh.pc + BitVec.ofNat 64 (4 * sh.len) := rfl
@[simp] theorem Sheaf.advance_live (sh : Sheaf) : (sh.advance).live = sh.live := rfl
@[simp] theorem Sheaf.advance_em (sh : Sheaf) : (sh.advance).em = sh.em := rfl
@[simp] theorem Sheaf.advance_wb (sh : Sheaf) : (sh.advance).wb = sh.wb := rfl
@[simp] theorem Sheaf.advance_role (sh : Sheaf) : (sh.advance).role = sh.role := rfl
@[simp] theorem Sheaf.advance_fpcr (sh : Sheaf) : (sh.advance).fpcr = sh.fpcr := rfl
@[simp] theorem Sheaf.advance_sticky (sh : Sheaf) : (sh.advance).sticky = sh.sticky := rfl
@[simp] theorem Sheaf.advance_v (sh : Sheaf) : (sh.advance).v = sh.v := rfl
@[simp] theorem Sheaf.advance_o (sh : Sheaf) : (sh.advance).o = sh.o := rfl
@[simp] theorem Sheaf.advance_s (sh : Sheaf) : (sh.advance).s = sh.s := rfl
@[simp] theorem Sheaf.advance_p (sh : Sheaf) : (sh.advance).p = sh.p := rfl
@[simp] theorem Sheaf.advance_q (sh : Sheaf) : (sh.advance).q = sh.q := rfl
@[simp] theorem Sheaf.advance_y0 (sh : Sheaf) : (sh.advance).y0 = sh.y0 := rfl
@[simp] theorem Sheaf.advance_y1 (sh : Sheaf) : (sh.advance).y1 = sh.y1 := rfl
@[simp] theorem Sheaf.advance_y2 (sh : Sheaf) : (sh.advance).y2 = sh.y2 := rfl
@[simp] theorem Sheaf.advance_y3 (sh : Sheaf) : (sh.advance).y3 = sh.y3 := rfl
@[simp] theorem Sheaf.advance_rgnpc (sh : Sheaf) : (sh.advance).rgnpc = sh.rgnpc := rfl
@[simp] theorem Sheaf.advance_rgncnt (sh : Sheaf) : (sh.advance).rgncnt = sh.rgncnt := rfl
@[simp] theorem Sheaf.advance_tlvl (sh : Sheaf) : (sh.advance).tlvl = sh.tlvl := rfl
@[simp] theorem Sheaf.advance_t1 (sh : Sheaf) : (sh.advance).t1 = sh.t1 := rfl
@[simp] theorem Sheaf.advance_t2 (sh : Sheaf) : (sh.advance).t2 = sh.t2 := rfl
@[simp] theorem Sheaf.advance_mon (sh : Sheaf) : (sh.advance).mon = sh.mon := rfl
@[simp] theorem Sheaf.advance_ld (sh : Sheaf) : (sh.advance).ld = sh.ld := rfl
@[simp] theorem Sheaf.advance_st (sh : Sheaf) : (sh.advance).st = sh.st := rfl
@[simp] theorem Sheaf.advance_ac0 (sh : Sheaf) : (sh.advance).ac0 = sh.ac0 := rfl
@[simp] theorem Sheaf.advance_ac1 (sh : Sheaf) : (sh.advance).ac1 = sh.ac1 := rfl
@[simp] theorem Sheaf.advance_ac2 (sh : Sheaf) : (sh.advance).ac2 = sh.ac2 := rfl
@[simp] theorem Sheaf.advance_mx (sh : Sheaf) : (sh.advance).mx = sh.mx := rfl
@[simp] theorem Sheaf.advance_en (sh : Sheaf) : (sh.advance).en = sh.en := rfl
@[simp] theorem Sheaf.advance_pend (sh : Sheaf) : (sh.advance).pend = sh.pend := rfl
@[simp] theorem Sheaf.advance_held (sh : Sheaf) : (sh.advance).held = sh.held := rfl
@[simp] theorem Sheaf.advance_rel (sh : Sheaf) : (sh.advance).rel = sh.rel := rfl
@[simp] theorem Sheaf.advance_lead (sh : Sheaf) : (sh.advance).lead = sh.lead := rfl
@[simp] theorem Sheaf.advance_ahead (sh : Sheaf) : (sh.advance).ahead = sh.ahead := rfl
@[simp] theorem Sheaf.advance_len (sh : Sheaf) : (sh.advance).len = sh.len := rfl

/-! ### Sheaf.dropLatches -/

@[simp] theorem Sheaf.dropLatches_home (sh : Sheaf) : (sh.dropLatches).home = sh.home := rfl
@[simp] theorem Sheaf.dropLatches_ctx (sh : Sheaf) : (sh.dropLatches).ctx = sh.ctx := rfl
@[simp] theorem Sheaf.dropLatches_core (sh : Sheaf) : (sh.dropLatches).core = sh.core := rfl
@[simp] theorem Sheaf.dropLatches_heath (sh : Sheaf) : (sh.dropLatches).heath = sh.heath := rfl
@[simp] theorem Sheaf.dropLatches_part (sh : Sheaf) : (sh.dropLatches).part = sh.part := rfl
@[simp] theorem Sheaf.dropLatches_shid (sh : Sheaf) : (sh.dropLatches).shid = sh.shid := rfl
@[simp] theorem Sheaf.dropLatches_slot (sh : Sheaf) : (sh.dropLatches).slot = sh.slot := rfl
@[simp] theorem Sheaf.dropLatches_status (sh : Sheaf) : (sh.dropLatches).status = sh.status := rfl
@[simp] theorem Sheaf.dropLatches_lane (sh : Sheaf) : (sh.dropLatches).lane = sh.lane := rfl
@[simp] theorem Sheaf.dropLatches_laneClk (sh : Sheaf) : (sh.dropLatches).laneClk = sh.laneClk := rfl
@[simp] theorem Sheaf.dropLatches_readyClk (sh : Sheaf) : (sh.dropLatches).readyClk = sh.readyClk := rfl
@[simp] theorem Sheaf.dropLatches_pc (sh : Sheaf) : (sh.dropLatches).pc = sh.pc := rfl
@[simp] theorem Sheaf.dropLatches_live (sh : Sheaf) : (sh.dropLatches).live = sh.live := rfl
@[simp] theorem Sheaf.dropLatches_em (sh : Sheaf) : (sh.dropLatches).em = sh.em := rfl
@[simp] theorem Sheaf.dropLatches_wb (sh : Sheaf) : (sh.dropLatches).wb = sh.wb := rfl
@[simp] theorem Sheaf.dropLatches_role (sh : Sheaf) : (sh.dropLatches).role = sh.role := rfl
@[simp] theorem Sheaf.dropLatches_fpcr (sh : Sheaf) : (sh.dropLatches).fpcr = sh.fpcr := rfl
@[simp] theorem Sheaf.dropLatches_sticky (sh : Sheaf) : (sh.dropLatches).sticky = sh.sticky := rfl
@[simp] theorem Sheaf.dropLatches_v (sh : Sheaf) : (sh.dropLatches).v = sh.v := rfl
@[simp] theorem Sheaf.dropLatches_o (sh : Sheaf) : (sh.dropLatches).o = sh.o := rfl
@[simp] theorem Sheaf.dropLatches_s (sh : Sheaf) : (sh.dropLatches).s = sh.s := rfl
@[simp] theorem Sheaf.dropLatches_p (sh : Sheaf) : (sh.dropLatches).p = sh.p := rfl
@[simp] theorem Sheaf.dropLatches_q (sh : Sheaf) : (sh.dropLatches).q = sh.q := rfl
@[simp] theorem Sheaf.dropLatches_y0 (sh : Sheaf) : (sh.dropLatches).y0 = ({} : Latch) := rfl
@[simp] theorem Sheaf.dropLatches_y1 (sh : Sheaf) : (sh.dropLatches).y1 = ({} : Latch) := rfl
@[simp] theorem Sheaf.dropLatches_y2 (sh : Sheaf) : (sh.dropLatches).y2 = ({} : Latch) := rfl
@[simp] theorem Sheaf.dropLatches_y3 (sh : Sheaf) : (sh.dropLatches).y3 = ({} : Latch) := rfl
@[simp] theorem Sheaf.dropLatches_rgnpc (sh : Sheaf) : (sh.dropLatches).rgnpc = sh.rgnpc := rfl
@[simp] theorem Sheaf.dropLatches_rgncnt (sh : Sheaf) : (sh.dropLatches).rgncnt = sh.rgncnt := rfl
@[simp] theorem Sheaf.dropLatches_tlvl (sh : Sheaf) : (sh.dropLatches).tlvl = sh.tlvl := rfl
@[simp] theorem Sheaf.dropLatches_t1 (sh : Sheaf) : (sh.dropLatches).t1 = sh.t1 := rfl
@[simp] theorem Sheaf.dropLatches_t2 (sh : Sheaf) : (sh.dropLatches).t2 = sh.t2 := rfl
@[simp] theorem Sheaf.dropLatches_mon (sh : Sheaf) : (sh.dropLatches).mon = sh.mon := rfl
@[simp] theorem Sheaf.dropLatches_ld (sh : Sheaf) : (sh.dropLatches).ld = sh.ld := rfl
@[simp] theorem Sheaf.dropLatches_st (sh : Sheaf) : (sh.dropLatches).st = sh.st := rfl
@[simp] theorem Sheaf.dropLatches_ac0 (sh : Sheaf) : (sh.dropLatches).ac0 = sh.ac0 := rfl
@[simp] theorem Sheaf.dropLatches_ac1 (sh : Sheaf) : (sh.dropLatches).ac1 = sh.ac1 := rfl
@[simp] theorem Sheaf.dropLatches_ac2 (sh : Sheaf) : (sh.dropLatches).ac2 = sh.ac2 := rfl
@[simp] theorem Sheaf.dropLatches_mx (sh : Sheaf) : (sh.dropLatches).mx = sh.mx := rfl
@[simp] theorem Sheaf.dropLatches_en (sh : Sheaf) : (sh.dropLatches).en = sh.en := rfl
@[simp] theorem Sheaf.dropLatches_pend (sh : Sheaf) : (sh.dropLatches).pend = sh.pend := rfl
@[simp] theorem Sheaf.dropLatches_held (sh : Sheaf) : (sh.dropLatches).held = sh.held := rfl
@[simp] theorem Sheaf.dropLatches_rel (sh : Sheaf) : (sh.dropLatches).rel = sh.rel := rfl
@[simp] theorem Sheaf.dropLatches_lead (sh : Sheaf) : (sh.dropLatches).lead = sh.lead := rfl
@[simp] theorem Sheaf.dropLatches_ahead (sh : Sheaf) : (sh.dropLatches).ahead = sh.ahead := rfl
@[simp] theorem Sheaf.dropLatches_len (sh : Sheaf) : (sh.dropLatches).len = sh.len := rfl

/-! ### Sheaf.countLd -/

@[simp] theorem Sheaf.countLd_home (sh : Sheaf) (op : Nat) : (sh.countLd op).home = sh.home := rfl
@[simp] theorem Sheaf.countLd_ctx (sh : Sheaf) (op : Nat) : (sh.countLd op).ctx = sh.ctx := rfl
@[simp] theorem Sheaf.countLd_core (sh : Sheaf) (op : Nat) : (sh.countLd op).core = sh.core := rfl
@[simp] theorem Sheaf.countLd_heath (sh : Sheaf) (op : Nat) : (sh.countLd op).heath = sh.heath := rfl
@[simp] theorem Sheaf.countLd_part (sh : Sheaf) (op : Nat) : (sh.countLd op).part = sh.part := rfl
@[simp] theorem Sheaf.countLd_shid (sh : Sheaf) (op : Nat) : (sh.countLd op).shid = sh.shid := rfl
@[simp] theorem Sheaf.countLd_slot (sh : Sheaf) (op : Nat) : (sh.countLd op).slot = sh.slot := rfl
@[simp] theorem Sheaf.countLd_status (sh : Sheaf) (op : Nat) : (sh.countLd op).status = sh.status := rfl
@[simp] theorem Sheaf.countLd_lane (sh : Sheaf) (op : Nat) : (sh.countLd op).lane = sh.lane := rfl
@[simp] theorem Sheaf.countLd_laneClk (sh : Sheaf) (op : Nat) : (sh.countLd op).laneClk = sh.laneClk := rfl
@[simp] theorem Sheaf.countLd_readyClk (sh : Sheaf) (op : Nat) : (sh.countLd op).readyClk = sh.readyClk := rfl
@[simp] theorem Sheaf.countLd_pc (sh : Sheaf) (op : Nat) : (sh.countLd op).pc = sh.pc := rfl
@[simp] theorem Sheaf.countLd_live (sh : Sheaf) (op : Nat) : (sh.countLd op).live = sh.live := rfl
@[simp] theorem Sheaf.countLd_em (sh : Sheaf) (op : Nat) : (sh.countLd op).em = sh.em := rfl
@[simp] theorem Sheaf.countLd_wb (sh : Sheaf) (op : Nat) : (sh.countLd op).wb = sh.wb := rfl
@[simp] theorem Sheaf.countLd_role (sh : Sheaf) (op : Nat) : (sh.countLd op).role = sh.role := rfl
@[simp] theorem Sheaf.countLd_fpcr (sh : Sheaf) (op : Nat) : (sh.countLd op).fpcr = sh.fpcr := rfl
@[simp] theorem Sheaf.countLd_sticky (sh : Sheaf) (op : Nat) : (sh.countLd op).sticky = sh.sticky := rfl
@[simp] theorem Sheaf.countLd_v (sh : Sheaf) (op : Nat) : (sh.countLd op).v = sh.v := rfl
@[simp] theorem Sheaf.countLd_o (sh : Sheaf) (op : Nat) : (sh.countLd op).o = sh.o := rfl
@[simp] theorem Sheaf.countLd_s (sh : Sheaf) (op : Nat) : (sh.countLd op).s = sh.s := rfl
@[simp] theorem Sheaf.countLd_p (sh : Sheaf) (op : Nat) : (sh.countLd op).p = sh.p := rfl
@[simp] theorem Sheaf.countLd_q (sh : Sheaf) (op : Nat) : (sh.countLd op).q = sh.q := rfl
@[simp] theorem Sheaf.countLd_y0 (sh : Sheaf) (op : Nat) : (sh.countLd op).y0 = sh.y0 := rfl
@[simp] theorem Sheaf.countLd_y1 (sh : Sheaf) (op : Nat) : (sh.countLd op).y1 = sh.y1 := rfl
@[simp] theorem Sheaf.countLd_y2 (sh : Sheaf) (op : Nat) : (sh.countLd op).y2 = sh.y2 := rfl
@[simp] theorem Sheaf.countLd_y3 (sh : Sheaf) (op : Nat) : (sh.countLd op).y3 = sh.y3 := rfl
@[simp] theorem Sheaf.countLd_rgnpc (sh : Sheaf) (op : Nat) : (sh.countLd op).rgnpc = sh.rgnpc := rfl
@[simp] theorem Sheaf.countLd_rgncnt (sh : Sheaf) (op : Nat) : (sh.countLd op).rgncnt = sh.rgncnt := rfl
@[simp] theorem Sheaf.countLd_tlvl (sh : Sheaf) (op : Nat) : (sh.countLd op).tlvl = sh.tlvl := rfl
@[simp] theorem Sheaf.countLd_t1 (sh : Sheaf) (op : Nat) : (sh.countLd op).t1 = sh.t1 := rfl
@[simp] theorem Sheaf.countLd_t2 (sh : Sheaf) (op : Nat) : (sh.countLd op).t2 = sh.t2 := rfl
@[simp] theorem Sheaf.countLd_mon (sh : Sheaf) (op : Nat) : (sh.countLd op).mon = sh.mon := rfl
@[simp] theorem Sheaf.countLd_ld (sh : Sheaf) (op : Nat) : (sh.countLd op).ld = sh.ld ++ [(op, false)] := rfl
@[simp] theorem Sheaf.countLd_st (sh : Sheaf) (op : Nat) : (sh.countLd op).st = sh.st := rfl
@[simp] theorem Sheaf.countLd_ac0 (sh : Sheaf) (op : Nat) : (sh.countLd op).ac0 = sh.ac0 := rfl
@[simp] theorem Sheaf.countLd_ac1 (sh : Sheaf) (op : Nat) : (sh.countLd op).ac1 = sh.ac1 := rfl
@[simp] theorem Sheaf.countLd_ac2 (sh : Sheaf) (op : Nat) : (sh.countLd op).ac2 = sh.ac2 := rfl
@[simp] theorem Sheaf.countLd_mx (sh : Sheaf) (op : Nat) : (sh.countLd op).mx = sh.mx := rfl
@[simp] theorem Sheaf.countLd_en (sh : Sheaf) (op : Nat) : (sh.countLd op).en = sh.en := rfl
@[simp] theorem Sheaf.countLd_pend (sh : Sheaf) (op : Nat) : (sh.countLd op).pend = sh.pend := rfl
@[simp] theorem Sheaf.countLd_held (sh : Sheaf) (op : Nat) : (sh.countLd op).held = sh.held := rfl
@[simp] theorem Sheaf.countLd_rel (sh : Sheaf) (op : Nat) : (sh.countLd op).rel = sh.rel := rfl
@[simp] theorem Sheaf.countLd_lead (sh : Sheaf) (op : Nat) : (sh.countLd op).lead = sh.lead := rfl
@[simp] theorem Sheaf.countLd_ahead (sh : Sheaf) (op : Nat) : (sh.countLd op).ahead = sh.ahead := rfl
@[simp] theorem Sheaf.countLd_len (sh : Sheaf) (op : Nat) : (sh.countLd op).len = sh.len := rfl

end Sys2Proof.Machine
end

