-- ==== Sys2Proof/Laws/Registers.lean ====
section
/-! SUPPORT. Writing a result and reading it back (R46, R77, R78, R86), and what a write leaves alone. -/

namespace Sys2Proof.Machine
open Sys2Proof.Forms

/-- The widths of results, in registers (R46). -/
def Width (n : Nat) : Prop := n = 1 ∨ n = 2 ∨ n = 4

theorem tyWords_width (t : BitVec 5) : Width (tyWords t) := by
  unfold Width tyWords
  split
  · simp
  · split <;> simp

/-- Different registers have different cells, at every trap level. -/
theorem sKey_inj {lvl a b : Nat} (ha : a < 64) (hb : b < 64) (h : sKey lvl a = sKey lvl b) : a = b := by
  unfold sKey at h
  split at h <;> split at h <;> omega

/-! ### Runs of cells -/

/-- Set the cells `key j`, for `j` of a list, to `x j`. -/
def Store.setRun {w : Nat} (st : Store w) (key : Nat → Nat) (x : Nat → BitVec w) (l : List Nat) : Store w :=
  l.foldl (fun st j => st.set (key j) (x j)) st

theorem Store.setRun_other {w : Nat} (key : Nat → Nat) (x : Nat → BitVec w) (l : List Nat) (c : Nat)
    (h : ∀ j ∈ l, key j ≠ c) (st : Store w) : (st.setRun key x l).get c = st.get c := by
  induction l generalizing st with
  | nil => rfl
  | cons j r ih =>
    have := ih (fun i hi => h i (List.mem_cons_of_mem _ hi)) (st.set (key j) (x j))
    simp only [Store.setRun, List.foldl_cons] at this ⊢
    rw [this, Store.get_set_other _ _ (h j List.mem_cons_self)]

theorem Store.setRun_same {w : Nat} (key : Nat → Nat) (x : Nat → BitVec w) (l : List Nat) (j : Nat) (hj : j ∈ l)
    (inj : ∀ i ∈ l, key i = key j → i = j) (st : Store w) : (st.setRun key x l).get (key j) = x j := by
  induction l generalizing st with
  | nil => cases hj
  | cons i r ih =>
    by_cases hr : j ∈ r
    · exact ih hr (fun a ha => inj a (List.mem_cons_of_mem _ ha)) _
    · have hij : i = j := by
        rcases List.mem_cons.1 hj with h | h
        · exact h.symm
        · exact absurd h hr
      subst hij
      have : (Store.setRun (st.set (key i) (x i)) key x r).get (key i) = (st.set (key i) (x i)).get (key i) :=
        Store.setRun_other key x r _ (fun a ha h => hr (inj a (List.mem_cons_of_mem _ ha) h ▸ ha)) _
      simp only [Store.setRun, List.foldl_cons] at this ⊢
      rw [this, Store.get_set_same]

theorem Sheaf.foldl_writeV (sh : Sheaf) (slot : Nat) (t : Nat) (x : Nat → Word) (l : List Nat) :
    l.foldl (fun a j => a.writeV (slot + j) t (x j)) sh =
      { sh with v := sh.v.setRun (fun j => (slot + j) * 16 + t) x l } := by
  induction l generalizing sh with
  | nil => rfl
  | cons j r ih => rw [List.foldl_cons, ih]; rfl

/-! ### Sheaf.write, in the three register files -/

theorem Sheaf.write_v {sh : Sheaf} {u : Bool} {n : Nat} {a : BitVec 7} {i : Nat} (h : dstOf u a = .v i) (t : Nat) (x : Val) :
    sh.write u n a t x =
      { sh with v := sh.v.setRun (fun j => (sh.vslot i + j) * 16 + t) (fun j => splitWord n j x) (List.range n) } := by
  have key (l : List Nat) (b : Sheaf) (hb : b.wb = sh.wb) :
      l.foldl (fun c j => c.writeV (c.vslot i + j) t (splitWord n j x)) b =
        { b with v := b.v.setRun (fun j => (sh.vslot i + j) * 16 + t) (fun j => splitWord n j x) l } := by
    induction l generalizing b with
    | nil => rfl
    | cons j r ih =>
      have hv : b.vslot i = sh.vslot i := by simp [Sheaf.vslot, hb]
      rw [List.foldl_cons, ih _ (by simpa using hb), hv]
      rfl
  simp only [Sheaf.write, h]
  exact key _ sh rfl

theorem Sheaf.write_s {sh : Sheaf} {u : Bool} {n : Nat} {a : BitVec 7} {i : Nat} (h : dstOf u a = .s i) (t : Nat) (x : Val) :
    sh.write u n a t x =
      { sh with s := sh.s.setRun (fun j => sKey sh.tlvl (i + j)) (fun j => splitWord n j x) (List.range n) } := by
  have key (l : List Nat) (b : Sheaf) (hb : b.tlvl = sh.tlvl) :
      l.foldl (fun c j => c.writeS (i + j) (splitWord n j x)) b =
        { b with s := b.s.setRun (fun j => sKey sh.tlvl (i + j)) (fun j => splitWord n j x) l } := by
    induction l generalizing b with
    | nil => rfl
    | cons j r ih =>
      rw [List.foldl_cons, ih _ (by simpa using hb)]
      simp only [Sheaf.writeS, hb]
      rfl
  simp only [Sheaf.write, h]
  exact key _ sh rfl

theorem Sheaf.write_o {sh : Sheaf} {u : Bool} {n : Nat} {a : BitVec 7} {i : Nat} (h : dstOf u a = .o i) (t : Nat) (x : Val) :
    sh.write u n a t x =
      { sh with o := sh.o.setRun (fun j => oKey sh.tlvl (i + j) t) (fun j => splitWord n j x) (List.range n) } := by
  have key (l : List Nat) (b : Sheaf) (hb : b.tlvl = sh.tlvl) :
      l.foldl (fun c j => c.writeO (i + j) t (splitWord n j x)) b =
        { b with o := b.o.setRun (fun j => oKey sh.tlvl (i + j) t) (fun j => splitWord n j x) l } := by
    induction l generalizing b with
    | nil => rfl
    | cons j r ih =>
      rw [List.foldl_cons, ih _ (by simpa using hb)]
      simp only [Sheaf.writeO, hb]
      rfl
  simp only [Sheaf.write, h]
  exact key _ sh rfl

theorem Sheaf.write_none {sh : Sheaf} {u : Bool} {n : Nat} {a : BitVec 7} (h : dstOf u a = .discard ∨ dstOf u a = .bad) (t : Nat)
    (x : Val) : sh.write u n a t x = sh := by
  rcases h with h | h <;> simp [Sheaf.write, h]

/-! ### The results of several threads -/

/-- Every acting thread's result, in the order of the threads. -/
def Sheaf.writeAll (sh : Sheaf) (f : Fields) (n : Nat) (ts : List Nat) (g : Nat → Val) : Sheaf :=
  ts.foldl (fun sh t => sh.write f.u n f.a t (g t)) sh

/-- A result changes only registers. -/
theorem Sheaf.write_only (sh : Sheaf) (u : Bool) (n : Nat) (a : BitVec 7) (t : Nat) (x : Val) :
    sh.write u n a t x = { sh with v := (sh.write u n a t x).v, s := (sh.write u n a t x).s, o := (sh.write u n a t x).o } := by
  cases h : dstOf u a with
  | v i => rw [Sheaf.write_v h]
  | s i => rw [Sheaf.write_s h]
  | o i => rw [Sheaf.write_o h]
  | discard => rw [Sheaf.write_none (.inl h)]
  | bad => rw [Sheaf.write_none (.inr h)]

theorem Sheaf.writeAll_only (sh : Sheaf) (f : Fields) (n : Nat) (ts : List Nat) (g : Nat → Val) :
    sh.writeAll f n ts g =
      { sh with v := (sh.writeAll f n ts g).v, s := (sh.writeAll f n ts g).s, o := (sh.writeAll f n ts g).o } := by
  induction ts generalizing sh with
  | nil => rfl
  | cons t r ih =>
    have h := ih (sh.write f.u n f.a t (g t))
    have hw := sh.write_only f.u n f.a t (g t)
    simp only [Sheaf.writeAll, List.foldl_cons] at h ⊢
    rw [h]
    rw [hw]

end Sys2Proof.Machine
end

