-- ==== Sys2Proof/Laws/Issue.lean ====
section
/-! SUPPORT. What the issue of one instruction can do, said once: the meanings are cited through these lemmas. -/

namespace Sys2Proof.Machine
open Sys2Proof.Forms

/-! ### A clock passes (R3) -/

@[simp] theorem State.tickOne_sheafs (s : State) (sh : Sheaf) : (s.tickOne sh).sheafs = s.sheafs := by
  simp only [State.tickOne, State.passClocks]
  split
  · rfl
  · split <;> rfl

@[simp] theorem State.tickOne_mem (s : State) (sh : Sheaf) : (s.tickOne sh).mem = s.mem := by
  simp only [State.tickOne, State.passClocks]
  split
  · rfl
  · split <;> rfl

@[simp] theorem State.tickOne_wgs (s : State) (sh : Sheaf) : (s.tickOne sh).wgs = s.wgs := by
  simp only [State.tickOne, State.passClocks]
  split
  · rfl
  · split <;> rfl

@[simp] theorem State.tickOne_blocks (s : State) (sh : Sheaf) : (s.tickOne sh).blocks = s.blocks := by
  simp only [State.tickOne, State.passClocks]
  split
  · rfl
  · split <;> rfl

@[simp] theorem State.tickOne_ops (s : State) (sh : Sheaf) : (s.tickOne sh).ops = s.ops := by
  simp only [State.tickOne, State.passClocks]
  split
  · rfl
  · split <;> rfl

@[simp] theorem State.tickOne_l2 (s : State) (sh : Sheaf) : (s.tickOne sh).l2 = s.l2 := by
  simp only [State.tickOne, State.passClocks]
  split
  · rfl
  · split <;> rfl

/-! ### One sheaf changes -/

theorem Table.upd_upd {α : Type} (t : Table α) (a : Nat) (g h : α → α) : (t.upd a g).upd a h = t.upd a fun x => h (g x) := by
  induction t with
  | nil => rfl
  | cons e r ih =>
    obtain ⟨k, v⟩ := e
    by_cases hk : k = a <;> simp [Table.upd, hk, ih]

theorem Table.upd_const {α : Type} (t : Table α) (a : Nat) (g : α → α) {x : α} (h : t.get? a = some x) :
    t.upd a g = t.upd a fun _ => g x := by
  induction t with
  | nil => rfl
  | cons e r ih =>
    obtain ⟨k, v⟩ := e
    by_cases hk : k = a
    · simp only [Table.get?, hk, if_true, Option.some.injEq] at h
      simp [Table.upd, hk, h]
    · simp only [Table.get?, hk, if_false] at h
      simp [Table.upd, hk, ih h]

theorem State.onSheaf_onSheaf (s : State) (k : Nat) (g h : Sheaf → Sheaf) :
    (s.onSheaf k g).onSheaf k h = s.onSheaf k fun x => h (g x) := by
  simp only [State.onSheaf, Table.upd_upd]

theorem State.onSheaf_const {s : State} {k : Nat} {sh : Sheaf} (g : Sheaf → Sheaf) (h : s.sheaf? k = some sh) :
    s.onSheaf k g = s.onSheaf k fun _ => g sh := by
  simp only [State.onSheaf, State.sheaf?] at *
  rw [Table.upd_const _ _ _ h]

@[simp] theorem State.after_onSheaf (s : State) (k : Nat) (sh a : Sheaf) (g : Sheaf → Sheaf) :
    (s.after k sh a).onSheaf k g = s.after k sh (g a) := by
  simp only [State.after, State.onSheaf_onSheaf]

theorem State.after_sheaf? {s : State} {k : Nat} {sh : Sheaf} (a : Sheaf) (h : s.sheaf? k = some sh) :
    (s.after k sh a).sheaf? k = some a := by
  simp only [State.after, State.sheaf?, State.onSheaf_sheafs, State.tickOne_sheafs, Table.get?_upd_same] at *
  simp [h]

/-- Every other sheaf is as before. -/
theorem State.after_other (s : State) (k : Nat) (sh a : Sheaf) {j : Nat} (h : k ≠ j) :
    (s.after k sh a).sheaf? j = s.sheaf? j := by
  simp [State.after, State.sheaf?, Table.get?_upd, h]

/-- A clock and a sheaf's registers leave every byte of memory as it is. -/
theorem State.after_peekByte (s : State) (k : Nat) (sh a : Sheaf) (x : Nat) : (s.after k sh a).peekByte x = s.peekByte x := by
  have h1 : ∀ c, ((s.after k sh a).core c).l1 = (s.core c).l1 := by
    intro c
    simp only [State.after, State.core, State.onSheaf_cores, State.tickOne, State.passClocks]
    have key : (((s.cores.put sh.core { s.core sh.core with clk := (s.core sh.core).clk + 1 }).get? c).getD {}).l1 =
        ((s.cores.get? c).getD {}).l1 := by
      rw [Table.get?_put]
      split
      · rename_i h; subst h; rfl
      · rfl
    split
    · rfl
    · split <;> exact key
  have h2 : (s.after k sh a).l2 = s.l2 := by simp [State.after]
  have h3 : (s.after k sh a).mem = s.mem := by simp [State.after]
  simp only [State.peekByte, State.peek, State.l2?, State.l1Word?, State.l1?, State.rawWord, h1, h2, h3]

/-! ### issue -/

theorem Iss.check_congr (i : Iss) {s t : State} (h : s.wgs = t.wgs) (hb : s.blocks = t.blocks) : i.check s = i.check t := by
  simp only [Iss.check, State.nreg, State.wg?, h, hb]

theorem State.regionReady_congr {s t : State} (k : Nat) (sh : Sheaf) (h : s.ops = t.ops) :
    s.regionReady k sh = t.regionReady k sh := by
  simp only [State.regionReady, h]

/-- An instruction that executes: its own operation decides. -/
theorem issue_executes {r : Row} {f : Fields} {s : State} {k : Nat} {sh : Sheaf} (h : Executes r f s k sh)
    (body : Iss → State → Eff) :
    issue r f body s =
      .next ((issOf r f k sh).finish (s.issued k sh f) (body (issOf r f k sh) (s.issued k sh f))) := by
  have hs := h.sheaf
  have hi : (s.tickOne sh).onSheaf k (fun t => t.issuing f) = s.issued k sh f :=
    State.onSheaf_const _ (by simpa [State.sheaf?] using hs)
  have hc : (issOf r f k sh).check (s.issued k sh f) = none := by
    rw [← h.check]
    exact Iss.check_congr _ (by simp [State.issued, State.after]) (by simp [State.issued, State.after])
  have hr : (regionFirst r.op && !(sh.issuing f).heath && !(s.issued k sh f).regionReady k (sh.issuing f)) = false := by
    rw [State.regionReady_congr (t := s) k _ (by simp [State.issued, State.after])]
    cases hop : regionFirst r.op with
    | false => rfl
    | true =>
      rcases h.region hop with h' | h'
      · simp [Sheaf.issuing, h']
      · simp [h']
  simp only [issue, h.cur, hs, issueAt, hi, Iss.run, hc, h.goes, h.counts, h.acts]
  simp only [Bool.not_true, Bool.false_and, Bool.false_eq_true, if_false]
  change Host.Outcome.next (if (regionFirst r.op && !(sh.issuing f).heath && !(s.issued k sh f).regionReady k (sh.issuing f)) = true
    then _ else _) = _
  rw [hr]
  rfl

end Sys2Proof.Machine
end

