-- ==== Sys2Proof/Laws/Alu.lean ====
section
/-! SUPPORT. The arithmetic pattern of R57, said once: what an instruction of it leaves when no thread traps. -/

namespace Sys2Proof.Machine
open Sys2Proof.Forms

theorem mem_active {m : Mask} {t : Nat} : t ∈ active m ↔ t < 16 ∧ m.getLsbD t = true := by
  have h : ∀ t, t ∈ threads ↔ t < 16 := by
    intro t
    simp only [threads, List.mem_cons, List.not_mem_nil, or_false]
    omega
  simp [active, h]

/-- Only a uniform destination names an s register (R78). -/
theorem dst_s_uniform {u : Bool} {a : BitVec 7} {i : Nat} (h : dstOf u a = .s i) : u = true := by
  cases u with
  | true => rfl
  | false =>
    simp only [dstOf, Bool.false_eq_true, if_false] at h
    repeat' split at h
    all_goals cases h

/-! ### Written -/

/-- Runs of `n` cells for each of several threads. -/
def Store.runs (st : Store 32) (key : Nat → Nat → Nat) (x : Nat → Nat → Word) (n : Nat) (ts : List Nat) : Store 32 :=
  ts.foldl (fun st t => Store.setRun st (key t) (x t) (List.range n)) st

theorem Sheaf.writeAll_v {sh : Sheaf} {f : Fields} {i : Nat} (h : dstOf f.u f.a = .v i) (n : Nat) (ts : List Nat) (g : Nat → Val) :
    sh.writeAll f n ts g =
      { sh with v := sh.v.runs (fun t j => (sh.vslot i + j) * 16 + t) (fun t j => splitWord n j (g t)) n ts } := by
  have key (ts : List Nat) (b : Sheaf) (hb : b.wb = sh.wb) : b.writeAll f n ts g =
      { b with v := b.v.runs (fun t j => (sh.vslot i + j) * 16 + t) (fun t j => splitWord n j (g t)) n ts } := by
    induction ts generalizing b with
    | nil => rfl
    | cons t r ih =>
      have hv : b.vslot i = sh.vslot i := by simp [Sheaf.vslot, hb]
      have := ih (b.write f.u n f.a t (g t)) (by rw [Sheaf.write_v h]; exact hb)
      simp only [Sheaf.writeAll, List.foldl_cons] at this ⊢
      rw [this, Sheaf.write_v h, hv]
      rfl
  exact key ts sh rfl

theorem Sheaf.writeAll_o {sh : Sheaf} {f : Fields} {i : Nat} (h : dstOf f.u f.a = .o i) (n : Nat) (ts : List Nat) (g : Nat → Val) :
    sh.writeAll f n ts g =
      { sh with o := sh.o.runs (fun t j => oKey sh.tlvl (i + j) t) (fun t j => splitWord n j (g t)) n ts } := by
  have key (ts : List Nat) (b : Sheaf) (hb : b.tlvl = sh.tlvl) : b.writeAll f n ts g =
      { b with o := b.o.runs (fun t j => oKey sh.tlvl (i + j) t) (fun t j => splitWord n j (g t)) n ts } := by
    induction ts generalizing b with
    | nil => rfl
    | cons t r ih =>
      have := ih (b.write f.u n f.a t (g t)) (by rw [Sheaf.write_o h]; exact hb)
      simp only [Sheaf.writeAll, List.foldl_cons] at this ⊢
      rw [this, Sheaf.write_o h, hb]
      rfl
  exact key ts sh rfl

theorem Sheaf.writeAll_none {sh : Sheaf} {f : Fields} (h : dstOf f.u f.a = .discard ∨ dstOf f.u f.a = .bad) (n : Nat)
    (ts : List Nat) (g : Nat → Val) : sh.writeAll f n ts g = sh := by
  induction ts with
  | nil => rfl
  | cons t r ih => simpa [Sheaf.writeAll, Sheaf.write_none h] using ih

/-- Runs for several threads whose cells differ. -/
theorem Store.runs_get (st : Store 32) (key : Nat → Nat → Nat) (x : Nat → Nat → Word) (n : Nat) (ts : List Nat)
    (inj : ∀ t ∈ ts, ∀ t' ∈ ts, ∀ j < n, ∀ j' < n, key t j = key t' j' → t = t' ∧ j = j') :
    (∀ t ∈ ts, ∀ j < n, (st.runs key x n ts).get (key t j) = x t j) ∧
      ∀ c, (∀ t ∈ ts, ∀ j < n, key t j ≠ c) → (st.runs key x n ts).get c = st.get c := by
  induction ts generalizing st with
  | nil => exact ⟨fun _ h => absurd h (by simp), fun _ _ => rfl⟩
  | cons a r ih =>
    have hs := ih (Store.setRun st (key a) (x a) (List.range n))
      (fun t ht t' ht' => inj t (List.mem_cons_of_mem _ ht) t' (List.mem_cons_of_mem _ ht'))
    refine ⟨fun t ht j hj => ?_, fun c hc => ?_⟩
    · by_cases hr : t ∈ r
      · exact hs.1 t hr j hj
      · have hta : t = a := by
          rcases List.mem_cons.1 ht with h | h
          · exact h
          · exact absurd h hr
        subst hta
        change (Store.runs (Store.setRun st (key t) (x t) (List.range n)) key x n r).get (key t j) = x t j
        rw [hs.2 (key t j) (fun t' ht' j' hj' he =>
          hr ((inj t' (List.mem_cons_of_mem _ ht') t List.mem_cons_self j' hj' j hj he).1 ▸ ht'))]
        exact Store.setRun_same (key t) (x t) _ j (by simpa using hj)
          (fun i hi he => (inj t List.mem_cons_self t List.mem_cons_self i (by simpa using hi) j hj he).2) st
    · change (Store.runs (Store.setRun st (key a) (x a) (List.range n)) key x n r).get c = st.get c
      rw [hs.2 c (fun t ht j hj => hc t (List.mem_cons_of_mem _ ht) j hj)]
      exact Store.setRun_other _ _ _ c (fun j hj => hc a List.mem_cons_self j (by simpa using hj)) st

/-- Where a destination of `n` registers may stand (R78, R80). -/
def DestOk (f : Fields) (n : Nat) : Prop :=
  (∀ i, dstOf f.u f.a = .s i → i + n ≤ 64) ∧ (∀ i, dstOf f.u f.a = .o i → i + n ≤ 8) ∧ dstOf f.u f.a ≠ .bad

theorem Sheaf.writeAll_written (sh : Sheaf) (f : Fields) (n : Nat) (ts : List Nat) (g : Nat → Val) (ht : ∀ t ∈ ts, t < 16)
    (hd : DestOk f n) (hu : f.u = true → ts = [0]) : Written sh (sh.writeAll f n ts g) f n ts g := by
  obtain ⟨hs, ho, hb⟩ := hd
  cases h : dstOf f.u f.a with
  | bad => exact absurd h hb
  | discard =>
    rw [Sheaf.writeAll_none (.inl h)]
    exact ⟨⟨fun _ _ => rfl, fun _ _ => rfl, fun _ _ => rfl⟩, fun h' => absurd h h'⟩
  | v i =>
    have hr := Store.runs_get sh.v (fun t j => (sh.vslot i + j) * 16 + t) (fun t j => splitWord n j (g t)) n ts
      (fun t h1 t' h2 j _ j' _ he => by have := ht t h1; have := ht t' h2; omega)
    rw [Sheaf.writeAll_v h]
    refine ⟨⟨fun x hx => hr.2 x fun t h1 j h2 he => hx ?_, fun _ _ => rfl, fun _ _ => rfl⟩, fun _ t h1 j h2 => ?_⟩
    · simp only [Sheaf.destV, h, List.mem_flatMap, List.mem_map, List.mem_range]
      exact ⟨t, h1, j, h2, he⟩
    · simp only [Sheaf.dest, h]
      exact hr.1 t h1 j h2
  | o i =>
    have := ho i h
    have hr := Store.runs_get sh.o (fun t j => oKey sh.tlvl (i + j) t) (fun t j => splitWord n j (g t)) n ts
      (fun t h1 t' h2 j _ j' _ he => by have := ht t h1; have := ht t' h2; simp only [oKey] at he; omega)
    rw [Sheaf.writeAll_o h]
    refine ⟨⟨fun _ _ => rfl, fun _ _ => rfl, fun x hx => hr.2 x fun t h1 j h2 he => hx ?_⟩, fun _ t h1 j h2 => ?_⟩
    · simp only [Sheaf.destO, h, List.mem_flatMap, List.mem_map, List.mem_range]
      exact ⟨t, h1, j, h2, he⟩
    · simp only [Sheaf.dest, h]
      exact hr.1 t h1 j h2
  | s i =>
    have hi := hs i h
    have hut : f.u = true := dst_s_uniform h
    rw [hu hut]
    have e : sh.writeAll f n [0] g = sh.write f.u n f.a 0 (g 0) := rfl
    rw [e, Sheaf.write_s h]
    have inj : ∀ a < n, ∀ b < n, sKey sh.tlvl (i + a) = sKey sh.tlvl (i + b) → a = b := by
      intro a ha b hb he
      have := sKey_inj (a := i + a) (b := i + b) (by omega) (by omega) he
      omega
    refine ⟨⟨fun _ _ => rfl, fun x hx => Store.setRun_other _ _ _ x (fun j hj he => hx ?_) _, fun _ _ => rfl⟩,
      fun _ t _ j h2 => ?_⟩
    · simp only [Sheaf.destS, h, List.mem_map]
      exact ⟨j, hj, he⟩
    · have ht0 : t = 0 := by simp_all
      subst ht0
      simp only [Sheaf.dest, h]
      exact Store.setRun_same (fun j => sKey sh.tlvl (i + j)) (fun j => splitWord n j (g 0)) _ j (by simpa using h2)
        (fun a ha he => inj a (by simpa using ha) j h2 he) sh.s

/-! ### Predicates and flags -/

theorem getLsbD_setBit (m : Mask) (t x : Nat) (b : Bool) (ht : t < 16) (hx : x < 16) :
    (setBit m t b).getLsbD x = if x = t then b else m.getLsbD x := by
  cases b with
  | true =>
    simp only [setBit, if_true]
    by_cases h : x = t
    · subst h; simp [hx]
    · simp [h]
      intro h1 _
      omega
  | false =>
    simp only [setBit, Bool.false_eq_true, if_false]
    by_cases h : x = t
    · subst h; simp [hx]
    · simp [h, hx]
      intro h1
      omega

/-- The vector predicates, and the uniform ones, after one is written. -/
def predP (u : Bool) (t : Nat) (p : Store 16) (e : BitVec 7 × Bool) : Store 16 :=
  if 7 ≤ e.1.toNat then p else if u then p else p.set e.1.toNat (setBit (p.get e.1.toNat) t e.2)
def predQ (u : Bool) (q : BitVec 7) (e : BitVec 7 × Bool) : BitVec 7 :=
  if 7 ≤ e.1.toNat then q
  else if u then (if e.2 then q ||| (1#7 <<< e.1.toNat) else q &&& ~~~(1#7 <<< e.1.toNat)) else q

theorem Sheaf.setPred_eq (sh : Sheaf) (u : Bool) (e : BitVec 7 × Bool) (t : Nat) :
    sh.setPred u e.1 t e.2 = { sh with p := predP u t sh.p e, q := predQ u sh.q e } := by
  simp only [Sheaf.setPred, predP, predQ]
  split
  · rfl
  · split <;> rfl

theorem Sheaf.foldl_setPred (sh : Sheaf) (u : Bool) (t : Nat) (l : List (BitVec 7 × Bool)) :
    l.foldl (fun s e => s.setPred u e.1 t e.2) sh = { sh with p := l.foldl (predP u t) sh.p, q := l.foldl (predQ u) sh.q } := by
  induction l generalizing sh with
  | nil => rfl
  | cons e r ih => rw [List.foldl_cons, ih, Sheaf.setPred_eq]; rfl

theorem foldl_predQ_vector (l : List (BitVec 7 × Bool)) (q : BitVec 7) : l.foldl (predQ false) q = q := by
  induction l generalizing q with
  | nil => rfl
  | cons e r ih => rw [List.foldl_cons, ih]; simp [predQ]

theorem foldl_predP_uniform (l : List (BitVec 7 × Bool)) (t : Nat) (p : Store 16) : l.foldl (predP true t) p = p := by
  induction l generalizing p with
  | nil => rfl
  | cons e r ih => rw [List.foldl_cons, ih]; simp [predP]

theorem foldl_predP_high (l : List (BitVec 7 × Bool)) (t d : Nat) (p : Store 16) (h : 7 ≤ d) :
    (l.foldl (predP false t) p).get d = p.get d := by
  induction l generalizing p with
  | nil => rfl
  | cons e r ih =>
    rw [List.foldl_cons, ih]
    simp only [predP, Bool.false_eq_true, if_false]
    split
    · rfl
    · exact Store.get_set_other _ _ (by omega)

theorem foldl_predP_get (l : List (BitVec 7 × Bool)) (t d x : Nat) (p : Store 16) (hd : d < 7) (ht : t < 16) (hx : x < 16) :
    ((l.foldl (predP false t) p).get d).getLsbD x =
      if x = t then predAfter l d ((p.get d).getLsbD x) else (p.get d).getLsbD x := by
  induction l generalizing p with
  | nil => simp [predAfter]
  | cons e r ih =>
    have key : ((predP false t p e).get d).getLsbD x =
        if e.1.toNat = d ∧ x = t then e.2 else (p.get d).getLsbD x := by
      simp only [predP, Bool.false_eq_true, if_false]
      by_cases he : e.1.toNat = d
      · have h7 : ¬ 7 ≤ e.1.toNat := by omega
        rw [if_neg h7, he, Store.get_set_same, getLsbD_setBit _ _ _ _ ht hx]
        simp
      · simp only [he, false_and, if_false]
        split
        · rfl
        · rw [Store.get_set_other _ _ he]
    rw [List.foldl_cons, ih, key]
    simp only [predAfter, List.foldl_cons]
    by_cases hxt : x = t
    · simp only [hxt, and_true, if_true]
    · simp [hxt]

theorem foldl_predQ_get (l : List (BitVec 7 × Bool)) (d : Nat) (q : BitVec 7) (hd : d < 7) :
    (l.foldl (predQ true) q).getLsbD d = predAfter l d (q.getLsbD d) := by
  induction l generalizing q with
  | nil => simp [predAfter]
  | cons e r ih =>
    have key : (predQ true q e).getLsbD d = if e.1.toNat = d then e.2 else q.getLsbD d := by
      simp only [predQ, if_true]
      by_cases he : e.1.toNat = d
      · have h7 : ¬ 7 ≤ e.1.toNat := by omega
        rw [if_neg h7, he]
        cases e.2 <;> simp [hd]
      · rw [if_neg he]
        split
        · rfl
        · cases e.2
          · simp only [Bool.false_eq_true, if_false]
            simp [hd]
            intro h1
            omega
          · simp [hd]
            intro h1
            omega
    rw [List.foldl_cons, ih, key]
    simp only [predAfter, List.foldl_cons]

/-- One thread's flags. -/
theorem Sticky.raise_get (k : Sticky) (t : Nat) (g : Flags) (x : Nat) (ht : t < 16) (hx : x < 16) :
    (k.raise t g).inv.getLsbD x = (k.inv.getLsbD x || (x == t && g.inv))
      ∧ (k.raise t g).dz.getLsbD x = (k.dz.getLsbD x || (x == t && g.dz))
      ∧ (k.raise t g).ovf.getLsbD x = (k.ovf.getLsbD x || (x == t && g.ovf))
      ∧ (k.raise t g).unf.getLsbD x = (k.unf.getLsbD x || (x == t && g.unf))
      ∧ (k.raise t g).inx.getLsbD x = (k.inx.getLsbD x || (x == t && g.inx)) := by
  have key (m : Mask) (b : Bool) : (if b then setBit m t true else m).getLsbD x = (m.getLsbD x || (x == t && b)) := by
    cases b with
    | false => simp
    | true =>
      rw [if_pos rfl, getLsbD_setBit _ _ _ _ ht hx]
      by_cases h : x = t <;> simp [h]
  exact ⟨key _ _, key _ _, key _ _, key _ _, key _ _⟩

/-- The flags of one computation, raised in several threads. -/
def Sticky.raiseIn (k : Sticky) (ts : List Nat) (g : Flags) : Sticky := ts.foldl (fun k t => k.raise t g) k

theorem Sticky.raiseIn_get (k : Sticky) (ts : List Nat) (g : Flags) (x : Nat) (ht : ∀ t ∈ ts, t < 16) (hx : x < 16) :
    (k.raiseIn ts g).inv.getLsbD x = (k.inv.getLsbD x || (ts.contains x && g.inv))
      ∧ (k.raiseIn ts g).dz.getLsbD x = (k.dz.getLsbD x || (ts.contains x && g.dz))
      ∧ (k.raiseIn ts g).ovf.getLsbD x = (k.ovf.getLsbD x || (ts.contains x && g.ovf))
      ∧ (k.raiseIn ts g).unf.getLsbD x = (k.unf.getLsbD x || (ts.contains x && g.unf))
      ∧ (k.raiseIn ts g).inx.getLsbD x = (k.inx.getLsbD x || (ts.contains x && g.inx)) := by
  induction ts generalizing k with
  | nil => simp [Sticky.raiseIn]
  | cons a r ih =>
    obtain ⟨h1, h2, h3, h4, h5⟩ := ih (k.raise a g) (fun t h => ht t (List.mem_cons_of_mem _ h))
    obtain ⟨g1, g2, g3, g4, g5⟩ := k.raise_get a g x (ht a List.mem_cons_self) hx
    simp only [Sticky.raiseIn, List.foldl_cons] at *
    simp only [h1, h2, h3, h4, h5, g1, g2, g3, g4, g5, List.contains_cons, Bool.or_assoc, Bool.and_or_distrib_right, and_self]

/-- The flags of several computations. -/
def Sticky.raiseAll (k : Sticky) (ts : List Nat) (c : Nat → List Nat) (g : Nat → Flags) : Sticky :=
  ts.foldl (fun k t => k.raiseIn (c t) (g t)) k

theorem Sticky.raiseAll_get (k : Sticky) (ts : List Nat) (c : Nat → List Nat) (g : Nat → Flags) (x : Nat)
    (hc : ∀ t ∈ ts, ∀ y ∈ c t, y < 16) (hx : x < 16) :
    (k.raiseAll ts c g).inv.getLsbD x = (k.inv.getLsbD x || ts.any fun t => (c t).contains x && (g t).inv)
      ∧ (k.raiseAll ts c g).dz.getLsbD x = (k.dz.getLsbD x || ts.any fun t => (c t).contains x && (g t).dz)
      ∧ (k.raiseAll ts c g).ovf.getLsbD x = (k.ovf.getLsbD x || ts.any fun t => (c t).contains x && (g t).ovf)
      ∧ (k.raiseAll ts c g).unf.getLsbD x = (k.unf.getLsbD x || ts.any fun t => (c t).contains x && (g t).unf)
      ∧ (k.raiseAll ts c g).inx.getLsbD x = (k.inx.getLsbD x || ts.any fun t => (c t).contains x && (g t).inx) := by
  induction ts generalizing k with
  | nil => simp [Sticky.raiseAll]
  | cons a r ih =>
    obtain ⟨h1, h2, h3, h4, h5⟩ := ih (k.raiseIn (c a) (g a)) (fun t h => hc t (List.mem_cons_of_mem _ h))
    obtain ⟨g1, g2, g3, g4, g5⟩ := k.raiseIn_get (c a) (g a) x (hc a List.mem_cons_self) hx
    simp only [Sticky.raiseAll, List.foldl_cons] at *
    simp only [h1, h2, h3, h4, h5, g1, g2, g3, g4, g5, List.any_cons, Bool.or_assoc, and_self]

/-! ### Iss.alu -/

theorem State.after_fresh (s : State) (k : Nat) (sh a : Sheaf) : (s.after k sh a).fresh = s.fresh := by
  simp only [State.after, State.onSheaf_fresh, State.tickOne, State.passClocks]
  split
  · rfl
  · split <;> rfl

/-- The counter of free values is as before. -/
theorem State.after_with (s : State) (k : Nat) (sh a : Sheaf) :
    s.after k sh a = { s.after k sh a with fresh := s.fresh } := by
  rw [← State.after_fresh s k sh a]

theorem maskOf_false {p : Nat → Bool} (h : ∀ t, p t = false) : maskOf p = 0 := by
  simp [maskOf, threads, h]

theorem issOf_threads (r : Row) (f : Fields) (k : Nat) (sh : Sheaf) : (issOf r f k sh).threads = acting f sh := rfl

theorem mem_acting {f : Fields} {sh : Sheaf} {t : Nat} (h : t ∈ acting f sh) : t < 16 := by
  simp only [acting] at h
  split at h
  · simp at h; omega
  · exact (mem_active.1 h).1

/-- What writing results leaves alone besides the registers. -/
theorem Sheaf.writeAll_eqs (sh : Sheaf) (f : Fields) (n : Nat) (ts : List Nat) (g : Nat → Val) :
    (sh.writeAll f n ts g).y0 = sh.y0 ∧ (sh.writeAll f n ts g).y1 = sh.y1 ∧ (sh.writeAll f n ts g).y2 = sh.y2 ∧
      (sh.writeAll f n ts g).y3 = sh.y3 := by
  rw [sh.writeAll_only f n ts g]
  exact ⟨rfl, rfl, rfl, rfl⟩

theorem Written.congr {a b a' b' : Sheaf} {f : Fields} {n : Nat} {ts : List Nat} {g : Nat → Val} (h : Written a b f n ts g)
    (h1 : a'.wb = a.wb ∧ a'.tlvl = a.tlvl ∧ a'.v = a.v ∧ a'.s = a.s ∧ a'.o = a.o)
    (h2 : b'.wb = b.wb ∧ b'.tlvl = b.tlvl ∧ b'.v = b.v ∧ b'.s = b.s ∧ b'.o = b.o) : Written a' b' f n ts g := by
  obtain ⟨⟨hv, hs, ho⟩, hval⟩ := h
  obtain ⟨w1, l1, v1, s1, o1⟩ := h1
  obtain ⟨w2, l2, v2, s2, o2⟩ := h2
  refine ⟨⟨fun x hx => ?_, fun x hx => ?_, fun x hx => ?_⟩, fun hd t ht j hj => ?_⟩
  · rw [v1, v2]; exact hv x (by simpa [Sheaf.destV, Sheaf.vslot, w1] using hx)
  · rw [s1, s2]; exact hs x (by simpa [Sheaf.destS, l1] using hx)
  · rw [o1, o2]; exact ho x (by simpa [Sheaf.destO, l1] using hx)
  · rw [← hval hd t ht j hj]
    simp only [Sheaf.dest, Sheaf.readV, Sheaf.readS, Sheaf.readO, Sheaf.vslot, w2, l2, v2, s2, o2]

theorem shift_vals (f : Nat → DWord) (t : Nat) (h : t < 16) :
    Store.get (threads.foldl (fun (st : Store 64) t => st.set t (f t)) []) t = f t := by
  have := Store.setRun_same (fun j => j) f threads t (by simp only [threads, List.mem_cons, List.not_mem_nil, or_false]; omega)
    (fun _ _ he => he) []
  exact this

/-- A destination of no registers takes nothing. -/
def Sheaf.writeIf (sh : Sheaf) (f : Fields) (n : Nat) (ts : List Nat) (g : Nat → Val) : Sheaf :=
  if n = 0 then sh else sh.writeAll f n ts g

theorem Sheaf.writeIf_only (sh : Sheaf) (f : Fields) (n : Nat) (ts : List Nat) (g : Nat → Val) :
    sh.writeIf f n ts g =
      { sh with v := (sh.writeIf f n ts g).v, s := (sh.writeIf f n ts g).s, o := (sh.writeIf f n ts g).o } := by
  unfold Sheaf.writeIf
  split
  · rfl
  · exact sh.writeAll_only f n ts g

/-- What one computation leaves. -/
theorem Sheaf.take_eq (sh : Sheaf) (f : Fields) (n t : Nat) (c : List Nat) (o : Out) :
    sh.take f n t c o =
      { sh.writeIf f n [t] (fun _ => o.val) with
        p := o.preds.foldl (predP f.u t) sh.p, q := o.preds.foldl (predQ f.u) sh.q, sticky := sh.sticky.raiseIn c o.flags } := by
  have e : (if n = 0 then sh else sh.write f.u n f.a t o.val) = sh.writeIf f n [t] fun _ => o.val := rfl
  have h := sh.writeIf_only f n [t] fun _ => o.val
  simp only [Sheaf.take, e, Sheaf.foldl_setPred, Sheaf.raiseFlags, Sticky.raiseIn]
  rw [h]

/-- What the computations of several threads leave. -/
def Sheaf.takeAll (sh : Sheaf) (f : Fields) (n : Nat) (ts : List Nat) (c : Nat → List Nat) (g : Nat → Out) : Sheaf :=
  ts.foldl (fun a t => a.take f n t (c t) (g t)) sh

theorem Sheaf.takeAll_eq (sh : Sheaf) (f : Fields) (n : Nat) (ts : List Nat) (c : Nat → List Nat) (g : Nat → Out) :
    sh.takeAll f n ts c g =
      { sh.writeIf f n ts (fun t => (g t).val) with
        p := ts.foldl (fun p t => (g t).preds.foldl (predP f.u t) p) sh.p
        q := ts.foldl (fun q t => (g t).preds.foldl (predQ f.u) q) sh.q
        sticky := sh.sticky.raiseAll ts c fun t => (g t).flags } := by
  induction ts generalizing sh with
  | nil =>
    simp only [Sheaf.takeAll, Sheaf.writeIf, Sheaf.writeAll, List.foldl_nil, Sticky.raiseAll]
    split <;> rfl
  | cons a r ih =>
    have e : sh.takeAll f n (a :: r) c g = (sh.take f n a (c a) (g a)).takeAll f n r c g := rfl
    rw [e, ih, Sheaf.take_eq]
    simp only [List.foldl_cons, Sticky.raiseAll]
    have hw (b : Sheaf) (x : Store 16) (y : BitVec 7) (z : Sticky) : ({ b with p := x, q := y, sticky := z } : Sheaf).writeIf f n r (fun t => (g t).val)
        = { b.writeIf f n r (fun t => (g t).val) with p := x, q := y, sticky := z } := by
      unfold Sheaf.writeIf
      split
      · rfl
      · have hd := dstOf f.u f.a
        cases h : dstOf f.u f.a with
        | v i => rw [Sheaf.writeAll_v h, Sheaf.writeAll_v h]; rfl
        | o i => rw [Sheaf.writeAll_o h, Sheaf.writeAll_o h]
        | discard => rw [Sheaf.writeAll_none (.inl h), Sheaf.writeAll_none (.inl h)]
        | bad => rw [Sheaf.writeAll_none (.inr h), Sheaf.writeAll_none (.inr h)]
        | s i =>
          simp only [Sheaf.writeAll]
          clear ih e hd
          induction r generalizing b with
          | nil => rfl
          | cons t r ih =>
            simp only [List.foldl_cons]
            rw [Sheaf.write_s h, Sheaf.write_s h]
            exact ih { b with s := b.s.setRun (fun j => sKey b.tlvl (i + j)) (fun j => splitWord n j (g t).val) (List.range n) }
    rw [hw]
    have e2 : (sh.writeIf f n [a] fun _ => (g a).val).writeIf f n r (fun t => (g t).val) =
        sh.writeIf f n (a :: r) fun t => (g t).val := by
      unfold Sheaf.writeIf
      split <;> rfl
    rw [e2]

theorem foldl_id {α β : Type} (l : List α) (b : β) : l.foldl (fun b _ => b) b = b := by
  induction l with
  | nil => rfl
  | cons _ _ ih => exact ih

/-- The predicates of several threads. -/
theorem takeAll_p (ts : List Nat) (g : Nat → List (BitVec 7 × Bool)) (p : Store 16) (d x : Nat) (hd : d < 7)
    (ht : ∀ t ∈ ts, t < 16) (hx : x < 16) (nd : ts.Nodup) :
    ((ts.foldl (fun p t => (g t).foldl (predP false t) p) p).get d).getLsbD x =
      if x ∈ ts then predAfter (g x) d ((p.get d).getLsbD x) else (p.get d).getLsbD x := by
  induction ts generalizing p with
  | nil => simp
  | cons a r ih =>
    rw [List.foldl_cons, ih _ (fun t h => ht t (List.mem_cons_of_mem _ h)) (List.nodup_cons.1 nd).2,
      foldl_predP_get _ _ _ _ _ hd (ht a List.mem_cons_self) hx]
    have ha := (List.nodup_cons.1 nd).1
    by_cases h : x = a
    · subst h
      simp [ha]
    · simp [h]

theorem takeAll_p_high (ts : List Nat) (g : Nat → List (BitVec 7 × Bool)) (p : Store 16) (d : Nat) (hd : 7 ≤ d) :
    (ts.foldl (fun p t => (g t).foldl (predP false t) p) p).get d = p.get d := by
  induction ts generalizing p with
  | nil => rfl
  | cons a r ih => rw [List.foldl_cons, ih, foldl_predP_high _ _ _ _ hd]

theorem active_nodup (m : Mask) : (active m).Nodup := by
  unfold active
  exact List.Pairwise.filter _ (by decide)

theorem acting_nodup (f : Fields) (sh : Sheaf) : (acting f sh).Nodup := by
  unfold acting
  split
  · simp
  · exact active_nodup _

/-- Where a legal destination may stand. -/
theorem dest_ok {r : Row} {f : Fields} {s : State} {k : Nat} {sh : Sheaf} (h : Executes r f s k sh) {n : Nat}
    (hu : (r.uses f).a = .dst n) (hn : Width n) : DestOk f n := by
  have hl : r.legal f = true := by
    have hc := h.check
    simp only [Iss.check] at hc
    split at hc
    · cases hc
    · rename_i h1
      simp only [Bool.not_eq_true', Bool.not_eq_false, Bool.and_eq_true] at h1
      exact h1.1.1
  have hd : dstOk f.u n f.a = true := by
    simp only [Row.legal, Uses.ok, Bool.and_eq_true] at hl
    have := hl.1.1.2.1.1.1
    rwa [hu] at this
  refine ⟨fun i hi => ?_, fun i hi => ?_, fun hb => ?_⟩
  · simp only [dstOk, hi, decide_eq_true_eq] at hd
    have : i < 64 := by
      simp only [dstOf] at hi
      repeat' split at hi
      all_goals first | cases hi | skip
      all_goals omega
    rcases hn with h | h | h <;> subst h <;> omega
  · simp only [dstOk, hi, decide_eq_true_eq] at hd
    have : i < 8 := by
      simp only [dstOf] at hi
      repeat' split at hi
      all_goals first | cases hi | skip
      all_goals omega
    rcases hn with h | h | h <;> subst h <;> omega
  · simp [dstOk, hb] at hd

/-- R82: what a thread outside the mask puts into y0. -/
theorem clears_of (r : Row) (f : Fields) (k : Nat) (sh : Sheaf) (h : f.w = true ∨ dstOf f.u f.a = .discard) :
    (issOf r f k sh).clears = true := by
  change (f.w || match dstOf f.u f.a with | .v _ | .o _ => false | _ => true) = true
  rcases h with h | h <;> simp [h]

theorem outside_eq (r : Row) (f : Fields) (k : Nat) (sh : Sheaf) {n : Nat} (hn : Width n) (hu : f.u = false) (t : Nat) :
    (issOf r f k sh).outside n t = sh.untaken f n t := by
  have h0 : (joinWords n fun _ => (0 : Word)).truncate 64 = (0 : DWord) := by
    rcases hn with h | h | h <;> subst h <;> decide
  have hd : ∀ x, sh.dest f t x = match dstOf false f.a with
      | .v i => sh.readV (sh.vslot i + x) t
      | .s i => sh.readS (i + x)
      | .o i => sh.readO (i + x) t
      | _ => 0 := fun x => by rw [← hu]; rfl
  have hs : ∀ i, dstOf false f.a ≠ .s i := by
    intro i h
    simp only [dstOf, Bool.false_eq_true, if_false] at h
    split at h
    · cases h
    · split at h
      · cases h
      · split at h <;> cases h
  simp only [Iss.outside, Sheaf.untaken, issOf, hu, funext hd]
  cases he : dstOf false f.a with
  | v i => rfl
  | o i => rfl
  | discard => simp only [h0]
  | bad => simp only [h0]
  | s i => exact absurd he (hs i)

/-- The pattern of R57 when no thread traps: what it computes. -/
theorem alu_computes {r : Row} {f : Fields} {s : State} {k : Nat} {sh : Sheaf} (h : Executes r f s k sh)
    (body : Iss → State → Eff) {n : Nat} (g : Nat → Out)
    (hb : body (issOf r f k sh) (s.issued k sh f) = (issOf r f k sh).alu (s.issued k sh f) n g)
    (he : ∀ t ∈ acting f sh, enabled sh.fpcr (g t) = none)
    (hn : n = 0 ∨ (Width n ∧ DestOk f n)) (hr : f.u = false → r.result f = decide (n ≠ 0)) :
    Computes (issue r f body s) s k sh f n g := by
  have hw : n ≠ 0 → Written (sh.issuing f) ((sh.issuing f).writeAll f n (acting f sh) fun t => (g t).val) f n (acting f sh)
      fun t => (g t).val := by
    intro h0
    have hd := (hn.resolve_left h0).2
    exact Sheaf.writeAll_written (sh.issuing f) f n (acting f sh) _ (fun t => mem_acting) hd
      (fun hu => by simp [acting, hu])
  have hf : (issOf r f k sh).f = f := rfl
  have hk : (issOf r f k sh).k = k := rfl
  have hm : (issOf r f k sh).m = sh.maskFor f := rfl
  have hsh : (issOf r f k sh).sh = sh.issuing f := rfl
  have hrow : (issOf r f k sh).row = r := rfl
  have hto := (sh.issuing f).takeAll_eq f n (acting f sh) (flagged f sh) g
  have hwo := (sh.issuing f).writeIf_only f n (acting f sh) fun t => (g t).val
  have hc : ∀ t ∈ acting f sh, ∀ y ∈ flagged f sh t, y < 16 := by
    intro t ht y hy
    simp only [flagged] at hy
    split at hy
    · exact (mem_active.1 hy).1
    · simp only [List.mem_singleton] at hy
      exact hy ▸ mem_acting ht
  -- the sheaf whose latches alone are still to be shifted, and what it holds
  have core : ∀ sh' : Sheaf,
      (sh' = { (sh.issuing f).takeAll f n (acting f sh) (flagged f sh) g with
        pc := sh.pc + BitVec.ofNat 64 (4 * words f), y0 := sh'.y0, y1 := sh'.y1, y2 := sh'.y2, y3 := sh'.y3 }) →
      (n ≠ 0 → Latched sh sh' f n (acting f sh) fun t => (g t).val) → (n = 0 → Unlatched sh sh') →
      issue r f body s = .next (s.afterResult k sh sh' f n) → Computes (issue r f body s) s k sh f n g := by
    intro sh' e hl hu hi
    have ev : sh'.v = ((sh.issuing f).writeIf f n (acting f sh) fun t => (g t).val).v := by rw [e, hto]
    have es : sh'.s = ((sh.issuing f).writeIf f n (acting f sh) fun t => (g t).val).s := by rw [e, hto]
    have eo : sh'.o = ((sh.issuing f).writeIf f n (acting f sh) fun t => (g t).val).o := by rw [e, hto]
    have ep : sh'.p = (acting f sh).foldl (fun p t => (g t).preds.foldl (predP f.u t) p) sh.p := by rw [e, hto]; rfl
    have eq : sh'.q = (acting f sh).foldl (fun q t => (g t).preds.foldl (predQ f.u) q) sh.q := by rw [e, hto]; rfl
    have ek : sh'.sticky = sh.sticky.raiseAll (acting f sh) (flagged f sh) fun t => (g t).flags := by rw [e, hto]; rfl
    have ew : sh'.wb = sh.wb ∧ sh'.tlvl = sh.tlvl := by rw [e, hto, hwo]; exact ⟨rfl, rfl⟩
    refine ⟨sh', hi, ⟨fun h0 => ⟨?_, hl h0⟩, fun h0 => ⟨?_, hu h0⟩, ⟨fun hu => ?_, fun hu => ?_⟩, ?_, ?_⟩, fun a => ?_⟩
    · refine (hw h0).congr ⟨rfl, rfl, rfl, rfl, rfl⟩ ?_
      simp only [Sheaf.writeIf, h0, if_false] at ev es eo
      refine ⟨?_, ?_, ev, es, eo⟩
      · rw [ew.1, Sheaf.writeAll_only]; rfl
      · rw [ew.2, Sheaf.writeAll_only]; rfl
    · simp only [Sheaf.writeIf, h0, if_true] at ev es eo
      exact ⟨ev, es, eo⟩
    · rw [ep, eq]
      simp only [hu]
      refine ⟨?_, fun d hd => takeAll_p_high _ _ _ d hd, fun d hd t ht => takeAll_p _ _ _ d t hd (fun t => mem_acting) ht (acting_nodup f sh)⟩
      have : (fun (q : BitVec 7) (t : Nat) => (g t).preds.foldl (predQ false) q) = fun q _ => q := by
        funext q t; exact foldl_predQ_vector _ _
      rw [this, foldl_id]
    · rw [ep, eq]
      simp only [hu]
      constructor
      · intro d
        have : (fun (p : Store 16) (t : Nat) => (g t).preds.foldl (predP true t) p) = fun p _ => p := by
          funext p t; exact foldl_predP_uniform _ _ _
        rw [this, foldl_id]
      · intro d hd
        simp only [acting, hu, if_true, List.foldl_cons, List.foldl_nil]
        exact foldl_predQ_get _ _ _ hd
    · constructor <;> intro x hx <;> rw [ek] <;> have := Sticky.raiseAll_get sh.sticky (acting f sh) (flagged f sh) (fun t => (g t).flags) x hc hx
      · exact this.1
      · exact this.2.1
      · exact this.2.2.1
      · exact this.2.2.2.1
      · exact this.2.2.2.2
    · conv => lhs; rw [e, hto, hwo]
      rw [ev, es, eo, ep, eq, ek]
      rfl
    · change (s.after k sh sh').peekByte a = _
      exact State.after_peekByte s k sh sh' a
  cases hu : f.u with
  | true =>
    have ha : acting f sh = [0] := by simp [acting, hu]
    have h0 := he 0 (by simp [ha])
    refine core ((sh.issuing f).takeAll f n (acting f sh) (flagged f sh) g).advance ?_ (fun h => ?_) (fun h => ?_) ?_
    · rw [hto, hwo]; rfl
    · have := (sh.issuing f).writeIf_only f n (acting f sh) fun t => (g t).val
      rw [hto, hwo]
      exact ⟨by rw [if_pos hu]; rfl, by rw [if_pos hu]; rfl, by rw [if_pos hu]; rfl, fun _ => rfl, fun h => by simp [hu] at h, fun h => by simp [hu] at h,
        fun h => by simp [hu] at h, fun h => by simp [hu] at h⟩
    · rw [hto, hwo]; exact ⟨rfl, rfl, rfl, rfl⟩
    · rw [issue_executes h body, hb]
      congr 1
      simp only [Iss.alu, hf, hu, if_true, hsh]
      have h0' : enabled (sh.issuing f).fpcr (g 0) = none := h0
      simp only [h0', Iss.finish, hk, State.issued, State.after_onSheaf, State.afterResult, ha, Sheaf.takeAll, List.foldl_cons,
        List.foldl_nil, flagged, hu, if_true, Bool.true_eq_false, false_and, if_false]
      exact State.after_with s k sh _
  | false =>
    have ha : acting f sh = active (sh.maskFor f) := by simp [acting, hu]
    have hfl : (flagged f sh) = fun t => [t] := by funext t; simp [flagged, hu]
    have hbad : (maskOf fun t => (sh.maskFor f).getLsbD t && (enabled (sh.issuing f).fpcr (g t)).isSome) = 0 := by
      have key : ∀ t, t < 16 → ((sh.maskFor f).getLsbD t && (enabled (sh.issuing f).fpcr (g t)).isSome) = false := by
        intro t ht
        cases hmt : (sh.maskFor f).getLsbD t with
        | false => rfl
        | true =>
          have := he t (by rw [ha]; exact mem_active.2 ⟨ht, hmt⟩)
          have h2 : enabled (sh.issuing f).fpcr (g t) = none := this
          simp [h2]
      simp only [maskOf, threads, List.foldl_cons, List.foldl_nil]
      simp only [key 0 (by omega), key 1 (by omega), key 2 (by omega), key 3 (by omega), key 4 (by omega), key 5 (by omega),
        key 6 (by omega), key 7 (by omega), key 8 (by omega), key 9 (by omega), key 10 (by omega), key 11 (by omega),
        key 12 (by omega), key 13 (by omega), key 14 (by omega), key 15 (by omega)]
      rfl
    have hbody : (issOf r f k sh).alu (s.issued k sh f) n g =
        .done (if r.result f then (issOf r f k sh).shift (s.after k sh ((sh.issuing f).takeAll f n (acting f sh) (flagged f sh) g)) n fun t => (g t).val
          else s.after k sh ((sh.issuing f).takeAll f n (acting f sh) (flagged f sh) g)) := by
      simp only [Iss.alu, hf, hu, Bool.false_eq_true, if_false, hsh, hm, hbad, hrow, hk]
      have e1 : (active 0) = [] := by decide
      have e2 : (active (sh.maskFor f)).filter (fun t => !(0 : Mask).getLsbD t) = active (sh.maskFor f) := by simp
      simp only [e1, List.filterMap_nil, firstCause, e2, State.issued, State.after_onSheaf, ha, hfl, Sheaf.takeAll]
      rfl
    have hr' := hr hu
    by_cases h0 : n = 0
    · refine core ((sh.issuing f).takeAll f n (acting f sh) (flagged f sh) g).advance ?_ (fun h => absurd h0 h) (fun _ => ?_) ?_
      · rw [hto, hwo]; rfl
      · rw [hto, hwo]; exact ⟨rfl, rfl, rfl, rfl⟩
      · rw [issue_executes h body, hb, hbody]
        congr 1
        simp only [hr', h0, ne_eq, not_true, decide_false, Bool.false_eq_true, if_false, Iss.finish, hk, State.after_onSheaf, State.afterResult]
        simp only [hu, (by decide : ¬ (0 : Nat) = 4), and_false, if_false]
        exact State.after_with s k sh _
    · have hr2 : r.result f = true := by simpa [h0] using hr'
      by_cases h4 : n = 4
      · refine core (((sh.issuing f).takeAll f n (acting f sh) (flagged f sh) g).shift true fun t =>
          if !(sh.maskFor f).getLsbD t && (issOf r f k sh).clears then 0 else Config.freeLatch s.fresh t).advance ?_ (fun _ => ?_) (fun h => absurd h h0) ?_
        · rw [hto, hwo]; rfl
        · rw [hto, hwo]
          refine ⟨by rw [hu]; rfl, by rw [hu]; rfl, by rw [hu]; rfl, fun h => by simp [hu] at h,
            fun _ => by simp [Sheaf.shift, h4], fun _ h => absurd h4 h, fun _ h => absurd h4 h, fun _ _ hz t ht hni => ?_⟩
          have hm : (sh.maskFor f).getLsbD t = false := by
            cases hc : (sh.maskFor f).getLsbD t with
            | false => rfl
            | true => exact absurd (ha ▸ mem_active.2 ⟨ht, hc⟩) hni
          simp only [Sheaf.advance_y0, Sheaf.shift]
          rw [shift_vals _ t ht, hm, clears_of r f k sh hz]
          rfl
        · rw [issue_executes h body, hb, hbody]
          congr 1
          simp only [hr2, if_true, Iss.shift, h4, Iss.finish, hk, State.afterResult, hu, hm]
          simp only [State.onSheaf_onSheaf, State.after_fresh]
          simp only [State.after, State.onSheaf, Table.upd_upd, true_and, if_true]
      · refine core (((sh.issuing f).takeAll f n (acting f sh) (flagged f sh) g).shift (n = 2) fun t =>
          if (sh.maskFor f).getLsbD t then (g t).val.truncate 64 else (issOf r f k sh).outside n t).advance ?_ (fun _ => ?_) (fun h => absurd h h0) ?_
        · rw [hto, hwo]; rfl
        · rw [hto, hwo]
          refine ⟨by rw [hu]; rfl, by rw [hu]; rfl, by rw [hu]; rfl, fun h => by simp [hu] at h, fun _ => ⟨rfl, ?_⟩, fun _ _ t ht => ?_, fun _ _ t ht hni => ?_,
            fun _ h => absurd h h4⟩
          · rcases (hn.resolve_left h0).1 with h | h | h <;> simp [Sheaf.shift, h] <;> omega
          · simp only [Sheaf.advance_y0, Sheaf.shift]
            rw [shift_vals _ t (mem_acting ht)]
            rw [ha] at ht
            simp [(mem_active.1 ht).2]
          · simp only [Sheaf.advance_y0, Sheaf.shift]
            rw [shift_vals _ t ht]
            have hm : (sh.maskFor f).getLsbD t = false := by
              cases hc : (sh.maskFor f).getLsbD t with
              | false => rfl
              | true => exact absurd (ha ▸ mem_active.2 ⟨ht, hc⟩) hni
            rw [hm]
            exact outside_eq r f k sh (hn.resolve_left h0).1 hu t
        · rw [issue_executes h body, hb, hbody]
          congr 1
          simp only [hr2, if_true, Iss.shift, h4, if_false, Iss.finish, hk, State.afterResult, hm, State.after_onSheaf, and_false]
          exact State.after_with s k sh _

theorem enabled_none (c : BitVec 12) (x : Val) (ps : List (BitVec 7 × Bool)) : enabled c { val := x, preds := ps } = none := by
  simp [enabled]

/-- A result with no flags, no predicates and no traps. -/
theorem pure_computes {r : Row} {f : Fields} {s : State} {k : Nat} {sh : Sheaf} (h : Executes r f s k sh)
    (body : Iss → State → Eff) {n : Nat} (g : Nat → Val)
    (hb : body (issOf r f k sh) (s.issued k sh f) = (issOf r f k sh).pure (s.issued k sh f) n g)
    (hn : Width n) (hd : (r.uses f).a = .dst n) (hr : f.u = false → r.result f = true) :
    Computes (issue r f body s) s k sh f n fun t => { val := g t } :=
  alu_computes h body (fun t => { val := g t }) hb (fun _ _ => enabled_none _ _ _) (.inr ⟨hn, dest_ok h hd hn⟩) fun hu => by
    have : n ≠ 0 := by rcases hn with h | h | h <;> omega
    simp [hr hu, this]

end Sys2Proof.Machine
end

