-- ==== Sys2Proof/Laws/Memory.lean ====
section
/-! SUPPORT. Memory: what never touches it leaves it, and every operation that writes it keeps its canonical form. -/

namespace Sys2Proof.Machine

/-! ### Folds -/

/-- What each step of a fold leaves, the fold leaves. -/
theorem foldl_mem {α : Type} (g : State → α → State) (h : ∀ s x, (g s x).mem = s.mem) (l : List α) (s : State) :
    (l.foldl g s).mem = s.mem := by
  induction l generalizing s with
  | nil => rfl
  | cons x xs ih => rw [List.foldl_cons, ih, h]

/-- A fold keeps the invariant when each of its steps does. -/
theorem foldl_Inv {α : Type} (g : State → α → State) (h : ∀ s x, State.Inv s → (g s x).Inv) (l : List α) (s : State)
    (hs : s.Inv) : (l.foldl g s).Inv := by
  induction l generalizing s with
  | nil => exact hs
  | cons x xs ih => exact ih _ (h s x hs)

/-- The invariant is about memory alone. -/
theorem State.Inv.of_mem {s t : State} (hs : s.Inv) (h : t.mem = s.mem) : t.Inv := by
  unfold State.Inv at *
  rw [h]
  exact hs

/-! ### Lanes, waits and monitors -/

theorem State.grantLane_mem (s : State) (sh : Sheaf) : (s.grantLane sh).mem = s.mem := by
  unfold State.grantLane
  split <;> rfl

theorem State.grantLanes_mem (s : State) (sh : Sheaf) (n : Nat) : (s.grantLanes sh n).mem = s.mem := by
  induction n generalizing s with
  | zero => rfl
  | succ n ih => rw [State.grantLanes, ih, State.grantLane_mem]

theorem State.wake_mem (s : State) (k : Nat) : (s.wake k).mem = s.mem := by
  unfold State.wake
  split
  · rfl
  · split
    · rw [State.grantLanes_mem]; rfl
    · rfl
    · rfl
    · rfl

theorem State.swapPoint_mem (s : State) (k : Nat) (w : Option Wait) : (s.swapPoint k w).mem = s.mem := by
  cases w <;>
    (unfold State.swapPoint
     dsimp only
     split
     · rfl
     · split
       · rw [State.grantLanes_mem]; rfl
       · split <;> rfl)

theorem State.acquireCore_mem (s : State) (core : Nat) : (s.acquireCore core).mem = s.mem := by
  unfold State.acquireCore
  exact foldl_mem _ (fun _ _ => by rfl) _ _

theorem State.acquire_mem (s : State) (k : Nat) : (s.acquire k).mem = s.mem := by
  unfold State.acquire
  split
  · rfl
  · rw [State.onSheaf_mem]
    split
    · rfl
    · exact s.acquireCore_mem _

theorem State.endWait_mem (s : State) (k : Nat) (acq : Bool) : (s.endWait k acq).mem = s.mem := by
  simp only [State.endWait, State.wake_mem, State.onSheaf_mem]
  split
  · exact s.acquire_mem k
  · rfl

theorem State.counted_mem (s : State) (k : Nat) : (s.counted k).mem = s.mem := by
  unfold State.counted
  split
  · rfl
  · split
    · split
      · exact s.endWait_mem _ _
      · rfl
    · split
      · exact s.endWait_mem _ _
      · rfl
    · rfl

theorem State.makeReady_mem (s : State) (k : Nat) : (s.makeReady k).mem = s.mem := rfl

theorem State.grantEach_mem (s : State) (shs : List Sheaf) : (s.grantEach shs).mem = s.mem :=
  foldl_mem _ (fun s sh => s.grantLanes_mem sh 1) _ _

theorem State.endWaits_mem (s : State) (ks : List Nat) (acq : Bool) : (s.endWaits ks acq).mem = s.mem := by
  unfold State.endWaits
  dsimp only
  rw [State.grantEach_mem]
  refine foldl_mem _ (fun s k => ?_) _ _
  rw [State.makeReady_mem, State.onSheaf_mem]
  split
  · exact s.acquire_mem k
  · rfl

theorem State.fire_mem (s : State) (heath : Bool) (line : Nat) : (s.fire heath line).mem = s.mem := by
  unfold State.fire
  dsimp only
  split
  · rfl
  · rw [State.endWaits_mem]

/-! ### The caches -/

theorem State.ownerWrites_mem (s : State) (line w : Nat) : (s.ownerWrites line w).mem = s.mem := by
  unfold State.ownerWrites
  split
  · rfl
  · split
    · split <;> rfl
    · rfl

theorem State.recall_mem (s : State) (line w : Nat) : (s.recall line w).mem = s.mem := by
  unfold State.recall
  split
  · rw [State.fire_mem, State.ownerWrites_mem]
  · rfl

theorem State.disown_mem (s : State) (line : Nat) (drop : Bool) (only : Nat → Nat → Bool) :
    (s.disown line drop only).mem = s.mem := by
  unfold State.disown
  split
  · rfl
  · exact foldl_mem _ (fun s x => by split <;> (try split) <;> rfl) _ _

theorem State.recallLine_mem (s : State) (line : Nat) (drop : Bool) : (s.recallLine line drop).mem = s.mem := by
  unfold State.recallLine
  split
  · rfl
  · split
    · rfl
    · rw [State.fire_mem, State.disown_mem]
      exact foldl_mem _ (fun s x => s.ownerWrites_mem _ _) _ _

theorem State.icDrop_mem (s : State) (p : Nat → Bool) : (s.icDrop p).mem = s.mem := by
  unfold State.icDrop
  dsimp only
  split <;> rfl

theorem State.written_mem (s : State) (line : Nat) : (s.written line).mem = s.mem := by
  unfold State.written
  rw [State.fire_mem, State.icDrop_mem]

theorem State.icPut_mem (s : State) (core line : Nat) (pin : Option Nat) (ws : Table Word) :
    (s.icPut core line pin ws).mem = s.mem := rfl

theorem State.touchStaging_mem (s : State) (leaf block : Nat) : (s.touchStaging leaf block).mem = s.mem := by
  unfold State.touchStaging
  split
  · split <;> rfl
  · rfl

theorem State.fifoPush_mem (s : State) (core line : Nat) (who : Nat × Nat) : (s.fifoPush core line who).mem = s.mem := rfl

theorem State.l1Put_mem (s : State) (core line w : Nat) (x : L1Word) : (s.l1Put core line w x).mem = s.mem := rfl

theorem State.l1Evict_mem (s : State) (core line : Nat) : (s.l1Evict core line).mem = s.mem := by
  unfold State.l1Evict
  split
  · rfl
  · exact foldl_mem _ (fun s x => by split <;> first | exact s.ownerWrites_mem _ _ | rfl) _ _

theorem State.l1Alloc_mem (s : State) (core line hint : Nat) : (s.l1Alloc core line hint).mem = s.mem := by
  unfold State.l1Alloc
  split
  · split <;> rfl
  · simp only [State.onCore_mem]
    split
    · exact s.l1Evict_mem _ _
    · rfl

theorem State.fifoWriteback_mem (s : State) (core : Nat) : (s.fifoWriteback core).mem = s.mem := by
  unfold State.fifoWriteback
  split
  · rfl
  · split
    · rfl
    · exact foldl_mem _ (fun s x => s.ownerWrites_mem _ _) _ _

theorem State.mark_mem (s : State) (core : Nat) : (s.mark core).1.mem = s.mem := by
  unfold State.mark
  exact foldl_mem _ (fun _ _ => by rfl) _ _

/-! ### Writes of memory -/

theorem State.rawWrite_Inv (s : State) (pa : Nat) (bs : List Byte) (hs : s.Inv) : (s.rawWrite pa bs).Inv :=
  Store.wf_blit bs s.mem pa hs

theorem State.writeBack_Inv (s : State) (ctx line : Nat) (data : Store 32) (ws : BitVec 32) (hs : s.Inv) :
    (s.writeBack ctx line data ws).Inv := by
  unfold State.writeBack
  refine foldl_Inv _ (fun s x hs => ?_) _ _ (foldl_Inv _ (fun s x hs => ?_) _ _ hs)
  · split
    · split
      · exact hs
      · exact hs.of_mem (State.icDrop_mem _ _)
    · exact hs
  · split
    · exact s.rawWrite_Inv _ _ hs
    · split
      · exact s.rawWrite_Inv _ _ hs
      · exact hs

theorem State.cleanLine_Inv (s : State) (line : Nat) (hs : s.Inv) : (s.cleanLine line).Inv := by
  unfold State.cleanLine
  split
  · exact hs
  · split
    · exact hs
    · exact State.Inv.of_mem (s.writeBack_Inv _ _ _ _ hs) (State.fire_mem _ _ _)

theorem State.evictLine_Inv (s : State) (line : Nat) (hs : s.Inv) : (s.evictLine line).Inv := by
  unfold State.evictLine
  split
  · exact hs
  · have h := State.cleanLine_Inv _ line (hs.of_mem (s.recallLine_mem line false))
    refine State.Inv.of_mem ?_ (State.fire_mem _ _ _)
    refine State.Inv.of_mem h ?_
    dsimp only
    split
    · exact State.icDrop_mem _ _
    · rfl

theorem State.evictHandle_Inv (s : State) (h : Nat × Nat) (hs : s.Inv) : (s.evictHandle h).Inv :=
  foldl_Inv _ (fun s _ hs => s.evictLine_Inv _ hs) _ _ hs

theorem State.putL2_mem (s : State) (l : L2Line) : (s.putL2 l).mem = s.mem := rfl

theorem State.touchL2_mem (s : State) (line hint : Nat) : (s.touchL2 line hint).mem = s.mem := by
  unfold State.touchL2
  split
  · rfl
  · split <;> rfl

/-- R163 rule 3: what a displaced handle leaves. -/
theorem State.displace_Inv (s : State) (die : Nat) (h : Option (Nat × Nat)) (t : State) (hs : s.Inv)
    (ht : s.displace die h = some t) : t.Inv := by
  unfold State.displace at ht
  split at ht
  · exact nomatch ht
  · split at ht
    · exact nomatch ht
    · split at ht
      · split at ht
        · exact nomatch ht
        · exact Option.some.inj ht ▸ s.evictHandle_Inv _ hs
      · exact Option.some.inj ht ▸ s.evictHandle_Inv _ hs

theorem State.roomL2_Inv (s : State) (line : Nat) (h : Option (Nat × Nat)) (t : State) (hs : s.Inv)
    (ht : s.roomL2 line h = some t) : t.Inv := by
  unfold State.roomL2 at ht
  dsimp only at ht
  split at ht
  · exact s.displace_Inv _ h t hs ht
  · split at ht
    · split at ht
      · cases ht; exact s.evictLine_Inv _ hs
      · exact s.displace_Inv _ h t hs ht
    · cases ht; exact hs

theorem State.fillLine_Inv (s : State) (r : Req) (line : Nat) (hs : s.Inv) : (s.fillLine r line).Inv := by
  unfold State.fillLine
  dsimp only
  split
  · exact hs.of_mem (s.touchL2_mem line r.hint)
  · split
    · exact hs
    · rename_i t ht
      exact (s.roomL2_Inv line _ t hs ht).of_mem (t.putL2_mem _)

theorem State.readTier1_Inv (s : State) (r : Req) (line : Nat) (hs : s.Inv) : (s.readTier1 r line).Inv := by
  unfold State.readTier1
  dsimp only
  split
  · exact hs.of_mem (s.touchStaging_mem _ _)
  · split
    · refine foldl_Inv _ (fun s j hs => ?_) _ _ hs
      split
      · exact hs
      · exact s.fillLine_Inv _ _ hs
    · exact hs

theorem State.fillL2_Inv (s : State) (r : Req) (line : Nat) (hs : s.Inv) : (s.fillL2 r line).Inv := by
  unfold State.fillL2
  have h : (if isFallow (128 * line) && (s.l2? line).isNone then s.readTier1 r line else s).Inv := by
    split
    · exact s.readTier1_Inv r line hs
    · exact hs
  generalize (if isFallow (128 * line) && (s.l2? line).isNone then s.readTier1 r line else s) = t at h
  dsimp only
  split
  · exact h
  · exact t.fillLine_Inv r line h

/-- R1: what making room in a full L2 leaves. -/
theorem State.forceRoom_Inv (s : State) (line : Nat) (t : State) (hs : s.Inv) (ht : s.forceRoom line = some t) : t.Inv := by
  unfold State.forceRoom at ht
  dsimp only at ht
  split at ht
  · cases ht; exact hs
  · split at ht
    · cases ht; exact s.evictLine_Inv _ hs
    · cases hl : s.lowestHandle (dieOf (128 * line)) with
      | none => simp [hl] at ht
      | some h =>
        simp only [hl, Option.bind_some] at ht
        split at ht
        · exact nomatch ht
        · cases ht; exact s.evictHandle_Inv _ hs

theorem State.holdL2_Inv (s : State) (r : Req) (line : Nat) (hs : s.Inv) : (s.holdL2 r line).Inv := by
  unfold State.holdL2
  generalize ({ r with hint := if r.hint = 3 then 2 else r.hint } : Req) = q
  dsimp only
  split
  · exact s.fillL2_Inv q line hs
  · split
    · rename_i t ht
      exact (State.forceRoom_Inv _ line t (s.fillL2_Inv q line hs) ht).of_mem (t.putL2_mem _)
    · exact s.fillL2_Inv q line hs

theorem State.homeRead_Inv (s : State) (r : Req) (pa : Nat) (hs : s.Inv) : (s.homeRead r pa).1.Inv :=
  State.fillL2_Inv _ r _ (hs.of_mem (s.recall_mem _ _))

theorem State.icFill_Inv (s : State) (core : Nat) (r : Req) (line : Nat) (pin : Option Nat) (hs : s.Inv) :
    (s.icFill core r line pin).Inv :=
  (State.fillL2_Inv _ r _ (foldl_Inv _ (fun t w ht => ht.of_mem (t.recall_mem line w)) _ _ hs)).of_mem rfl

theorem State.homeWriteWord_Inv (s : State) (r : Req) (pa : Nat) (x : Word) (m : Nat) (hs : s.Inv) :
    (s.homeWriteWord r pa x m).Inv := by
  unfold State.homeWriteWord
  refine State.Inv.of_mem ?_ (State.written_mem _ _)
  have h := fun q => State.fillL2_Inv ((s.recall (lineOf pa) (wordIn pa)).disown (lineOf pa) true fun i _ => i = wordIn pa) q
    (lineOf pa) (hs.of_mem (by rw [State.disown_mem, State.recall_mem]))
  generalize ({ r with hint := if r.hint = 3 then 2 else r.hint } : Req) = q
  split
  · exact h _
  · exact State.Inv.of_mem (State.writeBack_Inv _ _ _ _ _ (h _)) (State.fire_mem _ _ _)

theorem State.homeWrite_Inv (s : State) (r : Req) (pa : Nat) (bs : List Byte) (hs : s.Inv) : (s.homeWrite r pa bs).Inv := by
  induction bs generalizing s pa with
  | nil => exact hs
  | cons b bs ih => exact ih _ _ (s.homeWriteWord_Inv _ _ _ _ hs)

theorem State.homeOr64_Inv (s : State) (pa : Nat) (x : DWord) (hs : s.Inv) : (s.homeOr64 pa x).Inv := by
  unfold State.homeOr64
  dsimp only
  split
  · exact hs
  · exact State.homeWriteWord_Inv _ _ _ _ _ (s.homeWriteWord_Inv _ _ _ _ hs)

theorem State.storeWord_Inv (s : State) (core : Nat) (r : Req) (who : Nat × Nat) (pa : Nat) (x : Word) (m : Nat) (hs : s.Inv) :
    (s.storeWord core r who pa x m).Inv := by
  unfold State.storeWord
  refine State.Inv.of_mem (s.holdL2_Inv r (lineOf pa) hs) ?_
  dsimp only
  rw [State.written_mem, State.fifoPush_mem, State.l1Put_mem, State.l1Alloc_mem]
  exact State.disown_mem _ _ _ _

theorem State.storeBytes_Inv (s : State) (core : Nat) (r : Req) (who : Nat × Nat) (pa : Nat) (bs : List Byte) (hs : s.Inv) :
    (s.storeBytes core r who pa bs).Inv := by
  induction bs generalizing s pa with
  | nil => exact hs
  | cons b bs ih => exact ih _ _ (s.storeWord_Inv _ _ _ _ _ _ hs)

theorem State.loadWord_Inv (s : State) (core : Nat) (r : Req) (acq : Bool) (pa : Nat) (hs : s.Inv) :
    (s.loadWord core r acq pa).1.Inv := by
  have h := s.homeRead_Inv r pa hs
  unfold State.loadWord
  dsimp only
  split
  · split
    · exact hs.of_mem (State.l1Alloc_mem _ _ _ _)
    · exact h
  · split
    · exact h
    · generalize List.range 32 = ws
      refine foldl_Inv _ (fun t w ht => ?_) ws _ (h.of_mem (State.l1Alloc_mem _ _ _ _))
      split
      · exact ht
      · exact ht.of_mem (State.recall_mem _ _ _)

theorem State.loadBytes_Inv (s : State) (core : Nat) (r : Req) (acq alloc : Bool) (pa n : Nat) (hs : s.Inv) :
    (s.loadBytes core r acq alloc pa n).1.Inv := by
  unfold State.loadBytes
  suffices h : ∀ (l : List Nat) (p : State × List Word), p.1.Inv →
      (l.foldl (fun (acc : State × List Word) a =>
        let (s, w) :=
          if alloc || (acc.1.l1Word? (acc.1.slice core (lineOf a)) a).isSome then acc.1.loadWord core r acq a
          else
            let t := acc.1.recall (lineOf a) (wordIn a)
            (if isFallow a && (t.l2? (lineOf a)).isNone then t.touchStaging r.leaf (a / 65536) else t, acc.1.peek a)
        (s, acc.2 ++ [w])) p).1.Inv from h _ (s, []) hs
  intro l
  induction l with
  | nil => exact fun _ h => h
  | cons a l ih =>
    intro p hp
    refine ih _ ?_
    dsimp only
    split
    · exact State.loadWord_Inv _ _ _ _ _ hp
    · split
      · exact hp.of_mem ((State.touchStaging_mem _ _ _).trans (State.recall_mem _ _ _))
      · exact hp.of_mem (State.recall_mem _ _ _)

theorem State.exclusive_Inv (s : State) (core : Nat) (r : Req) (line : Nat) (hs : s.Inv) : (s.exclusive core r line).Inv := by
  have h := s.holdL2_Inv r line hs
  unfold State.exclusive
  generalize s.holdL2 r line = u at h
  dsimp only
  split
  · exact h
  · refine State.Inv.of_mem h ?_
    refine Eq.trans rfl ?_
    refine (foldl_mem _ (fun s x => ?_) _ _).trans ?_
    · split
      · split <;> rfl
      · rfl
    · rw [State.l1Alloc_mem, State.disown_mem]
      split
      · exact foldl_mem _ (fun s x => s.ownerWrites_mem _ _) _ _
      · rw [State.fire_mem]
        exact foldl_mem _ (fun s x => s.ownerWrites_mem _ _) _ _

/-! ### Frames (R320) -/

theorem State.fireBoth_mem (s : State) (lines : List Nat) : (s.fireBoth lines).mem = s.mem :=
  foldl_mem _ (fun s j => by rw [State.fire_mem, State.fire_mem]) _ _

theorem State.zeroFrame_mem (s : State) (pa : Nat) : (s.zeroFrame pa).mem = Store.clear s.mem pa (pa + 65536) :=
  (State.fireBoth_mem _ _).trans (State.icDrop_mem _ _)

theorem State.zeroFrame_Inv (s : State) (pa : Nat) (hs : s.Inv) : (s.zeroFrame pa).Inv := by
  unfold State.Inv
  rw [s.zeroFrame_mem pa]
  exact Store.wf_clear s.mem _ _ hs

/-- R360, R371: what survives without power. -/
theorem State.cold_Inv (s : State) (dev : DevState) (hs : s.Inv) : (s.cold dev).Inv := Store.wf_filter _ s.mem hs

end Sys2Proof.Machine
end

