-- ==== Sys2Proof/Laws/Numbers.lean ====
section
/-! SUPPORT. The arithmetic of groups 0x0 and 0x1, as the meanings compute it and as bit vectors say it. -/

namespace Sys2Proof.Machine
open Sys2Proof.Forms

/-- The widths of types, in bits. -/
theorem tyBits_cases : ∀ t : BitVec 5, tyBits t = 4 ∨ tyBits t = 8 ∨ tyBits t = 16 ∨ tyBits t = 32 ∨ tyBits t = 64 ∨ tyBits t = 128 := by
  decide

theorem tyBits_pos (t : BitVec 5) : 0 < tyBits t := by
  have := tyBits_cases t
  omega

theorem tyBits_le (t : BitVec 5) : tyBits t ≤ 128 := by
  have := tyBits_cases t
  omega

theorem two_pow_tyBits (t : BitVec 5) : (2 : Nat) ^ tyBits t = 2 * 2 ^ (tyBits t - 1) := by
  have := tyBits_pos t
  conv => lhs; rw [show tyBits t = (tyBits t - 1) + 1 by omega, Nat.pow_succ]
  omega

theorem toNum_eq (ty : BitVec 5) (x : Val) : toNum ty x = asNum ty x := by
  simp only [toNum, asNum]
  have h2 := two_pow_tyBits ty
  cases hs : tySigned ty with
  | false => simp [BitVec.toNat_setWidth]
  | true =>
    simp only [Bool.true_and, decide_eq_true_eq, if_true]
    rw [BitVec.toInt_eq_toNat_cond, BitVec.toNat_setWidth]
    by_cases h : 2 ^ (tyBits ty - 1) ≤ x.toNat % 2 ^ tyBits ty
    · have h' : ¬ 2 * (x.toNat % 2 ^ tyBits ty) < 2 ^ tyBits ty := by omega
      rw [if_pos h, if_neg h']
      simp
    · have h' : 2 * (x.toNat % 2 ^ tyBits ty) < 2 ^ tyBits ty := by omega
      rw [if_neg h, if_pos h']

theorem ofNum_eq (ty : BitVec 5) (x : Int) : ofNum ty x = wrapTo ty x := by
  apply BitVec.eq_of_toNat_eq
  have hlt : (x % (2 ^ tyBits ty : Nat)).toNat < 2 ^ tyBits ty := by
    have h0 : (0 : Int) < (2 ^ tyBits ty : Nat) := by exact_mod_cast Nat.two_pow_pos _
    have := Int.emod_lt_of_pos x h0
    have := Int.emod_nonneg x (Int.ne_of_gt h0)
    omega
  have hle : 2 ^ tyBits ty ≤ 2 ^ 128 := Nat.pow_le_pow_right (by omega) (tyBits_le ty)
  simp only [ofNum, wrapTo, BitVec.toNat_ofNat, BitVec.toNat_setWidth, BitVec.toNat_ofInt]

theorem clampNum_eq (ty : BitVec 5) (x : Int) : clampNum ty x = min (max x (leastOf ty)) (mostOf ty) := by
  have h1 : minNum ty = leastOf ty := by
    simp only [minNum, leastOf]
    split <;> simp
  have h2 : maxNum ty = mostOf ty := by
    simp only [maxNum, mostOf]
    split <;> simp
  have h3 : leastOf ty ≤ mostOf ty := by
    have h0 : (0 : Int) < (2 : Int) ^ (tyBits ty - 1) := Int.pow_pos (by omega)
    have h4 : (0 : Int) < (2 : Int) ^ tyBits ty := Int.pow_pos (by omega)
    simp only [leastOf, mostOf]
    split <;> omega
  simp only [clampNum, h1, h2]
  split
  · omega
  · split <;> omega

/-! ### Bits -/

/-- A number of at most 128 bits, as a value. -/
theorem ofNat_mod_eq {w n : Nat} (x : BitVec w) (h : x.toNat = n % 2 ^ w) :
    BitVec.ofNat 128 (n % 2 ^ w) = x.setWidth 128 := by
  apply BitVec.eq_of_toNat_eq
  rw [BitVec.toNat_ofNat, BitVec.toNat_setWidth, h]

theorem shl_eq {w : Nat} (a : Val) (c : Nat) :
    BitVec.ofNat 128 (shlNum w a.toNat c % 2 ^ w) = ((a.setWidth w) <<< c).setWidth 128 := by
  apply ofNat_mod_eq
  rw [BitVec.toNat_shiftLeft, BitVec.toNat_setWidth, shlNum, Nat.shiftLeft_eq]
  split
  · rename_i h
    have : 2 ^ c = 2 ^ w * 2 ^ (c - w) := by rw [← Nat.pow_add]; congr 1; omega
    rw [this, Nat.zero_mod, Nat.mul_comm (2 ^ w), ← Nat.mul_assoc, Nat.mul_mod_left]
  · rw [Nat.mod_mul_mod]

theorem shr_eq {w : Nat} (a : Val) (h : a.toNat < 2 ^ w) (c : Nat) :
    BitVec.ofNat 128 (shrNum w a.toNat c % 2 ^ w) = ((a.setWidth w) >>> c).setWidth 128 := by
  apply ofNat_mod_eq
  rw [BitVec.toNat_ushiftRight, BitVec.toNat_setWidth, shrNum, Nat.shiftRight_eq_div_pow, Nat.mod_eq_of_lt h]
  split
  · rename_i hc
    rw [Nat.zero_mod, Nat.div_eq_of_lt (Nat.lt_of_lt_of_le h (Nat.pow_le_pow_right (by omega) hc))]
  · rw [Nat.mod_eq_of_lt (Nat.lt_of_le_of_lt (Nat.div_le_self _ _) h)]

theorem sar_eq {w : Nat} (a : Val) (h : a.toNat < 2 ^ w) (c : Nat) :
    BitVec.ofNat 128 (sarNum w a.toNat c % 2 ^ w) = ((a.setWidth w).sshiftRight c).setWidth 128 := by
  apply ofNat_mod_eq
  have ha : (a.setWidth w).toNat = a.toNat := by rw [BitVec.toNat_setWidth, Nat.mod_eq_of_lt h]
  have hneg : a.toNat.testBit (w - 1) = (a.setWidth w).msb := by
    rw [BitVec.msb_eq_getLsbD_last, ← BitVec.testBit_toNat, ha]
  rw [sarNum, hneg]
  cases hm : (a.setWidth w).msb with
  | false =>
    rw [BitVec.toNat_sshiftRight_of_msb_false hm, ha, Nat.shiftRight_eq_div_pow]
    simp only [Bool.false_eq_true, if_false, Nat.add_zero]
    split
    · rename_i hc
      rw [Nat.zero_mod, Nat.div_eq_of_lt (Nat.lt_of_lt_of_le h (Nat.pow_le_pow_right (by omega) hc))]
    · rw [Nat.mod_eq_of_lt (Nat.lt_of_le_of_lt (Nat.div_le_self _ _) h)]
  | true =>
    rw [BitVec.toNat_sshiftRight_of_msb_true hm, ha, Nat.shiftRight_eq_div_pow]
    simp only [if_true]
    have hp : 0 < 2 ^ w := Nat.two_pow_pos w
    split
    · rename_i hc
      have : (2 ^ w - 1 - a.toNat) / 2 ^ c = 0 := by
        apply Nat.div_eq_of_lt
        have := Nat.pow_le_pow_right (show 0 < 2 by omega) hc
        omega
      rw [this, Nat.sub_zero, Nat.mod_eq_of_lt (by omega)]
    · rename_i hc
      have hx : (2 : Nat) ^ w = 2 ^ c * 2 ^ (w - c) := by rw [← Nat.pow_add]; congr 1; omega
      have hd := Nat.mul_sub_div a.toNat (2 ^ c) (2 ^ (w - c)) (by rw [← hx]; exact h)
      have hq : a.toNat / 2 ^ c < 2 ^ (w - c) := by
        apply Nat.div_lt_of_lt_mul
        rw [← hx]; exact h
      rw [show 2 ^ w - 1 - a.toNat = 2 ^ c * 2 ^ (w - c) - (a.toNat + 1) by rw [← hx]; omega, hd]
      have hle : 2 ^ (w - c) ≤ 2 ^ w := Nat.pow_le_pow_right (by omega) (by omega)
      generalize 2 ^ w = x at *
      generalize 2 ^ (w - c) = y at *
      generalize a.toNat / 2 ^ c = q at *
      rw [Nat.mod_eq_of_lt (by omega)]
      omega

theorem rot_eq {w : Nat} (h0 : 0 < w) (a : Val) (h : a.toNat < 2 ^ w) (c : Nat) :
    BitVec.ofNat 128 (rotNum w a.toNat c % 2 ^ w) = ((a.setWidth w).rotateLeft c).setWidth 128 := by
  apply ofNat_mod_eq
  have ha : (a.setWidth w).toNat = a.toNat := by rw [BitVec.toNat_setWidth, Nat.mod_eq_of_lt h]
  have hk : c % w < w := Nat.mod_lt _ h0
  rw [BitVec.toNat_rotateLeft, ha, rotNum]
  have hx : (2 : Nat) ^ w = 2 ^ (w - c % w) * 2 ^ (c % w) := by rw [← Nat.pow_add]; congr 1; omega
  have hb : a.toNat / 2 ^ (w - c % w) < 2 ^ (c % w) := by
    apply Nat.div_lt_of_lt_mul
    rw [← hx]; exact h
  have he : a.toNat * 2 ^ (c % w) % 2 ^ w = (a.toNat % 2 ^ (w - c % w)) <<< (c % w) := by
    rw [hx, Nat.mul_mod_mul_right, Nat.shiftLeft_eq]
  have h1 : a.toNat % 2 ^ (w - c % w) < 2 ^ (w - c % w) := Nat.mod_lt _ (Nat.two_pow_pos _)
  have hlt : (a.toNat % 2 ^ (w - c % w)) <<< (c % w) + a.toNat / 2 ^ (w - c % w) < 2 ^ w := by
    rw [Nat.shiftLeft_eq]
    calc a.toNat % 2 ^ (w - c % w) * 2 ^ (c % w) + a.toNat / 2 ^ (w - c % w)
        < a.toNat % 2 ^ (w - c % w) * 2 ^ (c % w) + 2 ^ (c % w) := by omega
      _ = (a.toNat % 2 ^ (w - c % w) + 1) * 2 ^ (c % w) := by rw [Nat.add_mul, Nat.one_mul]
      _ ≤ 2 ^ (w - c % w) * 2 ^ (c % w) := Nat.mul_le_mul_right _ h1
      _ = 2 ^ w := hx.symm
  rw [Nat.shiftLeft_eq, Nat.shiftRight_eq_div_pow, he, ← Nat.shiftLeft_add_eq_or_of_lt hb]
  exact (Nat.mod_eq_of_lt hlt).symm

theorem clz_eq {w : Nat} (h0 : 0 < w) (a : Val) :
    BitVec.ofNat 128 (clzNum w (a.toNat % 2 ^ w)) = (a.setWidth w).clz.setWidth 128 := by
  apply BitVec.eq_of_toNat_eq
  rw [BitVec.toNat_ofNat, BitVec.toNat_setWidth]
  congr 1
  rw [clzNum, ← BitVec.toNat_setWidth]
  by_cases hz : a.setWidth w = 0#w
  · simp [hz, BitVec.clz_eq_iff_eq_zero.2]
  · have hn : (a.setWidth w).toNat ≠ 0 := fun e => hz (BitVec.eq_of_toNat_eq (by simpa using e))
    rw [if_neg hn]
    have h1 := BitVec.two_pow_sub_clz_le_toNat_of_ne_zero h0 hz
    have h2 := BitVec.toNat_lt_two_pow_sub_clz (x := a.setWidth w)
    have h3 : (a.setWidth w).clz.toNat < w := by
      have := BitVec.clz_lt_iff_ne_zero.2 hz
      simpa [BitVec.lt_def, Nat.mod_eq_of_lt Nat.lt_two_pow_self] using this
    have hl : Nat.log2 (a.setWidth w).toNat = w - (a.setWidth w).clz.toNat - 1 := by
      have h4 := (Nat.le_log2 hn).2 h1
      have h5 := (Nat.log2_lt hn).2 h2
      omega
    omega

theorem popc_eq (w : Nat) (a : Val) (n : Nat) (h : n ≤ w) :
    popNum (a.toNat % 2 ^ w) n = ((List.range n).filter fun j => (a.setWidth w).getLsbD j).length := by
  induction n with
  | zero => rfl
  | succ n ih =>
    rw [popNum, ih (by omega), List.range_succ, List.filter_append, List.length_append]
    congr 1
    have e : (a.setWidth w).getLsbD n = (a.toNat % 2 ^ w).testBit n := by rw [← BitVec.testBit_toNat, BitVec.toNat_setWidth]
    cases hb : (a.toNat % 2 ^ w).testBit n <;> simp only [List.filter_cons, List.filter_nil, e, hb] <;> rfl

theorem revNum_spec {w : Nat} (a : Nat) (k : Nat) (h : k ≤ w) :
    2 ^ (w - k) ∣ revNum w a k ∧ revNum w a k < 2 ^ w ∧
      ∀ j < w, (revNum w a k).testBit j = (decide (w - 1 - j < k) && a.testBit (w - 1 - j)) := by
  induction k with
  | zero => exact ⟨by simp [revNum], Nat.two_pow_pos w, fun j _ => by simp [revNum]⟩
  | succ k ih =>
    obtain ⟨hd, hl, ht⟩ := ih (by omega)
    obtain ⟨q, hq⟩ := hd
    have hx : (2 : Nat) ^ (w - k) = 2 ^ (w - (k + 1)) * 2 := by rw [← Nat.pow_succ]; congr 1; omega
    by_cases hb : a.testBit k
    · have hr : revNum w a (k + 1) = q <<< (w - k) ||| 2 ^ (w - 1 - k) := by
        have hlt : 2 ^ (w - 1 - k) < 2 ^ (w - k) := Nat.pow_lt_pow_right (by omega) (by omega)
        rw [← Nat.shiftLeft_add_eq_or_of_lt hlt, Nat.shiftLeft_eq, Nat.mul_comm, ← hq, revNum, if_pos hb]
      refine ⟨?_, ?_, fun j hj => ?_⟩
      · rw [revNum, if_pos hb, hq, hx, show w - 1 - k = w - (k + 1) by omega]
        exact ⟨2 * q + 1, by rw [Nat.mul_add, Nat.mul_one, ← Nat.mul_assoc]⟩
      · rw [hr]
        refine Nat.or_lt_two_pow ?_ (Nat.pow_lt_pow_right (by omega) (by omega))
        rw [Nat.shiftLeft_eq, Nat.mul_comm, ← hq]; exact hl
      · rw [hr, Nat.testBit_or, Nat.testBit_two_pow, Nat.shiftLeft_eq, Nat.mul_comm, ← hq, ht j hj]
        by_cases hjk : w - 1 - k = j
        · have e : w - 1 - j = k := by omega
          simp [hjk, e, hb]
        · by_cases h1 : w - 1 - j < k
          · simp [hjk, h1, show w - 1 - j < k + 1 by omega]
          · simp [hjk, h1, show ¬ w - 1 - j < k + 1 by omega]
    · refine ⟨?_, ?_, fun j hj => ?_⟩
      · rw [revNum, if_neg hb, hq, hx]
        exact ⟨2 * q, by simp [Nat.mul_assoc]⟩
      · rw [revNum, if_neg hb]; exact hl
      · rw [revNum, if_neg hb, Nat.add_zero, ht j hj]
        by_cases hjk : w - 1 - j = k
        · simp [hjk, hb]
        · by_cases h1 : w - 1 - j < k
          · simp [h1, show w - 1 - j < k + 1 by omega]
          · simp [h1, show ¬ w - 1 - j < k + 1 by omega]

theorem rev_eq {w : Nat} (a : Val) (h : a.toNat < 2 ^ w) :
    BitVec.ofNat 128 (revNum w a.toNat w % 2 ^ w) = (a.setWidth w).reverse.setWidth 128 := by
  apply ofNat_mod_eq
  obtain ⟨-, hl, ht⟩ := revNum_spec (w := w) a.toNat w (Nat.le_refl w)
  rw [Nat.mod_eq_of_lt hl]
  apply Nat.eq_of_testBit_eq
  intro j
  rw [BitVec.testBit_toNat]
  by_cases hj : j < w
  · rw [ht j hj, BitVec.getLsbD_reverse, BitVec.getMsbD_eq_getLsbD]
    rw [← BitVec.testBit_toNat, BitVec.toNat_setWidth, Nat.mod_eq_of_lt h]
    simp [hj, show w - 1 - j < w by omega]
  · rw [BitVec.getLsbD_of_ge _ _ (by omega), Nat.testBit_lt_two_pow (Nat.lt_of_lt_of_le hl (Nat.pow_le_pow_right (by omega) (by omega)))]

/-- R108: the position and the length of a field. -/
theorem fieldPos_eq (c : Word) : fieldPos c.toNat = fieldAt c := by
  simp only [fieldPos, fieldAt, BitVec.extractLsb'_toNat, Nat.shiftRight_zero]

theorem fieldLen_eq (w : Nat) (c : Word) : fieldLen w c.toNat = fieldLength w c := by
  simp only [fieldLen, fieldLength, fieldPos_eq, BitVec.extractLsb'_toNat, Nat.shiftRight_eq_div_pow]

theorem bfx_eq {w : Nat} (sg : Bool) (a : Val) (h : a.toNat < 2 ^ w) (c : Word) :
    BitVec.ofNat 128 (bfxNum sg w a.toNat c.toNat % 2 ^ w) =
      ((if sg then ((a.setWidth w).extractLsb' (fieldAt c) (fieldLength w c)).signExtend w
        else ((a.setWidth w).extractLsb' (fieldAt c) (fieldLength w c)).setWidth w)).setWidth 128 := by
  apply ofNat_mod_eq
  simp only [bfxNum, fieldPos_eq, fieldLen_eq]
  have hlen : fieldLength w c ≤ w - fieldAt c := Nat.min_le_right _ _
  generalize fieldLength w c = len at *
  generalize fieldAt c = pos at *
  have hx : ((a.setWidth w).extractLsb' pos len).toNat = a.toNat / 2 ^ pos % 2 ^ len := by
    rw [BitVec.extractLsb'_toNat, BitVec.toNat_setWidth, Nat.mod_eq_of_lt h, Nat.shiftRight_eq_div_pow]
  have hle : 2 ^ len ≤ 2 ^ w := Nat.pow_le_pow_right (by omega) (by omega)
  by_cases hz : w ≤ pos ∨ len = 0
  · have h0 : len = 0 := by omega
    subst h0
    rw [if_pos (Or.inr rfl), Nat.zero_mod]
    have hn : (a.setWidth w).extractLsb' pos 0 = 0#0 := BitVec.eq_nil _
    rw [hn]
    cases sg with
    | false => simp
    | true =>
      simp only [if_true]
      rw [BitVec.toNat_signExtend]
      simp [BitVec.msb]
  · rw [if_neg hz]
    have hlt : a.toNat / 2 ^ pos % 2 ^ len < 2 ^ len := Nat.mod_lt _ (Nat.two_pow_pos _)
    have hm : (a.toNat / 2 ^ pos % 2 ^ len).testBit (len - 1) = ((a.setWidth w).extractLsb' pos len).msb := by
      rw [BitVec.msb_eq_getLsbD_last, ← BitVec.testBit_toNat, hx]
    rw [hm]
    cases sg with
    | false =>
      simp only [Bool.false_and, Bool.false_eq_true, if_false]
      rw [BitVec.toNat_setWidth, hx]
    | true =>
      simp only [Bool.true_and, if_true]
      rw [BitVec.toNat_signExtend, BitVec.toNat_setWidth, hx, Nat.mod_eq_of_lt (Nat.lt_of_lt_of_le hlt hle)]
      generalize a.toNat / 2 ^ pos % 2 ^ len = x at *
      generalize 2 ^ len = y at *
      generalize 2 ^ w = z at *
      split
      · rw [Nat.mod_eq_of_lt (by omega)]; omega
      · rw [Nat.mod_eq_of_lt (by omega)]; rfl

theorem bfi_eq {w : Nat} (a d : Val) (ha : a.toNat < 2 ^ w) (hd : d.toNat < 2 ^ w) (c : Word) :
    BitVec.ofNat 128 (bfiNum w a.toNat c.toNat d.toNat % 2 ^ w) =
      ((d.setWidth w &&& ~~~((BitVec.allOnes (fieldLength w c)).setWidth w <<< fieldAt c)) |||
        ((a.setWidth w <<< fieldAt c) &&& ((BitVec.allOnes (fieldLength w c)).setWidth w <<< fieldAt c))).setWidth 128 := by
  apply ofNat_mod_eq
  simp only [bfiNum, fieldPos_eq, fieldLen_eq]
  have hlen : fieldLength w c ≤ w - fieldAt c := Nat.min_le_right _ _
  generalize fieldLength w c = len at *
  generalize fieldAt c = pos at *
  apply Nat.eq_of_testBit_eq
  intro j
  rw [BitVec.testBit_toNat]
  have da : ∀ i, i < w → (a.setWidth w).getLsbD i = a.toNat.testBit i := by
    intro i hi
    rw [← BitVec.testBit_toNat, BitVec.toNat_setWidth, Nat.mod_eq_of_lt ha]
  have dd : ∀ i, i < w → (d.setWidth w).getLsbD i = d.toNat.testBit i := by
    intro i hi
    rw [← BitVec.testBit_toNat, BitVec.toNat_setWidth, Nat.mod_eq_of_lt hd]
  by_cases hj : j < w
  · rw [Nat.testBit_mod_two_pow]
    simp only [hj, decide_true, Bool.true_and]
    have dm : ((BitVec.allOnes len).setWidth w <<< pos).getLsbD j = (decide (pos ≤ j) && decide (j < pos + len)) := by
      rw [BitVec.getLsbD_shiftLeft, BitVec.getLsbD_setWidth, BitVec.getLsbD_allOnes]
      by_cases h1 : pos ≤ j
      · by_cases h2 : j < pos + len
        · simp [h1, h2, hj, show ¬ j < pos by omega, show j - pos < w by omega, show j - pos < len by omega]
        · simp [h2, show ¬ j - pos < len by omega]
      · simp [h1, show j < pos by omega]
    rw [BitVec.getLsbD_or, BitVec.getLsbD_and, BitVec.getLsbD_and, BitVec.getLsbD_not, dm, BitVec.getLsbD_shiftLeft, dd j hj]
    by_cases hz : w ≤ pos ∨ len = 0
    · have h0 : len = 0 := by omega
      subst h0
      rw [if_pos (Or.inr rfl)]
      by_cases h1 : pos ≤ j
      · simp [hj, show ¬ j < pos by omega]
      · simp [hj, h1]
    · rw [if_neg hz]
      have e1 : d.toNat % 2 ^ pos + a.toNat % 2 ^ len * 2 ^ pos = (a.toNat % 2 ^ len) <<< pos ||| d.toNat % 2 ^ pos := by
        rw [← Nat.shiftLeft_add_eq_or_of_lt (Nat.mod_lt _ (Nat.two_pow_pos _)), Nat.shiftLeft_eq, Nat.add_comm]
      have l1 : (a.toNat % 2 ^ len) <<< pos ||| d.toNat % 2 ^ pos < 2 ^ (pos + len) := by
        refine Nat.or_lt_two_pow ?_ (Nat.lt_of_lt_of_le (Nat.mod_lt _ (Nat.two_pow_pos _)) (Nat.pow_le_pow_right (by omega) (by omega)))
        rw [Nat.shiftLeft_eq, Nat.pow_add, Nat.mul_comm (2 ^ pos)]
        exact Nat.mul_lt_mul_of_pos_right (Nat.mod_lt _ (Nat.two_pow_pos _)) (Nat.two_pow_pos _)
      have e2 : d.toNat % 2 ^ pos + a.toNat % 2 ^ len * 2 ^ pos + d.toNat / 2 ^ (pos + len) * 2 ^ (pos + len) =
          (d.toNat / 2 ^ (pos + len)) <<< (pos + len) ||| ((a.toNat % 2 ^ len) <<< pos ||| d.toNat % 2 ^ pos) := by
        rw [← Nat.shiftLeft_add_eq_or_of_lt l1, e1, Nat.shiftLeft_eq (d.toNat / 2 ^ (pos + len)), Nat.add_comm]
      rw [e2, Nat.testBit_or, Nat.testBit_or, Nat.testBit_shiftLeft, Nat.testBit_shiftLeft, Nat.testBit_mod_two_pow,
        Nat.testBit_mod_two_pow, Nat.testBit_div_two_pow]
      by_cases h1 : j < pos
      · simp [h1, hj, show ¬ pos + len ≤ j by omega, show ¬ pos ≤ j by omega]
      · by_cases h2 : j < pos + len
        · rw [da (j - pos) (by omega)]
          simp [h1, h2, hj, show ¬ pos + len ≤ j by omega, show pos ≤ j by omega, show j - pos < len by omega]
        · simp [h1, h2, hj, show pos + len ≤ j by omega, show pos ≤ j by omega, show ¬ j - pos < len by omega]
  · rw [BitVec.getLsbD_of_ge _ _ (by omega), Nat.testBit_mod_two_pow]
    simp [hj]

theorem permByte_eq (b d : Word) (nib : Nat) (hn : nib < 16) :
    permByte (b.toNat + d.toNat * 2 ^ 32) nib = (pickByte b d (BitVec.ofNat 4 nib)).toNat := by
  have hs : b.toNat + d.toNat * 2 ^ 32 = (d ++ b).toNat := by
    rw [BitVec.toNat_append, ← Nat.shiftLeft_add_eq_or_of_lt b.isLt, Nat.shiftLeft_eq]; omega
  have he : ((BitVec.ofNat 4 nib).extractLsb' 0 3).toNat = nib % 8 := by
    rw [BitVec.extractLsb'_toNat, BitVec.toNat_ofNat]
    simp only [Nat.shiftRight_zero]
    omega
  have h3 : (BitVec.ofNat 4 nib).getLsbD 3 = decide (nib / 8 % 2 = 1) := by
    rw [← BitVec.testBit_toNat, BitVec.toNat_ofNat, Nat.testBit_eq_decide_div_mod_eq]
    congr 2
    omega
  simp only [permByte, pickByte, hs, he, h3]
  have hx : (d ++ b).toNat / 256 ^ (nib % 8) % 256 = ((d ++ b).extractLsb' (8 * (nib % 8)) 8).toNat := by
    rw [BitVec.extractLsb'_toNat, Nat.shiftRight_eq_div_pow, Nat.pow_mul]
  rw [hx]
  by_cases h : nib / 8 % 2 = 1
  · simp only [h, if_true, decide_true]
    have hm : ((d ++ b).extractLsb' (8 * (nib % 8)) 8).getLsbD 7 = decide (128 ≤ ((d ++ b).extractLsb' (8 * (nib % 8)) 8).toNat) := by
      rw [← BitVec.testBit_toNat, Nat.testBit_eq_decide_div_mod_eq]
      have := ((d ++ b).extractLsb' (8 * (nib % 8)) 8).isLt
      by_cases h7 : 128 ≤ ((d ++ b).extractLsb' (8 * (nib % 8)) 8).toNat
      · simp only [h7, decide_true, decide_eq_true_eq]; omega
      · simp only [h7, decide_false, decide_eq_false_iff_not]; omega
    rw [hm]
    by_cases h7 : 128 ≤ ((d ++ b).extractLsb' (8 * (nib % 8)) 8).toNat
    · rw [if_pos h7, if_pos (decide_eq_true h7)]; rfl
    · rw [if_neg h7, if_neg (by simpa using h7)]; rfl
  · simp only [h, decide_false, Bool.false_eq_true, if_false]

theorem perm_eq (b c d : Word) :
    BitVec.ofNat 128 (permNum b.toNat d.toNat c.toNat) =
      (pickByte b d (c.extractLsb' 12 4) ++ pickByte b d (c.extractLsb' 8 4) ++ pickByte b d (c.extractLsb' 4 4)
        ++ pickByte b d (c.extractLsb' 0 4)).setWidth 128 := by
  have hn (j : Nat) : BitVec.ofNat 4 (c.toNat / 2 ^ j % 16) = c.extractLsb' j 4 := by
    apply BitVec.eq_of_toNat_eq
    rw [BitVec.toNat_ofNat, BitVec.extractLsb'_toNat, Nat.shiftRight_eq_div_pow]
    omega
  have hp (j : Nat) := permByte_eq b d (c.toNat / 2 ^ j % 16) (Nat.mod_lt _ (by omega))
  have h0 := hp 0
  have h1 := hp 4
  have h2 := hp 8
  have h3 := hp 12
  rw [hn] at h0 h1 h2 h3
  simp only [Nat.pow_zero, Nat.div_one, Nat.reducePow] at h0 h1 h2 h3
  simp only [permNum, h0, h1, h2, h3, Nat.reducePow]
  apply BitVec.eq_of_toNat_eq
  have l0 := (pickByte b d (c.extractLsb' 0 4)).isLt
  have l1 := (pickByte b d (c.extractLsb' 4 4)).isLt
  have l2 := (pickByte b d (c.extractLsb' 8 4)).isLt
  have l3 := (pickByte b d (c.extractLsb' 12 4)).isLt
  rw [BitVec.toNat_ofNat, BitVec.toNat_setWidth, BitVec.toNat_append, BitVec.toNat_append, BitVec.toNat_append,
    ← Nat.shiftLeft_add_eq_or_of_lt l0, ← Nat.shiftLeft_add_eq_or_of_lt l1, ← Nat.shiftLeft_add_eq_or_of_lt l2]
  simp only [Nat.shiftLeft_eq]
  omega

/-! ### Operands -/

/-- What an instruction computes matters for its acting threads alone. -/
theorem Computes.congr {out : Host.Outcome State Fault Refusal} {s : State} {k : Nat} {sh : Sheaf} {f : Fields} {n : Nat}
    {g g' : Nat → Out} (h : Computes out s k sh f n g) (e : ∀ t ∈ acting f sh, g t = g' t) : Computes out s k sh f n g' := by
  obtain ⟨sh', h1, h2, h3⟩ := h
  refine ⟨sh', h1, ?_, h3⟩
  obtain ⟨r, no, p, fl, on⟩ := h2
  have e0 : f.u = true → g 0 = g' 0 := fun hu => e 0 (by simp [acting, hu])
  refine ⟨fun hn => ?_, no, ?_, ?_, on⟩
  · obtain ⟨w, l⟩ := r hn
    exact ⟨⟨w.toKeepsOthers, fun hd t ht j hj => by rw [w.value hd t ht j hj, e t ht]⟩,
      ⟨l.y1, l.y2, l.y3, l.keep, l.valid, fun hu h4 t ht => by rw [l.value hu h4 t ht, e t ht], l.outside, l.zeros⟩⟩
  · refine ⟨fun hu => ?_, fun hu => ?_⟩
    · obtain ⟨a, b, c⟩ := p.vector hu
      refine ⟨a, b, fun d hd t ht => ?_⟩
      rw [c d hd t ht]
      split
      · rename_i hm; rw [e t hm]
      · rfl
    · obtain ⟨a, b⟩ := p.uniform hu
      exact ⟨a, fun d hd => by rw [b d hd, e0 hu]⟩
  · have key (φ : Flags → Bool) (x : Nat) : ((acting f sh).any fun t => (flagged f sh t).contains x && φ (g t).flags) =
        (acting f sh).any fun t => (flagged f sh t).contains x && φ (g' t).flags := by
      rw [Bool.eq_iff_iff]
      simp only [List.any_eq_true]
      exact ⟨fun ⟨t, ht, h⟩ => ⟨t, ht, by rw [← e t ht]; exact h⟩, fun ⟨t, ht, h⟩ => ⟨t, ht, by rw [e t ht]; exact h⟩⟩
    obtain ⟨a, b, c, d, i⟩ := fl
    refine ⟨?_, ?_, ?_, ?_, ?_⟩
    · intro x hx; rw [a x hx]; congr 1; exact key (·.inv) x
    · intro x hx; rw [b x hx]; congr 1; exact key (·.dz) x
    · intro x hx; rw [c x hx]; congr 1; exact key (·.ovf) x
    · intro x hx; rw [d x hx]; congr 1; exact key (·.unf) x
    · intro x hx; rw [i x hx]; congr 1; exact key (·.inx) x

theorem Executes.legal {r : Row} {f : Fields} {s : State} {k : Nat} {sh : Sheaf} (h : Executes r f s k sh) :
    r.legal f = true := by
  have hc := h.check
  simp only [Iss.check] at hc
  split at hc
  · cases hc
  · rename_i h1
    simp only [Bool.not_eq_true', Bool.not_eq_false, Bool.and_eq_true] at h1
    exact h1.1.1

theorem acting_lt {f : Fields} {sh : Sheaf} {t : Nat} (h : t ∈ acting f sh) : t < 16 := by
  simp only [acting] at h
  split at h
  · simp at h; omega
  · simp [active, threads] at h; omega

theorem width_tyWords (t : BitVec 5) : Width (tyWords t) := by
  have : ∀ t : BitVec 5, tyWords t = 1 ∨ tyWords t = 2 ∨ tyWords t = 4 := by decide
  exact this t

theorem joinWords_lt {n : Nat} (h : Width n) (r : Nat → Word) : (joinWords n r).toNat < 2 ^ (32 * n) := by
  have key : ∀ m ≤ 4, (joinWords m r).toNat < 2 ^ (32 * m) := by
    intro m
    induction m with
    | zero => intro _; simp [joinWords]
    | succ m ih =>
      intro hm
      have i := ih (by omega)
      simp only [joinWords] at *
      rw [List.range_succ, List.foldl_append]
      simp only [List.foldl_cons, List.foldl_nil, BitVec.toNat_or, BitVec.toNat_shiftLeft, BitVec.toNat_setWidth]
      refine Nat.or_lt_two_pow ?_ ?_
      · rw [Nat.shiftLeft_eq]
        refine Nat.lt_of_le_of_lt (Nat.mod_le _ _) ?_
        rw [show 32 * (m + 1) = 32 * m + 32 by omega, Nat.pow_add]
        exact Nat.mul_lt_mul_of_pos_right i (by decide)
      · have : 2 ^ 32 ≤ 2 ^ (32 * (m + 1)) := Nat.pow_le_pow_right (by omega) (by omega)
        have := (r m).isLt
        have := Nat.mod_le (BitVec.toNat (r m)) (2 ^ 128)
        omega
  rcases h with h | h | h <;> subst h <;> exact key _ (by omega)

/-- An operand holds no more than its registers. -/
theorem read_lt (sh : Sheaf) (f : Fields) (ty : BitVec 5) {n : Nat} (h : Width n) (fld : BitVec 7)
    {t : Nat} (ht : t < 16) : (sh.read f ty n fld t).toNat < 2 ^ (32 * n) := by
  have h64 : n = 2 → ∀ x : BitVec 64, (x.zeroExtend 128).toNat < 2 ^ (32 * n) := by
    intro e x; subst e; simp [BitVec.toNat_setWidth]; omega
  have h32 : ∀ x : BitVec 32, (x.zeroExtend 128).toNat < 2 ^ (32 * n) := by
    intro x
    have : x.toNat < 2 ^ (32 * n) := Nat.lt_of_lt_of_le x.isLt (Nat.pow_le_pow_right (by omega) (by rcases h with h | h | h <;> omega))
    simp only [BitVec.toNat_setWidth]; exact Nat.lt_of_le_of_lt (Nat.mod_le _ _) this
  have hw : (16 : Nat) ≤ 2 ^ (32 * n) := by rcases h with h | h | h <;> subst h <;> decide
  simp only [Sheaf.read]
  split
  · exact joinWords_lt h _
  · exact joinWords_lt h _
  · exact joinWords_lt h _
  · by_cases hn : n = 2
    · rw [if_pos hn]; exact h64 hn _
    · rw [if_neg hn]; exact h32 _
  · simpa using Nat.two_pow_pos _
  · rw [BitVec.toNat_ofNat]; exact Nat.lt_of_le_of_lt (Nat.mod_le _ _) (by omega)
  · simp only [litVal]
    by_cases hn : n = 2
    · rw [if_neg (by simpa using hn)]
      split
      · exact h64 hn _
      · split
        · exact h64 hn _
        · exact h32 _
    · rw [if_pos hn]; exact h32 _
  · simpa using Nat.two_pow_pos _

end Sys2Proof.Machine
end

