-- ==== Sys2Proof/Laws/PerInstr.lean ====
section
/-! SUPPORT. Per instruction: the opcode map gives each row's own entry for every form the row accepts (R92). -/

namespace Sys2Proof.Laws.Coded
open Sys2Proof.Forms

/-- The map of R92, asked with the fields and the op of an instruction whose fields are legal, answers that instruction. -/
def Statement (i : Instr) : Prop :=
  ∀ r f, i.coded = some (r, f) → r.legal f = true → ∃ e, entryFor f r.op = some e ∧ e.row = r ∧ e.instr f = i

theorem of_entry {i : Instr} {r : Row} {f : Fields} (mk : Fields → Instr) (hc : i.coded = some (r, f)) (hi : mk f = i)
    (h : r.legal f = true → entryFor f r.op = some ⟨r, mk⟩) : Statement i := by
  intro r' f' h' hl
  rw [hc] at h'
  obtain ⟨rfl, rfl⟩ : r = r' ∧ f = f' := by simpa using h'
  exact ⟨_, h hl, rfl, hi⟩

theorem legal_pick {r : Row} {f : Fields} (h : r.legal f = true) : r.pick f = true := by
  simp only [Row.legal, Bool.and_eq_true] at h
  exact h.1.1.1.1.2

theorem not_vec {r : Row} {f : Fields} (hu : f.u = false) (hv : r.vec = false) : ¬r.legal f = true := by
  simp [Row.legal, hu, hv]

theorem not_uni {r : Row} {f : Fields} (hu : f.u = true) (hv : r.uni = false) : ¬r.legal f = true := by
  simp [Row.legal, hu, hv]

/-- The entry after a run of entries that do not answer. -/
theorem find_entry {f : Fields} {e : Entry} (pre : List Entry) {post : List Entry} (h : entries = pre ++ e :: post)
    (hn : pre.find? (fun e' => e'.row.op = e.row.op && ((e'.row.vec && !f.u) || (e'.row.uni && f.u)) && e'.row.pick f) = none)
    (hu : ((e.row.vec && !f.u) || (e.row.uni && f.u)) = true) (hp : e.row.pick f = true) :
    entryFor f e.row.op = some e := by
  simp [entryFor, h, List.find?_append, hn, hu, hp]

theorem of_none {i : Instr} (h : i.coded = none) : Statement i := by
  intro r f h'
  rw [h] at h'
  cases h'

theorem iadd (f : Fields) : Statement (.iadd f) := by
  refine of_entry .iadd rfl rfl fun hl => ?_
  obtain ⟨u, x, w, a, b, c, gn, gi, d, ty, imm, lit⟩ := f
  cases u <;> first | rfl | exact absurd hl (not_vec rfl rfl) | exact absurd hl (not_uni rfl rfl)

theorem isub (f : Fields) : Statement (.isub f) := by
  refine of_entry .isub rfl rfl fun hl => ?_
  obtain ⟨u, x, w, a, b, c, gn, gi, d, ty, imm, lit⟩ := f
  cases u <;> first | rfl | exact absurd hl (not_vec rfl rfl) | exact absurd hl (not_uni rfl rfl)

theorem imul (f : Fields) : Statement (.imul f) := by
  refine of_entry .imul rfl rfl fun hl => ?_
  obtain ⟨u, x, w, a, b, c, gn, gi, d, ty, imm, lit⟩ := f
  cases u <;> first | rfl | exact absurd hl (not_vec rfl rfl) | exact absurd hl (not_uni rfl rfl)

theorem imulh (f : Fields) : Statement (.imulh f) := by
  refine of_entry .imulh rfl rfl fun hl => ?_
  obtain ⟨u, x, w, a, b, c, gn, gi, d, ty, imm, lit⟩ := f
  cases u <;> first | rfl | exact absurd hl (not_vec rfl rfl) | exact absurd hl (not_uni rfl rfl)

theorem imad (f : Fields) : Statement (.imad f) := by
  refine of_entry .imad rfl rfl fun hl => ?_
  obtain ⟨u, x, w, a, b, c, gn, gi, d, ty, imm, lit⟩ := f
  cases u <;> first | rfl | exact absurd hl (not_vec rfl rfl) | exact absurd hl (not_uni rfl rfl)

theorem idiv (f : Fields) : Statement (.idiv f) := by
  refine of_entry .idiv rfl rfl fun hl => ?_
  obtain ⟨u, x, w, a, b, c, gn, gi, d, ty, imm, lit⟩ := f
  cases u <;> first | rfl | exact absurd hl (not_vec rfl rfl) | exact absurd hl (not_uni rfl rfl)

theorem irem (f : Fields) : Statement (.irem f) := by
  refine of_entry .irem rfl rfl fun hl => ?_
  obtain ⟨u, x, w, a, b, c, gn, gi, d, ty, imm, lit⟩ := f
  cases u <;> first | rfl | exact absurd hl (not_vec rfl rfl) | exact absurd hl (not_uni rfl rfl)

theorem imin (f : Fields) : Statement (.imin f) := by
  refine of_entry .imin rfl rfl fun hl => ?_
  obtain ⟨u, x, w, a, b, c, gn, gi, d, ty, imm, lit⟩ := f
  cases u <;> first | rfl | exact absurd hl (not_vec rfl rfl) | exact absurd hl (not_uni rfl rfl)

theorem imax (f : Fields) : Statement (.imax f) := by
  refine of_entry .imax rfl rfl fun hl => ?_
  obtain ⟨u, x, w, a, b, c, gn, gi, d, ty, imm, lit⟩ := f
  cases u <;> first | rfl | exact absurd hl (not_vec rfl rfl) | exact absurd hl (not_uni rfl rfl)

theorem iabs (f : Fields) : Statement (.iabs f) := by
  refine of_entry .iabs rfl rfl fun hl => ?_
  obtain ⟨u, x, w, a, b, c, gn, gi, d, ty, imm, lit⟩ := f
  cases u <;> first | rfl | exact absurd hl (not_vec rfl rfl) | exact absurd hl (not_uni rfl rfl)

theorem ineg (f : Fields) : Statement (.ineg f) := by
  refine of_entry .ineg rfl rfl fun hl => ?_
  obtain ⟨u, x, w, a, b, c, gn, gi, d, ty, imm, lit⟩ := f
  cases u <;> first | rfl | exact absurd hl (not_vec rfl rfl) | exact absurd hl (not_uni rfl rfl)

theorem isad (f : Fields) : Statement (.isad f) := by
  refine of_entry .isad rfl rfl fun hl => ?_
  obtain ⟨u, x, w, a, b, c, gn, gi, d, ty, imm, lit⟩ := f
  cases u <;> first | rfl | exact absurd hl (not_vec rfl rfl) | exact absurd hl (not_uni rfl rfl)

theorem lea (f : Fields) : Statement (.lea f) := by
  refine of_entry .lea rfl rfl fun hl => ?_
  obtain ⟨u, x, w, a, b, c, gn, gi, d, ty, imm, lit⟩ := f
  cases u <;> first | rfl | exact absurd hl (not_vec rfl rfl) | exact absurd hl (not_uni rfl rfl)

theorem iaddc (f : Fields) : Statement (.iaddc f) := by
  refine of_entry .iaddc rfl rfl fun hl => ?_
  obtain ⟨u, x, w, a, b, c, gn, gi, d, ty, imm, lit⟩ := f
  cases u <;> first | rfl | exact absurd hl (not_vec rfl rfl) | exact absurd hl (not_uni rfl rfl)

theorem mov (f : Fields) : Statement (.mov f) := by
  refine of_entry .mov rfl rfl fun hl => ?_
  obtain ⟨u, x, w, a, b, c, gn, gi, d, ty, imm, lit⟩ := f
  cases u <;> first | rfl | exact absurd hl (not_vec rfl rfl) | exact absurd hl (not_uni rfl rfl)

theorem nop (f : Fields) : Statement (.nop f) := by
  refine of_entry .nop rfl rfl fun hl => ?_
  obtain ⟨u, x, w, a, b, c, gn, gi, d, ty, imm, lit⟩ := f
  cases u <;> first | rfl | exact absurd hl (not_vec rfl rfl) | exact absurd hl (not_uni rfl rfl)

theorem andI (f : Fields) : Statement (.andI f) := by
  refine of_entry .andI rfl rfl fun hl => ?_
  obtain ⟨u, x, w, a, b, c, gn, gi, d, ty, imm, lit⟩ := f
  cases u <;> first | rfl | exact absurd hl (not_vec rfl rfl) | exact absurd hl (not_uni rfl rfl)

theorem orI (f : Fields) : Statement (.orI f) := by
  refine of_entry .orI rfl rfl fun hl => ?_
  obtain ⟨u, x, w, a, b, c, gn, gi, d, ty, imm, lit⟩ := f
  cases u <;> first | rfl | exact absurd hl (not_vec rfl rfl) | exact absurd hl (not_uni rfl rfl)

theorem xorI (f : Fields) : Statement (.xorI f) := by
  refine of_entry .xorI rfl rfl fun hl => ?_
  obtain ⟨u, x, w, a, b, c, gn, gi, d, ty, imm, lit⟩ := f
  cases u <;> first | rfl | exact absurd hl (not_vec rfl rfl) | exact absurd hl (not_uni rfl rfl)

theorem andn (f : Fields) : Statement (.andn f) := by
  refine of_entry .andn rfl rfl fun hl => ?_
  obtain ⟨u, x, w, a, b, c, gn, gi, d, ty, imm, lit⟩ := f
  cases u <;> first | rfl | exact absurd hl (not_vec rfl rfl) | exact absurd hl (not_uni rfl rfl)

theorem notI (f : Fields) : Statement (.notI f) := by
  refine of_entry .notI rfl rfl fun hl => ?_
  obtain ⟨u, x, w, a, b, c, gn, gi, d, ty, imm, lit⟩ := f
  cases u <;> first | rfl | exact absurd hl (not_vec rfl rfl) | exact absurd hl (not_uni rfl rfl)

theorem shl (f : Fields) : Statement (.shl f) := by
  refine of_entry .shl rfl rfl fun hl => ?_
  obtain ⟨u, x, w, a, b, c, gn, gi, d, ty, imm, lit⟩ := f
  cases u <;> first | rfl | exact absurd hl (not_vec rfl rfl) | exact absurd hl (not_uni rfl rfl)

theorem shr (f : Fields) : Statement (.shr f) := by
  refine of_entry .shr rfl rfl fun hl => ?_
  obtain ⟨u, x, w, a, b, c, gn, gi, d, ty, imm, lit⟩ := f
  cases u <;> first | rfl | exact absurd hl (not_vec rfl rfl) | exact absurd hl (not_uni rfl rfl)

theorem sar (f : Fields) : Statement (.sar f) := by
  refine of_entry .sar rfl rfl fun hl => ?_
  obtain ⟨u, x, w, a, b, c, gn, gi, d, ty, imm, lit⟩ := f
  cases u <;> first | rfl | exact absurd hl (not_vec rfl rfl) | exact absurd hl (not_uni rfl rfl)

theorem rot (f : Fields) : Statement (.rot f) := by
  refine of_entry .rot rfl rfl fun hl => ?_
  obtain ⟨u, x, w, a, b, c, gn, gi, d, ty, imm, lit⟩ := f
  cases u <;> first | rfl | exact absurd hl (not_vec rfl rfl) | exact absurd hl (not_uni rfl rfl)

theorem clz (f : Fields) : Statement (.clz f) := by
  refine of_entry .clz rfl rfl fun hl => ?_
  obtain ⟨u, x, w, a, b, c, gn, gi, d, ty, imm, lit⟩ := f
  cases u <;> first | rfl | exact absurd hl (not_vec rfl rfl) | exact absurd hl (not_uni rfl rfl)

theorem popc (f : Fields) : Statement (.popc f) := by
  refine of_entry .popc rfl rfl fun hl => ?_
  obtain ⟨u, x, w, a, b, c, gn, gi, d, ty, imm, lit⟩ := f
  cases u <;> first | rfl | exact absurd hl (not_vec rfl rfl) | exact absurd hl (not_uni rfl rfl)

theorem brev (f : Fields) : Statement (.brev f) := by
  refine of_entry .brev rfl rfl fun hl => ?_
  obtain ⟨u, x, w, a, b, c, gn, gi, d, ty, imm, lit⟩ := f
  cases u <;> first | rfl | exact absurd hl (not_vec rfl rfl) | exact absurd hl (not_uni rfl rfl)

theorem bfx (f : Fields) : Statement (.bfx f) := by
  refine of_entry .bfx rfl rfl fun hl => ?_
  obtain ⟨u, x, w, a, b, c, gn, gi, d, ty, imm, lit⟩ := f
  cases u <;> first | rfl | exact absurd hl (not_vec rfl rfl) | exact absurd hl (not_uni rfl rfl)

theorem bfi (f : Fields) : Statement (.bfi f) := by
  refine of_entry .bfi rfl rfl fun hl => ?_
  obtain ⟨u, x, w, a, b, c, gn, gi, d, ty, imm, lit⟩ := f
  cases u <;> first | rfl | exact absurd hl (not_vec rfl rfl) | exact absurd hl (not_uni rfl rfl)

theorem perm (f : Fields) : Statement (.perm f) := by
  refine of_entry .perm rfl rfl fun hl => ?_
  obtain ⟨u, x, w, a, b, c, gn, gi, d, ty, imm, lit⟩ := f
  cases u <;> first | rfl | exact absurd hl (not_vec rfl rfl) | exact absurd hl (not_uni rfl rfl)

theorem iset (f : Fields) : Statement (.iset f) := by
  refine of_entry .iset rfl rfl fun hl => ?_
  obtain ⟨u, x, w, a, b, c, gn, gi, d, ty, imm, lit⟩ := f
  cases u <;> first | rfl | exact absurd hl (not_vec rfl rfl) | exact absurd hl (not_uni rfl rfl)

theorem fset (f : Fields) : Statement (.fset f) := by
  refine of_entry .fset rfl rfl fun hl => ?_
  obtain ⟨u, x, w, a, b, c, gn, gi, d, ty, imm, lit⟩ := f
  cases u <;> first | rfl | exact absurd hl (not_vec rfl rfl) | exact absurd hl (not_uni rfl rfl)

theorem sel (f : Fields) : Statement (.sel f) := by
  refine of_entry .sel rfl rfl fun hl => ?_
  obtain ⟨u, x, w, a, b, c, gn, gi, d, ty, imm, lit⟩ := f
  cases u <;> first | rfl | exact absurd hl (not_vec rfl rfl) | exact absurd hl (not_uni rfl rfl)

theorem plop (f : Fields) : Statement (.plop f) := by
  refine of_entry .plop rfl rfl fun hl => ?_
  obtain ⟨u, x, w, a, b, c, gn, gi, d, ty, imm, lit⟩ := f
  cases u <;> first | rfl | exact absurd hl (not_vec rfl rfl) | exact absurd hl (not_uni rfl rfl)

theorem pmov (f : Fields) : Statement (.pmov f) := by
  refine of_entry .pmov rfl rfl fun hl => ?_
  obtain ⟨u, x, w, a, b, c, gn, gi, d, ty, imm, lit⟩ := f
  cases u <;> first | rfl | exact absurd hl (not_vec rfl rfl) | exact absurd hl (not_uni rfl rfl)

theorem vote (f : Fields) : Statement (.vote f) := by
  refine of_entry .vote rfl rfl fun hl => ?_
  obtain ⟨u, x, w, a, b, c, gn, gi, d, ty, imm, lit⟩ := f
  cases u <;> first | rfl | exact absurd hl (not_vec rfl rfl) | exact absurd hl (not_uni rfl rfl)

theorem shfl (f : Fields) : Statement (.shfl f) := by
  refine of_entry .shfl rfl rfl fun hl => ?_
  obtain ⟨u, x, w, a, b, c, gn, gi, d, ty, imm, lit⟩ := f
  cases u <;> first | rfl | exact absurd hl (not_vec rfl rfl) | exact absurd hl (not_uni rfl rfl)

theorem bcast (f : Fields) : Statement (.bcast f) := by
  refine of_entry .bcast rfl rfl fun hl => ?_
  obtain ⟨u, x, w, a, b, c, gn, gi, d, ty, imm, lit⟩ := f
  cases u <;> first | rfl | exact absurd hl (not_vec rfl rfl) | exact absurd hl (not_uni rfl rfl)

theorem brk (f : Fields) : Statement (.brk f) := by
  refine of_entry .brk rfl rfl fun hl => ?_
  obtain ⟨u, x, w, a, b, c, gn, gi, d, ty, imm, lit⟩ := f
  cases u <;> first | rfl | exact absurd hl (not_vec rfl rfl) | exact absurd hl (not_uni rfl rfl)

theorem bra (f : Fields) : Statement (.bra f) := by
  refine of_entry .bra rfl rfl fun hl => ?_
  have hp := legal_pick hl
  obtain ⟨u, x, w, a, b, c, gn, gi, d, ty, imm, lit⟩ := f
  cases u
  · exact absurd hl (not_vec rfl rfl)
  · exact find_entry (entriesInt ++ entriesLogic ++ entriesPred ++ []) rfl rfl rfl hp

theorem braEz (f : Fields) : Statement (.braEz f) := by
  refine of_entry .braEz rfl rfl fun hl => ?_
  have hp := legal_pick hl
  obtain ⟨u, x, w, a, b, c, gn, gi, d, ty, imm, lit⟩ := f
  cases u
  · exact absurd hl (not_vec rfl rfl)
  · obtain ⟨rfl, rfl⟩ : x = true ∧ ty = 1#5 := by simpa [rowBraEz] using hp
    rfl

theorem brx (f : Fields) : Statement (.brx f) := by
  refine of_entry .brx rfl rfl fun hl => ?_
  obtain ⟨u, x, w, a, b, c, gn, gi, d, ty, imm, lit⟩ := f
  cases u <;> first | rfl | exact absurd hl (not_vec rfl rfl) | exact absurd hl (not_uni rfl rfl)

theorem call (f : Fields) : Statement (.call f) := by
  refine of_entry .call rfl rfl fun hl => ?_
  have hp := legal_pick hl
  obtain ⟨u, x, w, a, b, c, gn, gi, d, ty, imm, lit⟩ := f
  cases u
  · exact absurd hl (not_vec rfl rfl)
  · exact find_entry (entriesInt ++ entriesLogic ++ entriesPred ++ [⟨rowBra, .bra⟩, ⟨rowBraEz, .braEz⟩, ⟨rowBrx, .brx⟩]) rfl rfl rfl hp

theorem callReg (f : Fields) : Statement (.callReg f) := by
  refine of_entry .callReg rfl rfl fun hl => ?_
  have hp := legal_pick hl
  obtain ⟨u, x, w, a, b, c, gn, gi, d, ty, imm, lit⟩ := f
  cases u
  · exact absurd hl (not_vec rfl rfl)
  · obtain ⟨rfl, rfl⟩ : x = true ∧ ty = 2#5 := by simpa [rowCallReg] using hp
    rfl

theorem ret (f : Fields) : Statement (.ret f) := by
  refine of_entry .ret rfl rfl fun hl => ?_
  obtain ⟨u, x, w, a, b, c, gn, gi, d, ty, imm, lit⟩ := f
  cases u <;> first | rfl | exact absurd hl (not_vec rfl rfl) | exact absurd hl (not_uni rfl rfl)

theorem emsav (f : Fields) : Statement (.emsav f) := by
  refine of_entry .emsav rfl rfl fun hl => ?_
  obtain ⟨u, x, w, a, b, c, gn, gi, d, ty, imm, lit⟩ := f
  cases u <;> first | rfl | exact absurd hl (not_vec rfl rfl) | exact absurd hl (not_uni rfl rfl)

theorem emld (f : Fields) : Statement (.emld f) := by
  refine of_entry .emld rfl rfl fun hl => ?_
  obtain ⟨u, x, w, a, b, c, gn, gi, d, ty, imm, lit⟩ := f
  cases u <;> first | rfl | exact absurd hl (not_vec rfl rfl) | exact absurd hl (not_uni rfl rfl)

theorem emand (f : Fields) : Statement (.emand f) := by
  refine of_entry .emand rfl rfl fun hl => ?_
  obtain ⟨u, x, w, a, b, c, gn, gi, d, ty, imm, lit⟩ := f
  cases u <;> first | rfl | exact absurd hl (not_vec rfl rfl) | exact absurd hl (not_uni rfl rfl)

theorem wbase (f : Fields) : Statement (.wbase f) := by
  refine of_entry .wbase rfl rfl fun hl => ?_
  obtain ⟨u, x, w, a, b, c, gn, gi, d, ty, imm, lit⟩ := f
  cases u <;> first | rfl | exact absurd hl (not_vec rfl rfl) | exact absurd hl (not_uni rfl rfl)

theorem rgn (f : Fields) : Statement (.rgn f) := by
  refine of_entry .rgn rfl rfl fun hl => ?_
  obtain ⟨u, x, w, a, b, c, gn, gi, d, ty, imm, lit⟩ := f
  cases u <;> first | rfl | exact absurd hl (not_vec rfl rfl) | exact absurd hl (not_uni rfl rfl)

theorem exit (f : Fields) : Statement (.exit f) := by
  refine of_entry .exit rfl rfl fun hl => ?_
  obtain ⟨u, x, w, a, b, c, gn, gi, d, ty, imm, lit⟩ := f
  cases u <;> first | rfl | exact absurd hl (not_vec rfl rfl) | exact absurd hl (not_uni rfl rfl)

theorem launch (f : Fields) : Statement (.launch f) := by
  refine of_entry .launch rfl rfl fun hl => ?_
  obtain ⟨u, x, w, a, b, c, gn, gi, d, ty, imm, lit⟩ := f
  cases u <;> first | rfl | exact absurd hl (not_vec rfl rfl) | exact absurd hl (not_uni rfl rfl)

theorem yield (f : Fields) : Statement (.yield f) := by
  refine of_entry .yield rfl rfl fun hl => ?_
  obtain ⟨u, x, w, a, b, c, gn, gi, d, ty, imm, lit⟩ := f
  cases u <;> first | rfl | exact absurd hl (not_vec rfl rfl) | exact absurd hl (not_uni rfl rfl)

theorem movs (f : Fields) : Statement (.movs f) := by
  refine of_entry .movs rfl rfl fun hl => ?_
  obtain ⟨u, x, w, a, b, c, gn, gi, d, ty, imm, lit⟩ := f
  cases u <;> first | rfl | exact absurd hl (not_vec rfl rfl) | exact absurd hl (not_uni rfl rfl)

theorem smov (f : Fields) : Statement (.smov f) := by
  refine of_entry .smov rfl rfl fun hl => ?_
  obtain ⟨u, x, w, a, b, c, gn, gi, d, ty, imm, lit⟩ := f
  cases u <;> first | rfl | exact absurd hl (not_vec rfl rfl) | exact absurd hl (not_uni rfl rfl)

theorem trap (f : Fields) : Statement (.trap f) := by
  refine of_entry .trap rfl rfl fun hl => ?_
  obtain ⟨u, x, w, a, b, c, gn, gi, d, ty, imm, lit⟩ := f
  cases u <;> first | rfl | exact absurd hl (not_vec rfl rfl) | exact absurd hl (not_uni rfl rfl)

theorem tret (f : Fields) : Statement (.tret f) := by
  refine of_entry .tret rfl rfl fun hl => ?_
  obtain ⟨u, x, w, a, b, c, gn, gi, d, ty, imm, lit⟩ := f
  cases u <;> first | rfl | exact absurd hl (not_vec rfl rfl) | exact absurd hl (not_uni rfl rfl)

theorem fadd (f : Fields) : Statement (.fadd f) := by
  refine of_entry .fadd rfl rfl fun hl => ?_
  obtain ⟨u, x, w, a, b, c, gn, gi, d, ty, imm, lit⟩ := f
  cases u <;> first | rfl | exact absurd hl (not_vec rfl rfl) | exact absurd hl (not_uni rfl rfl)

theorem fsub (f : Fields) : Statement (.fsub f) := by
  refine of_entry .fsub rfl rfl fun hl => ?_
  obtain ⟨u, x, w, a, b, c, gn, gi, d, ty, imm, lit⟩ := f
  cases u <;> first | rfl | exact absurd hl (not_vec rfl rfl) | exact absurd hl (not_uni rfl rfl)

theorem fmul (f : Fields) : Statement (.fmul f) := by
  refine of_entry .fmul rfl rfl fun hl => ?_
  obtain ⟨u, x, w, a, b, c, gn, gi, d, ty, imm, lit⟩ := f
  cases u <;> first | rfl | exact absurd hl (not_vec rfl rfl) | exact absurd hl (not_uni rfl rfl)

theorem ffma (f : Fields) : Statement (.ffma f) := by
  refine of_entry .ffma rfl rfl fun hl => ?_
  obtain ⟨u, x, w, a, b, c, gn, gi, d, ty, imm, lit⟩ := f
  cases u <;> first | rfl | exact absurd hl (not_vec rfl rfl) | exact absurd hl (not_uni rfl rfl)

theorem fmin (f : Fields) : Statement (.fmin f) := by
  refine of_entry .fmin rfl rfl fun hl => ?_
  obtain ⟨u, x, w, a, b, c, gn, gi, d, ty, imm, lit⟩ := f
  cases u <;> first | rfl | exact absurd hl (not_vec rfl rfl) | exact absurd hl (not_uni rfl rfl)

theorem fmax (f : Fields) : Statement (.fmax f) := by
  refine of_entry .fmax rfl rfl fun hl => ?_
  obtain ⟨u, x, w, a, b, c, gn, gi, d, ty, imm, lit⟩ := f
  cases u <;> first | rfl | exact absurd hl (not_vec rfl rfl) | exact absurd hl (not_uni rfl rfl)

theorem fclass (f : Fields) : Statement (.fclass f) := by
  refine of_entry .fclass rfl rfl fun hl => ?_
  obtain ⟨u, x, w, a, b, c, gn, gi, d, ty, imm, lit⟩ := f
  cases u <;> first | rfl | exact absurd hl (not_vec rfl rfl) | exact absurd hl (not_uni rfl rfl)

theorem fscl (f : Fields) : Statement (.fscl f) := by
  refine of_entry .fscl rfl rfl fun hl => ?_
  obtain ⟨u, x, w, a, b, c, gn, gi, d, ty, imm, lit⟩ := f
  cases u <;> first | rfl | exact absurd hl (not_vec rfl rfl) | exact absurd hl (not_uni rfl rfl)

theorem ffrx (f : Fields) : Statement (.ffrx f) := by
  refine of_entry .ffrx rfl rfl fun hl => ?_
  obtain ⟨u, x, w, a, b, c, gn, gi, d, ty, imm, lit⟩ := f
  cases u <;> first | rfl | exact absurd hl (not_vec rfl rfl) | exact absurd hl (not_uni rfl rfl)

theorem frnd (f : Fields) : Statement (.frnd f) := by
  refine of_entry .frnd rfl rfl fun hl => ?_
  obtain ⟨u, x, w, a, b, c, gn, gi, d, ty, imm, lit⟩ := f
  cases u <;> first | rfl | exact absurd hl (not_vec rfl rfl) | exact absurd hl (not_uni rfl rfl)

theorem fdiv (f : Fields) : Statement (.fdiv f) := by
  refine of_entry .fdiv rfl rfl fun hl => ?_
  obtain ⟨u, x, w, a, b, c, gn, gi, d, ty, imm, lit⟩ := f
  cases u <;> first | rfl | exact absurd hl (not_vec rfl rfl) | exact absurd hl (not_uni rfl rfl)

theorem frcp (f : Fields) : Statement (.frcp f) := by
  refine of_entry .frcp rfl rfl fun hl => ?_
  obtain ⟨u, x, w, a, b, c, gn, gi, d, ty, imm, lit⟩ := f
  cases u <;> first | rfl | exact absurd hl (not_vec rfl rfl) | exact absurd hl (not_uni rfl rfl)

theorem frsq (f : Fields) : Statement (.frsq f) := by
  refine of_entry .frsq rfl rfl fun hl => ?_
  obtain ⟨u, x, w, a, b, c, gn, gi, d, ty, imm, lit⟩ := f
  cases u <;> first | rfl | exact absurd hl (not_vec rfl rfl) | exact absurd hl (not_uni rfl rfl)

theorem fsqrt (f : Fields) : Statement (.fsqrt f) := by
  refine of_entry .fsqrt rfl rfl fun hl => ?_
  obtain ⟨u, x, w, a, b, c, gn, gi, d, ty, imm, lit⟩ := f
  cases u <;> first | rfl | exact absurd hl (not_vec rfl rfl) | exact absurd hl (not_uni rfl rfl)

theorem fexp2 (f : Fields) : Statement (.fexp2 f) := by
  refine of_entry .fexp2 rfl rfl fun hl => ?_
  obtain ⟨u, x, w, a, b, c, gn, gi, d, ty, imm, lit⟩ := f
  cases u <;> first | rfl | exact absurd hl (not_vec rfl rfl) | exact absurd hl (not_uni rfl rfl)

theorem flog2 (f : Fields) : Statement (.flog2 f) := by
  refine of_entry .flog2 rfl rfl fun hl => ?_
  obtain ⟨u, x, w, a, b, c, gn, gi, d, ty, imm, lit⟩ := f
  cases u <;> first | rfl | exact absurd hl (not_vec rfl rfl) | exact absurd hl (not_uni rfl rfl)

theorem fsin (f : Fields) : Statement (.fsin f) := by
  refine of_entry .fsin rfl rfl fun hl => ?_
  obtain ⟨u, x, w, a, b, c, gn, gi, d, ty, imm, lit⟩ := f
  cases u <;> first | rfl | exact absurd hl (not_vec rfl rfl) | exact absurd hl (not_uni rfl rfl)

theorem fcos (f : Fields) : Statement (.fcos f) := by
  refine of_entry .fcos rfl rfl fun hl => ?_
  obtain ⟨u, x, w, a, b, c, gn, gi, d, ty, imm, lit⟩ := f
  cases u <;> first | rfl | exact absurd hl (not_vec rfl rfl) | exact absurd hl (not_uni rfl rfl)

theorem hadd2 (f : Fields) : Statement (.hadd2 f) := by
  refine of_entry .hadd2 rfl rfl fun hl => ?_
  obtain ⟨u, x, w, a, b, c, gn, gi, d, ty, imm, lit⟩ := f
  cases u <;> first | rfl | exact absurd hl (not_vec rfl rfl) | exact absurd hl (not_uni rfl rfl)

theorem hmul2 (f : Fields) : Statement (.hmul2 f) := by
  refine of_entry .hmul2 rfl rfl fun hl => ?_
  obtain ⟨u, x, w, a, b, c, gn, gi, d, ty, imm, lit⟩ := f
  cases u <;> first | rfl | exact absurd hl (not_vec rfl rfl) | exact absurd hl (not_uni rfl rfl)

theorem hfma2 (f : Fields) : Statement (.hfma2 f) := by
  refine of_entry .hfma2 rfl rfl fun hl => ?_
  obtain ⟨u, x, w, a, b, c, gn, gi, d, ty, imm, lit⟩ := f
  cases u <;> first | rfl | exact absurd hl (not_vec rfl rfl) | exact absurd hl (not_uni rfl rfl)

theorem hmin2 (f : Fields) : Statement (.hmin2 f) := by
  refine of_entry .hmin2 rfl rfl fun hl => ?_
  obtain ⟨u, x, w, a, b, c, gn, gi, d, ty, imm, lit⟩ := f
  cases u <;> first | rfl | exact absurd hl (not_vec rfl rfl) | exact absurd hl (not_uni rfl rfl)

theorem hmax2 (f : Fields) : Statement (.hmax2 f) := by
  refine of_entry .hmax2 rfl rfl fun hl => ?_
  obtain ⟨u, x, w, a, b, c, gn, gi, d, ty, imm, lit⟩ := f
  cases u <;> first | rfl | exact absurd hl (not_vec rfl rfl) | exact absurd hl (not_uni rfl rfl)

theorem fcvt (f : Fields) : Statement (.fcvt f) := by
  refine of_entry .fcvt rfl rfl fun hl => ?_
  obtain ⟨u, x, w, a, b, c, gn, gi, d, ty, imm, lit⟩ := f
  cases u <;> first | rfl | exact absurd hl (not_vec rfl rfl) | exact absurd hl (not_uni rfl rfl)

theorem f2i (f : Fields) : Statement (.f2i f) := by
  refine of_entry .f2i rfl rfl fun hl => ?_
  obtain ⟨u, x, w, a, b, c, gn, gi, d, ty, imm, lit⟩ := f
  cases u <;> first | rfl | exact absurd hl (not_vec rfl rfl) | exact absurd hl (not_uni rfl rfl)

theorem i2f (f : Fields) : Statement (.i2f f) := by
  refine of_entry .i2f rfl rfl fun hl => ?_
  obtain ⟨u, x, w, a, b, c, gn, gi, d, ty, imm, lit⟩ := f
  cases u <;> first | rfl | exact absurd hl (not_vec rfl rfl) | exact absurd hl (not_uni rfl rfl)

theorem pack (f : Fields) : Statement (.pack f) := by
  refine of_entry .pack rfl rfl fun hl => ?_
  obtain ⟨u, x, w, a, b, c, gn, gi, d, ty, imm, lit⟩ := f
  cases u <;> first | rfl | exact absurd hl (not_vec rfl rfl) | exact absurd hl (not_uni rfl rfl)

theorem unpk (f : Fields) : Statement (.unpk f) := by
  refine of_entry .unpk rfl rfl fun hl => ?_
  obtain ⟨u, x, w, a, b, c, gn, gi, d, ty, imm, lit⟩ := f
  cases u <;> first | rfl | exact absurd hl (not_vec rfl rfl) | exact absurd hl (not_uni rfl rfl)

theorem mxcvt (f : Fields) : Statement (.mxcvt f) := by
  refine of_entry .mxcvt rfl rfl fun hl => ?_
  obtain ⟨u, x, w, a, b, c, gn, gi, d, ty, imm, lit⟩ := f
  cases u <;> first | rfl | exact absurd hl (not_vec rfl rfl) | exact absurd hl (not_uni rfl rfl)

theorem ld (f : Fields) : Statement (.ld f) := by
  refine of_entry .ld rfl rfl fun hl => ?_
  obtain ⟨u, x, w, a, b, c, gn, gi, d, ty, imm, lit⟩ := f
  cases u <;> first | rfl | exact absurd hl (not_vec rfl rfl) | exact absurd hl (not_uni rfl rfl)

theorem st (f : Fields) : Statement (.st f) := by
  refine of_entry .st rfl rfl fun hl => ?_
  obtain ⟨u, x, w, a, b, c, gn, gi, d, ty, imm, lit⟩ := f
  cases u <;> first | rfl | exact absurd hl (not_vec rfl rfl) | exact absurd hl (not_uni rfl rfl)

theorem ldx (f : Fields) : Statement (.ldx f) := by
  refine of_entry .ldx rfl rfl fun hl => ?_
  obtain ⟨u, x, w, a, b, c, gn, gi, d, ty, imm, lit⟩ := f
  cases u <;> first | rfl | exact absurd hl (not_vec rfl rfl) | exact absurd hl (not_uni rfl rfl)

theorem pfm (f : Fields) : Statement (.pfm f) := by
  refine of_entry .pfm rfl rfl fun hl => ?_
  obtain ⟨u, x, w, a, b, c, gn, gi, d, ty, imm, lit⟩ := f
  cases u <;> first | rfl | exact absurd hl (not_vec rfl rfl) | exact absurd hl (not_uni rfl rfl)

theorem cflush (f : Fields) : Statement (.cflush f) := by
  refine of_entry .cflush rfl rfl fun hl => ?_
  obtain ⟨u, x, w, a, b, c, gn, gi, d, ty, imm, lit⟩ := f
  cases u <;> first | rfl | exact absurd hl (not_vec rfl rfl) | exact absurd hl (not_uni rfl rfl)

theorem cinv (f : Fields) : Statement (.cinv f) := by
  refine of_entry .cinv rfl rfl fun hl => ?_
  obtain ⟨u, x, w, a, b, c, gn, gi, d, ty, imm, lit⟩ := f
  cases u <;> first | rfl | exact absurd hl (not_vec rfl rfl) | exact absurd hl (not_uni rfl rfl)

theorem lds (f : Fields) : Statement (.lds f) := by
  refine of_entry .lds rfl rfl fun hl => ?_
  obtain ⟨u, x, w, a, b, c, gn, gi, d, ty, imm, lit⟩ := f
  cases u <;> first | rfl | exact absurd hl (not_vec rfl rfl) | exact absurd hl (not_uni rfl rfl)

theorem sts (f : Fields) : Statement (.sts f) := by
  refine of_entry .sts rfl rfl fun hl => ?_
  obtain ⟨u, x, w, a, b, c, gn, gi, d, ty, imm, lit⟩ := f
  cases u <;> first | rfl | exact absurd hl (not_vec rfl rfl) | exact absurd hl (not_uni rfl rfl)

theorem atoms (f : Fields) : Statement (.atoms f) := by
  refine of_entry .atoms rfl rfl fun hl => ?_
  obtain ⟨u, x, w, a, b, c, gn, gi, d, ty, imm, lit⟩ := f
  cases u <;> first | rfl | exact absurd hl (not_vec rfl rfl) | exact absurd hl (not_uni rfl rfl)

theorem atom (f : Fields) : Statement (.atom f) := by
  refine of_entry .atom rfl rfl fun hl => ?_
  obtain ⟨u, x, w, a, b, c, gn, gi, d, ty, imm, lit⟩ := f
  cases u <;> first | rfl | exact absurd hl (not_vec rfl rfl) | exact absurd hl (not_uni rfl rfl)

theorem red (f : Fields) : Statement (.red f) := by
  refine of_entry .red rfl rfl fun hl => ?_
  obtain ⟨u, x, w, a, b, c, gn, gi, d, ty, imm, lit⟩ := f
  cases u <;> first | rfl | exact absurd hl (not_vec rfl rfl) | exact absurd hl (not_uni rfl rfl)

theorem xred (f : Fields) : Statement (.xred f) := by
  refine of_entry .xred rfl rfl fun hl => ?_
  obtain ⟨u, x, w, a, b, c, gn, gi, d, ty, imm, lit⟩ := f
  cases u <;> first | rfl | exact absurd hl (not_vec rfl rfl) | exact absurd hl (not_uni rfl rfl)

theorem fence (f : Fields) : Statement (.fence f) := by
  refine of_entry .fence rfl rfl fun hl => ?_
  obtain ⟨u, x, w, a, b, c, gn, gi, d, ty, imm, lit⟩ := f
  cases u <;> first | rfl | exact absurd hl (not_vec rfl rfl) | exact absurd hl (not_uni rfl rfl)

theorem mon (f : Fields) : Statement (.mon f) := by
  refine of_entry .mon rfl rfl fun hl => ?_
  obtain ⟨u, x, w, a, b, c, gn, gi, d, ty, imm, lit⟩ := f
  cases u <;> first | rfl | exact absurd hl (not_vec rfl rfl) | exact absurd hl (not_uni rfl rfl)

theorem mwait (f : Fields) : Statement (.mwait f) := by
  refine of_entry .mwait rfl rfl fun hl => ?_
  obtain ⟨u, x, w, a, b, c, gn, gi, d, ty, imm, lit⟩ := f
  cases u <;> first | rfl | exact absurd hl (not_vec rfl rfl) | exact absurd hl (not_uni rfl rfl)

theorem hinit (f : Fields) : Statement (.hinit f) := by
  refine of_entry .hinit rfl rfl fun hl => ?_
  obtain ⟨u, x, w, a, b, c, gn, gi, d, ty, imm, lit⟩ := f
  cases u <;> first | rfl | exact absurd hl (not_vec rfl rfl) | exact absurd hl (not_uni rfl rfl)

theorem harv (f : Fields) : Statement (.harv f) := by
  refine of_entry .harv rfl rfl fun hl => ?_
  obtain ⟨u, x, w, a, b, c, gn, gi, d, ty, imm, lit⟩ := f
  cases u <;> first | rfl | exact absurd hl (not_vec rfl rfl) | exact absurd hl (not_uni rfl rfl)

theorem hdrop (f : Fields) : Statement (.hdrop f) := by
  refine of_entry .hdrop rfl rfl fun hl => ?_
  obtain ⟨u, x, w, a, b, c, gn, gi, d, ty, imm, lit⟩ := f
  cases u <;> first | rfl | exact absurd hl (not_vec rfl rfl) | exact absurd hl (not_uni rfl rfl)

theorem hwait (f : Fields) : Statement (.hwait f) := by
  refine of_entry .hwait rfl rfl fun hl => ?_
  obtain ⟨u, x, w, a, b, c, gn, gi, d, ty, imm, lit⟩ := f
  cases u <;> first | rfl | exact absurd hl (not_vec rfl rfl) | exact absurd hl (not_uni rfl rfl)

theorem htest (f : Fields) : Statement (.htest f) := by
  refine of_entry .htest rfl rfl fun hl => ?_
  obtain ⟨u, x, w, a, b, c, gn, gi, d, ty, imm, lit⟩ := f
  cases u <;> first | rfl | exact absurd hl (not_vec rfl rfl) | exact absurd hl (not_uni rfl rfl)

theorem cwait (f : Fields) : Statement (.cwait f) := by
  refine of_entry .cwait rfl rfl fun hl => ?_
  obtain ⟨u, x, w, a, b, c, gn, gi, d, ty, imm, lit⟩ := f
  cases u <;> first | rfl | exact absurd hl (not_vec rfl rfl) | exact absurd hl (not_uni rfl rfl)

theorem acpy (f : Fields) : Statement (.acpy f) := by
  refine of_entry .acpy rfl rfl fun hl => ?_
  obtain ⟨u, x, w, a, b, c, gn, gi, d, ty, imm, lit⟩ := f
  cases u <;> first | rfl | exact absurd hl (not_vec rfl rfl) | exact absurd hl (not_uni rfl rfl)

theorem bcpy (f : Fields) : Statement (.bcpy f) := by
  refine of_entry .bcpy rfl rfl fun hl => ?_
  obtain ⟨u, x, w, a, b, c, gn, gi, d, ty, imm, lit⟩ := f
  cases u <;> first | rfl | exact absurd hl (not_vec rfl rfl) | exact absurd hl (not_uni rfl rfl)

theorem gath (f : Fields) : Statement (.gath f) := by
  refine of_entry .gath rfl rfl fun hl => ?_
  obtain ⟨u, x, w, a, b, c, gn, gi, d, ty, imm, lit⟩ := f
  cases u <;> first | rfl | exact absurd hl (not_vec rfl rfl) | exact absurd hl (not_uni rfl rfl)

theorem scat (f : Fields) : Statement (.scat f) := by
  refine of_entry .scat rfl rfl fun hl => ?_
  obtain ⟨u, x, w, a, b, c, gn, gi, d, ty, imm, lit⟩ := f
  cases u <;> first | rfl | exact absurd hl (not_vec rfl rfl) | exact absurd hl (not_uni rfl rfl)

theorem ncall (f : Fields) : Statement (.ncall f) := by
  refine of_entry .ncall rfl rfl fun hl => ?_
  obtain ⟨u, x, w, a, b, c, gn, gi, d, ty, imm, lit⟩ := f
  cases u <;> first | rfl | exact absurd hl (not_vec rfl rfl) | exact absurd hl (not_uni rfl rfl)

theorem nret (f : Fields) : Statement (.nret f) := by
  refine of_entry .nret rfl rfl fun hl => ?_
  obtain ⟨u, x, w, a, b, c, gn, gi, d, ty, imm, lit⟩ := f
  cases u <;> first | rfl | exact absurd hl (not_vec rfl rfl) | exact absurd hl (not_uni rfl rfl)

theorem finst (f : Fields) : Statement (.finst f) := by
  refine of_entry .finst rfl rfl fun hl => ?_
  obtain ⟨u, x, w, a, b, c, gn, gi, d, ty, imm, lit⟩ := f
  cases u <;> first | rfl | exact absurd hl (not_vec rfl rfl) | exact absurd hl (not_uni rfl rfl)

theorem fqry (f : Fields) : Statement (.fqry f) := by
  refine of_entry .fqry rfl rfl fun hl => ?_
  obtain ⟨u, x, w, a, b, c, gn, gi, d, ty, imm, lit⟩ := f
  cases u <;> first | rfl | exact absurd hl (not_vec rfl rfl) | exact absurd hl (not_uni rfl rfl)

theorem mxacq (f : Fields) : Statement (.mxacq f) := by
  refine of_entry .mxacq rfl rfl fun hl => ?_
  obtain ⟨u, x, w, a, b, c, gn, gi, d, ty, imm, lit⟩ := f
  cases u <;> first | rfl | exact absurd hl (not_vec rfl rfl) | exact absurd hl (not_uni rfl rfl)

theorem mxrel (f : Fields) : Statement (.mxrel f) := by
  refine of_entry .mxrel rfl rfl fun hl => ?_
  obtain ⟨u, x, w, a, b, c, gn, gi, d, ty, imm, lit⟩ := f
  cases u <;> first | rfl | exact absurd hl (not_vec rfl rfl) | exact absurd hl (not_uni rfl rfl)

theorem lmma (f : Fields) : Statement (.lmma f) := by
  refine of_entry .lmma rfl rfl fun hl => ?_
  obtain ⟨u, x, w, a, b, c, gn, gi, d, ty, imm, lit⟩ := f
  cases u <;> first | rfl | exact absurd hl (not_vec rfl rfl) | exact absurd hl (not_uni rfl rfl)

theorem lmz (f : Fields) : Statement (.lmz f) := by
  refine of_entry .lmz rfl rfl fun hl => ?_
  obtain ⟨u, x, w, a, b, c, gn, gi, d, ty, imm, lit⟩ := f
  cases u <;> first | rfl | exact absurd hl (not_vec rfl rfl) | exact absurd hl (not_uni rfl rfl)

theorem lmld (f : Fields) : Statement (.lmld f) := by
  refine of_entry .lmld rfl rfl fun hl => ?_
  obtain ⟨u, x, w, a, b, c, gn, gi, d, ty, imm, lit⟩ := f
  cases u <;> first | rfl | exact absurd hl (not_vec rfl rfl) | exact absurd hl (not_uni rfl rfl)

theorem lmst (f : Fields) : Statement (.lmst f) := by
  refine of_entry .lmst rfl rfl fun hl => ?_
  obtain ⟨u, x, w, a, b, c, gn, gi, d, ty, imm, lit⟩ := f
  cases u <;> first | rfl | exact absurd hl (not_vec rfl rfl) | exact absurd hl (not_uni rfl rfl)

theorem lmscl (f : Fields) : Statement (.lmscl f) := by
  refine of_entry .lmscl rfl rfl fun hl => ?_
  obtain ⟨u, x, w, a, b, c, gn, gi, d, ty, imm, lit⟩ := f
  cases u <;> first | rfl | exact absurd hl (not_vec rfl rfl) | exact absurd hl (not_uni rfl rfl)

theorem lmsav (f : Fields) : Statement (.lmsav f) := by
  refine of_entry .lmsav rfl rfl fun hl => ?_
  obtain ⟨u, x, w, a, b, c, gn, gi, d, ty, imm, lit⟩ := f
  cases u <;> first | rfl | exact absurd hl (not_vec rfl rfl) | exact absurd hl (not_uni rfl rfl)

theorem lmrst (f : Fields) : Statement (.lmrst f) := by
  refine of_entry .lmrst rfl rfl fun hl => ?_
  obtain ⟨u, x, w, a, b, c, gn, gi, d, ty, imm, lit⟩ := f
  cases u <;> first | rfl | exact absurd hl (not_vec rfl rfl) | exact absurd hl (not_uni rfl rfl)

theorem kvtr (f : Fields) : Statement (.kvtr f) := by
  refine of_entry .kvtr rfl rfl fun hl => ?_
  obtain ⟨u, x, w, a, b, c, gn, gi, d, ty, imm, lit⟩ := f
  cases u <;> first | rfl | exact absurd hl (not_vec rfl rfl) | exact absurd hl (not_uni rfl rfl)

theorem kvld (f : Fields) : Statement (.kvld f) := by
  refine of_entry .kvld rfl rfl fun hl => ?_
  obtain ⟨u, x, w, a, b, c, gn, gi, d, ty, imm, lit⟩ := f
  cases u <;> first | rfl | exact absurd hl (not_vec rfl rfl) | exact absurd hl (not_uni rfl rfl)

theorem kvinv (f : Fields) : Statement (.kvinv f) := by
  refine of_entry .kvinv rfl rfl fun hl => ?_
  obtain ⟨u, x, w, a, b, c, gn, gi, d, ty, imm, lit⟩ := f
  cases u <;> first | rfl | exact absurd hl (not_vec rfl rfl) | exact absurd hl (not_uni rfl rfl)

theorem smxi (f : Fields) : Statement (.smxi f) := by
  refine of_entry .smxi rfl rfl fun hl => ?_
  obtain ⟨u, x, w, a, b, c, gn, gi, d, ty, imm, lit⟩ := f
  cases u <;> first | rfl | exact absurd hl (not_vec rfl rfl) | exact absurd hl (not_uni rfl rfl)

theorem smxu (f : Fields) : Statement (.smxu f) := by
  refine of_entry .smxu rfl rfl fun hl => ?_
  obtain ⟨u, x, w, a, b, c, gn, gi, d, ty, imm, lit⟩ := f
  cases u <;> first | rfl | exact absurd hl (not_vec rfl rfl) | exact absurd hl (not_uni rfl rfl)

theorem smxn (f : Fields) : Statement (.smxn f) := by
  refine of_entry .smxn rfl rfl fun hl => ?_
  obtain ⟨u, x, w, a, b, c, gn, gi, d, ty, imm, lit⟩ := f
  cases u <;> first | rfl | exact absurd hl (not_vec rfl rfl) | exact absurd hl (not_uni rfl rfl)

theorem rhdef (f : Fields) : Statement (.rhdef f) := by
  refine of_entry .rhdef rfl rfl fun hl => ?_
  obtain ⟨u, x, w, a, b, c, gn, gi, d, ty, imm, lit⟩ := f
  cases u <;> first | rfl | exact absurd hl (not_vec rfl rfl) | exact absurd hl (not_uni rfl rfl)

theorem rhpri (f : Fields) : Statement (.rhpri f) := by
  refine of_entry .rhpri rfl rfl fun hl => ?_
  obtain ⟨u, x, w, a, b, c, gn, gi, d, ty, imm, lit⟩ := f
  cases u <;> first | rfl | exact absurd hl (not_vec rfl rfl) | exact absurd hl (not_uni rfl rfl)

theorem rhevict (f : Fields) : Statement (.rhevict f) := by
  refine of_entry .rhevict rfl rfl fun hl => ?_
  obtain ⟨u, x, w, a, b, c, gn, gi, d, ty, imm, lit⟩ := f
  cases u <;> first | rfl | exact absurd hl (not_vec rfl rfl) | exact absurd hl (not_uni rfl rfl)

theorem ipf (f : Fields) : Statement (.ipf f) := by
  refine of_entry .ipf rfl rfl fun hl => ?_
  obtain ⟨u, x, w, a, b, c, gn, gi, d, ty, imm, lit⟩ := f
  cases u <;> first | rfl | exact absurd hl (not_vec rfl rfl) | exact absurd hl (not_uni rfl rfl)

theorem ipin (f : Fields) : Statement (.ipin f) := by
  refine of_entry .ipin rfl rfl fun hl => ?_
  obtain ⟨u, x, w, a, b, c, gn, gi, d, ty, imm, lit⟩ := f
  cases u <;> first | rfl | exact absurd hl (not_vec rfl rfl) | exact absurd hl (not_uni rfl rfl)

theorem iunpin (f : Fields) : Statement (.iunpin f) := by
  refine of_entry .iunpin rfl rfl fun hl => ?_
  obtain ⟨u, x, w, a, b, c, gn, gi, d, ty, imm, lit⟩ := f
  cases u <;> first | rfl | exact absurd hl (not_vec rfl rfl) | exact absurd hl (not_uni rfl rfl)

theorem pmap (f : Fields) : Statement (.pmap f) := by
  refine of_entry .pmap rfl rfl fun hl => ?_
  obtain ⟨u, x, w, a, b, c, gn, gi, d, ty, imm, lit⟩ := f
  cases u <;> first | rfl | exact absurd hl (not_vec rfl rfl) | exact absurd hl (not_uni rfl rfl)

theorem pfwait (f : Fields) : Statement (.pfwait f) := by
  refine of_entry .pfwait rfl rfl fun hl => ?_
  obtain ⟨u, x, w, a, b, c, gn, gi, d, ty, imm, lit⟩ := f
  cases u <;> first | rfl | exact absurd hl (not_vec rfl rfl) | exact absurd hl (not_uni rfl rfl)

theorem tlbi (f : Fields) : Statement (.tlbi f) := by
  refine of_entry .tlbi rfl rfl fun hl => ?_
  obtain ⟨u, x, w, a, b, c, gn, gi, d, ty, imm, lit⟩ := f
  cases u <;> first | rfl | exact absurd hl (not_vec rfl rfl) | exact absurd hl (not_uni rfl rfl)

theorem trapEntry (k : Nat) : Statement (.trapEntry k) := of_none rfl

theorem loadReturn (op : Nat) (data : List Val) : Statement (.loadReturn op data) := of_none rfl

theorem storePerformed (op : Nat) : Statement (.storePerformed op) := of_none rfl

theorem fifoWriteback (core : Nat) : Statement (.fifoWriteback core) := of_none rfl

theorem releaseComplete (r : ReleaseRef) : Statement (.releaseComplete r) := of_none rfl

theorem walkComplete (k : Nat) : Statement (.walkComplete k) := of_none rfl

theorem accessFault (op : Nat) (remote : Mask) (ecc : Bool) : Statement (.accessFault op remote ecc) := of_none rfl

theorem lmmaFragmentRead (core member : Nat) (stale : List (Nat × Nat)) : Statement (.lmmaFragmentRead core member stale) := of_none rfl

theorem latticeProduct (core : Nat) : Statement (.latticeProduct core) := of_none rfl

theorem latticeGrant (core : Nat) (carry : Carry) : Statement (.latticeGrant core carry) := of_none rfl

theorem engineAccept (core : Nat) (stale : Byte) (data : List Byte) : Statement (.engineAccept core stale data) := of_none rfl

theorem engineCredit (op lo n : Nat) (data : List Byte) : Statement (.engineCredit op lo n data) := of_none rfl

theorem acpyComplete (op : Nat) : Statement (.acpyComplete op) := of_none rfl

theorem engineFault (op : Nat) (link ecc : Bool) : Statement (.engineFault op link ecc) := of_none rfl

theorem memsideReduction (r : ReductionRef) : Statement (.memsideReduction r) := of_none rfl

theorem xredResult (op port : Nat) (others : List Contribution) : Statement (.xredResult op port others) := of_none rfl

theorem stagingFillDone (block : Nat) : Statement (.stagingFillDone block) := of_none rfl

theorem segmentInstallDone (req : Nat) (result : InstallResult) (data : List Byte) : Statement (.segmentInstallDone req result data) := of_none rfl

theorem ncallStart (call hcore : Nat) : Statement (.ncallStart call hcore) := of_none rfl

theorem ncallBusyTimeout (call : Nat) : Statement (.ncallBusyTimeout call) := of_none rfl

theorem migrationSelect (ctx page : Nat) (dest : FrameRef) : Statement (.migrationSelect ctx page dest) := of_none rfl

theorem migrationDrained (ctx page : Nat) : Statement (.migrationDrained ctx page) := of_none rfl

theorem migrationCopyDone (ctx page : Nat) (ok : Bool) (data : List Byte) : Statement (.migrationCopyDone ctx page ok data) := of_none rfl

theorem migrationRemapDone (ctx page : Nat) : Statement (.migrationRemapDone ctx page) := of_none rfl

theorem migrationReleaseDone (ctx page : Nat) : Statement (.migrationReleaseDone ctx page) := of_none rfl

theorem selfRefreshEntry (stack : Nat) : Statement (.selfRefreshEntry stack) := of_none rfl

theorem selfRefreshExit (stack : Nat) : Statement (.selfRefreshExit stack) := of_none rfl

theorem recordHead (q : QueueRef) (data : List Byte) : Statement (.recordHead q data) := of_none rfl

theorem eventWordRead (grid : Nat) : Statement (.eventWordRead grid) := of_none rfl

theorem dispatchDecision : Statement (.dispatchDecision) := of_none rfl

theorem workgroupDone (wg : Nat) : Statement (.workgroupDone wg) := of_none rfl

theorem gridRetire (grid : Nat) : Statement (.gridRetire grid) := of_none rfl

theorem drainDeadline (ctx core : Nat) : Statement (.drainDeadline ctx core) := of_none rfl

theorem timeSliceExpiry (ctx : Nat) : Statement (.timeSliceExpiry ctx) := of_none rfl

theorem tier2Timeout (op : Nat) : Statement (.tier2Timeout op) := of_none rfl

theorem atsCompletion (page : Nat) (answer : AtsAnswer) : Statement (.atsCompletion page answer) := of_none rfl

theorem priResponse (page : Nat) (answer : AtsAnswer) : Statement (.priResponse page answer) := of_none rfl

theorem atsInvalidate (page : Nat) : Statement (.atsInvalidate page) := of_none rfl

theorem remoteAccess (r : RemoteRequest) : Statement (.remoteAccess r) := of_none rfl

theorem peerBlockRead (r : BlockRequest) : Statement (.peerBlockRead r) := of_none rfl

theorem doorbell (slot : Nat) (t : Word) : Statement (.doorbell slot t) := of_none rfl

theorem pfcOk (seq : Nat) : Statement (.pfcOk seq) := of_none rfl

theorem pfcFail (seq : Nat) : Statement (.pfcFail seq) := of_none rfl

theorem irqClear (bits : DWord) : Statement (.irqClear bits) := of_none rfl

theorem slotCtlWrite (slot : Nat) (reg : SlotReg) (v : DWord) : Statement (.slotCtlWrite slot reg v) := of_none rfl

theorem slotRestart (slot : Nat) (v : DWord) : Statement (.slotRestart slot v) := of_none rfl

theorem ctxCreate (ctx : Nat) : Statement (.ctxCreate ctx) := of_none rfl

theorem ctxDrain (ctx : Nat) : Statement (.ctxDrain ctx) := of_none rfl

theorem ctxDestroy (ctx : Nat) : Statement (.ctxDestroy ctx) := of_none rfl

theorem migbWrite (ctx : Nat) (v : DWord) : Statement (.migbWrite ctx v) := of_none rfl

theorem instbWrite (ctx : Nat) (v : DWord) : Statement (.instbWrite ctx v) := of_none rfl

theorem ctxAxfClear (ctx : Nat) (v : DWord) : Statement (.ctxAxfClear ctx v) := of_none rfl

theorem flogptrWrite (ctx : Nat) (v : DWord) : Statement (.flogptrWrite ctx v) := of_none rfl

theorem mlogptrWrite (ctx : Nat) (v : DWord) : Statement (.mlogptrWrite ctx v) := of_none rfl

theorem registerWrite (offset : Nat) (v : DWord) : Statement (.registerWrite offset v) := of_none rfl

theorem powerOn : Statement (.powerOn) := of_none rfl

theorem bringupComplete (results : List UnitResult) : Statement (.bringupComplete results) := of_none rfl

theorem reboot : Statement (.reboot) := of_none rfl

theorem commit : Statement (.commit) := of_none rfl

theorem commitComplete (ok : Bool) : Statement (.commitComplete ok) := of_none rfl

theorem powerLoss : Statement (.powerLoss) := of_none rfl

theorem thermalTrip (zone : Nat) : Statement (.thermalTrip zone) := of_none rfl

theorem getVersion (req : List Byte) : Statement (.getVersion req) := of_none rfl

theorem getCapabilities (req : List Byte) : Statement (.getCapabilities req) := of_none rfl

theorem negotiateAlgorithms (req : List Byte) : Statement (.negotiateAlgorithms req) := of_none rfl

theorem getDigests (req : List Byte) : Statement (.getDigests req) := of_none rfl

theorem getCertificate (req : List Byte) : Statement (.getCertificate req) := of_none rfl

theorem challenge (req : List Byte) : Statement (.challenge req) := of_none rfl

theorem getMeasurements (req : List Byte) : Statement (.getMeasurements req) := of_none rfl

theorem spdmUnsupported (req : List Byte) : Statement (.spdmUnsupported req) := of_none rfl

theorem reservedOpcode (base : Word) (mod : Option Word) : Statement (.reservedOpcode base mod) := of_none rfl

theorem fqptrWrite (v : DWord) : Statement (.fqptrWrite v) := of_none rfl

theorem rangeMaintenanceComplete (op : Nat) : Statement (.rangeMaintenanceComplete op) := of_none rfl

theorem handleEvictionComplete (op : Nat) : Statement (.handleEvictionComplete op) := of_none rfl

theorem remoteAcknowledgement (op : Nat) (data : List Val) : Statement (.remoteAcknowledgement op data) := of_none rfl

theorem tileOperationPerformed (core op : Nat) : Statement (.tileOperationPerformed core op) := of_none rfl

end Sys2Proof.Laws.Coded
end

