-- ==== Sys2Proof/Tests/Slice0.lean ====
section
/-! SUPPORT. Tests: ill-formed terms, words laid out from the tables of spec/05, single steps, and states that meet the
hypotheses of the statements. -/

namespace Sys2Proof.Tests
open Sys2Proof.Machine Sys2Proof.Forms

/-! ### Fields and states -/

/-- Fields with a modifier word, the guard p7 or q7. -/
def fld (u : Bool) (a b c d : BitVec 7) (ty : BitVec 5) (imm : BitVec 16) : Fields :=
  { u := u, x := true, w := false, a := a, b := b, c := c, gn := false, gi := 7, d := d, ty := ty, imm := imm, lit := none }

/-- Fields without a modifier word, of a row's default type and D. -/
def bare (r : Row) (u : Bool) (a b c : BitVec 7) : Fields :=
  { u := u, x := false, w := false, a := a, b := b, c := c, gn := false, gi := 7, d := r.d0, ty := r.ty0, imm := 0, lit := none }

/-! ### Ill-formed terms (R73 to R80, R88, R89, R93) -/

theorem test_formed : (Instr.iadd (fld false 8 4 12 0 0 0)).wellFormed = true := by decide
/-- `.s16` is no type of IADD. -/
theorem test_bad_type : (Instr.iadd (fld false 8 4 12 0 4 0)).wellFormed = false := by decide
/-- An odd register of a pair. -/
theorem test_bad_pair : (Instr.iadd (fld false 9 4 12 0 2 0)).wellFormed = false := by decide
/-- A latch, `y0`, as a destination. -/
theorem test_bad_dest : (Instr.iadd (fld false 0x78 4 12 0 0 0)).wellFormed = false := by decide
/-- Field value 0x7F names nothing. -/
theorem test_bad_source : (Instr.iadd (fld false 8 0x7F 12 0 0 0)).wellFormed = false := by decide
/-- D is unused by IADD and must be 0. -/
theorem test_bad_unused : (Instr.iadd (fld false 8 4 12 1 0 0)).wellFormed = false := by decide
/-- NEGA is no bit of IADD. -/
theorem test_bad_imm : (Instr.iadd (fld false 8 4 12 0 0 0x10)).wellFormed = false := by decide
/-- Rounding field 5. -/
theorem test_bad_rounding : (Instr.fadd (fld false 8 4 12 0 8 5)).wellFormed = false := by decide
/-- A source that names the literal word, and no literal word. -/
theorem test_bad_literal : (Instr.iadd (fld false 8 0x7E 12 0 0 0)).wellFormed = false := by decide
/-- No modifier word, and a field that only one gives. -/
theorem test_bad_defaults : (Instr.iadd { fld false 8 4 12 0 0 8 with x := false }).wellFormed = false := by decide
/-- SHFL is no instruction of the uniform class. -/
theorem test_bad_class : (Instr.shfl (fld true 8 4 12 0 0 0)).wellFormed = false := by decide
/-- NCALL without a modifier word: its MLEN would be 0. -/
theorem test_bad_no_modifier : (Instr.ncall (bare rowNcall true 8 4 0)).wellFormed = false := by decide
/-- W of a uniform instruction, and W with a destination. -/
theorem test_bad_w : (Instr.iadd { fld true 8 4 12 0 0 0 with w := true }).wellFormed = false ∧
    (Instr.iadd { fld false 8 4 12 0 0 0 with w := true }).wellFormed = false := by decide
/-- A predicate field over 0x0F. -/
theorem test_bad_predicate : (Instr.sel (fld false 8 4 12 0x10 0 0)).wellFormed = false := by decide
/-- OP 0x000 is IADD, so its word is no reserved opcode; OP 0x070 is one, and X = 1 brings a modifier word. -/
theorem test_reserved : (Instr.reservedOpcode 0 none).wellFormed = false ∧ (Instr.reservedOpcode 0x1C0 none).wellFormed = true ∧
    (Instr.reservedOpcode 0x1C2 none).wellFormed = false := by decide

/-! ### Words, laid out from R73, R74, R75, R91 and R92 -/

/-- IADD v8, v4, v12: A 8, B 4, C 12, OP 0x000. -/
theorem test_word_iadd : decodeWords [0x10106000] = .ok (.iadd (bare rowIadd false 8 4 12), 1) := by rfl
/-- AND v8, v4, 0xFFFF: C 0x7E, OP 0x010, and the literal word. -/
theorem test_word_and :
    decodeWords [0x1013F040, 0xFFFF] = .ok (.andI { bare rowAnd false 8 4 0x7E with lit := some 0xFFFF }, 2) := by rfl
/-- SEL v8, v4, v12, p3: OP 0x022, X 1; D 3, GI 7. -/
theorem test_word_sel : decodeWords [0x1010608A, 0x70600000] = .ok (.sel (fld false 8 4 12 3 0 0), 2) := by rfl
/-- BRA two words back: OFF −2 in bits 31:11, OP 0x130. -/
theorem test_word_bra : decodeWords [0xFFFFF4C0] = .ok (.bra (bare rowBra true 0x7F 0x7F 0x7E), 1) := by rfl
/-- FADD.f16 v8, v4, v12 toward zero, guarded by !p2: OP 0x040; GN 1, GI 2, M 9, I16 1. -/
theorem test_word_fadd :
    decodeWords [0x10106102, 0xA0090001] = .ok (.fadd { fld false 8 4 12 0 9 1 with gn := true, gi := 2 }, 2) := by rfl
/-- FSIN v8, v4: OP 0x055, f32 by default. -/
theorem test_word_fsin : decodeWords [0x10100154] = .ok (.fsin (bare rowFsin false 8 4 0), 1) := by rfl
/-- F2I.s32 v8, v4 from f32: OP 0x066; D 8 the source type. -/
theorem test_word_f2i : decodeWords [0x1010019A, 0x71000000] = .ok (.f2i (fld false 8 4 0 8 0 0), 2) := by rfl
/-- LD.s32 v8, [s0:s1 + v12 − 4]: OP 0x080, B 0x60, I16 0xFFFC. -/
theorem test_word_ld : decodeWords [0x11806202, 0x7000FFFC] = .ok (.ld (fld false 8 0x60 12 0 0 0xFFFC), 2) := by rfl
/-- STS s8, [s4 + s12] in the uniform class: OP 0x191. -/
theorem test_word_sts : decodeWords [0x10106644] = .ok (.sts (bare rowSts true 8 4 12), 1) := by rfl
/-- RED of s64, op D 0: OP 0x1A1, M 2. -/
theorem test_word_red : decodeWords [0x10106686, 0x70020000] = .ok (.red (fld true 8 4 12 0 2 0), 2) := by rfl
/-- CWAIT on AC0 at 0: OP 0x1B8, B zr, I16 2. -/
theorem test_word_cwait : decodeWords [0x01F006E2, 0x70000002] = .ok (.cwait (fld true 0 0x7C 0 0 0 2), 2) := by rfl
/-- BCPY of the block at s8: OP 0x1C1. -/
theorem test_word_bcpy : decodeWords [0x10000704] = .ok (.bcpy (bare rowBcpy true 8 0 0), 1) := by rfl
/-- LMZ of tile 5: OP 0x0D3, I16 5. -/
theorem test_word_lmz : decodeWords [0x0000034E, 0x70000005] = .ok (.lmz (fld false 0 0 0 0 0 5), 2) := by rfl
/-- LMLD whose run of source registers is 0x7E: a literal word, third (R71, R259); of a run at v8 none. -/
theorem test_word_lmld :
    decodeWords [0xFC000352, 0x70000000, 5] = .ok (.lmld { fld false 0x7E 0 0 0 0 0 with lit := some 5 }, 3) ∧
    decodeWords [0x10000352, 0x70000000] = .ok (.lmld (fld false 8 0 0 0 0 0), 2) := ⟨rfl, rfl⟩
/-- KVINV of both maps: OP 0x1E2, I16 3. -/
theorem test_word_kvinv : decodeWords [0x0000078A, 0x70000003] = .ok (.kvinv (fld true 0 0 0 0 0 3), 2) := by rfl
/-- TLBI of all pages: OP 0x1F8, I16 2. -/
theorem test_word_tlbi : decodeWords [0x000007E2, 0x70000002] = .ok (.tlbi (fld true 0 0 0 0 0 2), 2) := by rfl
/-- MXCVT is a vector instruction alone: OP 0x06A decodes, OP 0x16A is reserved. -/
theorem test_word_reserved :
    decodeWords [0x000005A8] = .ok (.reservedOpcode 0x5A8 none, 1) ∧ decodeWords [2] = .error .short := ⟨rfl, rfl⟩
/-- OP 0x000 as the table numbers its bits. -/
theorem test_table_word : decodeTableWord 32 0x10106000 = some (.iadd (bare rowIadd false 8 4 12)) := by rfl

/-! ### States in which instructions execute -/

/-- The placed sheaf, number 0 of workgroup 0 and grid 0, selected to issue; and the state with that sheaf changed. -/
def base : State := { State.reset.withFetchWord 0 0 with agenda := [], cur := some 0 }
def with0 (g : Sheaf → Sheaf) : State := base.onSheaf 0 g
def at0 : Sheaf := placedSheaf 0

/-- In a handler, SUP 1, at level 1 of an ILLOP trap. -/
def supSheaf (sh : Sheaf) : Sheaf := { sh with tlvl := 1, t1 := { tc := 0x00200400, tr := 0x40000, tm := 0xFFFF0001 } }

/-- `s2:s3` and `s8:s9` are the address of the placed page. -/
def pageSheaf (sh : Sheaf) : Sheaf := { sh with s := [(3, 0x40000), (9, 0x40000)] }

/-- A sheaf of a block on heath core 0. -/
def blockState : State :=
  { with0 (fun sh => { sh with home := .block 0, heath := true, core := 0 }) with
    blocks := [(0, { call := 1, ctx := 0, nshf := 1, nreg := 64 })]
    calls := [(1, { ctx := 0, wg := 0, sheaf := 5, core := 0, stack := 0, entry := 0x40000, nsh := 1, nreg := 64, msg := []
                    fpcr := 0, hurdle := 0, status := 0, ranges := [], pages := [], lim := 0, prio := 0
                    rel := { seq := 0, markers := [], after := .exit }, state := .running 0, pc := 0 })] }

/-- Whether the premise of the statements about an instruction, `Executes`, holds of sheaf 0. -/
def runs (r : Row) (f : Fields) (s : State) : Bool :=
  match s.sheaf? 0 with
  | none => false
  | some sh => decide (s.cur = some 0) && (s.sheafs.all fun e => decide (e.1 ≠ 0) || decide (e.2.status ≠ .ready)) &&
      ((issOf r f 0 sh).check s).isNone && !(issOf r f 0 sh).nullified && (issOf r f 0 sh).acts &&
      (issOf r f 0 sh).goTrap.isNone &&
      (!regionFirst r.op || sh.heath || s.regionReady 0 (sh.issuing f))

theorem runs_executes {r f s} (h : runs r f s = true) : ∃ sh, s.sheaf? 0 = some sh ∧ Executes r f s 0 sh := by
  unfold runs at h
  split at h
  · cases h
  · rename_i sh hs
    simp only [Bool.and_eq_true, Bool.or_eq_true, decide_eq_true_eq, Bool.not_eq_true', List.all_eq_true,
      Option.isNone_iff_eq_none] at h
    obtain ⟨⟨⟨⟨⟨⟨h1, h2⟩, h3⟩, h4⟩, h5⟩, h7⟩, h6⟩ := h
    refine ⟨sh, hs, ⟨⟨h1, hs, fun e he hk => (h2 e he).resolve_left (fun h => h hk)⟩, h3, h4, h5, h7, fun hr => ?_⟩⟩
    rcases h6 with (h6 | h6) | h6
    · rw [hr] at h6; cases h6
    · exact .inl h6
    · exact .inr h6

/-- Integer instructions, of the types `.s32`, `.n32`, `.s64`. -/
theorem test_runs_integer :
    [rowIadd, rowIsub, rowImul, rowImad, rowImin, rowImax, rowIsad].all (fun r =>
      runs r (fld false 8 4 12 0 0 0) base && runs r (fld false 8 4 12 0 1 0) base) = true := by decide
theorem test_runs_integer' :
    ([rowImulh, rowIdiv, rowIrem, rowIaddc, rowLea, rowSel, rowShfl].all (fun r => runs r (fld false 8 4 12 0 0 0) base) &&
     [rowIabs, rowIneg, rowMov].all (fun r => runs r (fld false 8 4 0 0 2 0) base) && runs rowNop (fld false 0 0 0 0 0 0) base &&
     runs rowBcast (fld false 8 4 0 0 0 1) base) = true := by decide
theorem test_runs_bits :
    ([rowAnd, rowOr, rowXor, rowAndn, rowShl, rowShr, rowRot, rowBfx, rowBfi].all (fun r =>
       runs r (fld false 8 4 12 0 r.ty0 0) base) && runs rowSar (fld false 8 4 12 0 0 0) base &&
     [rowNot, rowClz, rowPopc, rowBrev].all (fun r => runs r (fld false 8 4 0 0 r.ty0 0) base) &&
     runs rowPerm (fld false 8 4 12 0 rowPerm.ty0 0) base) = true := by decide
theorem test_runs_predicates :
    (runs rowIset (fld false 1 4 12 0 0 0) base && runs rowPlop (fld false 1 2 3 4 0 0xE8) base &&
     runs rowPmov (fld false 8 0 0 0 0 0) base && runs rowPmov (fld false 0 8 0 0 0 0x0301) base &&
     runs rowVote (fld false 1 2 0 0 0 0) base && runs rowVote (fld false 8 2 0 0 0 2) base) = true := by decide
theorem test_runs_control :
    ([rowBra, rowCall].all (fun r => runs r (fld true 0 0 4 0 0 0) base) && runs rowBraEz (fld true 0 0 4 0 1 0) base &&
     [rowBrx, rowRet, rowEmld, rowEmsav, rowWbase, rowRgn, rowExit, rowYield, rowTrap].all (fun r =>
       runs r (fld true 0 0 0 0 r.ty0 0) base) && runs rowCallReg (fld true 0 0 0 0 2 0) base &&
     runs rowEmand (fld false 0 2 0 0 0 0) base && runs rowBrk (fld false 0 0 0 0 0 7) base &&
     runs rowLaunch (fld true 8 4 0 0 0 0) base && runs rowMovs (fld true 8 0 0 0 0 0x0A) base &&
     runs rowSmov (fld true 0 4 0 0 0 0x09) base && runs rowTret (fld true 0 0 0 0 0 0) (with0 supSheaf)) = true := by decide
theorem test_runs_float :
    ([rowFadd, rowFsub, rowFmul, rowFfma, rowFdiv, rowFmin, rowFmax, rowFscl].all (fun r =>
       runs r (fld false 8 4 12 0 8 0) base) && [rowFadd, rowFmul].all (fun r => runs r (fld false 8 4 12 0 9 0) base) &&
     [rowFrcp, rowFrsq, rowFsqrt, rowFexp2, rowFlog2, rowFsin, rowFcos, rowFclass, rowFrnd, rowFfrx].all (fun r =>
       runs r (fld false 8 4 0 0 8 0) base) && runs rowFset (fld false 1 4 12 0 8 0) base) = true := by decide
theorem test_runs_convert :
    ([rowHadd2, rowHmul2, rowHfma2, rowHmin2, rowHmax2].all (fun r => runs r (fld false 8 4 12 0 9 0) base) &&
     runs rowFcvt (fld false 8 4 0 8 9 0) base && runs rowF2i (fld false 8 4 0 8 0 0) base &&
     runs rowI2f (fld false 8 4 0 0 8 0) base && runs rowPack (fld false 8 4 12 0 18 0) base &&
     runs rowUnpk (fld false 8 4 0 0 4 0) base && runs rowMxcvt (fld false 8 4 0 0 12 0) base) = true := by decide
theorem test_runs_memory :
    ([rowLd, rowSt, rowAtom, rowRed].all (fun r => runs r (fld true 4 2 12 0 r.ty0 0) (with0 pageSheaf)) &&
     [rowLd, rowSt, rowLdx, rowAtom, rowRed].all (fun r => runs r (fld false 8 0x62 12 0 r.ty0 0) (with0 pageSheaf)) &&
     [rowLds, rowSts, rowAtoms].all (fun r => runs r (fld false 8 4 12 0 r.ty0 0) base) &&
     [rowPfm, rowCflush, rowCinv].all (fun r => runs r (fld true 0 0 0 0 0 0) base)) = true := by decide
theorem test_runs_sync :
    ([1, 2, 3].all (fun d => runs rowFence (fld true 0 0 0 d 0 0) base) &&
     [rowMon, rowMwait, rowHinit, rowHarv, rowHdrop, rowHwait, rowCwait].all (fun r => runs r (fld true 0 0 0 0 r.ty0 0) base) &&
     runs rowHarv (fld true 0 0 0 1 0 0) base && runs rowHtest (fld true 8 4 0 0 rowHtest.ty0 0) base) = true := by decide
theorem test_runs_engines :
    ([rowBcpy, rowGath, rowScat, rowKvld, rowFinst, rowLmsav, rowLmrst].all (fun r => runs r (fld true 0 0 0 0 r.ty0 0) base) &&
     runs rowXred (fld true 0 0 0 0 8 0) base && runs rowAcpy (fld false 8 0x62 12 12 rowAcpy.ty0 0) (with0 pageSheaf) &&
     runs rowNcall (fld true 8 4 0 0 rowNcall.ty0 16) base && runs rowFqry (fld true 8 4 0 0 rowFqry.ty0 0) base) = true := by decide
theorem test_runs_lattice :
    ([rowMxacq, rowMxrel, rowSmxi, rowSmxu, rowSmxn].all (fun r => runs r (fld true 0 0 0 0 r.ty0 0) base) &&
     runs rowLmma (fld false 0 0 0 0 6 0) base &&
     [rowLmz, rowLmld, rowLmst, rowLmscl].all (fun r => runs r (fld false 0 0 0 0 r.ty0 0) base)) = true := by decide
theorem test_runs_handles :
    (runs rowKvtr (fld true 8 4 12 0 rowKvtr.ty0 0) base && runs rowKvinv (fld true 0 0 0 0 rowKvinv.ty0 1) base &&
     runs rowRhdef (fld true 8 4 12 0 rowRhdef.ty0 0) base && runs rowIpin (fld true 8 4 12 0 rowIpin.ty0 0) base &&
     [rowRhpri, rowRhevict, rowIpf, rowIunpin].all (fun r => runs r (fld true 0 0 0 0 r.ty0 0) base)) = true := by decide
theorem test_runs_system :
    (runs rowPmap (fld true 8 4 12 0 rowPmap.ty0 0) (with0 supSheaf) && runs rowPfwait (fld true 0 0 0 0 rowPfwait.ty0 0) (with0 supSheaf) &&
     runs rowTlbi (fld true 0 0 0 0 rowTlbi.ty0 1) (with0 supSheaf) && runs rowNret (fld true 0 0 0 0 rowNret.ty0 0) blockState) = true := by
  decide
/-! ### States that meet the hypotheses of the statements -/

/-- DecodeEncode, EncodeDecode. -/
theorem test_coded : (Instr.iadd (fld false 8 4 12 0 0 0)).coded.isSome = true ∧
    ∃ b m, Instr.reservedOpcode 0x1C0 none = .reservedOpcode b m := ⟨by decide, _, _, rfl⟩

/-- StepRunsDecoded: a NOP fetched ahead. -/
def aheadState : State := { with0 (fun sh => { sh with ahead := [(0x40000, 0x0000003C)] }) with agenda := [.issue 0] }
theorem test_runs_decoded : ∃ sh, aheadState.sheaf? 0 = some sh ∧ sh.status = .issuing ∧ sh.mayEnter = false ∧
    sh.ahead.get? (sh.pc + 0).toNat = some 0x0000003C ∧ sh.pc.toNat + 12 < 2 ^ 64 := ⟨_, rfl, by decide⟩

/-- StepIssues: its words are got; its page is not mapped; its stack is in self-refresh; a fault waits for it. -/
def fetchKind (s : State) : Nat :=
  match s.sheaf? 0 with
  | none => 9
  | some sh => match (s.fetchInstr sh).1 with | .got .. => 0 | .trap .. => 1 | .wait .. => 2
theorem test_fetches : fetchKind base = 0 ∧ fetchKind (with0 fun sh => { sh with pc := 0x50000 }) = 1 ∧
    fetchKind { base with refresh := [(stackOf 0x40000, 0)] } = 2 ∧ at0.canIssue = true ∧ at0.mayEnter = false := by decide
def fault0 (c : Cause) : Pending :=
  { cause := c, det := 2, acc := 1, mask := 1, ta := 0x50000, dest := 8, dv := false, imp := true, lead := false, len := 1
    ucls := false, w64 := false, rgnpc := 0x40000, rgncnt := 1, seq := 3 }
theorem test_may_enter : { at0 with held := [fault0 .xlate] }.mayEnter = true := by decide
/-- A leaf in the core's TLB. -/
def leaf0 : DWord := 0x20C1F
def tlbState : State := { base with tlbs := [(0, [{ ctx := 0, page := 4, block := false, leaf := leaf0, pte := 0x30020 }])] }
theorem test_cached_fetch : ∃ h, tlbState.checkAddr at0 .fetch 4 0 0x40000 = .ok h ∧ h.xl = .ok leaf0 0x30020 false true ∧
    h.loc.tier = 0 ∧ at0.heath = false ∧ tlbState.unreadable h.loc.addr = false ∧ tlbState.heldAt false h.loc.addr = false ∧
    at0.ahead.get? (0x40000 : DWord).toNat = none := ⟨_, rfl, by decide⟩

/-- StepActs: an event; nothing due and a sheaf that issues; a load that is due. -/
def loadOp (kind : OpKind) (accs : List Access) : Op :=
  { kind := kind, sheaf := 0, home := .wg 0, ctx := 0, core := 0, heath := false, ty := 0, ord := 0, ar := false, aop := 0
    hint := 0, dest := .v 8, words := 1, accs := accs, rgnpc := 0, rgncnt := 0, destField := 8, ucls := false, mask := 1
    markers := [], clk := 0, res := [] }
def acc0 (a : Nat) : Access := { thread := 0, va := a, loc := { tier := 0, peer := 0, addr := a }, lh := 0, x := 0x12345678, e := 0 }
def loadState : State := { base with ops := [(7, loadOp .lds [acc0 16])] }
theorem test_acts : Instr.isEvent .powerLoss = true ∧ base.firstDue = none ∧ base.nextSheaf = some 0 ∧
    loadState.firstDue.isSome = true := by decide

/-- FailedCheckTraps, CheckOrder: the cause of each check, and what it reports. -/
def failed (r : Row) (f : Fields) (s : State) : Option (Cause × DWord) :=
  match s.sheaf? 0 with
  | none => none
  | some sh => ((issOf r f 0 sh).check s).map fun t => (t.cause, t.ta)
theorem test_checks :
    failed rowIadd (fld false 8 0x7F 12 0 0 0) base = some (.illop, 0x11FC6002) ∧
    failed rowTlbi (fld true 0 0 0 0 0 1) base = some (.priv, 0) ∧
    failed rowLmz (fld false 0 0 0 0 0 0) (with0 fun sh => { sh with role := 1 }) = some (.role, 0) ∧
    failed rowLmz (fld false 0 0 0 0 0 0) (with0 supSheaf) = some (.lattice, 0) ∧
    failed rowIadd (fld false 8 4 12 0 0 0) { with0 (fun sh => { sh with wb := 11 }) with
      wgs := [(0, { placedWg 0 with nreg := 96 })] } = some (.window, 96) ∧
    failed rowIadd (fld false 8 0x79 12 0 0 0) base = some (.latch, 1) := by decide

/-- IdleInstructions: negated p7 alone; a predicate that no thread holds, of a branch and of a sum. -/
theorem test_idle : let f := { fld false 8 4 12 0 0 0 with gn := true }
    let g := { fld false 8 4 12 0 0 0 with gi := 0 }
    let b := { fld true 0 0 4 0 0 0 with gi := 0 }
    (issOf rowIadd f 0 at0).nullified = true ∧ ((issOf rowIadd f 0 at0).check base).isNone = true ∧
    (issOf rowIadd g 0 at0).nullified = false ∧ (issOf rowIadd g 0 at0).acts = false ∧ rowIadd.result g = true ∧
    ((issOf rowIadd g 0 at0).check base).isNone = true ∧ (issOf rowBra b 0 at0).acts = false ∧
    ((issOf rowBra b 0 at0).check base).isNone = true := by decide

/-- FailedCheckTraps: a sum in the last word of the address space. -/
theorem test_last : let f := fld false 8 4 12 0 0 0
    let sh := { at0 with pc := 0x1FFFFFFFFFFF8 }
    let i := issOf rowIadd f 0 sh
    (i.check base).isNone = true ∧ (sh.past f).pc.toNat = 2 ^ 49 ∧ i.goTrap.map (fun t => (t.cause, t.det)) = some (.xlate, 2) ∧
    (issOf rowIadd f 0 at0).goTrap = none := by decide

/-- IntegerResults to ConvertResults: no thread raises an enabled exception; the sums, logic, moves, conversions. -/
def quiet (c : Calc) (f : Fields) (sh : Sheaf) : Bool := (acting f sh).all fun t => (enabled sh.fpcr (c.out sh f t)).isNone
theorem test_quiet : (integerCalcs ++ [carryCalc] ++ divideCalcs ++ logicCalcs ++ shiftCalcs ++ bitsCalcs ++ moveCalcs ++
    predicateCalcs).all (fun c => quiet c (fld true 8 4 12 0 0 0) at0) = true := by decide
theorem test_quiet_float : (floatCalcs ++ partCalcs ++ packedCalcs).all (fun c => quiet c (fld true 8 4 12 0 8 0) at0) = true := by
  decide
/-- DivideResults, FloatTraps: a divisor of 0, and its enabled exception. -/
theorem test_traps : let sh := { at0 with fpcr := 0x830 }
    (acting (fld true 8 4 12 0 0 0) sh).any (fun t => (enabled sh.fpcr ((divCalc rowIdiv .idiv false).out sh (fld true 8 4 12 0 0 0) t)).isSome)
      = true ∧ (divCalc rowIdiv .idiv false).trapping (fld false 8 4 12 0 0 0) sh ≠ [] ∧
    runs rowIdiv (fld true 8 4 12 0 0 0) (with0 fun sh => { sh with fpcr := 0x830 }) = true ∧
    (roundedCalc rowFrcp .frcp 1 fun _ a _ _ => Fl.div (.fin false 1 0 false) a).trapping (fld false 8 4 0 0 8 0) sh ≠ [] := by decide

/-- Jumps, Returns: a target forwards; backwards after 4,096 clocks with a sheaf ready; and targets no PC can hold. -/
theorem test_targets : onCode (at0.pc + 16) ∧ onCode (at0.read64 (fld true 0 0 0 0 0 0) 0 0) ∧
    base.staysOn 0 at0 (fld true 0 0 4 0 0 0) (at0.pc + 16) := by unfold onCode; exact ⟨by decide, by decide, .inl (by decide)⟩
def secondSheaf : Sheaf := { placedSheaf 0 with shid := 4, slot := 4, status := .ready, lane := none }
def swapState : State := { base with sheafs := [(0, { at0 with laneClk := 0 }), (1, secondSheaf)], cores := [(0, { clk := 4096 })] }
theorem test_swap : let f := fld true 0x7F 0x7F 0x7E 0 0 0
    let target := at0.pc + ((f.a ++ f.b ++ f.c : BitVec 21).signExtend 64 <<< 2)
    target = 0x3FFF8 ∧ runs rowBra f swapState = true ∧ ¬at0.pc.toNat < target.toNat ∧
    ¬(swapState.issued 0 at0 f).clkOf at0 - at0.laneClk < 4096 ∧ (swapState.issued 0 at0 f).nextReady at0 ≠ none := by decide
theorem test_bad_targets : let sh (x y : Word) : Sheaf := { at0 with s := [(0, x), (1, y)] }
    let f := fld true 0 0 0 0 0 0
    ((sh 0 0x40002).read64 f f.b 0).toNat % 4 ≠ 0 ∧ ((sh 0x20000 0).read64 f f.b 0).toNat % 4 = 0 ∧
    2 ^ 49 ≤ ((sh 0x20000 0).read64 f f.b 0).toNat := by decide

/-- MasksAndRegions, SpecialRegisters: EMSAV to `s8` and to the discard name; WBASE of 63; SMOV of each register. -/
theorem test_masks : dstOf true 8 = .s 8 ∧ dstOf true 0x7C = .discard ∧
    (({ at0 with s := [(0, 63)] } : Sheaf).read32 (fld true 0 0 0 0 0 0) 0 0).toNat < 64 ∧
    runs rowEmsav (fld true 0x7C 0 0 0 rowEmsav.ty0 0) base = true := by decide
theorem test_sregs : [0x0A, 0x0B, 0x0C, 0x0D, 0x26, 0x22].all (fun i : Nat => runs rowSmov (fld true 0 4 0 0 0 (BitVec.ofNat 16 i)) (with0 supSheaf)) = true ∧
    [0x11, 0x12, 0x13, 0x14].all (fun i : Nat => runs rowSmov (fld true 0 4 0 0 0 (BitVec.ofNat 16 i)) (with0 supSheaf)) = true ∧
    runs rowSmov (fld true 0 4 0 0 0 0x16) (with0 fun sh => { supSheaf sh with tlvl := 2, t2 := (supSheaf sh).t1 }) = true ∧
    sregIdx (fld true 0 4 0 0 0 0x16) = 0x16 ∧ (supSheaf at0).tlvl = 1 := by decide
theorem test_smov_window : [0x23, 0x24].all (fun i : Nat => runs rowSmov (fld true 0 4 0 0 0 (BitVec.ofNat 16 i)) blockState) = true ∧
    (blockState.blocks.get? 0).map (fun b => b.winh.getLsbD 31) = some false := by decide
/-- TrapEntered, SoftTraps: a grid whose kernel has vectors for SOFT and BRK; a sheaf that waits for MX; no route. -/
def vecState : State := { base with grids := [(0, { placedGrid with desc := (placedGrid.desc ++ List.replicate 40 (0x1000 : Word)) })] }
theorem test_routes : (vecState.resolve at0 .soft).isSome = true ∧ (vecState.resolve at0 .brk).isSome = true ∧
    base.resolve at0 .soft = none ∧ base.resolve at0 .illop = none ∧ at0.tlvl < 2 ∧ (fault0 .soft).lead = false ∧
    ((fault0 .soft).det < 32 ∧ (fault0 .soft).acc < 16 ∧ (fault0 .soft).len < 4) ∧ { at0 with mx := 1 }.mx ≠ 0 ∧
    (vecState.issued 0 at0 (fld true 0 0 0 0 0 0)).resolve at0 .soft = vecState.resolve at0 .soft ∧
    (vecState.issued 0 at0 (fld true 0 0 0 0 0 0)).routeHeld at0 .soft = false ∧ vecState.routeHeld at0 .soft = false ∧
    base.routeHeld at0 .illop = false ∧
    (base.ctx? 0).bind (fun c => c.blk.map fun b => b.trt) = some 0 := by decide
/-- FatalTraps: a heath sheaf's causes; TLVL 2. -/
theorem test_fatal : (blockState.sheaf? 0).map (fun sh => sh.heath) = some true ∧ (base.ctx? 0).isSome = true ∧
    2 ≤ ({ at0 with tlvl := 2 } : Sheaf).tlvl := by decide
/-- TrapReturns: each form at level 1; a region; a substitution into `v3`. -/
theorem test_returns : (supSheaf at0).tretOk 0 = true ∧ (supSheaf at0).tretOk 1 = true ∧
    ({ supSheaf at0 with rgnpc := 0x40000 } : Sheaf).tretOk 3 = true ∧
    ({ at0 with tlvl := 1, t1 := { tc := 0x07000400, tr := 0x40000, tm := 0xFFFF0001 } } : Sheaf).tretOk 2 = true ∧
    dstOf false (((0x07000400 : Word)).extractLsb' 25 7) = .v 3 ∧ runs rowTret (fld true 0 0 0 0 0 1) (with0 supSheaf) = true := by decide

/-- GlobalAccessesStart: every thread's address is good, of a load, a store and an atomic; all pages cached; nothing full. -/
theorem test_global : let sh := pageSheaf at0
    let f := fld false 8 0x62 12 0 0 0
    let v := (with0 pageSheaf).issued 0 sh f
    v.acquiring 0 = false ∧ sh.full .load = false ∧ sh.full .store = false ∧ acting f sh = List.range 16 ∧
    ((acting f sh).all fun t => [Machine.Use.load, .store, .atomic].all fun u =>
      match v.checkAddr sh u 4 t (globalAddress sh f 0 t) with | .ok h => h.loc.tier = 0 | .error _ => false) = true := by decide
theorem test_global_cached : ∃ h, tlbState.checkAddr at0 .load 4 0 0x40000 = .ok h ∧ h.xl = .ok leaf0 0x30020 false true :=
  ⟨_, rfl, by decide⟩
/-- GlobalAccessesTrap: thread 1 and those after it are misaligned. -/
theorem test_global_fails : let sh := { pageSheaf at0 with v := [(12 * 16 + 1, 2)] }
    let f := fld false 8 0x62 12 0 0 0
    let v := (with0 fun _ => sh).issued 0 sh f
    (match v.checkAddr sh .load 4 1 (globalAddress sh f 0 1) with | .error e => decide (e = (.align, 0)) | .ok _ => false) = true ∧
    (match v.checkAddr sh .load 4 0 (globalAddress sh f 0 0) with | .error _ => false | .ok h => decide (h.loc.tier ≠ 3)) = true ∧
    runs rowLd f (with0 fun _ => sh) = true := by decide
/-- ScratchAccesses: the last word of the scratchpad, the first beyond it, a misaligned one, a peer's. -/
theorem test_scratch : let s := { base with wgs := [(0, { placedWg 0 with peers := [0, 1] }), (1, { placedWg 0 with rank := 1 })] }
    let kind (a : Word) : Nat := match s.spCheck (.wg 0) true 4 a with
      | .ok p => (if p.home = .wg 0 then 0 else 1) | .error e => (if e = (.align, 0) then 2 else 3)
    kind 0x7FFFC = 0 ∧ kind 0x80000 = 3 ∧ kind 2 = 2 ∧ kind 0x80080000 = 1 ∧ base.acquiring 0 = false ∧ at0.full .lds = false ∧
    s.peerWg 0 1 = some 1 := by decide
/-- PrefetchesAndRanges: addresses no page maps; an empty range and one of a page. -/
theorem test_ranges : (match base.checkAddr at0 .load 4 0 0x50000 with | .error _ => true | .ok _ => false) = true ∧
    pagesOf 0x40000 0 = [] ∧ pagesOf 0x40000 1 ≠ [] ∧
    (pagesOf 0x40000 1).all (fun p => match base.checkAddr at0 .look 1 0 (BitVec.ofNat 64 p.1) with | .ok _ => true | .error _ => false)
      = true ∧ at0.full .cflush = false := by decide

/-- Fences, Waits: nothing acquires or synchronises; counters at and above a threshold; monitors; the page of MON. -/
theorem test_waits : base.acquiring 0 = false ∧ base.syncing 0 = false ∧ base.fused = [] ∧
    (∃ t x, exec (.cwait (fld true 0 0x7C 0 0 0 0)) (with0 fun sh => { sh with ld := [(3, false)] }) = .next t ∧
      t.sheaf? 0 = some x ∧ x.waitsFor = some (.cwait .ld 0)) ∧
    (match (with0 pageSheaf).checkAddr (pageSheaf at0) .load 1 0 (globalAddress (pageSheaf at0) (fld true 0 2 0x7C 0 0 0) 0 0) with
      | .ok _ => true | .error _ => false) = true := ⟨by decide, by decide, rfl, ⟨_, _, rfl, rfl, by decide⟩, by decide⟩
theorem test_mwait : ∃ t x, exec (.mwait (fld true 0 0 0 0 rowMwait.ty0 0)) (with0 fun sh => { sh with mon := some { line := 9, fired := false } }) = .next t ∧
      t.sheaf? 0 = some x ∧ x.waitsFor = some .mwait := ⟨_, _, rfl, rfl, by decide⟩

/-- HurdleCounts, Hurdles: a hurdle initialised for 1, its arrival completing phase 0; a dead one; an exhausted one. -/
def hurdleState : State := base.hinitAt (.wg 0) 16 1
theorem test_hurdles : (base.wg? 0).isSome = true ∧ base.usingScratch 0 = false ∧
    (match hurdleState.arrive (.wg 0) 16 0 with | .ok t => (t.hurdle (.wg 0) 16).phase | .error _ => false) = true ∧
    (match hurdleState.hdropAt (.wg 0) 16 with | .ok t => decide ((t.hurdle (.wg 0) 16).pend = 0) | .error _ => false) = true ∧
    (match base.arrive (.wg 0) 16 0 with | .error c => decide (c = .hdead) | .ok _ => false) = true ∧
    (match (base.putHurdle (.wg 0) 16 { hurdleState.hurdle (.wg 0) 16 with pend := 0, bal := 4 }).arrive (.wg 0) 16 0 with
      | .error c => decide (c = .hover) | .ok _ => false) = true ∧
    (match base.spCheck (.wg 0) false 16 16 with | .ok p => decide (p.off = 16) | .error _ => false) = true := by decide
theorem test_hwait : (hurdleState.hurdle (.wg 0) 16).phase = false ∧
    ∃ t x, exec (.hwait (fld true 0 0x7C 0x7C 0 rowHwait.ty0 16)) hurdleState = .next t ∧
      t.sheaf? 0 = some x ∧ x.waitsFor = some (.hwait 16 false) := ⟨by decide, _, _, rfl, rfl, by decide⟩
/-- Requests: nothing full, nothing acquiring; an ACPY thread whose copy passes. -/
theorem test_requests : at0.en < 63 ∧ (base.issued 0 at0 (fld true 0 0 0 0 0 0)).acquiring 0 = false ∧ at0.counter .ac0 < 63 ∧
    (match base.checkCopy at0 0 16 0x40000 32 with | .ok c => decide (c.1.n = 32) | .error _ => false) = true := by decide

/-- An engine operation of workgroup 0. -/
def eng (kind : EngKind) : Eng :=
  { kind := kind, sheaf := 0, wg := 0, ctx := 0, core := 0, part := 0, pc := 0x40000, accepted := true, blk := [], reg := 0, lvl := 0
    acpys := [], hint := 0, words := [], base := 0, pitch := 0, sp := true, hurdle := 16, pieces := [], rows := [], tiled := false
    applied := [], dropped := false, fault := none, clk := 0 }
/-- A table of one row of one f32 at 0x40220, its descriptor at 0x40200; the indices 0 and 1, the second one dropped. -/
def tableWords : List Word := [0x40220, 0, 1, 4, 4, 0, 0x80000008, 0]
def tableState (n : Word) : State :=
  { base with
    mem := Store.blit base.mem 0x40200 ((tableWords ++ [0x3F800000] : List Word).flatMap fun w => bytesLe 4 w.toNat)
    sheafs := [(0, { at0 with s := [(1, 0x40200), (3, n), (4, 64), (5, 16)], en := 1 })]
    wgs := [(0, { placedWg 0 with scratch := [(4, 1), (16, 1), (20, 1), (24, 1)] })]
    engs := [(9, { eng (.gath false) with accepted := false, blk := [0, 0x40200, 0, n, 64, 16, 0, 0] })] }
/-- Acceptance: a gather of two rows goes on, one of none is over, one of 65,536 is a fault; a fault met. -/
def accepted (n : Word) : Nat :=
  match (tableState n).accept { eng (.gath false) with blk := [0, 0x40200, 0, n, 64, 16, 0, 0] } [] with
  | .ok _ h => if h.empty then 1 else 0 | .fault .. => 2 | .held _ => 3
theorem test_acceptance : accepted 2 = 0 ∧ accepted 0 = 1 ∧ accepted 65536 = 2 ∧
    ((tableState 2).nextRequest 0).map (fun p => p.1) = some 9 ∧ (tableState 2).requestReady 9 (eng (.gath false)) = true ∧
    (tableState 2).engLate (eng (.gath false)) 0 1 [] = false ∧
    ((tableState 2).wg? 0).map (fun w => w.terminated) = some false ∧ ((tableState 2).grid? 0).isSome = true := by decide +kernel
/-- A gather of no rows leaves no operation behind. -/
theorem test_empty_gather : (match exec (.engineAccept 0 0 []) (tableState 0) with
    | .next t => decide (t.engs = [] ∧ (t.sheaf? 0).map (fun sh => sh.en) = some 0) | _ => false) = true := by decide +kernel

/-- Credits: the two rows of a gather; the words of a pool, with its drop; a thread of an ACPY, and its end. -/
def gathered (pool : Bool) : Eng := { eng (.gath pool) with blk := [0, 0x40200, 0, 2, 64, 16, 0, 0], words := tableWords ++ [0, 1] }
def moves (g : Eng) (lo : Nat) : Bool := match (tableState 2).movePiece g lo none [] with | .ok .. => true | _ => false
def acpyEng : Eng := { eng (.acpy 0) with acpys := [{ dst := 64, va := 0x40220, n := 4, first := { tier := 0, peer := 0, addr := 0x40220 }, last := { tier := 0, peer := 0, addr := 0x40220 }, hint := 0 }] }
theorem test_credits : let g := gathered false
    g.mayCredit 0 1 = true ∧ moves g 0 = true ∧ g.count + 1 < g.total ∧
    (tableState 2).engLate g 0 1 [] = false ∧ (tableState 2).mixes 9 g 0 1 = false ∧
    (let h := { g with pieces := [(0, 1)] }; h.mayCredit 1 1 = true ∧ moves h 1 = true ∧ h.count + 1 = h.total ∧
      (match (tableState 2).addDrops h with | .ok .. => true | _ => false) = true) ∧
    (gathered true).mayCredit 0 1 = true ∧ (gathered true).count + 1 = (gathered true).total ∧
    acpyEng.mayCredit 0 1 = true ∧ moves acpyEng 0 = true ∧
    ({ acpyEng with pieces := [(0, 32)] } : Eng).count = 32 * acpyEng.acpys.length := by decide +kernel
/-- Credits, of XRED: two members; the store of a sum. -/
def xredState : State :=
  { tableState 2 with
    xgrp := [(1, 0x8000000000000002)]
    engs := [(9, { eng (.xred 8 false) with blk := [0, 0, 0, 0, 1, 16, 1, 0], words := [0x3F800000], base := 0x40220 })] }
theorem test_xred : xredState.xgrpNmem 1 = 2 ∧
    (match xredState.engStore (eng (.xred 8 false)).agent 0x40220 [0, 0, 0x80, 0x3F] with | .ok .. => true | _ => false) = true ∧
    (match exec (.xredResult 9 0 [{ port := 1, elems := [0x3F800000], agrees := true }]) xredState with
      | .next t => decide (t.engs = [] ∧ t.peekBytes 0x40220 4 = [0, 0, 0, 0x40] ∧ t.stnPort.get? 0 = some 0 ∧ t.xports.get? 1 = some [1]) | _ => false) = true := by
  decide +kernel
/-- Reductions: an element of a SCAT at its row; a RED's address in a window; a packet of a peer. -/
theorem test_reductions : let g := { eng .scat with blk := [0, 0x40200, 0, 2, 0, 16, 0, 0], words := tableWords ++ [0, 1] }
    g.mayApply 0 0 = true ∧ (match (tableState 2).scatElement g 0 0 with | .ok .. => true | _ => false) = true ∧
    (base.evictLine (lineOf 0x40220)).bad 0x40220 = false ∧ (base.ctx? 0).isSome = true ∧
    (let o := loadOp .red [acc0 0x40220]
     let s := { blockState with ops := [(7, o)]
                                blocks := blockState.blocks.mapv fun b => { b with winh := 0x80000000, window := [lineOf 0x40220] } }
     s.windowsOf 0x40220 = [0] ∧ s.mayPerform 7 o = true ∧ s.frozen (acc0 0x40220).loc = false ∧ s.heldAt true 0x40220 = false) := by
  decide

/-- LatticeOwners: an idle lattice that two workgroups wait for. -/
def latticeState : State :=
  { base with wgs := [(0, placedWg 0), (1, placedWg 0)], cores := [(0, { lattice := { queue := [1, 0], next := some 1 } })] }
theorem test_owners : latticeState.nextOwner 0 = some 1 ∧ latticeState.latticeKernel (.wg 0) = true ∧
    (latticeState.core 0).lattice.owner = none ∧ (latticeState.core 0).lattice.ops = [] ∧ (latticeState.core 0).lattice.next = some 1 ∧
    (latticeState.wg? 0).map (fun g => g.lat) = some true := by decide

/-- TileInstructions, Joins: workgroup 0 owns its lattice; nothing uses its scratchpad; four sheafs of a quad. -/
def ownerState : State :=
  { base with cores := [(0, { lattice := { owner := some 0, rowM := [(0, 1)] } })]
              sheafs := [0, 1, 2, 3].map fun j => (j, { placedSheaf 0 with shid := j, part := j, slot := j }) }
theorem test_tiles : ownerState.latticeKernel (.wg 0) = true ∧ (ownerState.core 0).lattice.owner = some 0 ∧
    ownerState.usingScratch 0 = false ∧ ownerState.acquiring 0 = false ∧ at0.full .lmst = false ∧ 0 + 2048 ≤ ownerState.spsz (.wg 0) ∧
    ((issOf rowLmsav (fld true 0 0 0 0 rowLmsav.ty0 0x10) 0 at0).tileCheck ownerState .store accStore).isNone = true ∧
    (ownerState.core 0).lattice.ops = [] ∧ (ownerState.core 0).lattice.next = none ∧ (ownerState.core 0).lattice.queue = [] ∧
    base.owning 0 0 = .none ∧ base.latticeKernel (.block 0) = false := by decide
theorem test_joins : (ownerState.quadSheafs at0).length = 4 ∧ (ownerState.quadSheafs at0).all (fun x => x.status ≠ .exited) = true ∧
    ownerState.owning 0 0 = .owner ∧ latticeState.owning 0 0 = .queued ∧ at0.mx < 63 ∧
    (ownerState.wg? 0).map (fun g => g.joins) = some [] ∧ runs rowLmma (fld false 0 0 0 0 6 0) ownerState = true := by decide
/-- A join of another tile is open; a quad of one sheaf, whose workgroup has not asked for the lattice; a complex product. -/
def openJoin (cplx : Bool) : Join := { quad := 0, tile := 2, ty := 6, cplx := cplx, bf := 0, members := [] }
theorem test_join_traps : let s := { ownerState with wgs := [(0, { placedWg 0 with joins := [openJoin false] })] }
    (s.wg? 0).bind (fun g => g.joins.find? fun j => j.quad = at0.shid / 4 && j.members.length < 4) = some (openJoin false) ∧
    tile (fld false 0 0 0 0 6 0) ≠ (openJoin false).tile ∧ runs rowLmma (fld false 0 0 0 0 6 0) s = true ∧
    runs rowLmma (fld false 0 0 0 0 6 0) base = true ∧ (base.quadSheafs at0).length < 4 ∧ base.owning 0 0 = .none := by decide
/-- The first member of a join waits for the others. -/
theorem test_join_waits : ∃ t x g, exec (.lmma (fld false 0 0 0 0 6 0)) ownerState = .next t ∧ t.sheaf? 0 = some x ∧
    x.waitsFor = some .join ∧ x.mx = 1 ∧ t.wg? 0 = some g ∧ (g.joins.map fun j => j.members.length) = [1] :=
  ⟨_, _, _, rfl, rfl, by decide, by decide, rfl, by decide⟩

/-- TileResults, Joins: each operation at the head of its tiles; a product whose members are read. -/
def tiled (op : TileOp) : Tiled := { id := 6, tile := 2, sheaf := 0, wg := 0, pc := 0, op := op }
def member (j : Nat) : Member :=
  { sheaf := j, part := j, mask := 0xFFFF, nor := false, aReg := 0, bReg := 16, scaleA := 0, scaleB := 0, issueA := [], issueB := [], got := none }
def tileState (op : TileOp) : State :=
  { ownerState with cores := [(0, { lattice := { owner := some 0, ops := [tiled op] } })]
                    ops := [(7, { loadOp .lmst [acc0 0] with words := 16 })], engs := [(9, eng (.lmsav 2))] }
theorem test_startable : [TileOp.lmz [0], .lmld [0] 3 [], .lmst 7 [0] 1, .lmscl [63] true [], .lmsav 9, .lmrst 9, .smxi [1] none, .smxn [2],
    .smxu [0] 1 0 0 0 0 false 0 0 16 []].all
    (fun op => (startable [] ((tileState op).core 0).lattice.ops).find? (fun t => t.id = 6) = some (tiled op)) = true := by decide
theorem test_product : [false, true].all (fun c => let j := { openJoin c with members := [0, 1, 2, 3].map member }
      decide ((tileState (.product j)).nextProduct 0 = some (tiled (.product j), j))) = true ∧
    let j := { openJoin false with members := [0, 1, 2, 3].map member }
    (tileState (.product j)).nextProduct 0 = some (tiled (.product j), j) ∧ (j.members.all fun m => m.part < 4 && m.got.isNone) = true ∧
    (j.members.map fun m => m.part).Nodup := by decide
/-- LMZ of row 0 of tile 2 zeroes its first word and leaves the first word of row 1 (R259). -/
theorem test_lmz : let s := { tileState (.lmz [0]) with cores := [(0, { lattice := { owner := some 0, ops := [tiled (.lmz [0])]
                                                                                     lam := [(8192, 5), (8256, 6)] } })] }
    ∃ t, exec (.tileOperationPerformed 0 6) s = .next t ∧ (t.core 0).lattice.lam.get 8192 = 0 ∧ (t.core 0).lattice.lam.get 8256 = 6 :=
  ⟨_, rfl, by decide, by decide⟩
/-- NearCalls: a call of one sheaf on stack 0, in a context that may call; the call queued; its block; its caller. -/
def callState : State :=
  { with0 (fun sh => { sh with s := [(1, 0x40000), (4, 0x00020001), (5, 16), (6, 32)] }) with
    ctxs := [(0, { placedCtx with blk := placedCtx.blk.map fun b => { b with heath := true } })]
    descr := base.descr ++ [(80, 1)] }
def queuedCall : Call :=
  { ctx := 0, wg := 0, sheaf := 0, core := 0, stack := 0, entry := 0x40000, nsh := 1, nreg := 16, msg := [], fpcr := 0, hurdle := 16
    status := 32, ranges := [], pages := [], lim := 1, prio := 0, rel := { seq := 0, markers := [], after := .exit }, state := .queued, pc := 0 }
theorem test_call : let f := fld true 0 0x7C 0 0 rowNcall.ty0 0
    let i := issOf rowNcall f 0 { at0 with s := [(1, 0x40000), (4, 0x00020001), (5, 16), (6, 32)] }
    (i.ncallOffsets callState).isNone = true ∧ i.ncallBad = false ∧ ncTsel f = false ∧ callState.callsQueued 0 < 64 ∧
    callState.usingScratch 0 = false ∧ callState.callRefused 0 0 0 0 = none ∧ runs rowNcall f callState = true := by decide
theorem test_call_starts : let s := { callState with calls := [(8, queuedCall)] }
    s.heathInService 0 = true ∧ s.heathFree 0 = true ∧ s.refresh.get? 0 = none ∧ (s.nextCall 0).map (fun e => e.1) = some 8 ∧
    (∀ e ∈ blockState.ops, e.2.sheaf ≠ 0) ∧ ((blockState.endSheaf 0).sheafs.all fun e => e.2.status = .exited) = true ∧
    ({ s with refresh := [(0, 0)], dispClk := 1025 }.refresh.get? 0) = some 0 := by decide +kernel

/-- FallowTier: a tier-1 page of segment 3, W 1, mapped as a block at 0x20000000; budget 1; an install that has started. -/
def fallowState : State :=
  { base with mem := Store.blit base.mem 0x20008 (bytesLe 8 0x0000800000080C5F)
              ctxs := [(0, { placedCtx with instb := 1 })]
              installs := [(8, { ctx := 0, wg := 0, core := 0, src := 0x40000, dest := 0x20000000, len := 64, hurdle := 16, status := 32
                                 segs := [3], started := true, pc := 0, grid := 0 })]
              segs := [(3, { state := .install, wear := 1 })], stagingFills := [(0x10000000, 2)]
              descr := base.descr ++ [(96, 32)] }
theorem test_install : let i := issOf rowFinst (fld true 0 0 0 0 rowFinst.ty0 0) 0 { at0 with s := [(1, 0x40000), (3, 0x20000000), (4, 64), (5, 16), (6, 32)] }
    (i.finstCheck base).isNone = true ∧
    (match fallowState.installs.get? 8 with
      | some x => match fallowState.installSource x [] with | .ok _ bs => decide (bs.length = 64) | _ => false
      | none => false) = true ∧
    fallowState.stagingFills.find? (fun b => b.1 = 0x10000000) = some (0x10000000, 2) ∧ fallowState.prefetches = [] ∧
    (fallowState.stagingStack 0x10000000).bind (fun st => fallowState.refresh.get? st) = none ∧
    0 < fallowState.stagingBlocks (dieOf (65536 * 0x10000000)) := by decide +kernel
def shareBlocks : List (Nat × Nat) := (List.range 2048).map fun k => (0x10000000 + 4 * k, if k = 5 then 0 else 1)
def staged (l : List (Nat × Nat)) : State := { State.reset with descr := [(16, 1), (96, 1), (100, 1), (104, 1), (108, 1)], staging := l }
theorem staged_staging (l : List (Nat × Nat)) : (staged l).staging = l := rfl
def fullShare : State := staged shareBlocks
theorem share_stack {k : Nat} (h : k < 2048) : dieOf (65536 * (0x10000000 + 4 * k)) = 0 ∧
    fullShare.stagingStack (0x10000000 + 4 * k) = some 0 := by
  have hd : dieOf (65536 * (0x10000000 + 4 * k)) = 0 := by
    have hf : isFallow (65536 * (0x10000000 + 4 * k)) = true := by simp [isFallow]; omega
    rw [dieOf, if_pos hf, fallowStack]; omega
  have hl : fullShare.stagingStacks 0 = [0, 1, 2, 3] := by decide
  have hm : (0x10000000 + 4 * k) % 4 = 0 := by omega
  exact ⟨hd, by simp [State.stagingStack, hd, hl, hm]⟩
/-- A stack whose share of staging is full: one block of it is not kept. -/
theorem test_staging : 0 < fullShare.stagingBlocks (dieOf (65536 * 0x10000000)) ∧
    fullShare.stagingBlocks (dieOf (65536 * 0x10000000)) ≤ (fullShare.staging.filter fun b =>
      dieOf (65536 * b.1) = dieOf (65536 * 0x10000000) ∧ fullShare.stagingStack b.1 = fullShare.stagingStack 0x10000000).length := by
  have hs : dieOf (65536 * 0x10000000) = 0 ∧ fullShare.stagingStack 0x10000000 = some 0 := ⟨by decide, by decide⟩
  have hf : (shareBlocks.filter fun b => dieOf (65536 * b.1) = 0 ∧ fullShare.stagingStack b.1 = some 0) = shareBlocks := by
    refine List.filter_eq_self.2 fun b hb => ?_
    simp only [shareBlocks, List.mem_map, List.mem_range] at hb
    obtain ⟨k, hk, rfl⟩ := hb
    simp [share_stack hk]
  rw [hs.1, hs.2, fullShare, staged_staging, ← fullShare, hf, shareBlocks, List.length_map, List.length_range]
  decide

/-- Handles, CodeCache: a handle of a line, that line in the L2; a page of code, which is not pinned; one that fails. -/
theorem test_code : let sh := { at0 with s := [(5, 0x40000), (12, 1)] }
    ((pagesOf 0x40000 1).all fun p => (base.codeLines sh p).isSome) = true ∧ ((pagesOf 0x50000 1).any fun p => (base.codeLines sh p).isNone) = true ∧
    ((pagesOf 0x40000 1).map fun p => (base.codeLines sh p).map fun q => q.2) = [some [0x800]] := by decide +kernel
theorem test_handles : let s := { base with ctxs := [(0, { placedCtx with handles := [(3, { lo := 0, hi := 128, prio := 1, order := 0 })] })] }
    (s.handle? (0, 3)).isSome = true ∧ base.handle? (0, 3) = none ∧ at0.full .rhevict = false ∧ at0.full .kvtr = false := by decide

/-- FirstTouch: an entry that is mapped; one that is not, with a pool of one frame; no table. -/
def poolState : State :=
  { with0 supSheaf with
    ctxs := [(0, { placedCtx with blk := placedCtx.blk.map fun b => { b with pool := 0x40200 } })]
    mem := Store.blit base.mem 0x40200 (bytesLe 8 1 ++ bytesLe 8 0x40210 ++ bytesLe 8 6) }
theorem test_pool : (match poolState.tableEntry 0x10000 0x40000 with | .ok e => decide (e = some 0x30020) | _ => false) = true ∧
    (match poolState.tableEntry 0x10000 0x20000000 with | .ok e => e.isNone | _ => false) = true ∧ poolState.walkHeld 0x10000 0x40000 = none ∧
    poolState.poolHeld 0x40200 = none ∧ poolState.poolLost 0x40200 = false ∧ (poolState.mapFirst at0 0x40000 0x30020 0xC).2 = 1 := by decide +kernel
theorem test_tlbi : (supSheaf at0).rel = none ∧ (with0 supSheaf).using 0 (some (4, 1)) ((with0 supSheaf).namedBlocks 0 (some (4, 1))) 1 = false := by decide

/-- HostFaults: a sheaf that leads an entry in its XLATE handler; a posted record; a waiter. -/
def leadSheaf : Sheaf := { at0 with tlvl := 1, t1 := { tc := 0x0060040B, tr := 0x40000, tm := 0xFFFF0001 }, lead := [(1, 5)] }
def filter0 (l r : Option Nat) : Filter := { ctx := 0, page := 5, cluster := 0, cores := [0], acc := 1, waiters := 1, lead := l, record := r }
def waitState : State :=
  { base with filters := [filter0 none (some 9)], fqOut := [9], fqTail := 1
              sheafs := [(0, { at0 with status := .stalled (.filter 5), pend := some {
                  cause := .xlate, det := 0, acc := 1, mask := 1, ta := 0x50000, dest := 8, dv := false, imp := false, lead := false, len := 1
                  ucls := false, w64 := false, rgnpc := 0, rgncnt := 0, seq := 3 } })] }
theorem test_host_faults : leadSheaf.trapRegs.tc.extractLsb' 0 8 = 0x0B ∧ leadSheaf.trapRegs.tc.getLsbD 22 = true ∧
    runs rowPfwait (fld true 0 0 0 0 rowPfwait.ty0 0) { base with sheafs := [(0, leadSheaf)], filters := [filter0 (some 0) none] } = true ∧
    waitState.recordOf 9 = some (filter0 none (some 9)) ∧ waitState.recordOf 8 = none ∧
    waitState.sheafs.filter (fun x => x.2.status = .stalled (.filter 5) && x.2.ctx = 0 && waitState.cluster x.2.core = 0) = waitState.sheafs ∧
    waitState.fqHead ≤ waitState.fqTail ∧ waitState.fqTail ≤ waitState.fqHead + 4096 := by decide
/-- HostFaults: a write of FQPTR that names TAIL moves HEAD there; one beyond it is ignored. -/
theorem test_fqptr : [(0x100000000, 1), (0x200000000, 0)].all (fun p =>
    match exec (.fqptrWrite p.1) waitState with | .next t => decide (t.fqHead = p.2) | _ => false) = true := by decide

/-- Launches, Dispatch: a record at 0x40300 of one workgroup of one sheaf, its descriptor at 0x40380. -/
def recordWords : List Word := [0x40380, 0, 1, 0x00010001, 16, 0, 0, 0, 0, 0, 0, 0, 0, 0, 0, 0]
def descWords : List Word := [0x40000, 0, 0x00020001, 0]
def launchState (ann : Nat) : State :=
  { base with
    mem := Store.blit (Store.blit base.mem 0x40300 ((recordWords : List Word).flatMap fun w => bytesLe 4 w.toNat)) 0x40380
      ((descWords : List Word).flatMap fun w => bytesLe 4 w.toNat)
    slots := [(2, { state := 1, ann := ann, rbase := 0x40300, rsize := 1 })] }
def launched : Nat :=
  match (launchState 1).readLaunch (dispAgent 0) 0x40300 [] with
  | .ok t (some l) => if t.launchOk dispatcher 0 l then 1 else 0
  | .ok _ none => 2
  | _ => 3
theorem test_record : launched = 1 ∧ (launchState 1).queuesRun 0 = true ∧ (launchState 1).hostWrites = false ∧ ((launchState 1).slots.get? 2).map (fun x => (launchState 1).slotFree x) = some true ∧
    (match base.readLaunch (dispAgent 0) 0x40300 [] with | .ok _ r => r.isNone | _ => false) = true := by decide +kernel
/-- A record that becomes head makes a grid, which the next decision dispatches: its sheaf starts at the entry with 16 live threads. -/
theorem test_dispatch : (match exec (.recordHead (.slot 2) []) (launchState 1) with
    | .next u => match exec .dispatchDecision u with
      | .next t => decide ((t.sheafs.map fun e => (e.2.pc, e.2.live, e.2.shid)) = [(0x40000, 0xFFFF, 0), (0x40000, 0xFFFF, 0)])
      | _ => false
    | _ => false) = true := by decide +kernel
/-- Dispatch: places of a workgroup alone, core 0 having one, and of a cluster of two; a ready grid of a cluster. -/
def clusterGrid : Grid := { placedGrid with desc := [0x40000, 0, 0x20400001], gx := 2, next := 0 }
def clusterState : State := { base with grids := [(0, clusterGrid)] }
theorem test_places : placedGrid.clus = 1 ∧ base.placeFor placedGrid = some [1] ∧ clusterGrid.clus = 2 ∧
    base.placeFor clusterGrid = some [0, 1] ∧ clusterState.readyOrder = [(0, clusterGrid)] ∧
    clusterState.placeFor clusterGrid = some [0, 1] := by decide +kernel
theorem test_exit : at0.mx = 0 ∧ at0.en = 0 ∧ at0.held = [] ∧
    ({ base with sheafs := [(0, { at0 with status := .exited })] }.wgIdle 0 (placedWg 0)) = true ∧
    { placedGrid with doneWgs := 1 }.total = 1 ∧ placedGrid.depth ≠ 10 ∧
    (match base.engXlate (dispAgent 0) .atomic 0x40300 with | .ok u p => decide (p.1.tier = 0) && !u.lostIn p.1.addr 8 | _ => false) = true := by decide +kernel
theorem test_drains : base.residentCtx 0 = true ∧ ((base.requestDrain 0).ctx? 0).map (fun c => c.drain) = some (some [(0, 0)]) ∧
    base.refresh.get? 3 = none ∧ (match base.engWord (dispAgent 0) 0x40300 [] with | .ok _ p => decide (p.1 = 0) | _ => false) = true := by decide +kernel
/-- Returned, StoresPerformed: an operation of each kind outstanding, with its single access ready. -/
def opState (o : Op) : State := { base with ops := [(7, o)] }
def remoteAcc : Access := { acc0 0x40220 with loc := { tier := 3, peer := 0, addr := 0x40220 } }
theorem test_ready : [OpKind.lds, .atoms].all (fun k => (opState (loadOp k [acc0 16])).loadReady 7 (loadOp k [acc0 16]) []) = true ∧
    [OpKind.load, .atom].all (fun k => (opState (loadOp k [acc0 0x40220])).loadReady 7 (loadOp k [acc0 0x40220]) []) = true ∧
    (let o := { loadOp .fqry [acc0 0] with res := [7, 0, 0, 0], dest := .s 8, words := 4 }; (opState o).loadReady 7 o [] = true) ∧
    (let o := { loadOp .kvtr [acc0 0] with dest := .s 8, words := 4 }
     (opState o).loadReady 7 o [] = true ∧ (match ((opState o).kvtrResult o []).2 with | .ok ws => decide (ws.length = 4) | .error _ => false) = true) ∧
    [OpKind.store, .red].all (fun k => (opState (loadOp k [acc0 0x40220])).storeReady 7 (loadOp k [acc0 0x40220])) = true ∧
    (opState (loadOp .sts [acc0 16])).storeReady 7 (loadOp .sts [acc0 16]) = true ∧
    (opState (loadOp .cflush [acc0 0x40000])).maintainReady 7 (loadOp .cflush [acc0 0x40000]) = true := by decide +kernel
theorem test_remote : let o := loadOp .store [remoteAcc]
    let s := { opState o with atc := [(4, (0x90000, true))] }
    s.mayPerform 7 o = true ∧ s.opFails o = false := by decide +kernel
/-- A word stored is read: 0x12345678 at 0x40220, lowest byte first (R44, R182). -/
theorem test_store : (match exec (.storePerformed 7) (opState (loadOp .store [acc0 0x40220])) with
    | .next t => decide (t.ops = [] ∧ t.peekBytes 0x40220 4 = [0x78, 0x56, 0x34, 0x12]) | _ => false) = true := by decide +kernel
def fifoState : State :=
  match exec (.storePerformed 7) (opState (loadOp .store [acc0 0x40220])) with | .next t => t | _ => base
theorem test_fifo : (fifoState.core 0).fifo.map (fun e => e.line) = [lineOf 0x40220] ∧
    ((fifoState.l1? 0 (lineOf 0x40220)).bind fun l => l.words.get? 8).map (fun w => (w.val, w.dirty, w.owned)) = some (0x12345678, true, true) ∧
    ((fifoState.l2? (lineOf 0x40220)).bind fun y => y.owners.get? 8) = some 0 := by decide +kernel

/-- ReleasesComplete: a release that waits for nothing, of each kind; a walk; a trap that waits, and a fault that is held. -/
def releasing (a : AfterRelease) : Sheaf := { at0 with status := .stalled .release, rel := some { seq := 5, markers := [], after := a } }
theorem test_releases : [AfterRelease.fence true, .fence false, .arrive (.wg 0) 16 0 0, .exit, .launch].all (fun a =>
      (with0 fun _ => releasing a).released 0 { seq := 5, markers := [], after := a }) = true ∧
    (match (base.hinitAt (.wg 0) 16 1).arrive (.wg 0) 16 0 with | .ok _ => true | .error _ => false) = true ∧
    (let s := { base with calls := [(8, { queuedCall with state := .release })] }
     s.released 0 queuedCall.rel = true ∧ (s.calls.get? 8).map (fun c => c.state) = some .release) ∧
    { at0 with status := .stalled .mx, pend := some (fault0 .illop) }.mx = 0 ∧ base.routeHeld at0 .illop = false ∧
    ({ at0 with held := [fault0 .xlate] } : Sheaf).tlvl = 0 := by decide +kernel
/-- LateFaults: a load of a segment under install fails with FALLOW; of an exited sheaf; in a handler; a tier-2 access late. -/
def fallowOp : Op := loadOp .load [{ acc0 0x100000000000 with loc := { tier := 1, peer := 0, addr := 0x100000000000 } }]
def lateState (st : Status) : State :=
  { opState fallowOp with segs := [(0, { state := .install, wear := 1 })], staging := [(0x10000000, 0)], sheafs := [(0, { at0 with status := st })] }
theorem test_late : let s := lateState .issuing
    (s.failing fallowOp 0 false).map (fun p => p.2) = [(.fallow, 0)] ∧ Status.issuing ≠ .stalled (.access 7) ∧
    [Status.issuing, .exited, .stalled (.access 7)].all (fun st => (lateState st).mayReturn 7 fallowOp) = true := by decide +kernel
theorem test_tier2 : let o := { loadOp .store [{ acc0 0 with loc := { tier := 2, peer := 1, addr := 0 } }] with clk := 0 }
    let s := { opState o with cores := [(0, { clk := 2 ^ 22 + 1 })] }
    ((s.failing o 0xFFFF false).filter fun p => p.1.loc.tier = 2).map (fun p => p.2) = [(.xlate, 4)] ∧
    2 ^ 22 < (s.core 0).clk - o.clk := by decide +kernel

/-- Migrations: a page that is not pinned, in a context with budget; its states. -/
def migState (st : MigState) : State :=
  { base with
    mem := Store.blit base.mem 0x30020 (bytesLe 8 0x20E1F)
    ctxs := [(0, { placedCtx with migb := 1, blk := placedCtx.blk.map fun b => { b with mlogn := 64 } })]
    migrations := [{ ctx := 0, page := 4, pte := 0x30020, leaf := 0x20E1F, old := { tier := 0, peer := 0, addr := 0x40000 }
                     new := { tier := 0, peer := 0, addr := 0x80000 }, state := st }] }
theorem test_migration : let s := { migState .drain with migrations := [] }
    (match s.walk 0x10000 0x40000 with | .leaf l p b => decide (l = 0x20E1F ∧ p = 0x30020 ∧ b = false) | _ => false) = true ∧
    ((s.ctx? 0).map fun c => c.mlogRoom (s.moves 0)) = some true ∧ s.migration? 0 4 = none ∧ (0x20E1F : DWord).getLsbD 9 = true ∧
    s.walkHeld 0x10000 0x40000 = none ∧ s.heldAt false 0x30020 = false ∧ s.mlogHeld 0 = false ∧
    ({ s with refresh := [(stackOf 0x40000, 0)] } : State).mlogHeld 0 = true ∧
    ((migState .release).migration? 0 4).any (fun m => !(migState .release).unsent m m.new && !(migState .release).unsent m m.old) = true ∧
    s.usableHbm 0x80000 65536 = true ∧ (movable 0 1 || movable 0 2 || movable 0 3) = true ∧
    ((migState .copy).migration? 0 4).map (fun m => m.state) = some .copy ∧ (migState .release).reading { tier := 0, peer := 0, addr := 0x40000 } = false := by
  decide +kernel

/-- LinkEvents: a page asked for; a request of the host in HBM that nothing holds; one outside every window; the READY slot. -/
def hostLoad : RemoteRequest := { host := true, ctx := 0, addr := 0x40220, kind := .load 4 }
theorem test_link : base.usableHbm 0x40220 4 = true ∧ base.heldAt false 0x40220 = false ∧ exported base.xwin 0x40220 4 true false = false ∧
    (wordsAt 0x40220 4).all (fun a => !base.unreadable a && (base.l2? (lineOf a)).isNone) = true ∧
    base.onAts 4 = false ∧ base.bmcount.toNat ≤ 0 ∧ base.dev = .ready ∧ State.reset.dev = .bringup := by decide +kernel
/-- HostRegisters: no context created after reset; a created one; a priority out of range. -/
theorem test_host : State.reset.ctxs = [] ∧ (∃ e ∈ base.ctxs, e.2.state ≠ 0) ∧ (base.slot 5).state ≠ 1 ∧ ((launchState 1).slot 2).state = 1 ∧
    State.reset.dev ≠ .ready ∧
    12 ≤ ((0xC0000 : DWord).extractLsb' 16 4).toNat ∧ ((0xB0000 : DWord).extractLsb' 16 4).toNat < 12 ∧
    (State.reset.ctxRegs 3).state = 0 ∧ (base.ctxRegs 0).state ≠ 0 := by
  refine ⟨rfl, ⟨(0, placedCtx), by decide, by decide⟩, by decide, by decide, by decide, by decide, by decide⟩
/-- Platform: power, bring-up and commit states; a commit that is written. -/
theorem test_platform : ({ State.reset with dev := .off } : State).dev = .off ∧ State.reset.dev = .bringup ∧
    base.cmt ≠ .busy ∧ ({ base with flashNext := some {} } : State).flashNext = some {} ∧ base.dev ≠ .off := by decide
/-- InvKept: the state after reset, and the placed one. -/
theorem test_inv : State.reset.Inv ∧ base.Inv := by unfold State.Inv; decide +kernel

/-! ### States that meet the hypotheses about what is held, lost, late or refused -/

/-- StepIssues: a sheaf whose words lie on the host's page 4, which it has not translated; one whose page has failed. -/
def hostCode : State := { base with tlbs := [(0, [{ ctx := 0, page := 4, block := false, leaf := leaf0 ||| 0x60, pte := 0x30020 }])] }
theorem test_lost_fetch : (match hostCode.fetchInstr at0 with | (.wait _ ws, _) => decide (ws = [.page 4 0x40000]) | _ => false) = true ∧
    base.mayIssue { at0 with status := .stalled (.lost 0x40000 []) } = true ∧ base.mayIssue { at0 with status := .stalled (.fetch [.page 4 0x40000]) } = true := by decide
/-- StepActs: an uncorrectable error that waits to be logged. -/
theorem test_logs : ∃ t, step { base with eccLog := [(0, 0x40220)] } = .next t ∧ t.eccLog = [] := ⟨_, rfl, by decide⟩
/-- Jumps: BRX and the EZ form backwards with a sheaf ready; a branch and a call beyond the last address. -/
theorem test_jumps : let far := fun sh : Sheaf => { sh with pc := 0x1FFFFFFFFFFFC }
    let f := fld true 0 0 1 0 0 0
    let z := { fld true 0x7F 0x7F 0x7E 0 1 0 with gn := true }
    runs rowBra f (with0 far) = true ∧ runs rowCall f (with0 far) = true ∧
    ((far at0).pc + ((f.a ++ f.b ++ f.c : BitVec 21).signExtend 64 <<< 2)).toNat = 2 ^ 49 ∧
    runs rowBrx (fld true 0 0 0 0 0 0) { swapState with sheafs := [(0, { at0 with laneClk := 0, s := [(1, 0x3FFF8)] }), (1, secondSheaf)] } = true ∧
    ((issOf rowBraEz z 0 at0).check swapState).isNone = true ∧ (decide (at0.em = 0) ^^ z.gn) = true ∧
    (swapState.issued 0 at0 z).nextReady at0 ≠ none := by decide
/-- SpecialRegisters: a value of a role that does not exist; a trap register of no level; a window over the placed page. -/
def windowState : State := { blockState with blocks := blockState.blocks.mapv fun b => { b with winb := 0x40000, winl := 128 } }
theorem test_smov : runs rowSmov (fld true 0 4 0 0 0 0x09) (with0 fun sh => { sh with s := [(4, 5)] }) = true ∧
    [0x11, 0x15].all (fun i : Nat => runs rowSmov (fld true 0 4 0 0 0 (BitVec.ofNat 16 i)) base) = true ∧
    [0x11, 0x13, 0x14, 0x15, 0x17, 0x18].all (fun i : Nat => runs rowSmov (fld true 0 4 0 0 0 (BitVec.ofNat 16 i))
      (with0 fun sh => { supSheaf sh with tlvl := 2, t2 := (supSheaf sh).t1 })) = true ∧
    (match windowState.sheaf? 0 with
      | some sh => (match windowState.checkAddr sh .store 1 0 0x40000 with | .ok h => decide (h.loc.addr = 0x40000) | .error _ => false) &&
          runs rowSmov (fld true 0 4 0 0 0 0x25) (windowState.onSheaf 0 fun x => { x with s := [(4, 0x80000000)] }) &&
          (windowState.xlateHeld sh.heath sh.core sh.ctx 0x40000 .store).isNone && !windowState.flushHeld (lineOf 0x40000)
      | none => false) = true ∧ pagesOf 0x40000 128 = [(0x40000, 0x40000, 0x4007F)] := by decide
/-- SoftTraps: a table whose entry for SOFT is 0x1001: the kernel's own vector, else the supervisor's at 0x1000. -/
def tableRoutes : State :=
  { vecState with
    ctxs := [(0, { placedCtx with blk := placedCtx.blk.map fun b => { b with trt := 0x40400 } })]
    mem := Store.blit vecState.mem (0x40400 + 8 * Cause.soft.code) (bytesLe 8 0x1001) }
theorem test_table_routes : (match tableRoutes.xlate false 0 0 (0x40400 + 8 * Cause.soft.code) .look with
      | .ok l p b h => let at_ := tableRoutes.place l b (0x40400 + 8 * Cause.soft.code)
        decide (at_.tier = 0) && l.getLsbD 2 && !tableRoutes.lostIn at_.addr 8 && decide (tableRoutes.peek64 at_.addr = 0x1001) && !h && p != 0
      | .fail .. => false) = true ∧
    tableRoutes.resolve at0 .soft = vecState.resolve at0 .soft ∧
    ({ tableRoutes with refresh := [(stackOf 0x40400, 0)] } : State).routeHeld at0 .soft = true ∧
    (tableRoutes.resolve { at0 with home := .wg 0 } .align).map (fun p => p.2) = none := by decide +kernel
/-- TrapReturns: a substitution into the latch `y0`, and into a register the workgroup has not. -/
theorem test_bad_substitutes : let sh (tc : Word) (n : BitVec 6) : Sheaf := { at0 with tlvl := 1, wb := n, t1 := { tc := tc, tr := 0x40000, tm := 0xFFFF0001 } }
    (sh 0xF1000400 0).substBad = true ∧ (sh 0xF1000400 0).tretOk 2 = true ∧ (sh 0x07000400 63).substBad = false ∧
    (sh 0x07000400 63).substSlots = [507] ∧ ({ base with wgs := [(0, { placedWg 0 with nreg := 96 })] } : State).nreg (.wg 0) = 96 := by decide
/-- GlobalAccessesStart: no walk is held; the FIFO takes the lines. -/
theorem test_room : base.xlateHeld false 0 0 0x40000 .store = none ∧
    base.fifoFits 0 (base.linesDue 0 ++ [lineOf 0x40000]) = true := by decide
/-- HurdleCounts: a drop with arrivals still due, and no member left for the next phase. -/
theorem test_drop_over : let s := base.putHurdle (.wg 0) 16 { hurdleState.hurdle (.wg 0) 16 with pend := 1, exp := 1, next := 0, bal := 0 }
    (match s.hdropAt (.wg 0) 16 with | .error c => decide (c = .hover) | .ok _ => false) = true ∧
    (s.hurdle (.wg 0) 16).pend ≠ 0 := by decide
/-- Acceptance: an operation that waits for another device. -/
theorem test_link_fault : base.remoteVa { eng (.gath false) with waits := [(0, .peer 2 0x40220)] } false = some 0x40220 := by decide
/-- Reductions: an element on the device's own page goes on; an uncorrectable sector, in memory and of a RED. -/
theorem test_reduction_homes : let s := { base with badSectors := [0x40220 / 64] }
    (s.evictLine (lineOf 0x40220)).bad 0x40220 = true ∧ s.unreadable 0x40220 = true ∧ base.windowsOf 0x40220 = [] ∧ s.lostIn 0x40220 4 = true ∧
    (match (tableState 2).engHold { tier := 0, peer := 0, addr := 0x40220 } 0x40220 true with | .ok .. => true | _ => false) = true ∧
    base.frozen { tier := 0, peer := 0, addr := 0x40220 } = false := by decide
/-- TileResults: a restore whose 64 rows are read. -/
theorem test_restore : let g := { eng (.lmrst 2) with rows := (List.range 64).map fun r => (r, List.replicate 64 (1 : Word)) }
    64 ≤ g.rows.length ∧ (g.rows.map fun r => r.1).Nodup ∧ (∀ r ∈ g.rows, r.1 < 64 ∧ r.2.length = 64) := by decide +kernel
/-- NearCalls: a call that its stack's self-refresh has kept too long. -/
theorem test_busy : queuedCall.lim ≠ 0 ∧ 2 ^ (queuedCall.lim + 9) < 1025 - 0 ∧ callState.refresh = [] ∧ callState.migrations = [] ∧
    callState.callHeld queuedCall = false := by decide
/-- HostFaults: a sheaf that leads a page at its level; two sheafs that wait on one record. -/
def waiters : State := { waitState with sheafs := waitState.sheafs ++ waitState.sheafs.map fun e => (1, { e.2 with shid := 1, slot := 1, lane := none }) }
theorem test_waiters : leadSheaf.lead.get? leadSheaf.tlvl = some 5 ∧
    ({ base with filters := [filter0 (some 0) none] }).ledBy 0 leadSheaf = some (filter0 (some 0) none) ∧
    (waiters.sheafs.filter fun x => x.2.status = .stalled (.filter 5) && x.2.ctx = 0 && waiters.cluster x.2.core = 0).map (fun x => x.1) = [0, 1] ∧
    (match exec (.pfcFail 9) waiters with | .next t => decide (t.filters = []) | _ => false) = true := by decide +kernel
/-- Launches: a release that is complete, its record read; one whose host page has failed. -/
theorem test_launch_reads : let r : Release := { seq := 5, markers := [], after := .launch }
    r.lost = none ∧ ({ r with lost := some 0x40300 } : Release).lost = some 0x40300 ∧ placedGrid.depth ≠ 10 ∧
    ((base.ctx? 0).map fun c => c.blk.isSome) = some true ∧
    (match (launchState 1).readLaunch (dispAgent 0) 0x40300 [] with
      | .ok t (some l) => ([8, 10, 14].map (addrAt l.words)).all fun a => (t.xlateHeld false dispatcher 0 a .look).isNone
      | _ => false) = true := by decide +kernel
/-- StoresPerformed: two threads store the same word of a line that is in the L1 and the L2, with no monitor armed. -/
def twoStores : Op := loadOp .store [acc0 0x40220, { acc0 0x40220 with thread := 1, x := 0x9ABCDEF0 }]
theorem test_two_stores : let s := { fifoState with ops := [(7, twoStores)] }
    s.storeReady 7 twoStores = true ∧ (∀ e ∈ s.sheafs, e.2.mon = none) ∧ s.l2? (lineOf 0x40220) ≠ none ∧
    s.l1? (s.slice 0 (lineOf 0x40220)) (lineOf 0x40220) ≠ none ∧ ((s.core 0).l1.map fun l => l.line).Nodup ∧
    (match exec (.storePerformed 7) s with
      | .next t => decide (t.peekBytes 0x40220 4 = [0xF0, 0xDE, 0xBC, 0x9A]) | _ => false) = true := by decide +kernel
theorem test_frozen_line : ({ fifoState with migrations := (migState .copy).migrations } : State).frozen (lineLoc (lineOf 0x40220)) = true ∧
    fifoState.frozen (lineLoc (lineOf 0x40220)) = false := by decide +kernel
/-- Returned: a line no L1 holds; an answer that comes too late. -/
theorem test_seen : let s := base.evictLine (lineOf 0x40220)
    (s.loadBytes 0 { ctx := 0 } false true 0x40220 4).2 = s.peekBytes 0x40220 4 ∧ s.l1? (s.slice 0 (lineOf 0x40220)) (lineOf 0x40220) = none ∧
    (let o := loadOp .store [{ acc0 0 with loc := { tier := 2, peer := 1, addr := 0 } }]
     ({ opState o with cores := [(0, { clk := 2 ^ 22 + 1 })] } : State).refusesLate o = true ∧ (opState o).refusesLate o = false) := by decide +kernel
/-- LateFaults: a table read that another device has not answered; a fault log with room, and one that is full. -/
def logState (n : Nat) : State :=
  { base with ctxs := [(0, { placedCtx with flogTail := 1, blk := placedCtx.blk.map fun b => { b with flogn := n, flog := 0x40800 } })] }
theorem test_log : let o := { loadOp .kvtr [acc0 0] with waits := [.peer 2 0x40220] }
    o.res = [] ∧ .peer 2 0x40220 ∈ o.waits ∧
    (match (logState 64).ctx? 0 with | some c => decide ((c.flogTail - c.flogHead).toNat < 64) | none => false) = true ∧
    (logState 64).logHeld 0 = false ∧ ({ logState 64 with refresh := [(stackOf 0x40800, 0)] } : State).logHeld 0 = true ∧
    (logState 64).logWait = [] ∧
    (((logState 1).faultLog 0 { kind := 2 }).ctx? 0).map (fun c => c.flogovf) = some 1 ∧
    (((logState 64).faultLog 0 { kind := 2 }).ctx? 0).map (fun c => (c.flogTail, c.flogovf)) = some (2, 0) := by decide +kernel
/-- LateFaults: a fault of a load that its sheaf awaits in a handler, of one that has exited, of one that goes on. -/
theorem test_late_kinds : [Status.issuing, .exited, .stalled (.access 7)].all (fun st =>
    match exec (.accessFault 7 0 false) (lateState st) with | .next t => decide (t.ops = []) | _ => false) = true := by decide +kernel
/-- Migrations: a move that something issued before it may still have passed, and one that nothing has; a full log. -/
theorem test_past : let m : Migration := { ctx := 0, page := 4, pte := 0x30020, leaf := 0x20E1F, old := { tier := 2, peer := 1, addr := 0x40000 }
                                           new := { tier := 0, peer := 0, addr := 0x80000 }, state := .drain, seq := 9 }
    ({ opState (loadOp .store [{ acc0 0 with loc := { tier := 2, peer := 1, addr := 0x40000 } }]) with migrations := [m] } : State).past m = true ∧
    ({ base with migrations := [m] } : State).past m = false ∧ (migState .release).mlogFull 0 = false ∧
    ({ migState .release with ctxs := [(0, { placedCtx with mlogTail := 1, blk := placedCtx.blk.map fun b => { b with mlogn := 1 } })] } : State).mlogFull 0 = true := by
  decide +kernel
/-- LinkEvents: a valid block that the windows let a peer read: its scale 7 and its first element. -/
def blockMap : State :=
  { base with bmbase := 0x40800, bmcount := 1, xwin := [(0, 0x00000000000100030000000000040000)]
              mem := Store.blit (Store.blit base.mem 0x40800 (([0x40900, 0x80000000, 0x40A00, 0, 7, 8, 0, 0] : List Word).flatMap fun w => bytesLe 4 w.toNat))
                0x40900 [1, 2, 3, 4] }
theorem test_peer_block : exported blockMap.xwin 0x40800 32 true false = true ∧ exported blockMap.xwin 0x40900 4 true false = true ∧
    (match exec (.peerBlockRead { gbn := 0, token := 0, hdim := 4, bt := 1, kSize := 1, vSize := 1, value := false }) blockMap with
      | .next t => decide (t.reports = [.answer [0, 0, 0, 0, 7, 0, 0, 0, 1, 2, 3, 4]]) | _ => false) = true ∧
    base.requestHeld hostLoad = false ∧ ({ base with refresh := [(stackOf 0x40220, 0)] } : State).requestHeld hostLoad = true := by decide +kernel
/-- HostRegisters: a context whose block can be read; a destroyed one that is still resident. -/
theorem test_dying : base.blockHeld 0x40300 = false ∧ base.residentCtx 0 = true ∧ base.residentCtx 1 = false ∧
    (match exec (.ctxDestroy 0) (opState (loadOp .store [acc0 0x40220])) with
      | .next t => decide ((t.ctx? 0).map (fun c => (c.killed, c.dying)) = some (true, true)) | _ => false) = true ∧
    (match exec (.ctxDestroy 0) base with
      | .next t => decide ((t.ctx? 0).map (fun c => c.state) = some 0 ∧ t.wgs = [] ∧ t.sheafs = []) | _ => false) = true := by
  decide +kernel
/-- Platform: stage 1 not yet passed, and passed; a stage that fails. -/
theorem test_stages : State.reset.attests = false ∧ State.reset.passStage1.attests = true ∧ State.reset.passStage1.stage1 = true ∧
    (({} : Flash).stages [{ stage := 1, result := 1, kind := 1, unit := 0, detail := 0 }]).2 = 1 ∧
    (({} : Flash).stages []).2 = 0 := by decide +kernel

/-! ### States that meet the hypotheses about writes ahead, held windows and freed workgroups -/

/-- StepIssues: the word of a failed page is not fetched ahead; a word the instruction cache holds, in memory another one. -/
theorem test_failed_word : let sh := { at0 with status := .stalled (.lost 0x40000 [.page 4 0x40004]) }
    sh.ahead.get? (0x40000 : DWord).toNat = none ∧ sh.status = .stalled (.lost (0x40000 : DWord).toNat [.page 4 0x40004]) ∧
    (∀ ws, at0.status ≠ .stalled (.lost 0x40000 ws)) ∧
    (match ({ base with cores := [(0, { ic := [{ line := lineOf 0x40000, pins := [], words := [(0, 0x3C)] }] })] } : State).fetchWord at0 0x40000 with
      | .got _ w => decide (w = 0x3C) | _ => false) = true ∧
    (match (with0 fun x => { x with status := sh.status }).fetchWord sh 0x40000 with
      | .trap _ p => decide ((p.cause, p.det) = (.xlate, 4)) | _ => false) = true := ⟨by decide, rfl, nofun, by decide, by decide⟩
/-- FatalTraps: a kill frees the workgroup of its context and not one of another; a misaligned heath-scratch address. -/
theorem test_kill_frees : let s := { base with wgs := [(0, placedWg 0), (1, { placedWg 0 with ctx := 5 })], ops := [(7, loadOp .store [acc0 0x40220])] }
    ((s.kill 0 { kind := 2 }).wgs.map fun e => (e.1, e.2.freed)) = [(0, true), (1, false)] ∧
    (blockState.sheaf? 0).map (fun sh => sh.heath) = some true ∧ (fault0 .align).cause = .align := by decide +kernel
/-- Hurdles: what HINIT leaves, in a block too. -/
theorem test_hinit : let s := { base with wgs := [(0, { placedWg 0 with scratch := [(15, 9), (16, 7), (32, 8)] })] }
    let t := s.hinitAt (.wg 0) 16 5
    ((t.hurdle (.wg 0) 16).exp, (t.hurdle (.wg 0) 16).phase) = (5, false) ∧
    (t.spRead (.wg 0) 15 1, t.spRead (.wg 0) 16 1, t.spRead (.wg 0) 32 1) = ([9], [5], [8]) ∧
    (blockState.blocks.get? 0).isSome = true := by decide +kernel
/-- Acceptance: the source of a SCAT that is still to be read, and the workgroup of it. -/
def scatEng : Eng := { eng .scat with blk := [0, 0x40200, 0, 2, 0, 16, 0, 0], words := tableWords ++ [0, 1] }
theorem test_scratch_ecc : scatEng.toRead 0 = true ∧
    ((tableState 2).wg? 0).map (fun w => (w.terminated, w.freed)) = some (false, false) ∧
    (match step { tableState 2 with engs := [(9, scatEng)], agenda := [.scratchLost 9 0] } with
      | .next u => match exec (.engineFault 9 false false) u with
        | .next t => decide ((u.engs.get? 9).map (fun g => g.fault) = some (some (.ecc, 0)) ∧ (t.wg? 0).map (fun w => w.terminated) = some true)
        | _ => false
      | _ => false) = true := by decide +kernel
/-- Credits: what is moved, of a template of one row of two bytes, of a pool, of a thread's copy; nothing written ahead. -/
def boxWords : List Word := [0x40220, 0, 0, 1 ||| (2 <<< 8), 2, 0, 0, 0]
theorem test_moved : (tableState 2).linkByte (.wg 0) 64 = false ∧
    (match (tableState 2).movePiece (gathered false) 0 none [] with
      | .ok t _ => decide (t.spRead (.wg 0) 64 4 = [0, 0, 0x80, 0x3F]) | _ => false) = true ∧
    (match (tableState 2).movePiece (gathered true) 0 none [] with
      | .ok t _ => decide (t.spRead (.wg 0) 64 4 = [0, 0, 0x80, 0x3F]) | _ => false) = true ∧
    acpyEng.acpys[2 / 32]?.map (fun c => c.dst) = some 64 ∧
    (match (tableState 2).movePiece acpyEng 2 none [] with
      | .ok t _ => decide (t.spRead (.wg 0) 66 1 = [0x80]) | _ => false) = true ∧
    (gathered false).dropsRow 1 = true ∧ (gathered false).dropsRow 0 = false := by decide +kernel
/-- Credits: the read of a word; a box of 2 × 3 elements of 4 bytes: element 5 lies at row 2. -/
theorem test_read_once : (match (tableState 2).srcBytes (gathered false) 0 0x40220 4 [] with
      | .ok _ (h, bs, _) => decide (h.buf = [(0x40220, 0x3F800000)] ∧ bs = [0, 0, 0x80, 0x3F]) | _ => false) = true ∧
    (let t : Tmpl := { base := 0x1000, rank := 2, esz := 2, skw := 0, ext := [9, 9, 0, 0, 0], pitch := [1, 10, 0, 0, 0], box := [2, 3, 1, 1, 1], fill := 0 }
     t.element (fun d => (d : Int)) 5 = (20, some (0x1000 + 4 * (1 + 30)))) := by decide +kernel
/-- Credits: rows of a KVLD: one past the tokens is zero; one of an open block of −0 and 1.875 in E4M3, at scale 1. -/
def kvEng : Eng :=
  { eng (.kvld true) with
    blk := [0, 0, 1, 64, 16, 16, 0, 0], base := 2
    kvs := [(0, { desc := { smb := 0, nseq := 1, bts := 0, span := 1, pair := false, rhalf := 0, hdim := 2, frq := 0 }
                  hit := { pos := 0, gbn := 0, kf := 1, vf := 1, blk := some [0, 0, 0x40222, 0, 0, 0x3F800000, 0, 0] }, far := [] })] }
theorem test_kv_rows : (match (tableState 2).movePiece kvEng 0 none [] with
      | .ok t p => decide (t.spRead (.wg 0) 64 4 = [0, 0x80, 0xF0, 0x3F] ∧ (p.1.kvs.get? 0).isSome) | _ => false) = true ∧
    (match ({ tableState 2 with wgs := [(0, { placedWg 0 with scratch := [(80, 9), (84, 9)] })] } : State).movePiece kvEng 1 none [] with
      | .ok t _ => decide (t.spRead (.wg 0) 80 5 = [0, 0, 0, 0, 9]) | _ => false) = true := by decide +kernel
/-- Credits: a store of a box of one row of two elements of one byte: the byte of global memory. -/
def stored : Eng := { eng (.bcpy 0 true) with blk := [4, 0, 0, 0, 0, 0, 0, 0], words := [0x40224, 0x90000000, 2, 0, 0, 0, 0, 0, 0, 0, 0, 1, 0, 0, 0, 0] }
def storeState : State := { tableState 2 with l2 := fifoState.l2 }
theorem test_stored : stored.element 0 = (4, some 0x40224) ∧ storeState.l2? (lineOf 0x40224) ≠ none ∧
    (match storeState.engXlate stored.agent .store 0x40224 with | .ok _ p => decide (p.1 = { tier := 0, peer := 0, addr := 0x40224 }) | _ => false) = true ∧
    (match storeState.movePiece stored 0 none [] with | .ok t _ => decide (t.peekByte 0x40224 = 1) | _ => false) = true := by decide +kernel
/-- TileResults: no other operation writes the workgroup's scratchpad. -/
theorem test_alone : ({ tileState (.lmz [0]) with engs := [] } : State).writers 0 6 = [] := by decide
/-- NearCalls: the pages of a call that none has lost. -/
theorem test_call_pages : (issOf rowNcall (fld true 0 0x7C 0 0 rowNcall.ty0 0) 0 { at0 with s := [(1, 0x40000), (4, 0x00020001), (5, 16), (6, 32)] }).ncallLost
    callState = none := by decide +kernel
/-- CodeCache: the placed page's line is served, and enters with its words once the L2 holds it. -/
theorem test_code_words : let sh := { at0 with s := [(5, 0x40000), (12, 1)] }
    let s := with0 fun _ => sh
    ((pagesOf 0x40000 1).all fun p => match s.codeLines sh p with
      | some (h, _) => s.codeServed h && decide (s.codeWaits h = []) && (match h.xl with | .ok _ _ _ x => x == false | _ => false)
      | none => false) = true ∧
    (match exec (.ipf (fld true 0 4 12 0 0 0)) s with
      | .next t => t.icWord? 0 0x800 0 == some (s.peek 0x40000) && (t.l2? 0x800).isSome &&
          ((pagesOf 0x40000 1).all fun p => match t.codeLines sh p with
            | some (h, _) => (match h.xl with | .ok _ _ _ x => x | _ => false) | none => false)
      | _ => false) = true := by decide +kernel
/-- Launches: a workgroup that a kill freed, the last of a context that is destroyed. -/
theorem test_freed : let s := { base with wgs := [(0, { placedWg 0 with freed := true })], sheafs := [(0, { at0 with status := .exited })]
                                          ctxs := [(0, { placedCtx with dying := true })] }
    (s.wg? 0).map (fun g => (g.freed, s.wgIdle 0 g)) = some (true, true) ∧ (s.ctx? 0).map (fun c => c.dying) = some true ∧
    (match exec (.workgroupDone 0) s with
      | .next t => decide (t.wgs = [] ∧ t.ctxBusy 0 = false ∧ (t.ctx? 0).map (fun c => c.state) = some 0) | _ => false) = true := by decide +kernel
/-- Dispatch: a slot whose record another device has not sent in time; a context whose block breaks a rule when its turn comes. -/
def badState : State :=
  { clusterState with wgs := [], sheafs := [], slots := [(2, { state := 1 }), (3, { state := 0 })]
                      ctxs := [(0, { placedCtx with csb := 0x41000 })] }
theorem test_bad_block : badState.badBlock 0 = true ∧ clusterState.badBlock 0 = false ∧ badState.readyOrder = [(0, clusterGrid)] ∧
    badState.placeFor clusterGrid ≠ none ∧ ((badState.failSlots 0).slots.map fun x => (x.1, x.2.state)) = [(2, 2), (3, 0)] ∧
    base.slotLate { askClk := none } = false ∧ ({ base with dispClk := 2 ^ 22 + 2 } : State).slotLate { askClk := some 1 } = true := by decide +kernel
/-- LinkEvents: a block read that its stack's self-refresh holds keeps the windows it came with; one that only translates. -/
def blockReq (look : Bool) : BlockRequest := { gbn := 0, token := 0, hdim := 4, bt := 1, kSize := 1, vSize := 1, value := false, look := look }
theorem test_held_block : let s := { blockMap with refresh := [(stackOf 0x40800, 0)] }
    (match exec (.peerBlockRead (blockReq false)) s with
      | .next t => decide (t.blockWait = [(blockReq false, blockMap.xwin)] ∧ t.reports = []) | _ => false) = true ∧
    (match exec (.peerBlockRead (blockReq true)) { blockMap with badSectors := [0x40900 / 64] } with
      | .next t => decide (t.reports = [.answer [0, 0, 0, 0]]) | _ => false) = true := by decide +kernel

/-! ### Single steps from reset, with words laid out from spec/05 and results worked out by hand -/

/-- One field of the sheaf that ran, one step after placing the words of an instruction. -/
def after {α : Type} (nbits w : Nat) (g : Sheaf → α) : Option α :=
  match step (State.reset.withFetchWord nbits w) with
  | .next t => (t.sheaf? 0).map g
  | _ => none
/-- IADD v8, tid, 0xFFFFFFFF: thread 3 has 2, thread 0 wraps to 0xFFFFFFFF (A 8, B 0x7D, C 0x7E, literal). -/
theorem test_iadd : after 64 0xFFFFFFFF_11F7F000 (fun sh => (sh.readV 8 3, sh.readV 8 0, sh.pc)) =
    some (2, 0xFFFFFFFF, 0x40008) := by decide +kernel
/-- IMUL v8, tid, 3: thread 15 has 45 (OP 0x002). -/
theorem test_imul : after 64 0x00000003_11F7F008 (fun sh => sh.readV 8 15) = some 45 := by decide +kernel
/-- ISUB v8, zr, tid: thread 1 has −1 (OP 0x001). -/
theorem test_isub : after 32 0x11F3E804 (fun sh => sh.readV 8 1) = some 0xFFFFFFFF := by decide +kernel
/-- MOV s8, 0x12345678 once: OP 0x10E, B 0x7E. -/
theorem test_mov : after 64 0x12345678_11F80438 (fun sh => sh.readS 8) = some 0x12345678 := by decide +kernel
/-- BRA forwards by 3 words: PC 0x4000C. -/
theorem test_bra : after 32 0x00001CC0 (fun sh => sh.pc) = some 0x4000C := by decide +kernel
/-- CALL forwards by 3 words: s62:s63 is 0x40004. -/
theorem test_call_link : after 32 0x00001CC8 (fun sh => (sh.pc, sh.readS 62, sh.readS 63)) = some (0x4000C, 0, 0x40004) := by decide +kernel

end Sys2Proof.Tests
end

section
/-! SUPPORT. The arithmetic pattern of R57 where threads trap, and the divisions of R60 as instances of it. -/

namespace Sys2Proof.Machine
open Sys2Proof.Forms

/-! ### Masks from predicates -/

theorem mem_threads {t : Nat} : t ∈ threads ↔ t < 16 := by
  simp only [threads, List.mem_cons, List.not_mem_nil, or_false]
  omega

theorem foldl_setBit_getLsbD (p : Nat → Bool) (l : List Nat) (hl : ∀ i ∈ l, i < 16) (m : Mask) {t : Nat} (ht : t < 16) :
    (l.foldl (fun m i => if p i then setBit m i true else m) m).getLsbD t = (m.getLsbD t || (l.contains t && p t)) := by
  induction l generalizing m with
  | nil => simp
  | cons a r ih =>
    have key : (if p a then setBit m a true else m).getLsbD t = (m.getLsbD t || (t == a && p t)) := by
      have hs := getLsbD_setBit m a t true (hl a List.mem_cons_self) ht
      by_cases h : t = a
      · subst h; cases hp : p t <;> simp [hs]
      · cases p a <;> simp [hs, h]
    rw [List.foldl_cons, ih fun i hi => hl i (List.mem_cons_of_mem _ hi)]
    rw [key, List.contains_cons, Bool.or_assoc, Bool.and_or_distrib_right]

theorem maskOf_getLsbD (p : Nat → Bool) {t : Nat} (ht : t < 16) : (maskOf p).getLsbD t = p t := by
  have hm : threads.contains t = true := List.contains_iff_mem.2 (mem_threads.2 ht)
  have h := foldl_setBit_getLsbD p threads (fun _ => mem_threads.1) 0#16 ht
  rw [hm, BitVec.getLsbD_zero, Bool.false_or, Bool.true_and] at h
  exact h

theorem active_maskOf (p : Nat → Bool) : active (maskOf p) = threads.filter p :=
  List.filter_congr fun _ ht => maskOf_getLsbD p (mem_threads.1 ht)

theorem maskOf_congr {p q : Nat → Bool} (h : ∀ t < 16, p t = q t) : maskOf p = maskOf q :=
  BitVec.eq_of_getLsbD_eq fun t ht => by rw [maskOf_getLsbD p ht, maskOf_getLsbD q ht, h t ht]

/-! ### Causes (R57 step 4, R60) -/

/-- The causes an arithmetic instruction raises, the first one first. -/
def arithCauses : List Cause := [.fpinv, .fpdz, .fpovf, .fpunf, .fpinx, .divz]

theorem enabled_mem {fpcr : BitVec 12} {o : Out} {c : Cause} (h : enabled fpcr o = some c) : c ∈ arithCauses := by
  unfold enabled at h
  repeat' split at h
  all_goals cases h
  all_goals decide

theorem firstCause_mem {cs : List Cause} {c : Cause} (h : firstCause cs = some c) : c ∈ arithCauses :=
  List.mem_of_find?_eq_some h

theorem exists_firstCause {cs : List Cause} {c : Cause} (hm : c ∈ cs) (hc : c ∈ arithCauses) : ∃ c', firstCause cs = some c' :=
  Option.isSome_iff_exists.1 (List.find?_isSome.2 ⟨c, hc, List.contains_iff_mem.2 hm⟩)

theorem ne_xlate_of_mem_arithCauses {c : Cause} (h : c ∈ arithCauses) : c ≠ .xlate := by
  rintro rfl
  exact absurd h (by decide)

/-- R319 concerns XLATE alone: a trap of any other cause is raised. -/
theorem Iss.trap_raises (i : Iss) {s : State} {sh : Sheaf} {t : Trap} (hs : s.sheaf? i.k = some sh) (hc : t.cause ≠ .xlate) :
    i.trap s t = s.raise i.k (i.pending t false) t.scratch := by
  have hp : (i.pending t false).cause ≠ .xlate := hc
  simp [Iss.trap, State.trapOrWait, hs, hp]

/-! ### What completing threads leave (R57 steps 1 and 2) -/

section
variable {f : Fields} {n : Nat} {ts : List Nat} {c : Calc} {body : Fields → Iss → State → Eff}

theorem takeAll_written (sh : Sheaf) (c : Nat → List Nat) (g : Nat → Out) (ht : ∀ t ∈ ts, t < 16) (hd : DestOk f n)
    (hu : f.u = true → ts = [0]) (h0 : n ≠ 0) :
    Written sh ((sh.issuing f).takeAll f n ts c g) f n ts fun t => (g t).val := by
  have hw := Sheaf.writeAll_written (sh.issuing f) f n ts (fun t => (g t).val) ht hd hu
  rw [Sheaf.takeAll_eq, Sheaf.writeIf, if_neg h0]
  exact hw.congr ⟨rfl, rfl, rfl, rfl, rfl⟩ ⟨rfl, rfl, rfl, rfl, rfl⟩

theorem takeAll_predicates (sh : Sheaf) (c : Nat → List Nat) (g : Nat → Out) (ht : ∀ t ∈ ts, t < 16) (nd : ts.Nodup)
    (hu : f.u = false) : Predicates sh ((sh.issuing f).takeAll f n ts c g) f ts fun t => (g t).preds := by
  refine ⟨fun _ => ?_, by simp [hu]⟩
  rw [Sheaf.takeAll_eq, hu]
  refine ⟨?_, fun d hd => takeAll_p_high _ _ _ d hd, fun d hd t h16 => takeAll_p _ _ _ d t hd ht h16 nd⟩
  simp only [foldl_predQ_vector, foldl_id]
  rfl

theorem takeAll_raised (sh : Sheaf) (g : Nat → Out) (ht : ∀ t ∈ ts, ∀ y ∈ flagged f sh t, y < 16) :
    Raised sh ((sh.issuing f).takeAll f n ts (flagged f sh) g) f ts fun t => (g t).flags := by
  have key := fun x hx => Sticky.raiseAll_get sh.sticky ts (flagged f sh) (fun t => (g t).flags) x ht hx
  rw [Sheaf.takeAll_eq]
  constructor <;> intro x hx <;> obtain ⟨hinv, hdz, hovf, hunf, hinx⟩ := key x hx
  · exact hinv
  · exact hdz
  · exact hovf
  · exact hunf
  · exact hinx

/-- R55: a thread of a vector instruction takes its own flags. -/
theorem flagged_vector (sh : Sheaf) (hu : f.u = false) : flagged f sh = fun t => [t] := by
  funext t
  simp [flagged, hu]

theorem takeAll_completed (sh : Sheaf) (g : Nat → Out) (ht : ∀ t ∈ ts, t < 16) (nd : ts.Nodup) (hu : f.u = false)
    (hn : n = 0 ∨ DestOk f n) :
    Completed sh ((sh.issuing f).takeAll f n ts (flagged f sh) g) f n ts g where
  result h0 := takeAll_written sh _ g ht (hn.resolve_left h0) (by simp [hu]) h0
  none h0 := by
    rw [Sheaf.takeAll_eq, Sheaf.writeIf, if_pos h0]
    exact ⟨rfl, rfl, rfl⟩
  preds := takeAll_predicates sh _ g ht nd hu
  flags := takeAll_raised sh g fun t h y hy => by
    rw [flagged_vector sh hu, List.mem_singleton] at hy
    exact hy ▸ ht t h
  only := by
    conv => lhs; rw [Sheaf.takeAll_eq, Sheaf.writeIf_only]
    rw [Sheaf.takeAll_eq]

/-! ### The pattern of R57 when threads trap -/

theorem Iss.alu_uniform_trap (i : Iss) (s : State) (n : Nat) {g : Nat → Out} {c : Cause} (hu : i.f.u = true)
    (he : enabled i.sh.fpcr (g 0) = some c) :
    i.alu s n g = .trap s { cause := c, mask := if c = .divz then i.sh.em else i.sh.live } := by
  simp only [Iss.alu, hu, if_true, he]

theorem Calc.mem_trapping {sh : Sheaf} {t : Nat} :
    t ∈ c.trapping f sh ↔ t ∈ acting f sh ∧ (enabled sh.fpcr (c.out sh f t)).isSome = true :=
  List.mem_filter

/-- The mask of trapping threads that the pattern computes. -/
theorem Calc.maskOf_enabled (c : Calc) (sh : Sheaf) (hu : f.u = false) :
    (maskOf fun t => (sh.maskFor f).getLsbD t && (enabled sh.fpcr (c.out sh f t)).isSome) =
      maskOf fun t => (c.trapping f sh).contains t := by
  refine maskOf_congr fun t ht => ?_
  rw [Bool.eq_iff_iff, List.contains_iff_mem, Calc.mem_trapping]
  simp [acting, hu, mem_active, ht]

theorem Calc.active_trapping (c : Calc) (sh : Sheaf) (hu : f.u = false) :
    active (maskOf fun t => (c.trapping f sh).contains t) = c.trapping f sh := by
  rw [← c.maskOf_enabled sh hu, active_maskOf]
  simp only [Calc.trapping, acting, hu, active, List.filter_filter, Bool.false_eq_true, if_false, Bool.and_comm]

theorem Calc.filter_completing (c : Calc) (sh : Sheaf) (hu : f.u = false) :
    (active (sh.maskFor f)).filter (fun t => !(maskOf fun t => (c.trapping f sh).contains t).getLsbD t) =
      c.completing f sh := by
  rw [← c.maskOf_enabled sh hu]
  simp only [Calc.completing, acting, hu, Bool.false_eq_true, if_false]
  refine List.filter_congr fun t ht => ?_
  obtain ⟨h16, hm⟩ := mem_active.1 ht
  rw [maskOf_getLsbD _ h16, hm, Bool.true_and, Option.not_isSome]

/-- R57 steps 1, 2 and 4: in a vector instruction the completing threads take their results, and the others trap. -/
theorem Calc.alu_vector_trap (c : Calc) (s : State) (k : Nat) (sh : Sheaf) {cause : Cause} (hu : f.u = false)
    (hc : firstCause ((c.trapping f sh).filterMap fun t => enabled sh.fpcr (c.out sh f t)) = some cause) :
    (issOf c.row f k sh).alu (s.issued k sh f) (c.n f) (c.out sh f) =
      .trap (s.after k sh ((sh.issuing f).takeAll f (c.n f) (c.completing f sh) (flagged f sh) (c.out sh f)))
        { cause := cause, mask := maskOf fun t => (c.trapping f sh).contains t } := by
  have hfpcr : (issOf c.row f k sh).sh.fpcr = sh.fpcr := rfl
  have hm : (issOf c.row f k sh).m = sh.maskFor f := rfl
  have hfields : (issOf c.row f k sh).f = f := rfl
  have hk : (issOf c.row f k sh).k = k := rfl
  simp only [Iss.alu, hfields, hu, Bool.false_eq_true, if_false, hfpcr, hm, hk, c.maskOf_enabled sh hu,
    c.active_trapping sh hu, c.filter_completing sh hu, hc]
  simp only [State.issued, State.after_onSheaf, Sheaf.takeAll, flagged_vector sh hu]

/-! ### Instructions of the pattern -/

/-- An instruction that computes follows the pattern of R57: it is issued with a body that is the pattern with its own
result, and its row gives it a place for the result and the latch shift of R82. -/
structure Calc.FollowsAlu (c : Calc) (body : Fields → Iss → State → Eff) : Prop where
  exec_eq : ∀ f s, exec (c.instr f) s = issue c.row f (body f) s
  body_eq : ∀ f s k sh, Executes c.row f s k sh → body f (issOf c.row f k sh) (s.issued k sh f) =
    (issOf c.row f k sh).alu (s.issued k sh f) (c.n f) (c.out sh f)
  dest : ∀ f s k sh, Executes c.row f s k sh → c.n f = 0 ∨ (Width (c.n f) ∧ DestOk f (c.n f))
  result : ∀ f, f.u = false → c.row.result f = decide (c.n f ≠ 0)

theorem Calc.FollowsAlu.holds (h : c.FollowsAlu body) : c.Holds := fun f s k sh hx he => by
  rw [h.exec_eq]
  exact alu_computes hx (body f) (c.out sh f) (h.body_eq f s k sh hx) he (h.dest f s k sh hx) (h.result f)

/-- Where the pattern ends in a trap of an arithmetic cause, the instruction raises it. -/
theorem Calc.FollowsAlu.exec_trap (h : c.FollowsAlu body) {s : State} {k : Nat} {sh sh' : Sheaf} {cause : Cause} {m : Mask}
    (hx : Executes c.row f s k sh) (hc : cause ∈ arithCauses)
    (ht : (issOf c.row f k sh).alu (s.issued k sh f) (c.n f) (c.out sh f) =
      .trap (s.after k sh sh') { cause := cause, mask := m }) :
    exec (c.instr f) s = .next ((s.after k sh sh').raise k
      ((issOf c.row f k sh).pending { cause := cause, mask := m } false) false) := by
  rw [h.exec_eq, issue_executes hx, h.body_eq f s k sh hx, ht]
  exact congrArg _ (Iss.trap_raises (issOf c.row f k sh) (State.after_sheaf? sh' hx.sheaf) (ne_xlate_of_mem_arithCauses hc))

theorem Calc.exists_cause {sh : Sheaf} (hne : c.trapping f sh ≠ []) :
    ∃ cause, firstCause ((c.trapping f sh).filterMap fun t => enabled sh.fpcr (c.out sh f t)) = some cause := by
  obtain ⟨t, ht⟩ := List.exists_mem_of_ne_nil _ hne
  obtain ⟨e, he⟩ := Option.isSome_iff_exists.1 (Calc.mem_trapping.1 ht).2
  exact exists_firstCause (List.mem_filterMap.2 ⟨t, ht, he⟩) (enabled_mem he)

theorem Calc.FollowsAlu.traps (h : c.FollowsAlu body) : c.Traps := by
  refine fun f s k sh hx => ⟨fun hu hne => ?_, fun hu cause he => ?_⟩
  · obtain ⟨cause, hc⟩ := Calc.exists_cause hne
    refine ⟨_, cause, hc, h.exec_trap hx (firstCause_mem hc) (c.alu_vector_trap s k sh hu hc), ?_⟩
    exact takeAll_completed sh (c.out sh f) (fun t ht => mem_acting (List.mem_filter.1 ht).1)
      ((acting_nodup f sh).filter _) hu ((h.dest f s k sh hx).imp_right And.right)
  · exact h.exec_trap hx (enabled_mem he) (Iss.alu_uniform_trap _ _ _ hu he)

end

/-! ### Division (R60) -/

/-- What the divider gives is R60's quotient, and the dividend less quotient times divisor. -/
theorem divide_eq (ty : BitVec 5) (rem : Bool) (a b : Int) :
    (if b = 0 then { val := ofNum ty (if rem then a else 0), divz := true }
      else { val := ofNum ty (if rem then a.tmod b else a.tdiv b) } : Out) =
    let q := if b = 0 then 0 else a.tdiv b
    { val := wrapTo ty (if rem then a - q * b else q), divz := decide (b = 0) } := by
  by_cases hb : b = 0
  · simp [hb, ofNum_eq]
  · simp only [hb, if_false, ofNum_eq, decide_false, Int.tmod_def, Int.mul_comm b]

theorem divCalc_followsAlu {row : Row} {instr : Fields → Instr} {rem : Bool}
    (hexec : ∀ f s, exec (instr f) s = issue row f (divBody rem) s) (huses : row.uses = uses3)
    (hresult : ∀ f, row.result f = true) : (divCalc row instr rem).FollowsAlu fun _ => divBody rem where
  exec_eq := hexec
  body_eq f s k sh _ := by
    refine congrArg (Iss.alu _ _ _) (funext fun t => ?_)
    simp only [toNum_eq, divide_eq]
    rfl
  dest f s k sh hx := by
    have hd : (row.uses f).a = .dst (tyWords f.ty) := by rw [huses]; rfl
    exact .inr ⟨tyWords_width f.ty, dest_ok hx hd (tyWords_width f.ty)⟩
  result f _ := by
    have h0 : tyWords f.ty ≠ 0 := by rcases tyWords_width f.ty with h | h | h <;> omega
    exact (hresult f).trans (decide_eq_true h0).symm

theorem idiv_followsAlu : (divCalc rowIdiv .idiv false).FollowsAlu fun _ => divBody false :=
  divCalc_followsAlu (fun _ _ => rfl) rfl fun _ => rfl

theorem irem_followsAlu : (divCalc rowIrem .irem true).FollowsAlu fun _ => divBody true :=
  divCalc_followsAlu (fun _ _ => rfl) rfl fun _ => rfl

/-- Both instructions of R60 follow the pattern of R57. -/
theorem followsAlu_of_mem_divideCalcs {c : Calc} (hc : c ∈ divideCalcs) : ∃ body, c.FollowsAlu body := by
  simp only [divideCalcs, List.mem_cons, List.not_mem_nil, or_false] at hc
  obtain rfl | rfl := hc
  · exact ⟨_, idiv_followsAlu⟩
  · exact ⟨_, irem_followsAlu⟩

/-- Settles O12: IDIV and IREM follow the pattern of R57 with R60's quotient and remainder. -/
theorem divideResults : Obligations.DivideResults := by
  refine ⟨fun c hc => ?_, fun c hc => ?_⟩
  · obtain ⟨body, h⟩ := followsAlu_of_mem_divideCalcs hc
    exact h.holds
  · obtain ⟨body, h⟩ := followsAlu_of_mem_divideCalcs hc
    exact h.traps

end Sys2Proof.Machine
end

section
/-! SUPPORT. Jumps that the PC can hold (R71), and RET as one of them (R123). -/

namespace Sys2Proof.Machine
open Sys2Proof.Forms

/-- R71: no trap of a target that the PC can hold. -/
theorem Iss.pcTrap_of_onCode (i : Iss) {target : DWord} (h : onCode target) : i.pcTrap target = none := by
  obtain ⟨haligned, hlow⟩ := h
  rw [Iss.pcTrap, if_neg (Decidable.not_not.2 haligned), if_neg (Nat.not_le.2 hlow)]

/-- R71: a jump to an address the PC can hold sets the PC and nothing else. -/
theorem finish_jump_of_onCode (r : Row) (f : Fields) (s0 s : State) (k : Nat) (sh a : Sheaf) {target : DWord}
    (h : onCode target) :
    (issOf r f k sh).finish s0 (.jump (s.after k sh a) target) = s.after k sh { a with pc := target } := by
  simp only [Iss.finish, Iss.jump, Iss.pcTrap_of_onCode _ h]
  exact State.after_onSheaf s k sh a _

/-- Settles O21: RET is a jump to the value of its B pair. -/
theorem returns : Obligations.Returns := by
  intro f s k sh hx hcode
  have hexec : exec (.ret f) s = .next ((issOf rowRet f k sh).finish (s.issued k sh f)
      (.jump (s.after k sh (sh.issuing f)) (sh.read64 f f.b 0))) := issue_executes hx retBody
  rw [finish_jump_of_onCode _ _ _ _ _ _ _ hcode] at hexec
  exact ⟨hexec, State.after_peekByte s k sh _⟩

end Sys2Proof.Machine
end

section
/-! SUPPORT. The instructions of group 0x1 (R107 to R109), each by one pattern: a result without flags, from operands
no wider than the type. -/

namespace Sys2Proof.Machine
open Sys2Proof.Forms

/-! ### Rows and operands of group 0x1 -/

/-- What the rows of group 0x1 share: the types of R107, `n` result registers named by A, and a result for the latches. -/
structure LogicRow (r : Row) (n : Fields → Nat) : Prop where
  type : ∀ f, r.ok f = true → isLogic f.ty = true
  dest : ∀ f, (r.uses f).a = .dst (n f)
  width : ∀ f, Width (n f)
  result : ∀ f, r.result f = true

theorem isLogic_of_and {ty : BitVec 5} {b : Bool} (h : (isLogic ty && b) = true) : isLogic ty = true :=
  (Bool.and_eq_true_iff.1 h).1

theorem logic3_logicRow (op : BitVec 8) : LogicRow (logic3 op) fun f => tyWords f.ty :=
  ⟨fun _ => isLogic_of_and, fun _ => rfl, fun f => tyWords_width f.ty, fun _ => rfl⟩

theorem logic2_logicRow (op : BitVec 8) : LogicRow (logic2 op) fun f => tyWords f.ty :=
  ⟨fun _ => isLogic_of_and, fun _ => rfl, fun f => tyWords_width f.ty, fun _ => rfl⟩

theorem shift3_logicRow (op : BitVec 8) : LogicRow (shift3 op) fun f => tyWords f.ty :=
  ⟨fun _ => isLogic_of_and, fun _ => rfl, fun f => tyWords_width f.ty, fun _ => rfl⟩

theorem count2_logicRow (op : BitVec 8) : LogicRow (count2 op) fun _ => 1 :=
  ⟨fun _ => isLogic_of_and, fun _ => rfl, fun _ => .inl rfl, fun _ => rfl⟩

theorem rowBfi_logicRow : LogicRow rowBfi fun f => tyWords f.ty :=
  ⟨fun _ => isLogic_of_and, fun _ => rfl, fun f => tyWords_width f.ty, fun _ => rfl⟩

theorem isLogic_of_isLogic32 : ∀ ty : BitVec 5, isLogic32 ty = true → isLogic ty = true := by
  decide

theorem rowPerm_logicRow : LogicRow rowPerm fun _ => 1 :=
  ⟨fun _ h => isLogic_of_isLogic32 _ (Bool.and_eq_true_iff.1 h).1, fun _ => rfl, fun _ => .inl rfl, fun _ => rfl⟩

theorem Row.ok_of_legal {r : Row} {f : Fields} (h : r.legal f = true) : r.ok f = true := by
  simp only [Row.legal, Bool.and_eq_true] at h
  exact h.1.2

/-- The types of group 0x1 fill their registers. -/
theorem tyBits_of_isLogic : ∀ ty : BitVec 5, isLogic ty = true → tyBits ty = 32 * tyWords ty := by
  decide

/-- An operand of a type of group 0x1 is no wider than the type. -/
theorem read_lt_tyBits (sh : Sheaf) {f : Fields} (hty : isLogic f.ty = true) (fld : BitVec 7) {t : Nat} (ht : t < 16) :
    (sh.read f f.ty (tyWords f.ty) fld t).toNat < 2 ^ tyBits f.ty := by
  rw [tyBits_of_isLogic f.ty hty]
  exact read_lt sh f f.ty (tyWords_width f.ty) fld ht

/-- The type matters to no operand of one register: a literal word goes into one as it is. -/
theorem read_one_type (sh : Sheaf) (f : Fields) (ty ty' : BitVec 5) (fld : BitVec 7) (t : Nat) :
    sh.read f ty 1 fld t = sh.read f ty' 1 fld t := by
  simp only [Sheaf.read]
  split <;> rfl

/-- An operand of one register is the 32-bit operand, whatever the type. -/
theorem toNat_read_one (sh : Sheaf) (f : Fields) (ty : BitVec 5) (fld : BitVec 7) {t : Nat} (ht : t < 16) :
    (sh.read f ty 1 fld t).toNat = (sh.read32 f fld t).toNat := by
  have hlt : (sh.read f 0x10#5 1 fld t).toNat < 2 ^ 32 := read_lt sh f 0x10#5 (.inl rfl) fld ht
  rw [read_one_type sh f ty 0x10#5, Sheaf.read32, BitVec.truncate_eq_setWidth, BitVec.toNat_setWidth, Nat.mod_eq_of_lt hlt]

/-! ### The pattern -/

/-- An instruction of group 0x1 holds when its body gives each acting thread the value that the spec does. -/
theorem LogicRow.holds {c : Calc} {body : Fields → Iss → State → Eff} (val : Sheaf → Fields → Nat → Val)
    (hrow : LogicRow c.row c.n) (hexec : ∀ f s, exec (c.instr f) s = issue c.row f (body f) s)
    (hbody : ∀ f s k sh, body f (issOf c.row f k sh) s = (issOf c.row f k sh).pure s (c.n f) (val sh f))
    (hplain : ∀ sh f t, c.out sh f t = { val := (c.out sh f t).val })
    (hval : ∀ sh f, isLogic f.ty = true → ∀ t < 16, val sh f t = (c.out sh f t).val) : c.Holds := by
  intro f s k sh hx _
  have hty := hrow.type f (Row.ok_of_legal hx.legal)
  have hpure := pure_computes hx (body f) (val sh f) (hbody f _ k sh) (hrow.width f) (hrow.dest f) fun _ => hrow.result f
  rw [hexec]
  exact hpure.congr fun t ht => by rw [hval sh f hty t (acting_lt ht), ← hplain]

/-! ### Logic (R107) -/

theorem lowBits_eq (w : Nat) (x : Val) : lowBits w x = (x.setWidth w).setWidth 128 :=
  ofNat_mod_eq _ (BitVec.toNat_setWidth w x)

/-- A logic operation that gives the low bits of its result from those of its operands. -/
theorem logicBody_holds {row : Row} {instr : Fields → Instr} {g : Val → Val → Val}
    {x : (w : Nat) → BitVec w → BitVec w → BitVec w} (hrow : LogicRow row fun f => tyWords f.ty)
    (hexec : ∀ f s, exec (instr f) s = issue row f (logicBody g) s)
    (hx : ∀ w ≤ 128, ∀ a b : Val, (g a b).setWidth w = x w (a.setWidth w) (b.setWidth w)) :
    (bitCalc row instr fun f a b _ _ => (x (tyBits f.ty) a b).setWidth 128).Holds :=
  hrow.holds (c := bitCalc row instr _) (fun sh f t => lowBits (tyBits f.ty) (g (sh.opB f t) (sh.opC f t))) hexec
    (fun _ _ _ _ => rfl) (fun _ _ _ => rfl) fun sh f _ t _ =>
      (lowBits_eq _ _).trans (congrArg (BitVec.setWidth 128) (hx _ (tyBits_le f.ty) (sh.opB f t) (sh.opC f t)))

/-- R107: the logic operations. -/
theorem logicCalcs_hold : ∀ c ∈ logicCalcs, c.Holds := by
  have hnot (w : Nat) (hw : w ≤ 128) (b : Val) : (~~~b).setWidth w = ~~~(b.setWidth w) := BitVec.setWidth_not hw
  simp only [logicCalcs, List.forall_mem_cons, List.not_mem_nil, false_imp_iff, implies_true, and_true]
  refine ⟨?and, ?or, ?xor, ?andn, ?not⟩
  case and =>
    exact logicBody_holds (x := fun _ a b => a &&& b) (logic3_logicRow _) (fun _ _ => rfl) fun _ _ _ _ =>
      BitVec.setWidth_and
  case or =>
    exact logicBody_holds (x := fun _ a b => a ||| b) (logic3_logicRow _) (fun _ _ => rfl) fun _ _ _ _ =>
      BitVec.setWidth_or
  case xor =>
    exact logicBody_holds (x := fun _ a b => a ^^^ b) (logic3_logicRow _) (fun _ _ => rfl) fun _ _ _ _ =>
      BitVec.setWidth_xor
  case andn =>
    exact logicBody_holds (x := fun _ a b => a &&& ~~~b) (logic3_logicRow _) (fun _ _ => rfl) fun w hw a b => by
      rw [BitVec.setWidth_and, hnot w hw]
  case not =>
    exact logicBody_holds (x := fun _ a _ => ~~~a) (logic2_logicRow _) (fun _ _ => rfl) fun w hw a _ =>
      hnot w hw a

/-! ### Shifts, rotation, reversal and extraction (R107, R108) -/

/-- An operation on the operand and the 32-bit C whose number is that of the bit vector `x`. -/
theorem shiftBody_holds {row : Row} {instr : Fields → Instr} {g : Fields → Nat → Nat → Nat → Nat}
    {x : (f : Fields) → BitVec (tyBits f.ty) → Word → BitVec (tyBits f.ty)} (hrow : LogicRow row fun f => tyWords f.ty)
    (hexec : ∀ f s, exec (instr f) s = issue row f (shiftBody (g f)) s)
    (hx : ∀ f, ∀ a : Val, a.toNat < 2 ^ tyBits f.ty → ∀ c : Word,
      BitVec.ofNat 128 (g f (tyBits f.ty) a.toNat c.toNat % 2 ^ tyBits f.ty) = (x f (a.setWidth _) c).setWidth 128) :
    (bitCalc row instr fun f a _ _ c => (x f a c).setWidth 128).Holds :=
  hrow.holds (c := bitCalc row instr _) (fun sh f t => BitVec.ofNat 128
      (g f (tyBits f.ty) (sh.opB f t).toNat (sh.read32 f f.c t).toNat % 2 ^ tyBits f.ty)) hexec
    (fun _ _ _ _ => rfl) (fun _ _ _ => rfl) fun sh f hty t ht =>
      hx f (sh.opB f t) (read_lt_tyBits sh hty f.b ht) _

/-- R108: shifts and rotation. -/
theorem shiftCalcs_hold : ∀ c ∈ shiftCalcs, c.Holds := by
  simp only [shiftCalcs, List.forall_mem_cons, List.not_mem_nil, false_imp_iff, implies_true, and_true]
  refine ⟨?shl, ?shr, ?sar, ?rot⟩
  case shl =>
    exact shiftBody_holds (x := fun _ a c => a <<< c.toNat) (shift3_logicRow _) (fun _ _ => rfl) fun _ a _ c =>
      shl_eq a c.toNat
  case shr =>
    exact shiftBody_holds (x := fun _ a c => a >>> c.toNat) (shift3_logicRow _) (fun _ _ => rfl) fun _ a ha c =>
      shr_eq a ha c.toNat
  case sar =>
    exact shiftBody_holds (x := fun _ a c => a.sshiftRight c.toNat) (shift3_logicRow _) (fun _ _ => rfl) fun _ a ha c =>
      sar_eq a ha c.toNat
  case rot =>
    exact shiftBody_holds (x := fun _ a c => a.rotateLeft c.toNat) (shift3_logicRow _) (fun _ _ => rfl) fun f a ha c =>
      rot_eq (tyBits_pos f.ty) a ha c.toNat

theorem brev_holds : (bitCalc rowBrev .brev fun _ a _ _ _ => a.reverse.setWidth 128).Holds :=
  shiftBody_holds (x := fun _ a _ => a.reverse) (logic2_logicRow _) (fun _ _ => rfl) fun _ a ha _ => rev_eq a ha

/-- R108: the field of length and position from C, extended to the width of the type. -/
def extractField (f : Fields) (a : BitVec (tyBits f.ty)) (c : Word) : BitVec (tyBits f.ty) :=
  let x := a.extractLsb' (fieldAt c) (fieldLength (tyBits f.ty) c)
  if tySigned f.ty then x.signExtend (tyBits f.ty) else x.setWidth (tyBits f.ty)

theorem bfx_holds : (bitCalc rowBfx .bfx fun f a _ _ c => (extractField f a c).setWidth 128).Holds :=
  shiftBody_holds (g := fun f => bfxNum (tySigned f.ty)) (shift3_logicRow _) (fun _ _ => rfl) fun f a ha c =>
    bfx_eq (tySigned f.ty) a ha c

/-! ### Counts (R107) -/

/-- A count of the bits of the operand. -/
theorem countBody_holds {row : Row} {instr : Fields → Instr} {g : Nat → Nat → Nat}
    {x : (f : Fields) → BitVec (tyBits f.ty) → Val} (hrow : LogicRow row fun _ => 1)
    (hexec : ∀ f s, exec (instr f) s = issue row f (countBody g) s)
    (hx : ∀ f, ∀ a : Val, BitVec.ofNat 128 (g (tyBits f.ty) (a.toNat % 2 ^ tyBits f.ty)) = x f (a.setWidth _)) :
    (bitCalc row instr (fun f a _ _ _ => x f a) fun _ => 1).Holds :=
  hrow.holds (c := bitCalc row instr _ fun _ => 1)
    (fun sh f t => BitVec.ofNat 128 (g (tyBits f.ty) ((sh.opB f t).toNat % 2 ^ tyBits f.ty))) hexec
    (fun _ _ _ _ => rfl) (fun _ _ _ => rfl) fun sh f _ t _ => hx f (sh.opB f t)

theorem clz_holds : (bitCalc rowClz .clz (fun _ a _ _ _ => a.clz.setWidth 128) fun _ => 1).Holds :=
  countBody_holds (g := clzNum) (x := fun _ a => a.clz.setWidth 128) (count2_logicRow _) (fun _ _ => rfl) fun f a =>
    clz_eq (tyBits_pos f.ty) a

theorem popc_holds : (bitCalc rowPopc .popc (fun f a _ _ _ =>
    BitVec.ofNat 128 ((List.range (tyBits f.ty)).filter fun j => a.getLsbD j).length) fun _ => 1).Holds :=
  countBody_holds (g := fun w a => popNum a w)
    (x := fun f a => BitVec.ofNat 128 ((List.range (tyBits f.ty)).filter fun j => a.getLsbD j).length)
    (count2_logicRow _) (fun _ _ => rfl) fun _ a => congrArg (BitVec.ofNat 128) (popc_eq _ a _ (Nat.le_refl _))

/-! ### Insertion and bytes (R108, R109) -/

/-- R108: the low bits of `a` in the field that C gives, over the base `d`. -/
def insertField (f : Fields) (a d : BitVec (tyBits f.ty)) (c : Word) : BitVec (tyBits f.ty) :=
  let m := (BitVec.allOnes (fieldLength (tyBits f.ty) c)).setWidth (tyBits f.ty) <<< fieldAt c
  (d &&& ~~~m) ||| ((a <<< fieldAt c) &&& m)

theorem bfi_holds : (bitCalc rowBfi .bfi fun f a _ d c => (insertField f a d c).setWidth 128).Holds :=
  rowBfi_logicRow.holds (c := bitCalc rowBfi .bfi _) (body := fun _ => bfiBody)
    (fun sh f t => BitVec.ofNat 128
      (bfiNum (tyBits f.ty) (sh.opB f t).toNat (sh.read32 f f.c t).toNat (sh.opD f t).toNat % 2 ^ tyBits f.ty))
    (fun _ _ => rfl) (fun _ _ _ _ => rfl) (fun _ _ _ => rfl) fun sh f hty t ht =>
      bfi_eq (sh.opB f t) (sh.opD f t) (read_lt_tyBits sh hty f.b ht) (read_lt_tyBits sh hty f.d ht) _

/-- R109: the bytes that the four low nibbles of `c` select. -/
def permuted (b c d : Word) : Word :=
  pickByte b d (c.extractLsb' 12 4) ++ pickByte b d (c.extractLsb' 8 4) ++ pickByte b d (c.extractLsb' 4 4)
    ++ pickByte b d (c.extractLsb' 0 4)

theorem perm_holds : Calc.Holds
    { row := rowPerm, instr := .perm, n := fun _ => 1
      out := fun sh f t => { val := (permuted (sh.read32 f f.b t) (sh.read32 f f.c t) (sh.read32 f f.d t)).setWidth 128 } } :=
  rowPerm_logicRow.holds (c := { row := rowPerm, instr := .perm, n := fun _ => 1, out := _ }) (body := fun _ => permBody)
    (fun sh f t => BitVec.ofNat 128
      (permNum (sh.read f f.ty 1 f.b t).toNat (sh.read f f.ty 1 f.d t).toNat (sh.read32 f f.c t).toNat))
    (fun _ _ => rfl) (fun _ _ _ _ => rfl) (fun _ _ _ => rfl) fun sh f _ t ht => by
      rw [toNat_read_one sh f f.ty f.b ht, toNat_read_one sh f f.ty f.d ht, perm_eq]
      rfl

/-- R107 to R109: counts, the reversal, fields and bytes. -/
theorem bitsCalcs_hold : ∀ c ∈ bitsCalcs, c.Holds := by
  simp only [bitsCalcs, List.forall_mem_cons, List.not_mem_nil, false_imp_iff, implies_true, and_true]
  exact ⟨clz_holds, popc_holds, brev_holds, bfx_holds, bfi_holds, perm_holds⟩

/-- Settles O13: every instruction of group 0x1 follows its pattern. -/
theorem bitwiseResults : Obligations.BitwiseResults :=
  ⟨logicCalcs_hold, shiftCalcs_hold, bitsCalcs_hold⟩

end Sys2Proof.Machine
end
